-- ==== Sys2Proof/Word.lean ====
section
/-!
DEFINITION. The value types of the block: the 32-bit command word and its fields, bytes, exact real and complex values,
and a real operand as the host sends it.
-/

namespace Sys2Proof

/-- A command word `W` (spec/30 R90). -/
abbrev CmdWord := BitVec 32

/-- A byte; as an element of GF(256) its bit `i` is the coefficient of `x^i` (spec/00 R8, spec/47 R256). -/
abbrev Byte := BitVec 8

/-- The count field `n` of format N, `0 .. 2^20 - 1` (spec/30 R92). -/
abbrev Count := BitVec 20

/-- A FIR context number, the `sel` field (spec/30 R90, spec/41 R141). -/
abbrev Ctx := BitVec 4

/-- `k x`, where a kernel that evaluates the term computes the value of `x` before it goes on (`strictly_eq`): the
accumulator of a loop over many bytes is written with it, so that the model can be run on whole codewords. -/
def strictly {w : Nat} {α : Type} (x : BitVec w) (k : BitVec w → α) : α :=
  match x.toNat with
  | 0 => k 0
  | n + 1 => k (BitVec.ofNat w (n + 1))

/-- A real number (spec/00 R8), held exactly and as plain data: an expression built from the operations and functions
that the rules of spec/ use. `ExactReal.val` is the real number it stands for (notes/assumptions/1.md). The operations of
Machine/Reals.lean keep a rational result in the form `rat q`. -/
inductive ExactReal where
  /-- a rational number -/
  | rat (q : Rat)
  /-- the number pi -/
  | pi
  | add (x y : ExactReal)
  | mul (x y : ExactReal)
  | inv (x : ExactReal)
  | sqrt (x : ExactReal)
  /-- the cosine of an angle in radians -/
  | cos (x : ExactReal)
  /-- the sine of an angle in radians -/
  | sin (x : ExactReal)
  /-- the cosine of an angle of `t` turns, `cos(2 pi t)` -/
  | cosTurn (t : Rat)
deriving DecidableEq, Repr

/-- A complex value (spec/00 R8), the two parts in the order in which a `C` element carries them (spec/20 R67 (f)). -/
structure Cplx where
  re : ExactReal
  im : ExactReal
deriving DecidableEq, Repr

/-- A real operand as it arrives on `OPQ`: a finite value, or one of the values "that is not a finite number" of
spec/00 R9, which a command refuses with `BadOperands` (spec/93 U2 (a)). Registers and results are always finite. -/
inductive Num where
  | finite (x : ExactReal)
  | infinite (negative : Bool)
  | nan
deriving DecidableEq, Repr

end Sys2Proof
end

