-- ==== Sys2Proof/Config.lean ====
section
/-!
DEFINITION. What a build of the hardware fixes (spec/00 R6, second group), as plain data that State carries, so that a
statement about every state is a statement about every build; and the names of the formulas whose values a build computes
in its number format.
-/

namespace Sys2Proof

/-- The number format `NUM` (spec/00 R6, R8, R9). `reference`: each rule's value is the exact value of its formula.
`binary64`, the default of R6, and `other n`, any other format a build has: the real-valued results are a total function
of the operands and the state that the model does not know (`Config.buildValue`). -/
inductive NumFormat where
  | reference
  | binary64
  | other (n : Nat)
deriving DecidableEq, Repr

/-- The build parameters of spec/00 R6, each `OPEN` with the default of spec/92. -/
structure Build where
  /-- `NFIR`, the number of FIR contexts (92 D12). -/
  nfir : Nat
  /-- `CAP_TAPS` (92 D10). -/
  capTaps : Nat
  /-- `CAP_NFREQ` (92 D10). -/
  capNfreq : Nat
  /-- `CAP_NSYM` (92 D10). -/
  capNsym : Nat
  /-- `CAP_BPS` (92 D10). -/
  capBps : Nat
  /-- `CAP_RES` (92 D10). -/
  capRes : Nat
  /-- `CAP_WIDTH` (92 D10). -/
  capWidth : Nat
  /-- `NUM` (92 D8). -/
  num : NumFormat
deriving DecidableEq, Repr

/-- The defaults of spec/00 R6 (notes/assumptions/5.md). -/
def Build.default : Build :=
  { nfir := 2, capTaps := 1023, capNfreq := 64, capNsym := 65536, capBps := 8, capRes := 65536, capWidth := 4096,
    num := .binary64 }

/-- The real-valued formulas of the spec, one name each; where one command computes several values of a formula, what the
index of each is. -/
inductive RealOp where
  /-- `QAM.real_factor` (0) and `QAM.imag_factor` (1) (10 R26). -/
  | qamFactor
  /-- The grid coordinates of a symbol before rounding, real (0) and imaginary (1) (40 R123). -/
  | qamCoord
  /-- The parts of `CARRIER[m][k]`, `2 (m Nsym + k)` and the next (10 R25). -/
  | carrier
  /-- `BANK[jp][i]`, `2 width jp + i` (10 R27). -/
  | bankTap
  /-- The sum of `fir_step` (41 R143). -/
  | firStep
  /-- The coefficients of the biquad divided by `a0`: `b0`, `b1`, `b2`, `a1`, `a2` (41 R146). -/
  | iirCoef
  /-- The output of one step of the biquad (41 R148). -/
  | iirStep
  /-- The energy `e` of `TONE.COH` (42 R163). -/
  | cohEnergy
  /-- The real (0) and imaginary (1) part of the coherence (42 R163). -/
  | coherence
  /-- Tap `m` of `LSQ.SOLVE` (43 R176). -/
  | lsqTap
  /-- The parts of `z_m`, `2 m` and the next (44 R191). -/
  | demod
  /-- The phase product `(o - k) * resolution` (45 R207). -/
  | rsmpPhase
  /-- `RS_OFFSET + RS_FREQ` (45 R213). -/
  | rsmpOffset
  /-- The interpolator's sum (45 R213). -/
  | rsmpDot
  /-- Sample `k` of `MOD.BLOCK` (46 R242). -/
  | modBlock
  /-- Sample `k` of `MOD.PILOT` (46 R243). -/
  | modPilot
deriving DecidableEq, Repr

end Sys2Proof
end

