-- ==== Sys2Proof/Machine/Reals.lean ====
section
/-!
DEFINITION. Exact real numbers as expressions (spec/00 R8): the number an expression stands for, the operations, a
rational enclosure, and the integer part, on which every test of a rule is built (spec/00 R9, R12). Each test has the
outcome that the real number has: `ExactReal.floor_eq` and its companions of Laws/Reals.lean.
-/

namespace Sys2Proof

/-- The real number an expression stands for. It is what statements speak about; no step evaluates it. -/
noncomputable def ExactReal.val : ExactReal → ℝ
  | .rat q => (q : ℝ)
  | .pi => Real.pi
  | .add x y => x.val + y.val
  | .mul x y => x.val * y.val
  | .inv x => x.val⁻¹
  | .sqrt x => Real.sqrt x.val
  | .cos x => Real.cos x.val
  | .sin x => Real.sin x.val
  | .cosTurn t => Real.cos (2 * Real.pi * t)

/-! ## Operations -/

/-- The sum; rational numbers are added at once. -/
def ExactReal.plus : ExactReal → ExactReal → ExactReal
  | .rat a, .rat b => .rat (a + b)
  | .rat a, y => if a = 0 then y else .add (.rat a) y
  | x, .rat b => if b = 0 then x else .add x (.rat b)
  | x, y => .add x y

/-- The product; rational numbers are multiplied at once. -/
def ExactReal.times : ExactReal → ExactReal → ExactReal
  | .rat a, .rat b => .rat (a * b)
  | .rat a, y => if a = 0 then .rat 0 else if a = 1 then y else .mul (.rat a) y
  | x, .rat b => if b = 0 then .rat 0 else if b = 1 then x else .mul x (.rat b)
  | x, y => .mul x y

/-- `-x`. -/
def ExactReal.negate (x : ExactReal) : ExactReal := (ExactReal.rat (-1)).times x

/-- `x - y`; two equal expressions differ by 0. -/
def ExactReal.minus (x y : ExactReal) : ExactReal := if x = y then .rat 0 else x.plus y.negate

/-- `1 / x`. -/
def ExactReal.inverse : ExactReal → ExactReal
  | .rat q => .rat q⁻¹
  | x => .inv x

/-- `x / y`. -/
def ExactReal.over (x y : ExactReal) : ExactReal := x.times y.inverse

/-- The sum of a list, 0 when it is empty (spec/00 R10). -/
def ExactReal.sum (xs : List ExactReal) : ExactReal := xs.foldr ExactReal.plus (.rat 0)

/-- A natural number. -/
def ExactReal.nat (n : Nat) : ExactReal := .rat n

/-! ## Enclosures: the arithmetic of intervals with fixed denominators -/

/-- The number of parts of one unit, `2^192`. -/
def unitParts : Int := 2 ^ 192

/-- An interval: a number `v` with `lo <= v * 2^192 <= hi`. -/
structure Enclosure where
  lo : Int
  hi : Int
deriving DecidableEq, Repr

/-- The interval of a rational number. -/
def Enclosure.ofRat (q : Rat) : Enclosure :=
  { lo := q.num * unitParts / q.den, hi := q.num * unitParts / q.den + 1 }

/-- The interval of pi, from twenty decimal places. -/
def Enclosure.pi : Enclosure :=
  { lo := 314159265358979323846 * unitParts / 10 ^ 20, hi := 314159265358979323847 * unitParts / 10 ^ 20 + 1 }

/-- The interval of a sum. -/
def Enclosure.add (a b : Enclosure) : Enclosure := { lo := a.lo + b.lo, hi := a.hi + b.hi }

/-- The interval of a negated number. -/
def Enclosure.neg (a : Enclosure) : Enclosure := { lo := -a.hi, hi := -a.lo }

/-- The interval of a product, from the products of the ends. -/
def Enclosure.mul (a b : Enclosure) : Enclosure :=
  { lo := min (min (a.lo * b.lo) (a.lo * b.hi)) (min (a.hi * b.lo) (a.hi * b.hi)) / unitParts
    hi := max (max (a.lo * b.lo) (a.lo * b.hi)) (max (a.hi * b.lo) (a.hi * b.hi)) / unitParts + 1 }

/-- The interval of `1 / x` for a positive interval. -/
def Enclosure.invPos (a : Enclosure) : Enclosure :=
  { lo := unitParts * unitParts / a.hi, hi := unitParts * unitParts / a.lo + 1 }

/-- The interval of `1 / x`, if zero is not inside. -/
def Enclosure.inv (a : Enclosure) : Option Enclosure :=
  if 0 < a.lo then some a.invPos else if a.hi < 0 then some a.neg.invPos.neg else none

/-- The greatest natural number below `2^k` above `r` in steps of a bit whose square is at most `n`. -/
def isqrtFrom : Nat → Nat → Nat → Nat
  | 0, _, r => r
  | k + 1, n, r => if (r + 2 ^ k) * (r + 2 ^ k) ≤ n then isqrtFrom k n (r + 2 ^ k) else isqrtFrom k n r

/-- The integer square root. -/
def isqrt (n : Nat) : Nat := isqrtFrom (n.log2 / 2 + 1) n 0

/-- The interval of the square root (of 0 where the number is negative). -/
def Enclosure.sqrt (a : Enclosure) : Enclosure :=
  { lo := isqrt (a.lo * unitParts).toNat, hi := isqrt (a.hi * unitParts).toNat + 1 }

/-- The number of times an angle is halved before its cosine is taken. -/
def cosHalvings : Nat := 56

/-- The interval of the cosine of `m / 2^(192 + 56)`, an angle of at most 1: `1 - y^2/2` up to `5 y^4 / 96`. -/
def Enclosure.cosSmall (m : Int) : Enclosure :=
  let half := m ^ 2 / (2 * unitParts * 4 ^ cosHalvings)
  let slack := 5 * m ^ 4 / (96 * unitParts ^ 3 * 16 ^ cosHalvings) + 1
  { lo := unitParts - (half + 1) - slack, hi := unitParts - half + slack }

/-- The interval of `cos(2^k x)` from that of `cos x`, by `cos(2 x) = 2 cos(x)^2 - 1`. -/
def Enclosure.cosDouble : Nat → Enclosure → Enclosure
  | 0, a => a
  | k + 1, a =>
    let sq := a.mul a
    Enclosure.cosDouble k { lo := 2 * sq.lo - unitParts, hi := 2 * sq.hi - unitParts }

/-- The interval of the cosine of an interval: that of its middle, widened by half its width. -/
def Enclosure.cos (a : Enclosure) : Option Enclosure :=
  let m := (a.lo + a.hi) / 2
  let r := max (a.hi - m) (m - a.lo)
  if m.natAbs ≤ unitParts.natAbs * 2 ^ cosHalvings then
    let c := Enclosure.cosDouble cosHalvings (Enclosure.cosSmall m)
    some { lo := c.lo - r, hi := c.hi + r }
  else none

/-- The interval of half of pi. -/
def Enclosure.halfPi : Enclosure := Enclosure.mul (Enclosure.ofRat (1 / 2)) Enclosure.pi

/-- An interval that holds the number of an expression, where one is found. -/
def ExactReal.enclosure : ExactReal → Option Enclosure
  | .rat q => some (Enclosure.ofRat q)
  | .pi => some Enclosure.pi
  | .add x y =>
    match x.enclosure, y.enclosure with
    | some a, some b => some (a.add b)
    | _, _ => none
  | .mul x y =>
    match x.enclosure, y.enclosure with
    | some a, some b => some (a.mul b)
    | _, _ => none
  | .inv x =>
    match x.enclosure with
    | some a => a.inv
    | none => none
  | .sqrt x =>
    match x.enclosure with
    | some a => some a.sqrt
    | none => none
  | .cos x =>
    match x.enclosure with
    | some a => a.cos
    | none => none
  | .sin x =>
    match x.enclosure with
    | some a => (a.add Enclosure.halfPi.neg).cos
    | none => none
  | .cosTurn t => (Enclosure.mul (Enclosure.ofRat (2 * t)) Enclosure.pi).cos

/-! ## Tests -/

/-- The greatest integer that is at most the number, for the numbers on which no enclosure tells it. Its type says its
value, and that is all a proof needs; as a recursion without end it says that no computation finds it
(notes/assumptions/2.md). -/
def ExactReal.integerPart (x : ExactReal) : { n : Int // n = ⌊x.val⌋ } := x.integerPart
partial_fixpoint

/-- `floor(x)` (spec/00 R12): computed on a rational number and wherever the enclosure lies between two integers. -/
def ExactReal.floor (x : ExactReal) : Int :=
  match x with
  | .rat q => q.floor
  | x =>
    match x.enclosure with
    | some a => if a.lo / unitParts = a.hi / unitParts then a.lo / unitParts else x.integerPart.1
    | none => x.integerPart.1

/-- `x < 0`, computed on a rational number and wherever zero is outside the enclosure. -/
def ExactReal.negative (x : ExactReal) : Bool :=
  match x with
  | .rat q => decide (q < 0)
  | x =>
    match x.enclosure with
    | some a => if a.hi < 0 then true else if 0 ≤ a.lo then false else decide (x.floor < 0)
    | none => decide (x.floor < 0)

/-- `x > 0`. -/
def ExactReal.positive (x : ExactReal) : Bool := x.negate.negative

/-- `x < y`. -/
def ExactReal.lessThan (x y : ExactReal) : Bool := (x.minus y).negative

/-- `x = 0`, computed on a rational number and wherever zero is outside the enclosure. -/
def ExactReal.isZero (x : ExactReal) : Bool :=
  match x with
  | .rat q => decide (q = 0)
  | x =>
    match x.enclosure with
    | some a => if a.hi < 0 ∨ 0 < a.lo then false else decide (x.floor = 0 ∧ x.negate.floor = 0)
    | none => decide (x.floor = 0 ∧ x.negate.floor = 0)

/-- `round(x)`: the nearest integer, a tie to the even one (spec/00 R12). With `h = floor(2 x)`: an even `h` lies on the
near side of `h / 2`; an odd one is a tie exactly when `2 x` is `h` itself. -/
def ExactReal.roundEven (x : ExactReal) : Int :=
  let twice := (ExactReal.rat 2).times x
  let h := twice.floor
  let below := h / 2
  if h % 2 = 0 then below
  else if -twice.negate.floor = h then (if below % 2 = 0 then below else below + 1)
  else below + 1

end Sys2Proof
end

