-- ==== Sys2Proof/Machine/Numerics.lean ====
section
/-!
DEFINITION. The functions of the rules on exact real and complex values (spec/00 R8 to R13).
-/

namespace Sys2Proof.Machine

/-- `dot(u, v)` (R10). -/
def dot (u v : List ExactReal) : ExactReal := ExactReal.sum (List.zipWith ExactReal.times u v)

/-- `clamp(v, 0, hi)` (R12). -/
def clampIndex (v : Int) (hi : Nat) : Nat := (max 0 (min (hi : Int) v)).toNat

/-- `cos(2 pi t)` for `t` in `[0, 1/4]`, rational at the three turns where it is. -/
def cosFirstQuarter (t : Rat) : ExactReal :=
  if t = 0 then .rat 1 else if t = 1 / 6 then .rat (1 / 2) else if t = 1 / 4 then .rat 0 else .cosTurn t

/-- `cos(2 pi t)`, by the symmetries of the cosine from its first quarter. -/
def cosTurn (t : Rat) : ExactReal :=
  let f := t - t.floor
  if f ≤ 1 / 4 then cosFirstQuarter f
  else if f ≤ 1 / 2 then (cosFirstQuarter (1 / 2 - f)).negate
  else if f ≤ 3 / 4 then (cosFirstQuarter (f - 1 / 2)).negate
  else cosFirstQuarter (1 - f)

/-- `sin(2 pi t)`. -/
def sinTurn (t : Rat) : ExactReal := cosTurn (t - 1 / 4)

/-- `cos(x)` of `x` radians. -/
def cosRadians (x : ExactReal) : ExactReal := if x = .rat 0 then .rat 1 else .cos x

/-- `sin(x)` of `x` radians. -/
def sinRadians (x : ExactReal) : ExactReal := if x = .rat 0 then .rat 0 else .sin x

/-- `sqrt(x)`; the root of the square of a rational number is rational. -/
def sqrtReal (x : ExactReal) : ExactReal :=
  match x with
  | .rat q =>
    let a := isqrt q.num.natAbs
    let b := isqrt q.den
    if 0 ≤ q ∧ a * a = q.num.natAbs ∧ b * b = q.den then .rat ((a : Rat) / (b : Rat)) else .sqrt x
  | x => .sqrt x

/-- `sinc(x)` (spec/10 R27): 1 at 0, 0 at the other integers, `sin(pi x) / (pi x)` elsewhere. -/
def sinc (x : Rat) : ExactReal :=
  if x = 0 then .rat 1 else if x.den = 1 then .rat 0 else (sinTurn (x / 2)).over ((ExactReal.rat x).times .pi)

end Sys2Proof.Machine

namespace Sys2Proof

/-- The complex zero. -/
def Cplx.zero : Cplx := ⟨.rat 0, .rat 0⟩

/-- The complex sum. -/
def Cplx.add (z w : Cplx) : Cplx := ⟨z.re.plus w.re, z.im.plus w.im⟩

/-- The complex product. -/
def Cplx.mul (z w : Cplx) : Cplx :=
  ⟨(z.re.times w.re).minus (z.im.times w.im), (z.re.times w.im).plus (z.im.times w.re)⟩

/-- `conj(z)` (R8). -/
def Cplx.conj (z : Cplx) : Cplx := ⟨z.re, z.im.negate⟩

/-- A real factor times a complex value. -/
def Cplx.scale (x : ExactReal) (z : Cplx) : Cplx := ⟨x.times z.re, x.times z.im⟩

/-- The sum of a sequence of complex values (R10: 0 when it is empty). -/
def Cplx.sum (zs : List Cplx) : Cplx := zs.foldr Cplx.add Cplx.zero

/-- The complex number a pair of expressions stands for (spec/00 R8). -/
noncomputable def Cplx.val (z : Cplx) : ℂ := ⟨z.re.val, z.im.val⟩

end Sys2Proof

namespace Sys2Proof.Machine

/-- `exp(2 pi j t)` (R13). -/
def expTurn (t : Rat) : Cplx := ⟨cosTurn t, sinTurn t⟩

end Sys2Proof.Machine
end

