-- ==== Sys2Proof/Syntax.lean ====
section
/-!
DEFINITION. The 26 commands of spec/30 R95, one constructor for each row of spec/opcode_table.json.
-/

namespace Sys2Proof

/-- The registers `RSMP.WR` can write, `sel` 0 and 1 (spec/45 R216). -/
inductive WrReg where
  | freq
  | offset
deriving DecidableEq, Repr

/-- The registers `RSMP.RD` can read, `sel` 0 to 3 (spec/45 R217). -/
inductive RdReg where
  | freq
  | offset
  | index
  | eqsel
deriving DecidableEq, Repr

/-- A command (spec/30 R95), its fields in the assembler's order (R101). -/
inductive Instr where
  /-- `SYS.NOP` (49 R300) -/
  | sysNop
  /-- `SYS.CONFIG` (49 R301) -/
  | sysConfig
  /-- `SYS.RESET` (49 R302) -/
  | sysReset
  /-- `SYS.STATUS` (49 R303) -/
  | sysStatus
  /-- `QAM.MAP n` (40 R122) -/
  | qamMap (n : Count)
  /-- `QAM.DEMAP [report,] n` (40 R124) -/
  | qamDemap (report : Bool) (n : Count)
  /-- `FIR.LOAD c, n` (41 R142) -/
  | firLoad (c : Ctx) (n : Count)
  /-- `FIR.RUN c, n` (41 R143) -/
  | firRun (c : Ctx) (n : Count)
  /-- `IIR.LOAD` (41 R147) -/
  | iirLoad
  /-- `IIR.RUN n` (41 R148) -/
  | iirRun (n : Count)
  /-- `TONE.COH [pilot,] n` (42 R163) -/
  | toneCoh (pilot : Bool) (n : Count)
  /-- `LSQ.SOLVE order, lookahead` (43 R177), format L (30 R93) -/
  | lsqSolve (order lookahead : BitVec 10)
  /-- `DEMOD.BLOCK [direct]` (44 R192) -/
  | demodBlock (direct : Bool)
  /-- `RSMP.INIT` (45 R212) -/
  | rsmpInit
  /-- `RSMP.TAKE n` (45 R213) -/
  | rsmpTake (n : Count)
  /-- `RSMP.WR reg` (45 R216) -/
  | rsmpWr (reg : WrReg)
  /-- `RSMP.RD reg` (45 R217) -/
  | rsmpRd (reg : RdReg)
  /-- `RSMP.ATTACH c` (45 R218) -/
  | rsmpAttach (c : Ctx)
  /-- `RSMP.DETACH` (45 R219) -/
  | rsmpDetach
  /-- `MOD.BLOCK` (46 R242) -/
  | modBlock
  /-- `MOD.PILOT` (46 R243) -/
  | modPilot
  /-- `RSE.ENC` (47 R262) -/
  | rseEnc
  /-- `RSD.DEC ne` (47 R266) -/
  | rsdDec (ne : Count)
  /-- `CRC.RESET` (48 R293) -/
  | crcReset
  /-- `CRC.UPDATE n` (48 R294) -/
  | crcUpdate (n : Count)
  /-- `CRC.READ` (48 R295) -/
  | crcRead
deriving DecidableEq, Repr

end Sys2Proof
end

