-- ==== Sys2Proof/WellFormed.lean ====
section
/-!
DEFINITION. When a command is legal in a build. The bit fields of a constructor hold every value their encoding holds,
so one check is left: the one that spec/30 R95 places outside the mask, because it depends on `NFIR`.
-/

namespace Sys2Proof

/-- Spec/30 R97: "a context `sel >= NFIR` in `FIR.LOAD`, `FIR.RUN` or `RSMP.ATTACH`" is illegal; every other command
is legal in every build. -/
def Instr.wellFormed (nfir : Nat) : Instr → Bool
  | .firLoad c _ => decide (c.toNat < nfir)
  | .firRun c _ => decide (c.toNat < nfir)
  | .rsmpAttach c => decide (c.toNat < nfir)
  | .sysNop => true
  | .sysConfig => true
  | .sysReset => true
  | .sysStatus => true
  | .qamMap _ => true
  | .qamDemap _ _ => true
  | .iirLoad => true
  | .iirRun _ => true
  | .toneCoh _ _ => true
  | .lsqSolve _ _ => true
  | .demodBlock _ => true
  | .rsmpInit => true
  | .rsmpTake _ => true
  | .rsmpWr _ => true
  | .rsmpRd _ => true
  | .rsmpDetach => true
  | .modBlock => true
  | .modPilot => true
  | .rseEnc => true
  | .rsdDec _ => true
  | .crcReset => true
  | .crcUpdate _ => true
  | .crcRead => true

end Sys2Proof
end

