-- ==== Sys2Proof/Decode.lean ====
section
/-!
DEFINITION. The decoder and the encoder of command words, from spec/30 R90 to R97. Decoding is total on 32-bit words
and rejects an illegal word by the reason R97 gives.
-/

namespace Sys2Proof

/-- Why a word is not one of the 26 commands (spec/30 R97). The case `sel >= NFIR` depends on the build and is
`Instr.wellFormed`. -/
inductive DecodeError where
  /-- "`unit` is 12 to 15" -/
  | reservedUnit
  /-- "`op` is not one the table of rule R95 gives for that `unit`" -/
  | reservedOp
  /-- the field `sel`, marked `0`, "is not zero" -/
  | selNotZero
  /-- the field `n`, marked `0`, "is not zero" -/
  | nNotZero
  /-- "a `sel` the table limits to a bit or a register range has any other bit set" -/
  | selRange
deriving DecidableEq, Repr

/-- `W[31:28]` (R90). -/
def unitOf (w : CmdWord) : BitVec 4 := w.extractLsb' 28 4

/-- `W[27:24]` (R90). -/
def opOf (w : CmdWord) : BitVec 4 := w.extractLsb' 24 4

/-- `W[23:20]` (R90). -/
def selOf (w : CmdWord) : BitVec 4 := w.extractLsb' 20 4

/-- `W[19:0]` (R90). -/
def countOf (w : CmdWord) : Count := w.extractLsb' 0 20

/-- `W[19:10]` of format L (R90, R93). -/
def lookaheadOf (w : CmdWord) : BitVec 10 := w.extractLsb' 10 10

/-- `W[9:0]` of format L (R90, R93). -/
def orderOf (w : CmdWord) : BitVec 10 := w.extractLsb' 0 10

/-- A command whose `sel` must be zero. -/
def whenSelZero (sel : BitVec 4) (i : Instr) : Except DecodeError Instr :=
  if sel = 0 then .ok i else .error .selNotZero

/-- A command whose `n` must be zero. -/
def whenCountZero (n : Count) (i : Instr) : Except DecodeError Instr :=
  if n = 0 then .ok i else .error .nNotZero

/-- A command whose `sel` and `n` must both be zero. -/
def whenBothZero (sel : BitVec 4) (n : Count) (i : Instr) : Except DecodeError Instr :=
  if sel = 0 then whenCountZero n i else .error .selNotZero

/-- A command whose `sel` is a mode bit: 0 or 1, nothing else. -/
def withModeBit (sel : BitVec 4) (f : Bool → Except DecodeError Instr) : Except DecodeError Instr :=
  if sel = 0 then f false else if sel = 1 then f true else .error .selRange

/-- The register number of `RSMP.WR` (R95: "register 0 or 1"). -/
def wrRegOf (sel : BitVec 4) : Option WrReg :=
  if sel = 0 then some .freq else if sel = 1 then some .offset else none

/-- The register number of `RSMP.RD` (R95: "register 0 to 3"). -/
def rdRegOf (sel : BitVec 4) : Option RdReg :=
  if sel = 0 then some .freq else if sel = 1 then some .offset
  else if sel = 2 then some .index else if sel = 3 then some .eqsel else none

/-- A command whose `sel` is a register number. -/
def withReg {ρ : Type} (r : Option ρ) (f : ρ → Except DecodeError Instr) : Except DecodeError Instr :=
  match r with
  | some x => f x
  | none => .error .selRange

/-- The decoder (R94, R95, R97): `W[31:24]` selects the row, the row says which fields must be zero. -/
def decode (w : CmdWord) : Except DecodeError Instr :=
  match (unitOf w).toNat, (opOf w).toNat with
  | 0, 0 => whenBothZero (selOf w) (countOf w) .sysNop
  | 0, 1 => whenBothZero (selOf w) (countOf w) .sysConfig
  | 0, 2 => whenBothZero (selOf w) (countOf w) .sysReset
  | 0, 3 => whenBothZero (selOf w) (countOf w) .sysStatus
  | 1, 0 => whenSelZero (selOf w) (.qamMap (countOf w))
  | 1, 1 => withModeBit (selOf w) fun report => .ok (.qamDemap report (countOf w))
  | 2, 0 => .ok (.firLoad (selOf w) (countOf w))
  | 2, 1 => .ok (.firRun (selOf w) (countOf w))
  | 3, 0 => whenBothZero (selOf w) (countOf w) .iirLoad
  | 3, 1 => whenSelZero (selOf w) (.iirRun (countOf w))
  | 4, 0 => withModeBit (selOf w) fun pilot => .ok (.toneCoh pilot (countOf w))
  | 5, 0 => whenSelZero (selOf w) (.lsqSolve (orderOf w) (lookaheadOf w))
  | 6, 0 => withModeBit (selOf w) fun direct => whenCountZero (countOf w) (.demodBlock direct)
  | 7, 0 => whenBothZero (selOf w) (countOf w) .rsmpInit
  | 7, 1 => whenSelZero (selOf w) (.rsmpTake (countOf w))
  | 7, 2 => withReg (wrRegOf (selOf w)) fun reg => whenCountZero (countOf w) (.rsmpWr reg)
  | 7, 3 => withReg (rdRegOf (selOf w)) fun reg => whenCountZero (countOf w) (.rsmpRd reg)
  | 7, 4 => whenCountZero (countOf w) (.rsmpAttach (selOf w))
  | 7, 5 => whenBothZero (selOf w) (countOf w) .rsmpDetach
  | 8, 0 => whenBothZero (selOf w) (countOf w) .modBlock
  | 8, 1 => whenBothZero (selOf w) (countOf w) .modPilot
  | 9, 0 => whenBothZero (selOf w) (countOf w) .rseEnc
  | 10, 0 => whenSelZero (selOf w) (.rsdDec (countOf w))
  | 11, 0 => whenBothZero (selOf w) (countOf w) .crcReset
  | 11, 1 => whenSelZero (selOf w) (.crcUpdate (countOf w))
  | 11, 2 => whenBothZero (selOf w) (countOf w) .crcRead
  | u, _ => if u < 12 then .error .reservedOp else .error .reservedUnit

/-- A word of format N from its four fields, most significant first (R90). -/
def formatN (unit op sel : BitVec 4) (n : Count) : CmdWord := unit ++ op ++ sel ++ n

/-- A word of format L (R90, R93). -/
def formatL (unit op sel : BitVec 4) (lookahead order : BitVec 10) : CmdWord :=
  unit ++ op ++ sel ++ lookahead ++ order

/-- A mode bit as a `sel` field. -/
def selBit (b : Bool) : BitVec 4 := if b then 1 else 0

/-- The register number of `RSMP.WR` (spec/45 R216). -/
def WrReg.sel : WrReg → BitVec 4
  | .freq => 0
  | .offset => 1

/-- The register number of `RSMP.RD` (spec/45 R217). -/
def RdReg.sel : RdReg → BitVec 4
  | .freq => 0
  | .offset => 1
  | .index => 2
  | .eqsel => 3

/-- The command word of a command (R95). -/
def encode : Instr → CmdWord
  | .sysNop => formatN 0 0 0 0
  | .sysConfig => formatN 0 1 0 0
  | .sysReset => formatN 0 2 0 0
  | .sysStatus => formatN 0 3 0 0
  | .qamMap n => formatN 1 0 0 n
  | .qamDemap report n => formatN 1 1 (selBit report) n
  | .firLoad c n => formatN 2 0 c n
  | .firRun c n => formatN 2 1 c n
  | .iirLoad => formatN 3 0 0 0
  | .iirRun n => formatN 3 1 0 n
  | .toneCoh pilot n => formatN 4 0 (selBit pilot) n
  | .lsqSolve order lookahead => formatL 5 0 0 lookahead order
  | .demodBlock direct => formatN 6 0 (selBit direct) 0
  | .rsmpInit => formatN 7 0 0 0
  | .rsmpTake n => formatN 7 1 0 n
  | .rsmpWr reg => formatN 7 2 reg.sel 0
  | .rsmpRd reg => formatN 7 3 reg.sel 0
  | .rsmpAttach c => formatN 7 4 c 0
  | .rsmpDetach => formatN 7 5 0 0
  | .modBlock => formatN 8 0 0 0
  | .modPilot => formatN 8 1 0 0
  | .rseEnc => formatN 9 0 0 0
  | .rsdDec ne => formatN 10 0 0 ne
  | .crcReset => formatN 11 0 0 0
  | .crcUpdate n => formatN 11 1 0 n
  | .crcRead => formatN 11 2 0 0

/-- The instruction the decoder reads from the low 32 bits of `w`, numbered as spec/opcode_table.json numbers them. A
command has one length (R100), so a number with more bits than a command word is none (notes/assumptions/23.md). -/
def decodeTableWord (nbits w : Nat) : Option Instr :=
  if nbits ≤ 32 ∧ w < 2 ^ 32 then (decode (BitVec.ofNat 32 w)).toOption else none

end Sys2Proof
end

