-- ==== Sys2Proof/Machine/State.lean ====
section
/-!
DEFINITION. The architectural state of the block (spec/10 R20 to R34), the streams around it (spec/20 R60 to R65) and
the build parameters (spec/00 R6), all plain data; the reset state; and the reasons a step can stop.
-/

namespace Sys2Proof.Machine

/-- `MODE` (R21): a lifecycle state, no privilege level (60 R380). -/
inductive Mode where
  | unconfigured
  | ready
  | faulted
deriving DecidableEq, Repr

/-- The configuration record `CFG` (R23). The spec's `Nsym` is `nSym`, its `Nfreq` is `nFreq`, and its `nsym`, the
number of Reed-Solomon parity bytes, is `parity`. -/
structure Cfg where
  fs : Nat
  nSym : Nat
  nFreq : Nat
  mult : List Nat
  carrierIndex : Nat
  bitsPerSymbol : Nat
  symbols : List Cplx
  parity : Nat
  resolution : Nat
  width : Nat
deriving DecidableEq, Repr

/-- The demapper's fitted table `QAM` (R26); `table[i][j]` holds a constellation point and its index. -/
structure QamTable where
  bias : Cplx
  realFactor : ExactReal
  imagFactor : ExactReal
  realMax : Nat
  imagMax : Nat
  table : List (List (Cplx × Nat))
deriving DecidableEq, Repr

/-- One FIR context `FIR[c]` (R30): `ntaps = 0` is "not loaded"; `hist[0]` is the most recent input. -/
structure FirCtx where
  ntaps : Nat
  h : List ExactReal
  hist : List ExactReal
deriving DecidableEq, Repr

/-- The biquad registers `IIR` (R31): `xh[i]` is `xhi`, `yh[i]` is `yhi`, the most recent value first. -/
structure Biquad where
  loaded : Bool
  b0 : ExactReal
  b1 : ExactReal
  b2 : ExactReal
  a1 : ExactReal
  a2 : ExactReal
  xh0 : ExactReal
  xh1 : ExactReal
  xh2 : ExactReal
  yh0 : ExactReal
  yh1 : ExactReal
deriving DecidableEq, Repr

/-- The resampler's registers `RS_*` (R32, R33); `buff` holds the oldest sample first. -/
structure Sampler where
  created : Bool
  buff : List ExactReal
  pad : Nat
  index : Nat
  offset : ExactReal
  freq : ExactReal
  eqsel : Option Ctx
  eof : Bool
deriving DecidableEq, Repr

/-- An element of `OPQ` or `RESQ` (20 R61): each carries its type. -/
inductive Elem where
  | nat (v : Nat)
  | bit (v : Bool)
  | u8 (v : Byte)
  | r (v : Num)
  | c (re im : Num)
deriving DecidableEq, Repr

/-- A command as the host issues it: the word and its whole operand list (20 R62; 10 R37). -/
structure Command where
  word : CmdWord
  operands : List Elem
deriving DecidableEq, Repr

/-- A completion record (20 R65). -/
structure Completion where
  code : Byte
  eos : Bool
  count : Nat
deriving DecidableEq, Repr

/-- The whole machine state. -/
structure State where
  /-- the build parameters (00 R6); no command writes them -/
  build : Build
  /-- `MODE` (R21) -/
  mode : Mode
  /-- `FAULT` (R22) -/
  fault : Byte
  /-- `FAULT_INFO` (R22) -/
  faultInfo : Nat
  /-- `CFG` (R23) -/
  cfg : Cfg
  /-- `CARRIER[m][k]` (R25) -/
  carrier : List (List Cplx)
  /-- `QAM` (R26) -/
  qam : QamTable
  /-- `BANK[jp][i]` (R27) -/
  bank : List (List ExactReal)
  /-- `RS_GEN`, highest degree first (R28) -/
  rsGen : List Byte
  /-- `FIR[c]` (R30), one slot for each value of `sel`; a build has the first `NFIR` of them (notes/assumptions/12.md) -/
  fir : Vector FirCtx 16
  /-- `IIR` (R31) -/
  iir : Biquad
  /-- `RS_*` (R32, R33) -/
  rs : Sampler
  /-- `CRC_REG` (R34) -/
  crcReg : BitVec 32
  /-- `CMDQ`, oldest first (20 R60) -/
  cmdq : List Command
  /-- `OPQ`, head first (20 R62) -/
  opq : List Elem
  /-- `RESQ`, oldest first, what the host has not read (20 R63) -/
  resq : List Elem
  /-- `SRC`, the samples not yet pulled; the end of the list is the end of the stream (20 R64) -/
  src : List ExactReal
  /-- the `EOF` latch of `SRC` (20 R64, 70 R391) -/
  srcEof : Bool
  /-- the completion records emitted, oldest first (20 R65) -/
  completions : List Completion
deriving DecidableEq, Repr

/-- A stop of the model by a fault. There is none: every fault of the spec (60 R360) is a NEXT state, entered as 60
R365 says, so nobody raises one, and that is safe (notes/assumptions/17.md). -/
inductive Fault
deriving DecidableEq, Repr

/-- A stop of the model without a meaning. -/
inductive Refusal where
  /-- Raised by an arm of `exec` whose instruction has no meaning yet; safe. No arm is of this kind now. -/
  | notModelled (mnemonic : String)
  /-- Raised by a command that has computed real values in a state whose `NUM` is a format (never in the reference
  semantics) when something it has computed leaves the range of `NUM`: spec/93 U2 (b), "Treatment: refuse". Safe: the model stops where
  the block goes on without a meaning (notes/assumptions/4.md). -/
  | outOfNumRange
deriving DecidableEq, Repr

/-- `FIR[c]` of a context that is not loaded (R42). -/
def FirCtx.unloaded : FirCtx := { ntaps := 0, h := [], hist := [] }

/-- The state after power-on reset (R42; 70 R390, R391). The registers to which R42 gives no value hold zero or the
empty list: DESIGN CHOICE, notes/assumptions/10.md. -/
def State.reset : State where
  build := Build.default
  mode := .unconfigured
  fault := 0
  faultInfo := 0
  cfg := { fs := 0, nSym := 0, nFreq := 0, mult := [], carrierIndex := 0, bitsPerSymbol := 0, symbols := [],
           parity := 0, resolution := 0, width := 0 }
  carrier := []
  qam := { bias := ⟨.rat 0, .rat 0⟩, realFactor := .rat 0, imagFactor := .rat 0, realMax := 0, imagMax := 0, table := [] }
  bank := []
  rsGen := []
  fir := Vector.replicate 16 FirCtx.unloaded
  iir := { loaded := false, b0 := .rat 0, b1 := .rat 0, b2 := .rat 0, a1 := .rat 0, a2 := .rat 0,
           xh0 := .rat 0, xh1 := .rat 0, xh2 := .rat 0, yh0 := .rat 0, yh1 := .rat 0 }
  rs := { created := false, buff := [], pad := 0, index := 0, offset := .rat 0, freq := .rat 0, eqsel := none,
          eof := false }
  crcReg := 0xFFFFFFFF
  cmdq := []
  opq := []
  resq := []
  src := []
  srcEof := false
  completions := []

end Sys2Proof.Machine
end

