-- ==== Sys2Proof/Machine/Flags.lean ====
section
/-!
DEFINITION. The block's status: the codes of modes and faults (spec/10 R21, spec/60 R361), the status word (spec/10
R39) and the mode check (spec/30 R99). The block has no arithmetic flags (spec/10 R38).
-/

namespace Sys2Proof.Machine

/-- The encoding of `MODE` (R21). -/
def Mode.code : Mode → Nat
  | .unconfigured => 0
  | .ready => 1
  | .faulted => 2

/-- The faults a command can raise (60 R361). -/
inductive FaultKind where
  | illegalCommand
  | badOperands
  | modeError
  | configError
  | notLoaded
  | notCreated
  | contextBusy
  | badCoefficient
  | eccUnrecoverable
deriving DecidableEq, Repr

/-- The code of a fault, as it stands in `FAULT` and in the completion record (60 R361). -/
def FaultKind.code : FaultKind → Byte
  | .illegalCommand => 1
  | .badOperands => 2
  | .modeError => 3
  | .configError => 5
  | .notLoaded => 6
  | .notCreated => 7
  | .contextBusy => 8
  | .badCoefficient => 9
  | .eccUnrecoverable => 10

/-- The code 0 of a completion record: success (60 R361). -/
def successCode : Byte := 0

/-- The code `Faulted`, which "appears in completion records only" (60 R361, R368). -/
def faultedCode : Byte := 4

/-- `raise <Fault>(info)` (00 R14). -/
structure Raise where
  kind : FaultKind
  info : Nat
deriving DecidableEq, Repr

/-- The first `NAT` of `SYS.STATUS` (R39, 49 R303). -/
def statusWord (s : State) : Nat :=
  s.mode.code + 4 * s.rs.eof.toNat + 8 * s.rs.created.toNat + 16 * s.iir.loaded.toNat + 256 * s.fault.toNat

/-- The commands that run without a configuration: `SYS.*`, `FIR.*`, `IIR.*`, `LSQ.SOLVE`, `CRC.*` and `TONE.COH`
with `pilot = 0` (30 R99). -/
def runsUnconfigured : Instr → Bool
  | .sysNop => true
  | .sysConfig => true
  | .sysReset => true
  | .sysStatus => true
  | .qamMap _ => false
  | .qamDemap _ _ => false
  | .firLoad _ _ => true
  | .firRun _ _ => true
  | .iirLoad => true
  | .iirRun _ => true
  | .toneCoh pilot _ => !pilot
  | .lsqSolve _ _ => true
  | .demodBlock _ => false
  | .rsmpInit => false
  | .rsmpTake _ => false
  | .rsmpWr _ => false
  | .rsmpRd _ => false
  | .rsmpAttach _ => false
  | .rsmpDetach => false
  | .modBlock => false
  | .modPilot => false
  | .rseEnc => false
  | .rsdDec _ => false
  | .crcReset => true
  | .crcUpdate _ => true
  | .crcRead => true

/-- The table of 30 R99: whether a legal command runs in a mode. -/
def modeAllows (i : Instr) : Mode → Bool
  | .unconfigured => runsUnconfigured i
  | .ready => decide (i ≠ .sysConfig)
  | .faulted => decide (i = .sysStatus) || decide (i = .sysReset)

end Sys2Proof.Machine
end

