-- ==== Sys2Proof/Machine/Operands.lean ====
section
/-!
DEFINITION. The operand forms: `pop(OPQ, T)` for each element type (spec/20 R61, R62) over a cursor that knows the
position in the operand list, because a bad list is reported by the index of its first offending element (spec/60
R362, R366).
-/

namespace Sys2Proof

/-- The value of a real that is finite (93 U2 (a)). -/
def Num.toFinite : Num → Option ExactReal
  | .finite x => some x
  | .infinite _ => none
  | .nan => none

end Sys2Proof

namespace Sys2Proof.Machine

/-- What is left of a command's operand list, and how many elements have been popped. -/
structure Cursor where
  pos : Nat
  rest : List Elem
deriving DecidableEq, Repr

/-- The cursor at the start of an operand list. -/
def Cursor.start (ops : List Elem) : Cursor := { pos := 0, rest := ops }

/-- `raise BadOperands(info)`. -/
def badOperands (info : Nat) : Raise := { kind := .badOperands, info := info }

/-- The value of a `NAT` element. -/
def Elem.asNat : Elem → Option Nat
  | .nat v => some v
  | .bit _ => none
  | .u8 _ => none
  | .r _ => none
  | .c _ _ => none

/-- The value of a `BIT` element. -/
def Elem.asBit : Elem → Option Bool
  | .nat _ => none
  | .bit v => some v
  | .u8 _ => none
  | .r _ => none
  | .c _ _ => none

/-- The value of a `U8` element. -/
def Elem.asByte : Elem → Option Byte
  | .nat _ => none
  | .bit _ => none
  | .u8 v => some v
  | .r _ => none
  | .c _ _ => none

/-- The value of an `R` element, finite or refused (R361, 93 U2 (a)). -/
def Elem.asReal : Elem → Option ExactReal
  | .nat _ => none
  | .bit _ => none
  | .u8 _ => none
  | .r v => v.toFinite
  | .c _ _ => none

/-- The value of a `C` element, both parts finite or refused (R361, 93 U2 (a)). -/
def Elem.asCplx : Elem → Option Cplx
  | .nat _ => none
  | .bit _ => none
  | .u8 _ => none
  | .r _ => none
  | .c (.finite re) (.finite im) => some ⟨re, im⟩
  | .c _ _ => none

/-- A result element of type `R`. -/
def Elem.real (x : ExactReal) : Elem := .r (.finite x)

/-- A result element of type `C`. -/
def Elem.cplx (z : Cplx) : Elem := .c (.finite z.re) (.finite z.im)

/-- `pop(OPQ, T)`: the head's value; a missing, wrong-typed or non-finite element is `BadOperands` at its index. -/
def popAs {α : Type} (read : Elem → Option α) (c : Cursor) : Except Raise (α × Cursor) :=
  match c.rest with
  | [] => .error (badOperands c.pos)
  | e :: rest =>
    match read e with
    | none => .error (badOperands c.pos)
    | some a => .ok (a, { pos := c.pos + 1, rest := rest })

/-- `n` pops of one type, in order. -/
def popMany {α : Type} (read : Elem → Option α) : Nat → Cursor → Except Raise (List α × Cursor)
  | 0, c => .ok ([], c)
  | n + 1, c =>
    match popAs read c with
    | .error e => .error e
    | .ok (a, c') =>
      match popMany read n c' with
      | .error e => .error e
      | .ok (as, c'') => .ok (a :: as, c'')

/-- Step (6) of R366: no operand is left over. -/
def noneLeft (c : Cursor) : Except Raise Unit :=
  match c.rest with
  | [] => .ok ()
  | _ :: _ => .error (badOperands c.pos)

/-- A check of a rule's pseudocode: raise when the condition holds. -/
def raiseIf (bad : Prop) [Decidable bad] (kind : FaultKind) (info : Nat) : Except Raise Unit :=
  if bad then .error { kind := kind, info := info } else .ok ()

end Sys2Proof.Machine
end

