-- ==== Sys2Proof/Machine/Ops.lean ====
section
/-!
DEFINITION. The named operations every command uses: completing, entering a fault (spec/60 R365), the order of the
checks (spec/60 R366), the streams (spec/20 R62 to R65) and the FIR contexts.
-/

namespace Sys2Proof.Machine

/-- A command and the state it starts from, with its operand list in `OPQ`: what the real-valued results of a build are a
function of (00 R9: "a total function of the operands and the state"). A command that works through samples or symbols one
by one is taken as that many commands of count 1, each on the registers the one before left (40 R125, 41 R143, R144). -/
structure Calc where
  instr : Instr
  start : State
deriving DecidableEq, Repr

end Sys2Proof.Machine

namespace Sys2Proof

/-- FREE VALUE (notes/assumptions/3.md): the value with index `k` that a build in format `num` computes for formula `op`
in a command. -/
opaque Config.buildValue : NumFormat → Machine.Calc → RealOp → Nat → Rat

/-- FREE VALUE (notes/assumptions/4.md): whether a build in format `num` leaves its range in what it computes for a
command, where the spec gives no meaning to what follows (spec/93 U2 (b)). -/
opaque Config.leavesRange : NumFormat → Machine.Calc → Bool

end Sys2Proof

namespace Sys2Proof.Machine

/-- The registers of the block, with an operand list: what a command reads. What the other streams hold is no state of the
block (10 R20, R35). -/
def State.still (s : State) (operands : List Elem) : State :=
  { s with cmdq := [], opq := operands, resq := [], src := [], srcEof := false, completions := [] }

/-- `CFG` and its tables alone, with an operand list: all that a command of a unit without registers reads (10 R20: "each
of their commands is a pure function of its operands and `CFG`"). -/
def State.tables (s : State) (operands : List Elem) : State :=
  { State.reset with
    build := s.build, cfg := s.cfg, carrier := s.carrier, qam := s.qam, bank := s.bank, rsGen := s.rsGen,
    opq := operands }

/-- What the results of a command of a unit without registers are computed from (10 R20). -/
def tablesCalc (i : Instr) (s : State) : Calc := ⟨i, s.tables s.opq⟩

/-- The number format of the build. -/
def Calc.num (c : Calc) : NumFormat := c.start.build.num

/-- A build's value of formula `op` with index `k`. Its `RS_OFFSET` is never negative (45 R216;
notes/assumptions/19.md). -/
def Calc.built (c : Calc) (op : RealOp) (k : Nat) : Rat :=
  if op = .rsmpOffset then |Config.buildValue c.num c op k| else Config.buildValue c.num c op k

/-- The value of formula `op` with index `k` (the constructors of `RealOp` say which): its exact value in the reference
semantics, a free value in a build (00 R9). -/
def numValue (c : Calc) (op : RealOp) (k : Nat) (exact : ExactReal) : ExactReal :=
  match c.num with
  | .reference => exact
  | .binary64 => .rat (c.built op k)
  | .other _ => .rat (c.built op k)

/-- Whether what is computed leaves the range of `NUM`; never in the reference semantics (93 U2 (b)). -/
def Calc.leavesRange (c : Calc) : Bool :=
  match c.num with
  | .reference => false
  | .binary64 => Config.leavesRange .binary64 c
  | .other n => Config.leavesRange (.other n) c

/-- `push`es in order and `complete(code, eos, count)` (20 R63, R65). -/
def State.complete (s : State) (results : List Elem) (code : Byte) (eos : Bool) (count : Nat) : State :=
  { s with resq := s.resq ++ results, completions := s.completions ++ [⟨code, eos, count⟩] }

/-- FAULT ENTRY (60 R365), from the state before the command: nothing is changed or pushed, `OPQ` stays as it is, then
`FAULT`, `FAULT_INFO` and `MODE` are written and the record `(code, 0, 0)` is emitted. The only return is reset
(60 R369), `State.resetRegisters`. -/
def State.enterFault (s : State) (e : Raise) : State :=
  { s with fault := e.kind.code, faultInfo := e.info, mode := .faulted }.complete [] e.kind.code false 0

/-- A command refused in `FAULTED` (60 R368): the record `(4, 0, 0)` and nothing else. -/
def State.completeFaulted (s : State) : State := s.complete [] faultedCode false 0

/-- RESET by `SYS.RESET` (49 R302; 70 R390, R391): every register takes its reset value, `OPQ` is emptied and the
`EOF` latch cleared; `CMDQ`, `RESQ`, `SRC` and what has been emitted stay, and so do the build parameters. -/
def State.resetRegisters (s : State) : State :=
  { State.reset with
    build := s.build, cmdq := s.cmdq, resq := s.resq, src := s.src, completions := s.completions }

/-- POWER-ON RESET of a running block (70 R390, R391; 10 R42): every register takes its reset value and `CMDQ`, `OPQ`
and `RESQ` are emptied; what the host has not yet handed over on `SRC` stays at its head ("no stream is drained"), as do
the records already emitted and the build parameters (notes/assumptions/24.md). It is an act from outside, no step. -/
def State.powerOn (s : State) : State :=
  { State.reset with build := s.build, src := s.src, completions := s.completions }

/-- What a command that does not fault does: the registers it leaves, the elements it pushes and its record; and what its
real values have been computed from, which alone can have left the range of `NUM` (93 U2 (b)). -/
structure Done where
  state : State
  results : List Elem
  eos : Bool
  count : Nat
  calcs : List Calc
deriving DecidableEq, Repr

/-- `complete(0, 0, count)` of a command that computes no real value. -/
def Done.pure (s : State) (results : List Elem) (count : Nat) : Done :=
  { state := s, results := results, eos := false, count := count, calcs := [] }

/-- `complete(0, 0, count)` of a command whose real values are computed from `calcs`. -/
def Done.reals (calcs : List Calc) (s : State) (results : List Elem) (count : Nat) : Done :=
  { state := s, results := results, eos := false, count := count, calcs := calcs }

/-- The end of a command that did not fault: its operands have left `OPQ` (20 R62). In `FAULTED`, where only
`SYS.STATUS` ends so, `OPQ` stays as it is (49 R303; notes/assumptions/20.md). -/
def Done.commit (d : Done) : State :=
  { d.state with opq := if d.state.mode = Mode.faulted then d.state.opq else [] }.complete
    d.results successCode d.eos d.count

/-- The order of checks of 60 R366 around a command's pseudocode `body`: (1) `FAULTED`, (2) legality, (3) mode, then
the body (4, 5, 6) on the operand list in `OPQ`. The body runs on a copy of the state, so a fault discards what it did
(60 R365). Where something it has computed leaves the range of `NUM`, the command is refused (93 U2 (b)). -/
def runCommand (i : Instr) (s : State) (body : Except Raise Done) :
    Host.Outcome State Fault Refusal :=
  if s.mode = .faulted ∧ modeAllows i .faulted = false then .next s.completeFaulted
  else if i.wellFormed s.build.nfir = false then
    .next (s.enterFault { kind := .illegalCommand, info := (encode i).toNat })
  else if modeAllows i s.mode = false then
    .next (s.enterFault { kind := .modeError, info := (encode i).toNat })
  else
    match body with
    | .error e => .next (s.enterFault e)
    | .ok d => if d.calcs.any Calc.leavesRange then .refused .outOfNumRange else .next d.commit

/-- Step (4) of R366, for a command whose rule lists no operands. -/
def noOperands (s : State) : Except Raise Unit := noneLeft (Cursor.start s.opq)

/-- A word that is none of the 26 commands (30 R97; in `FAULTED` the mode is looked at first, 30 R99). -/
def illegalWord (w : CmdWord) (s : State) : Host.Outcome State Fault Refusal :=
  if s.mode = .faulted then .next s.completeFaulted
  else .next (s.enterFault { kind := .illegalCommand, info := w.toNat })

/-- Taking a command from `CMDQ`: its operands arrive in `OPQ` behind what is stranded there (30 R91; 60 R365, R368;
notes/assumptions/6.md). -/
def State.accept (s : State) (cmd : Command) (rest : List Command) : State :=
  { s with cmdq := rest, opq := s.opq ++ cmd.operands }

/-- The host issues a command (host's act, 20 R60). -/
def State.issue (s : State) (w : CmdWord) (operands : List Elem) : State :=
  { s with cmdq := s.cmdq ++ [⟨w, operands⟩] }

/-- A command with an empty operand list at the head of `CMDQ`. -/
def State.issueFirst (s : State) (w : CmdWord) : State := { s with cmdq := ⟨w, []⟩ :: s.cmdq }

/-- `FIR[c]`. -/
def State.firCtx (s : State) (c : Ctx) : FirCtx := s.fir[c.toNat]'(by have := c.isLt; omega)

/-- `FIR[c] <- x`. -/
def State.setFirCtx (s : State) (c : Ctx) (x : FirCtx) : State :=
  { s with fir := s.fir.set c.toNat x (by have := c.isLt; omega) }

/-- Whether the context is the resampler's post-equalizer (41 R141). -/
def State.attached (s : State) (c : Ctx) : Bool := s.rs.created && decide (s.rs.eqsel = some c)

/-- `pull(SRC)` (20 R64): the head sample, or `EOF`, which stays `EOF` until reset. -/
def State.pull (s : State) : Option ExactReal × State :=
  if s.srcEof then (none, s)
  else
    match s.src with
    | [] => (none, { s with srcEof := true })
    | v :: rest => (some v, { s with src := rest })

end Sys2Proof.Machine
end

