-- ==== Sys2Proof/Machine/Crc.lean ====
section
/-!
DEFINITION. crc32_generator: `CRC.RESET`, `CRC.UPDATE`, `CRC.READ` (spec/48).
-/

namespace Sys2Proof.Machine

/-- One bit of the reflected CRC-32 (R292). -/
def crcBit (reg : BitVec 32) : BitVec 32 :=
  if reg.getLsbD 0 then (reg >>> 1) ^^^ 0xEDB88320 else reg >>> 1

/-- `k` bits. -/
def crcBits : Nat → BitVec 32 → BitVec 32
  | 0, reg => reg
  | k + 1, reg => strictly (crcBit reg) fun reg' => crcBits k reg'

/-- One byte: it enters the low 8 bits, then eight bits are worked off (R292). -/
def crcByte (reg : BitVec 32) (d : Byte) : BitVec 32 := crcBits 8 (reg ^^^ d.zeroExtend 32)

/-- The bytes of a message, in order (R292, R294). -/
def crcBytes (reg : BitVec 32) : List Byte → BitVec 32
  | [] => reg
  | d :: ds => strictly (crcByte reg d) fun reg' => crcBytes reg' ds

/-- `CRC.RESET` (R293). -/
def execCrcReset (s : State) : Host.Outcome State Fault Refusal :=
  runCommand .crcReset s do
    noOperands s
    .ok (Done.pure { s with crcReg := 0xFFFFFFFF } [] 0)

/-- `CRC.UPDATE n` (R294). -/
def execCrcUpdate (n : Count) (s : State) : Host.Outcome State Fault Refusal :=
  runCommand (.crcUpdate n) s do
    let (bytes, c) ← popMany Elem.asByte n.toNat (Cursor.start s.opq)
    noneLeft c
    .ok (Done.pure { s with crcReg := crcBytes s.crcReg bytes } [] 0)

/-- `be32(v)`: the four bytes, most significant first (00 R11). -/
def be32 (v : BitVec 32) : List Byte :=
  [v.extractLsb' 24 8, v.extractLsb' 16 8, v.extractLsb' 8 8, v.extractLsb' 0 8]

/-- `CRC.READ` (R295): the inverted register, which it leaves as it is. -/
def execCrcRead (s : State) : Host.Outcome State Fault Refusal :=
  runCommand .crcRead s do
    noOperands s
    .ok (Done.pure s ((be32 (s.crcReg ^^^ 0xFFFFFFFF)).map Elem.u8) 4)

end Sys2Proof.Machine
end

