-- ==== Sys2Proof/Machine/Filters.lean ====
section
/-!
DEFINITION. fir_filter and iir_biquad: `FIR.LOAD`, `FIR.RUN`, `IIR.LOAD`, `IIR.RUN` (spec/41).
-/

namespace Sys2Proof.Machine

/-- The context after `FIR.LOAD`: the taps, and a history of zeros (R142). -/
def FirCtx.load (taps : List ExactReal) : FirCtx :=
  { ntaps := taps.length, h := taps, hist := List.replicate taps.length (.rat 0) }

/-- What the output of `fir_step(c, v)` is computed from in a build: the sample and the registers. -/
def firCalc (c : Ctx) (v : ExactReal) (s : State) : Calc := ⟨.firRun c 1, s.still [Elem.real v]⟩

/-- `fir_step(c, v)` (R143): the sample enters the history, the output is the sum of taps times history. -/
def firStep (c : Ctx) (v : ExactReal) (s : State) : ExactReal × State :=
  let x := s.firCtx c
  let hist := (v :: x.hist).take x.ntaps
  (numValue (firCalc c v s) .firStep 0 (dot x.h hist), s.setFirCtx c { x with hist := hist })

/-- A filter over a block of samples: one step and one output a sample, in order (R143, R148). -/
def runSteps (step : ExactReal → State → ExactReal × State) : List ExactReal → State → List ExactReal × State
  | [], s => ([], s)
  | v :: vs, s =>
    let first := step v s
    let rest := runSteps step vs first.2
    (first.1 :: rest.1, rest.2)

/-- What the outputs of a filter over a block are computed from, one a sample. -/
def stepCalcs (f : ExactReal → State → Calc) (step : ExactReal → State → ExactReal × State) :
    List ExactReal → State → List Calc
  | [], _ => []
  | v :: vs, s => f v s :: stepCalcs f step vs (step v s).2

/-- `FIR.LOAD c, n` (R142). -/
def execFirLoad (c : Ctx) (n : Count) (s : State) : Host.Outcome State Fault Refusal :=
  runCommand (.firLoad c n) s do
    raiseIf (n.toNat = 0 ∨ s.build.capTaps < n.toNat) .badOperands n.toNat
    raiseIf (s.attached c = true) .contextBusy c.toNat
    let (taps, k) ← popMany Elem.asReal n.toNat (Cursor.start s.opq)
    noneLeft k
    .ok (Done.pure (s.setFirCtx c (FirCtx.load taps)) [] 0)

/-- `FIR.RUN c, n` (R143). -/
def execFirRun (c : Ctx) (n : Count) (s : State) : Host.Outcome State Fault Refusal :=
  runCommand (.firRun c n) s do
    raiseIf ((s.firCtx c).ntaps = 0) .notLoaded c.toNat
    raiseIf (s.attached c = true) .contextBusy c.toNat
    let (xs, k) ← popMany Elem.asReal n.toNat (Cursor.start s.opq)
    noneLeft k
    let r := runSteps (firStep c) xs s
    .ok (Done.reals (stepCalcs (firCalc c) (firStep c) xs s) r.2 (r.1.map Elem.real) n.toNat)

/-- Coefficient `k` over `a0`, as a build stores it (R146). -/
def iirCoef (c : Calc) (k : Nat) (b a0 : ExactReal) : ExactReal := numValue c .iirCoef k (b.over a0)

/-- The biquad after `IIR.LOAD` (R147): normalised coefficients, both histories zero. -/
def Biquad.load (c : Calc) (b0 b1 b2 a0 a1 a2 : ExactReal) : Biquad :=
  { loaded := true
    b0 := iirCoef c 0 b0 a0, b1 := iirCoef c 1 b1 a0, b2 := iirCoef c 2 b2 a0
    a1 := iirCoef c 3 a1 a0, a2 := iirCoef c 4 a2 a0
    xh0 := .rat 0, xh1 := .rat 0, xh2 := .rat 0, yh0 := .rat 0, yh1 := .rat 0 }

/-- The exact output `u` of one step of the biquad, on the input histories after the new sample (R148). -/
def Biquad.output (q : Biquad) (x0 x1 x2 : ExactReal) : ExactReal :=
  (((q.b0.times x0).plus (q.b1.times x1)).plus (q.b2.times x2)).minus ((q.a1.times q.yh0).plus (q.a2.times q.yh1))

/-- The biquad after a sample `v` with output `u` (R148). -/
def Biquad.shift (q : Biquad) (v u : ExactReal) : Biquad :=
  { q with xh0 := v, xh1 := q.xh0, xh2 := q.xh1, yh0 := u, yh1 := q.yh0 }

/-- What the output of one step of the biquad is computed from in a build: the sample and the registers. -/
def iirCalc (v : ExactReal) (s : State) : Calc := ⟨.iirRun 1, s.still [Elem.real v]⟩

/-- One sample through the biquad (R148). -/
def iirStep (v : ExactReal) (s : State) : ExactReal × State :=
  let u := numValue (iirCalc v s) .iirStep 0 (s.iir.output v s.iir.xh0 s.iir.xh1)
  (u, { s with iir := s.iir.shift v u })

/-- What the stored coefficients are computed from in a build: the operands, and the registers. -/
def iirLoadCalc (s : State) : Calc := ⟨.iirLoad, s.still s.opq⟩

/-- `IIR.LOAD` (R147). -/
def execIirLoad (s : State) : Host.Outcome State Fault Refusal :=
  runCommand .iirLoad s do
    let (b0, k) ← popAs Elem.asReal (Cursor.start s.opq)
    let (b1, k) ← popAs Elem.asReal k
    let (b2, k) ← popAs Elem.asReal k
    let (a0, k) ← popAs Elem.asReal k
    let (a1, k) ← popAs Elem.asReal k
    let (a2, k) ← popAs Elem.asReal k
    raiseIf (a0.isZero = true) .badCoefficient 0
    noneLeft k
    .ok (Done.reals [iirLoadCalc s] { s with iir := Biquad.load (iirLoadCalc s) b0 b1 b2 a0 a1 a2 } [] 0)

/-- `IIR.RUN n` (R148). -/
def execIirRun (n : Count) (s : State) : Host.Outcome State Fault Refusal :=
  runCommand (.iirRun n) s do
    raiseIf (s.iir.loaded = false) .notLoaded 0xFF
    let (xs, k) ← popMany Elem.asReal n.toNat (Cursor.start s.opq)
    noneLeft k
    let r := runSteps iirStep xs s
    .ok (Done.reals (stepCalcs iirCalc iirStep xs s) r.2 (r.1.map Elem.real) n.toNat)

end Sys2Proof.Machine
end

