-- ==== Sys2Proof/Machine/Resampler.lean ====
section
/-!
DEFINITION. polyphase_resampler: `RSMP.INIT`, `RSMP.TAKE`, `RSMP.WR`, `RSMP.RD`, `RSMP.ATTACH`, `RSMP.DETACH`
(spec/45), and the procedure `take` that `DEMOD.BLOCK` uses too.
-/

namespace Sys2Proof.Machine

/-- The check "`if RS_CREATED = 0: raise NotCreated(0)`". -/
def needSampler (s : State) : Except Raise Unit := raiseIf (s.rs.created = false) .notCreated 0

/-- The sampler after `RSMP.INIT` (R212). -/
def Sampler.init (width : Nat) : Sampler :=
  { created := true, buff := List.replicate (2 * width) (.rat 0), pad := width, index := 0,
    offset := .rat ((width : Rat) + 1), freq := .rat 1, eqsel := none, eof := false }

/-- `RSMP.INIT` (R212). -/
def execRsmpInit (s : State) : Host.Outcome State Fault Refusal :=
  runCommand .rsmpInit s do
    noOperands s
    .ok (Done.pure { s with rs := Sampler.init s.cfg.width } [] 0)

/-- `k = floor(offset)` (R207). -/
def Sampler.whole (r : Sampler) : Nat := r.offset.floor.toNat

/-- What the values of one output of `take` are computed from in a build: the registers, as for `RSMP.TAKE 1`. -/
def takeCalc (s : State) : Calc := ⟨.rsmpTake 1, s.still []⟩

/-- `j = min(resolution - 1, floor((offset - k) * resolution))` (R207). -/
def Sampler.phase (c : Calc) (resolution : Nat) (r : Sampler) : Nat :=
  min (resolution - 1)
    (numValue c .rsmpPhase 0 ((r.offset.minus (.nat r.whole)).times (.nat resolution))).floor.toNat

/-- A sample shifted into the window (R213): "`RS_BUFF <- RS_BUFF[1..2·width-1] ++ [v]`" and `RS_INDEX + 1`. -/
def State.shiftIn (s : State) (v : ExactReal) : State :=
  { s with rs := { s.rs with buff := s.rs.buff.tail ++ [v], index := s.rs.index + 1 } }

/-- The next sample of the padded stream (R211, R213): a padding zero while `RS_PAD > 0`, then `pull(SRC)`. -/
def State.nextPadded (s : State) : Option ExactReal × State :=
  if 0 < s.rs.pad then (some (.rat 0), { s with rs := { s.rs with pad := s.rs.pad - 1 } }) else s.pull

/-- The loop "`while RS_INDEX < end`" of R213, whose first argument is the number of samples still missing. `false`:
the source ended, and `RS_EOF` is set. -/
def fillWindow : Nat → State → Bool × State
  | 0, s => (true, s)
  | k + 1, s =>
    match s.nextPadded with
    | (none, s') => (false, { s' with rs := { s'.rs with eof := true } })
    | (some v, s') => fillWindow k (s'.shiftIn v)

/-- An output through the post-equalizer, if a context is attached (R213). -/
def State.equalize (s : State) (y : ExactReal) : ExactReal × State :=
  match s.rs.eqsel with
  | none => (y, s)
  | some c => firStep c y s

/-- What the equalizer's output is computed from, if a context is attached. -/
def State.equalizeCalcs (s : State) (y : ExactReal) : List Calc :=
  match s.rs.eqsel with
  | none => []
  | some c => [firCalc c y s]

/-- The window filled, the offset moves on and the interpolator weighs the window with the row of phase `j` (R213). -/
def State.interpolate (s : State) (j : Nat) : ExactReal × State :=
  (numValue (takeCalc s) .rsmpDot 0 (dot (s.bank.getD j []) s.rs.buff),
    { s with rs := { s.rs with offset := numValue (takeCalc s) .rsmpOffset 0 (s.rs.offset.plus s.rs.freq) } })

/-- The samples the window lacks for the next output, `end - RS_INDEX` (R213). -/
def State.missing (s : State) : Nat := s.rs.whole + s.cfg.width - s.rs.index

/-- One output of `take` (R213), or none when the source ends. The phase is that of the offset before the output. -/
def takeOne (s : State) : Option ExactReal × State :=
  let j := s.rs.phase (takeCalc s) s.cfg.resolution
  match fillWindow s.missing s with
  | (false, s') => (none, s')
  | (true, s') =>
    let m := s'.interpolate j
    let r := m.2.equalize m.1
    (some r.1, r.2)

/-- What the values of one output are computed from; nothing where the source ends before it. -/
def takeOneCalcs (s : State) : List Calc :=
  match fillWindow s.missing s with
  | (false, _) => []
  | (true, s') =>
    let m := s'.interpolate (s.rs.phase (takeCalc s) s.cfg.resolution)
    takeCalc s :: takeCalc s' :: m.2.equalizeCalcs m.1

/-- `take(n)` (R213): outputs until `n` or the end of the source. -/
def takeSamples : Nat → State → List ExactReal × State
  | 0, s => ([], s)
  | n + 1, s =>
    match takeOne s with
    | (none, s') => ([], s')
    | (some y, s') =>
      let r := takeSamples n s'
      (y :: r.1, r.2)

/-- What the outputs of `take(n)` are computed from. -/
def takeCalcs : Nat → State → List Calc
  | 0, _ => []
  | n + 1, s =>
    takeOneCalcs s ++
      match takeOne s with
      | (none, _) => []
      | (some _, s') => takeCalcs n s'

/-- `RSMP.TAKE n` (R213): `count` is the number of outputs, `eos` is `RS_EOF`. -/
def execRsmpTake (n : Count) (s : State) : Host.Outcome State Fault Refusal :=
  runCommand (.rsmpTake n) s do
    noOperands s
    needSampler s
    let r := takeSamples n.toNat s
    .ok { state := r.2, results := r.1.map Elem.real, eos := r.2.rs.eof, count := r.1.length,
          calcs := takeCalcs n.toNat s }

/-- The range check of `RSMP.WR` and its write (R216). -/
def writeReg (reg : WrReg) (v : ExactReal) (r : Sampler) : Except Raise Sampler :=
  match reg with
  | .freq => if v.positive then .ok { r with freq := v } else .error (badOperands 0)
  | .offset => if v.negative then .error (badOperands 1) else .ok { r with offset := v }

/-- `RSMP.WR reg` (R216). -/
def execRsmpWr (reg : WrReg) (s : State) : Host.Outcome State Fault Refusal :=
  runCommand (.rsmpWr reg) s do
    needSampler s
    let (v, c) ← popAs Elem.asReal (Cursor.start s.opq)
    let rs ← writeReg reg v s.rs
    noneLeft c
    .ok (Done.pure { s with rs := rs } [] 0)

/-- The value `RSMP.RD` pushes (R217): `RS_EQSEL` as 0 for none and `c + 1` for context `c`. -/
def readReg (reg : RdReg) (r : Sampler) : Elem :=
  match reg with
  | .freq => Elem.real r.freq
  | .offset => Elem.real r.offset
  | .index => .nat r.index
  | .eqsel =>
    match r.eqsel with
    | none => .nat 0
    | some c => .nat (c.toNat + 1)

/-- `RSMP.RD reg` (R217). -/
def execRsmpRd (reg : RdReg) (s : State) : Host.Outcome State Fault Refusal :=
  runCommand (.rsmpRd reg) s do
    noOperands s
    needSampler s
    .ok (Done.pure s [readReg reg s.rs] 1)

/-- `RSMP.ATTACH c` (R218). -/
def execRsmpAttach (c : Ctx) (s : State) : Host.Outcome State Fault Refusal :=
  runCommand (.rsmpAttach c) s do
    noOperands s
    needSampler s
    raiseIf ((s.firCtx c).ntaps = 0) .notLoaded c.toNat
    .ok (Done.pure { s with rs := { s.rs with eqsel := some c } } [] 0)

/-- `RSMP.DETACH` (R219). -/
def execRsmpDetach (s : State) : Host.Outcome State Fault Refusal :=
  runCommand .rsmpDetach s do
    noOperands s
    needSampler s
    .ok (Done.pure { s with rs := { s.rs with eqsel := none } } [] 0)

end Sys2Proof.Machine
end

