-- ==== Sys2Proof/Machine/Demod.lean ====
section
/-!
DEFINITION. ofdm_demodulator: `DEMOD.BLOCK` (spec/44).
-/

namespace Sys2Proof.Machine

/-- `z_m = (2/Nsym) * sum of x[k] * conj(CARRIER[m][k])` (R191). -/
def projectBlock (c : Calc) (m nSym : Nat) (x : List ExactReal) (carrier : List Cplx) : Cplx :=
  let z := Cplx.scale (.rat (2 / (nSym : Rat))) (Cplx.sum (List.zipWith (fun v w => Cplx.scale v w.conj) x carrier))
  { re := numValue c .demod (2 * m) z.re, im := numValue c .demod (2 * m + 1) z.im }

/-- What the symbols of a block are computed from in a build: the block and the configuration, wherever the block comes
from (10 R20). -/
def blockCalc (s : State) (x : List ExactReal) : Calc := ⟨.demodBlock true, s.tables (x.map Elem.real)⟩

/-- The `Nfreq` symbols of a block, in carrier order (R192). -/
def demodBlock (s : State) (x : List ExactReal) : List Elem :=
  (List.range s.cfg.nFreq).map fun m => Elem.cplx (projectBlock (blockCalc s x) m s.cfg.nSym x (s.carrier.getD m []))

/-- `DEMOD.BLOCK direct` (R192): the block comes from the operand list. -/
def demodDirect (s : State) : Except Raise Done := do
  let (x, c) ← popMany Elem.asReal s.cfg.nSym (Cursor.start s.opq)
  noneLeft c
  .ok (Done.reals [blockCalc s x] s (demodBlock s x) s.cfg.nFreq)

/-- `DEMOD.BLOCK` with `direct = 0` (R192): the block comes from `take(Nsym)`; a block cut short is dropped. -/
def demodStream (s : State) : Except Raise Done := do
  noOperands s
  needSampler s
  let r := takeSamples s.cfg.nSym s
  if r.1.length < s.cfg.nSym then
    .ok { state := r.2, results := [], eos := r.2.rs.eof, count := 0, calcs := takeCalcs s.cfg.nSym s }
  else
    .ok { state := r.2, results := demodBlock r.2 r.1, eos := r.2.rs.eof, count := s.cfg.nFreq,
          calcs := takeCalcs s.cfg.nSym s ++ [blockCalc r.2 r.1] }

/-- `DEMOD.BLOCK [direct]` (R192). -/
def execDemodBlock (direct : Bool) (s : State) : Host.Outcome State Fault Refusal :=
  runCommand (.demodBlock direct) s (if direct then demodDirect s else demodStream s)

end Sys2Proof.Machine
end

