-- ==== Sys2Proof/Machine/Lsq.lean ====
section
/-!
DEFINITION. least_squares_fir_equalizer: `LSQ.SOLVE` (spec/43). R176 gives the result by a contract, the least-squares
solution of least norm; spec/93 U9 leaves the procedure open. The procedure here: with `G = A^T A` it takes a `y` with
`G (G y) = A^T b` and answers `g = G y`, which solves the normal equations `G g = A^T b` and lies in the row space of
`A` (notes/assumptions/14.md).
-/

namespace Sys2Proof.Machine

/-- `s(n)`: the signal, zero-extended on both sides (R176); the argument is `i + c` and `order`, `n = i - (order-1) + c`. -/
def extended (signal : List ExactReal) (order ic : Nat) : ExactReal :=
  if ic + 1 < order then .rat 0 else signal.getD (ic + 1 - order) (.rat 0)

/-- The matrix `A`, `M` rows of `T` consecutive samples (R176). -/
def lsqMatrix (signal : List ExactReal) (order taps rows : Nat) : List (List ExactReal) :=
  (List.range rows).map fun i => (List.range taps).map fun c => extended signal order (i + c)

/-- The product of a matrix, a list of rows, with a vector. -/
def mulVec (a : List (List ExactReal)) (x : List ExactReal) : List ExactReal := a.map fun row => dot row x

/-- The transpose of a matrix with `n` columns. -/
def transposeOf (n : Nat) (a : List (List ExactReal)) : List (List ExactReal) :=
  (List.range n).map fun c => a.map fun row => row.getD c (.rat 0)

/-- The product of two matrices, the second one given by its columns. -/
def mulCols (a cols : List (List ExactReal)) : List (List ExactReal) := a.map fun row => cols.map fun col => dot row col

/-- A linear equation: coefficients and right side. -/
abbrev Equation := List ExactReal × ExactReal

/-- The coefficient of the first unknown. -/
def leadCoef (e : Equation) : ExactReal := e.1.headD (.rat 0)

/-- The first equation in which the first unknown occurs, and the others. -/
def pickPivot : List Equation → Option (Equation × List Equation)
  | [] => none
  | e :: es =>
    if (leadCoef e).isZero then
      match pickPivot es with
      | none => none
      | some (p, rest) => some (p, e :: rest)
    else some (e, es)

/-- An equation with the first unknown removed by a multiple of the pivot equation. -/
def eliminate (p e : Equation) : Equation :=
  let f := (leadCoef e).over (leadCoef p)
  (List.zipWith (fun x y => x.minus (f.times y)) e.1.tail p.1.tail, e.2.minus (f.times p.2))

/-- A solution of a solvable system in `n` unknowns, by elimination; an unknown no equation determines is 0. -/
def solveLinear : Nat → List Equation → List ExactReal
  | 0, _ => []
  | n + 1, es =>
    match pickPivot es with
    | none => .rat 0 :: solveLinear n (es.map fun e => (e.1.tail, e.2))
    | some (p, rest) =>
      let xs := solveLinear n (rest.map (eliminate p))
      (p.2.minus (dot p.1.tail xs)).over (leadCoef p) :: xs

/-- The minimum-norm least-squares solution `g` of `A g = b` with `n` unknowns. -/
def leastSquares (n : Nat) (a : List (List ExactReal)) (b : List ExactReal) : List ExactReal :=
  let at' := transposeOf n a
  let g := mulCols at' at'
  let gg := mulCols g g
  mulVec g (solveLinear n (gg.zip (mulVec at' b)))

/-- The exact `h` of R176: "`h[m] = g[T-1-m]`". -/
def lsqExact (order lookahead : Nat) (signal expected : List ExactReal) : List ExactReal :=
  let rows := expected.length - lookahead
  let taps := order + lookahead
  (leastSquares taps (lsqMatrix signal order taps rows) (expected.take rows)).reverse

/-- The taps `LSQ.SOLVE` pushes (R176, R177). -/
def lsqTaps (c : Calc) (order lookahead : Nat) (signal expected : List ExactReal) : List ExactReal :=
  let exact := lsqExact order lookahead signal expected
  (List.range (order + lookahead)).map fun m => numValue c .lsqTap m (exact.getD m (.rat 0))

/-- `LSQ.SOLVE order, lookahead` (R177). -/
def execLsqSolve (order lookahead : BitVec 10) (s : State) : Host.Outcome State Fault Refusal :=
  runCommand (.lsqSolve order lookahead) s do
    let taps := order.toNat + lookahead.toNat
    raiseIf (order.toNat = 0 ∨ s.build.capTaps < taps) .badOperands taps
    let (ls, c) ← popAs Elem.asNat (Cursor.start s.opq)
    let (le, c) ← popAs Elem.asNat c
    raiseIf (le ≤ lookahead.toNat) .badOperands le
    raiseIf (ls + lookahead.toNat < le) .badOperands ls
    let (signal, c) ← popMany Elem.asReal ls c
    let (expected, c) ← popMany Elem.asReal le c
    noneLeft c
    let k := tablesCalc (.lsqSolve order lookahead) s
    let h := lsqTaps k order.toNat lookahead.toNat signal expected
    .ok (Done.reals [k] s (h.map Elem.real) taps)

end Sys2Proof.Machine
end

