-- ==== Sys2Proof/Machine/Modulator.lean ====
section
/-!
DEFINITION. symbol_shaper_multi_carrier_modulator: `MOD.BLOCK` and `MOD.PILOT` (spec/46).
-/

namespace Sys2Proof.Machine

/-- `CARRIER[m][k]` for every carrier `m` at one sample `k`. -/
def carrierColumn (carrier : List (List Cplx)) (k : Nat) : List Cplx := carrier.map fun row => row.getD k Cplx.zero

/-- `Re((1/Nfreq) * sum of sym[m] * CARRIER[m][k])` (R242). -/
def modSample (c : Calc) (k nFreq : Nat) (syms column : List Cplx) : ExactReal :=
  numValue c .modBlock k (Cplx.scale (.rat (1 / (nFreq : Rat))) (Cplx.sum (List.zipWith Cplx.mul syms column))).re

/-- `MOD.BLOCK` (R242). -/
def execModBlock (s : State) : Host.Outcome State Fault Refusal :=
  runCommand .modBlock s do
    let (syms, c) ← popMany Elem.asCplx s.cfg.nFreq (Cursor.start s.opq)
    noneLeft c
    let run := tablesCalc .modBlock s
    let out := (List.range s.cfg.nSym).map fun k => modSample run k s.cfg.nFreq syms (carrierColumn s.carrier k)
    .ok (Done.reals [run] s (out.map Elem.real) s.cfg.nSym)

/-- `Re(b * CARRIER[carrier_index][k])` (R243). -/
def pilotSample (c : Calc) (k : Nat) (b w : Cplx) : ExactReal := numValue c .modPilot k (Cplx.mul b w).re

/-- `MOD.PILOT` (R243). -/
def execModPilot (s : State) : Host.Outcome State Fault Refusal :=
  runCommand .modPilot s do
    let (b, c) ← popAs Elem.asCplx (Cursor.start s.opq)
    noneLeft c
    let row := s.carrier.getD s.cfg.carrierIndex []
    let run := tablesCalc .modPilot s
    let out := (List.range s.cfg.nSym).map fun k => pilotSample run k b (row.getD k Cplx.zero)
    .ok (Done.reals [run] s (out.map Elem.real) s.cfg.nSym)

end Sys2Proof.Machine
end

