-- ==== Sys2Proof/Machine/Galois.lean ====
section
/-!
DEFINITION. The field GF(256) modulo `x^8 + x^4 + x^3 + x^2 + 1` (spec/47 R256, R257) and polynomials over it, and the
generator polynomial (R260).
-/

namespace Sys2Proof.Machine

/-- `mul2(a)` (R256): the product by `x`, reduced by `0x11D`; the shift drops bit 8, so `0x1D` is what is left of it. -/
def gfMul2 (a : Byte) : Byte := if a.msb then (a <<< 1) ^^^ 0x1D else a <<< 1

/-- The sum over the bits `i`, `i + 1`, ... of `b` (`k` of them) of `a`, `mul2 a`, ... -/
def gfMulFrom : Nat → Nat → Byte → Byte → Byte
  | 0, _, _, _ => 0
  | k + 1, i, a, b => (if b.getLsbD i then a else 0) ^^^ gfMulFrom k (i + 1) (gfMul2 a) b

/-- The product of R256. -/
def gfMul (a b : Byte) : Byte := gfMulFrom 8 0 a b

/-- `GF_EXP[0 .. n-1]` from a first value on (R257). -/
def gfPowersFrom : Nat → Byte → List Byte
  | 0, _ => []
  | n + 1, a => a :: gfPowersFrom n (gfMul2 a)

/-- `GF_EXP` (R257). -/
def gfExpTable : List Byte := gfPowersFrom 255 1

/-- `alpha^i`, for any `i` (R256: `alpha^255 = 1`). -/
def gfExp (i : Nat) : Byte := gfExpTable.getD (i % 255) 0

/-- `GF_LOG[a]` of a non-zero byte (R257). -/
def gfLog (a : Byte) : Nat := gfExpTable.idxOf a

/-- `inv(a)` of a non-zero byte (R257). -/
def gfInv (a : Byte) : Byte := gfExp (255 - gfLog a)

/-- The sum of two polynomials of any lengths: the coefficients with the same index from the head are added. -/
def polyAdd : List Byte → List Byte → List Byte
  | [], q => q
  | p, [] => p
  | a :: p, b :: q => (a ^^^ b) :: polyAdd p q

/-- The product of two polynomials; it reads the same in either order of the powers. -/
def polyMul : List Byte → List Byte → List Byte
  | [], _ => []
  | a :: p, q => polyAdd (q.map (gfMul a)) (0 :: polyMul p q)

/-- The value at `z` of a polynomial written lowest power first. -/
def polyEval (p : List Byte) (z : Byte) : Byte := p.foldr (fun c acc => c ^^^ gfMul z acc) 0

/-- Horner's rule from an accumulator on (R261): `y <- y z + v[p]` for each byte. -/
def hornerFrom (z : Byte) : Byte → List Byte → Byte
  | acc, [] => acc
  | acc, c :: v => strictly (gfMul z acc ^^^ c) fun acc' => hornerFrom z acc' v

/-- The value at `z` of a polynomial written highest power first (R261). -/
def hornerEval (v : List Byte) (z : Byte) : Byte := hornerFrom z 0 v

/-- A polynomial written lowest power first without the zeros at its end. -/
def polyTrim (p : List Byte) : List Byte := (p.reverse.dropWhile (· = 0)).reverse

/-- The generator polynomial `g(x)`, the product of `x + alpha^i` for `i < nsym`, highest power first (R260). -/
def rsGenerator (nsym : Nat) : List Byte :=
  (List.range nsym).foldl (fun g i => polyMul g [1, gfExp i]) [1]

end Sys2Proof.Machine
end

