-- ==== Sys2Proof/Machine/System.lean ====
section
/-!
DEFINITION. The system commands: `SYS.NOP`, `SYS.CONFIG`, `SYS.RESET`, `SYS.STATUS` (spec/49 R300 to R303), and the
four tables `SYS.CONFIG` derives (spec/10 R25 to R28).
-/

namespace Sys2Proof.Machine

/-- `SYS.NOP` (R300). -/
def execSysNop (s : State) : Host.Outcome State Fault Refusal :=
  runCommand .sysNop s do
    noOperands s
    .ok (Done.pure s [] 0)

/-- What the tables of a configuration are computed from: the record and the build (10 R24: "derived from it"). -/
def Cfg.calc (b : Build) (cfg : Cfg) : Calc := ⟨.sysConfig, { State.reset with build := b, cfg := cfg }⟩

/-- `CARRIER[m][k] = exp(2 pi j mult[m] k / Nsym)` (10 R25). -/
def carrierEntry (c : Calc) (nSym m mult k : Nat) : Cplx :=
  let z := expTurn (((mult * k : Nat) : Rat) / (nSym : Rat))
  { re := numValue c .carrier (2 * (m * nSym + k)) z.re, im := numValue c .carrier (2 * (m * nSym + k) + 1) z.im }

/-- The table `CARRIER` (10 R25). -/
def carrierTable (b : Build) (cfg : Cfg) : List (List Cplx) :=
  cfg.mult.zipIdx.map fun mm => (List.range cfg.nSym).map fun k => carrierEntry (cfg.calc b) cfg.nSym mm.2 mm.1 k

/-- A value put into a list of distinct values in increasing order. -/
def insertDistinct (x : ExactReal) : List ExactReal → List ExactReal
  | [] => [x]
  | y :: ys => if x.lessThan y then x :: y :: ys else if y.lessThan x then y :: insertDistinct x ys else y :: ys

/-- "the distinct values ..., in increasing order" (10 R26). -/
def distinctSorted (xs : List ExactReal) : List ExactReal := xs.foldr insertDistinct []

/-- `(nr - 1) / (reals[nr-1] - reals[0])`, 1 where there is one coordinate, from the distinct coordinates of an axis
(10 R26). -/
def axisFactor (axis : List ExactReal) : ExactReal :=
  if 1 < axis.length then
    (ExactReal.nat (axis.length - 1)).over ((axis.getLastD (.rat 0)).minus (axis.headD (.rat 0)))
  else .rat 1

/-- The factor a build stores for an axis, `QAM.real_factor` (`k = 0`) or `QAM.imag_factor` (`k = 1`); 1 is 1 in every
format. -/
def storedFactor (c : Calc) (k : Nat) (axis : List ExactReal) : ExactReal :=
  if 1 < axis.length then numValue c .qamFactor k (axisFactor axis) else .rat 1

/-- The place of a point on one axis of the grid, `round((x - bias) * factor)` (10 R26). It decides a fault code, and "fault
codes are exact in every build" (spec/95), so it is computed exactly in every number format. -/
def gridPlace (axis : List ExactReal) (x : ExactReal) : Int :=
  ((x.minus (axis.headD (.rat 0))).times (axisFactor axis)).roundEven

/-- `reals` of R26: the distinct real coordinates of a constellation, in increasing order. -/
def realAxis (symbols : List Cplx) : List ExactReal := distinctSorted (symbols.map (·.re))

/-- `imags` of R26. -/
def imagAxis (symbols : List Cplx) : List ExactReal := distinctSorted (symbols.map (·.im))

/-- The cell `(iq, jq)` of each point (10 R26). -/
def gridCells (symbols : List Cplx) : List (Int × Int) :=
  symbols.map fun z => (gridPlace (realAxis symbols) z.re, gridPlace (imagAxis symbols) z.im)

/-- The grid condition of R26: "`nr · ni = Npoints` and the map `q ↦ (iq, jq)` is a bijection" onto the grid. -/
def fullGrid (symbols : List Cplx) : Bool :=
  let nr := (realAxis symbols).length
  let ni := (imagAxis symbols).length
  decide (nr * ni = symbols.length) && decide (gridCells symbols).Nodup &&
    (gridCells symbols).all fun ij => decide (0 ≤ ij.1 ∧ ij.1 < nr ∧ 0 ≤ ij.2 ∧ ij.2 < ni)

/-- The index of the first point that falls into a grid cell. -/
def cellIndex (cells : List (Int × Int)) (i j : Nat) : Nat := cells.idxOf ((i : Int), (j : Int))

/-- The demapper's table `QAM` fitted from the constellation (10 R26). -/
def qamTable (b : Build) (cfg : Cfg) : QamTable :=
  let reals := realAxis cfg.symbols
  let imags := imagAxis cfg.symbols
  let cells := gridCells cfg.symbols
  { bias := ⟨reals.headD (.rat 0), imags.headD (.rat 0)⟩
    realFactor := storedFactor (cfg.calc b) 0 reals
    imagFactor := storedFactor (cfg.calc b) 1 imags
    realMax := reals.length - 1
    imagMax := imags.length - 1
    table := (List.range reals.length).map fun i => (List.range imags.length).map fun j =>
      (cfg.symbols.getD (cellIndex cells i j) Cplx.zero, cellIndex cells i j) }

/-- `win(u) = cos(pi u / (2 Nw))^2`, `Nw = resolution * width` (10 R27). -/
def bankWindow (resolution width : Nat) (u : Int) : ExactReal :=
  let x := cosTurn ((u : Rat) / (4 * ((resolution * width : Nat) : Rat)))
  x.times x

/-- `u(jp, i) = jp + (2 width - 1 - i) resolution - Nw` (10 R27). -/
def bankArg (resolution width jp i : Nat) : Int :=
  (jp : Int) + (2 * width - 1 - i : Int) * resolution - (resolution * width : Nat)

/-- The exact `sinc(u / resolution) * win(u)` (10 R27). -/
def bankExact (resolution width : Nat) (u : Int) : ExactReal :=
  (sinc ((u : Rat) / (resolution : Rat))).times (bankWindow resolution width u)

/-- `BANK[jp][i]` (10 R27). -/
def bankTap (c : Calc) (resolution width jp i : Nat) : ExactReal :=
  numValue c .bankTap (2 * width * jp + i) (bankExact resolution width (bankArg resolution width jp i))

/-- The table `BANK` (10 R27). -/
def bankTable (b : Build) (cfg : Cfg) : List (List ExactReal) :=
  (List.range cfg.resolution).map fun jp => (List.range (2 * cfg.width)).map fun i =>
    bankTap (cfg.calc b) cfg.resolution cfg.width jp i

/-- A field check of `SYS.CONFIG` (R301): `raise ConfigError(i)`. -/
def configCheck (bad : Prop) [Decidable bad] (i : Nat) : Except Raise Unit := raiseIf bad .configError i

/-- Popping and checking the configuration record (R301), "in the order written"; the surplus check of R366 (6) is
last. -/
def parseConfig (b : Build) (ops : List Elem) : Except Raise Cfg := do
  let (fs, c) ← popAs Elem.asNat (Cursor.start ops)
  configCheck (fs < 1) 1
  let (nSym, c) ← popAs Elem.asNat c
  configCheck (nSym < 2 ∨ b.capNsym < nSym) 2
  let (nFreq, c) ← popAs Elem.asNat c
  configCheck (nFreq < 1 ∨ b.capNfreq < nFreq) 3
  let (mult, c) ← popMany Elem.asNat nFreq c
  configCheck (∃ m ∈ mult, m < 1 ∨ nSym ≤ 2 * m) 4
  configCheck (¬ mult.Nodup) 5
  let (carrierIndex, c) ← popAs Elem.asNat c
  configCheck (nFreq ≤ carrierIndex) 6
  let (bps, c) ← popAs Elem.asNat c
  configCheck (bps < 1 ∨ b.capBps < bps) 7
  let (symbols, c) ← popMany Elem.asCplx (2 ^ bps) c
  configCheck (fullGrid symbols = false) 8
  let (parity, c) ← popAs Elem.asNat c
  configCheck (parity < 1 ∨ 254 < parity) 9
  let (resolution, c) ← popAs Elem.asNat c
  configCheck (resolution < 1 ∨ b.capRes < resolution) 10
  let (width, c) ← popAs Elem.asNat c
  configCheck (width < 1 ∨ b.capWidth < width) 11
  noneLeft c
  .ok { fs := fs, nSym := nSym, nFreq := nFreq, mult := mult, carrierIndex := carrierIndex, bitsPerSymbol := bps,
        symbols := symbols, parity := parity, resolution := resolution, width := width }

/-- What `SYS.CONFIG` writes: `CFG`, the four derived tables and `MODE`, nothing else (R301). -/
def State.configure (s : State) (cfg : Cfg) : State :=
  { s with
    cfg := cfg
    carrier := carrierTable s.build cfg
    qam := qamTable s.build cfg
    bank := bankTable s.build cfg
    rsGen := rsGenerator cfg.parity
    mode := .ready }

/-- `SYS.CONFIG` (R301). -/
def execSysConfig (s : State) : Host.Outcome State Fault Refusal :=
  runCommand .sysConfig s do
    let cfg ← parseConfig s.build s.opq
    .ok (Done.reals [cfg.calc s.build] (s.configure cfg) [] 0)

/-- `SYS.RESET` (R302): runs in every mode and accepts any operand list (70 R391). -/
def execSysReset (s : State) : Host.Outcome State Fault Refusal :=
  runCommand .sysReset s (.ok (Done.pure s.resetRegisters [] 0))

/-- `SYS.STATUS` (R303): in `FAULTED` it ignores `OPQ`. -/
def execSysStatus (s : State) : Host.Outcome State Fault Refusal :=
  runCommand .sysStatus s do
    if s.mode = .faulted then .ok () else noOperands s
    .ok (Done.pure s [.nat (statusWord s), .nat s.faultInfo] 2)

end Sys2Proof.Machine
end

