-- ==== Sys2Proof/Machine/Qam.lean ====
section
/-!
DEFINITION. qam_mapper_qam_demapper: `QAM.MAP` and `QAM.DEMAP` (spec/40).
-/

namespace Sys2Proof.Machine

/-- The index of a bit tuple, first bit lowest: the sum of `b_k 2^k` (R121). -/
def bitsIndex : List Bool → Nat
  | [] => 0
  | b :: bs => b.toNat + 2 * bitsIndex bs

/-- The `m` bits of an index, lowest first: `(q >> k) & 1` (R124). -/
def indexBits : Nat → Nat → List Bool
  | 0, _ => []
  | m + 1, q => q.testBit 0 :: indexBits m (q / 2)

/-- `n` symbols from `n * m` bits (R122). -/
def mapSymbols (symbols : List Cplx) (m : Nat) : Nat → List Bool → List Cplx
  | 0, _ => []
  | n + 1, bits => symbols.getD (bitsIndex (bits.take m)) Cplx.zero :: mapSymbols symbols m n (bits.drop m)

/-- `QAM.MAP n` (R122). -/
def execQamMap (n : Count) (s : State) : Host.Outcome State Fault Refusal :=
  runCommand (.qamMap n) s do
    let m := s.cfg.bitsPerSymbol
    let (bits, c) ← popMany Elem.asBit (n.toNat * m) (Cursor.start s.opq)
    noneLeft c
    .ok (Done.pure s ((mapSymbols s.cfg.symbols m n.toNat bits).map Elem.cplx) n.toNat)

/-- What the decision of a symbol reads: "nothing but `S` and the fitted table" (R125), and the build. -/
def symbolCalc (b : Build) (t : QamTable) (z : Cplx) : Calc :=
  ⟨.qamDemap false 1, { State.reset with build := b, qam := t, opq := [Elem.cplx z] }⟩

/-- The decision `(D, q)` for a received value (R123). -/
def qamDecide (b : Build) (t : QamTable) (z : Cplx) : Cplx × Nat :=
  let c := symbolCalc b t z
  let i := (numValue c .qamCoord 0 ((z.re.minus t.bias.re).times t.realFactor)).roundEven
  let j := (numValue c .qamCoord 1 ((z.im.minus t.bias.im).times t.imagFactor)).roundEven
  (t.table.getD (clampIndex i t.realMax) []).getD (clampIndex j t.imagMax) (Cplx.zero, 0)

/-- What is pushed for one symbol: the bits of its index, then the decided point if `report` (R124). -/
def demapSymbol (b : Build) (t : QamTable) (m : Nat) (report : Bool) (z : Cplx) : List Elem :=
  let d := qamDecide b t z
  (indexBits m d.2).map Elem.bit ++ if report then [Elem.cplx d.1] else []

/-- `QAM.DEMAP [report,] n` (R124). -/
def execQamDemap (report : Bool) (n : Count) (s : State) : Host.Outcome State Fault Refusal :=
  runCommand (.qamDemap report n) s do
    let (zs, c) ← popMany Elem.asCplx n.toNat (Cursor.start s.opq)
    noneLeft c
    let out := zs.flatMap (demapSymbol s.build s.qam s.cfg.bitsPerSymbol report)
    .ok (Done.reals (zs.map (symbolCalc s.build s.qam)) s out n.toNat)

end Sys2Proof.Machine
end

