-- ==== Sys2Proof/Machine/ReedSolomon.lean ====
section
/-!
DEFINITION. reed_solomon_encoder and reed_solomon_decoder: `RSE.ENC` and `RSD.DEC` (spec/47). The decoder runs the
reference algorithm of R265, which meets the contract of R263 (notes/assumptions/13.md).
-/

namespace Sys2Proof.Machine

/-- `rem[p+q] <- rem[p+q] + g[q] f` on the elements after the head: the common prefix is added, the rest stays. -/
def addPrefix : List Byte → List Byte → List Byte
  | _, [] => []
  | [], r => r
  | a :: as, b :: bs => (a ^^^ b) :: addPrefix as bs

/-- `steps` steps of the long division of R262; `tail` is `RS_GEN[1..nsym]`, the argument list is `rem` from the
current position on, and what is left at the end is the remainder. -/
def rsDivide (tail : List Byte) : Nat → List Byte → List Byte
  | 0, rem => rem
  | _ + 1, [] => []
  | steps + 1, f :: rem =>
    if f = 0 then rsDivide tail steps rem else rsDivide tail steps (addPrefix (tail.map (gfMul f)) rem)

/-- The codeword of a message of `K` bytes (R262): the message, then the remainder of `msg(x) x^nsym` by `g(x)`. -/
def rsEncode (gen : List Byte) (nsym : Nat) (msg : List Byte) : List Byte :=
  msg ++ rsDivide gen.tail msg.length (msg ++ List.replicate nsym 0)

/-- `RSE.ENC` (R262). -/
def execRseEnc (s : State) : Host.Outcome State Fault Refusal :=
  runCommand .rseEnc s do
    let (msg, c) ← popMany Elem.asByte (255 - s.cfg.parity) (Cursor.start s.opq)
    noneLeft c
    .ok (Done.pure s ((rsEncode s.rsGen s.cfg.parity msg).map Elem.u8) 255)

/-- The syndromes `S_i = r(alpha^i)`, `i < nsym` (R261). -/
def syndromes (nsym : Nat) (r : List Byte) : List Byte := (List.range nsym).map fun i => hornerEval r (gfExp i)

/-- The locator number `X(p) = alpha^(254 - p)` (R258). -/
def locator (p : Nat) : Byte := gfExp (254 - p)

/-- `inv(X(p)) = alpha^(255 - (254 - p))` (R257, R258). -/
def locatorInv (p : Nat) : Byte := gfExp (p + 1)

/-- The erasure locator, the product of `1 + X(p) x` over the erasures, lowest power first (R265 step 2). -/
def erasureLocator (es : List Nat) : List Byte := es.foldl (fun g p => polyMul g [1, locator p]) [1]

/-- The registers of Berlekamp-Massey (R265 step 4). -/
structure BmState where
  c : List Byte
  b : List Byte
  len : Nat
  m : Nat
  last : Byte
deriving DecidableEq, Repr

/-- `d = U[k] + the sum of C_i U[k-i] for i = 1..L` (R265 step 4). -/
def bmDiscrepancy (u : List Byte) (k : Nat) (t : BmState) : Byte :=
  (List.range t.len).foldl (fun acc i => acc ^^^ gfMul (t.c.getD (i + 1) 0) (if i + 1 ≤ k then u.getD (k - (i + 1)) 0 else 0))
    (u.getD k 0)

/-- `C + (d/b) x^m B` (R265 step 4). -/
def bmUpdate (d : Byte) (t : BmState) : List Byte :=
  polyAdd t.c (List.replicate t.m 0 ++ t.b.map (gfMul (gfMul d (gfInv t.last))))

/-- One round of Berlekamp-Massey (R265 step 4). -/
def bmStep (u : List Byte) (t : BmState) (k : Nat) : BmState :=
  let d := bmDiscrepancy u k t
  if d = 0 then { t with m := t.m + 1 }
  else if 2 * t.len ≤ k then { c := bmUpdate d t, b := t.c, len := k + 1 - t.len, m := 1, last := d }
  else { t with c := bmUpdate d t, m := t.m + 1 }

/-- Berlekamp-Massey on the modified syndromes (R265 step 4). -/
def berlekampMassey (u : List Byte) : BmState :=
  (List.range u.length).foldl (bmStep u) { c := [1], b := [1], len := 0, m := 1, last := 1 }

/-- The positions where the locator polynomial vanishes (R265 step 5). -/
def chienSearch (lam : List Byte) : List Nat :=
  (List.range 255).filter fun p => polyEval lam (locatorInv p) = 0

/-- The formal derivative of a polynomial written lowest power first (R265 step 6). -/
def polyDeriv (p : List Byte) : List Byte :=
  (List.range (p.length - 1)).map fun i => if i % 2 = 0 then p.getD (i + 1) 0 else 0

/-- The corrected word (R265 step 7), `none` where a derivative vanishes. -/
def forneyCorrect (psi omega : List Byte) : List Nat → List Byte → Option (List Byte)
  | [], c => some c
  | p :: ps, c =>
    let z := locatorInv p
    let den := polyEval (polyDeriv psi) z
    if den = 0 then none
    else
      let magnitude := gfMul (locator p) (gfMul (polyEval omega z) (gfInv den))
      forneyCorrect psi omega ps (c.set p (c.getD p 0 ^^^ magnitude))

/-- The number of positions from `p` on, outside the erasures, at which two words differ. -/
def errorsFrom (es : List Nat) : Nat → List Byte → List Byte → Nat
  | p, a :: r, b :: c => (if p ∉ es ∧ b ≠ a then 1 else 0) + errorsFrom es (p + 1) r c
  | _, [], _ => 0
  | _, _, [] => 0

/-- `e(c)` of R263: the number of positions `p` outside `E` with `c[p] ≠ r[p]`. -/
def errorsOutside (es : List Nat) (r c : List Byte) : Nat := errorsFrom es 0 r c

/-- Step 8 of R265: the word is a codeword within the bound `2 e(c) + s <= nsym` of R263. -/
def withinBound (nsym : Nat) (es : List Nat) (r c : List Byte) : Bool :=
  (syndromes nsym c).all (· = 0) && decide (2 * errorsOutside es r c + es.length ≤ nsym)

/-- Steps 2 to 8 of R265, for a word with a non-zero syndrome. -/
def rsCorrect (nsym : Nat) (r : List Byte) (es : List Nat) : Option (List Byte) :=
  let s := es.length
  let syn := syndromes nsym r
  let gamma := erasureLocator es
  let u := ((polyMul syn gamma).take nsym).drop s
  let t := berlekampMassey u
  let lam := polyTrim t.c
  if lam.length - 1 ≠ t.len then none
  else if nsym < 2 * t.len + s then none
  else
    let ps := chienSearch lam
    if ps.length ≠ t.len then none
    else if ps.any (· ∈ es) then none
    else
      let psi := polyMul lam gamma
      match forneyCorrect psi ((polyMul syn psi).take nsym) (es ++ ps) r with
      | none => none
      | some c => if withinBound nsym es r c then some c else none

/-- `decode(r, E)` (R265); `none` is failure. -/
def rsDecode (nsym : Nat) (r : List Byte) (es : List Nat) : Option (List Byte) :=
  if nsym < es.length then none
  else if (syndromes nsym r).all (· = 0) then some r
  else rsCorrect nsym r es

/-- The index of the first erasure position that is out of range or repeats an earlier one (R266;
notes/assumptions/22.md). -/
def firstBadPosition : List Nat → List Nat → Nat → Option Nat
  | _, [], _ => none
  | before, p :: ps, i => if 255 ≤ p ∨ p ∈ before then some i else firstBadPosition (before ++ [p]) ps (i + 1)

/-- The position check of R266. -/
def checkPositions (es : List Nat) : Except Raise Unit :=
  match firstBadPosition [] es 0 with
  | none => .ok ()
  | some i => .error (badOperands i)

/-- The decoder's answer, or `ECCUnrecoverable(ne)` (R266). -/
def decodeOrFail (nsym : Nat) (r : List Byte) (es : List Nat) : Except Raise (List Byte) :=
  match rsDecode nsym r es with
  | none => .error { kind := .eccUnrecoverable, info := es.length }
  | some c => .ok c

/-- The number of positions the decoder changed (R266). -/
def positionsChanged (r c : List Byte) : Nat := errorsOutside [] r c

/-- `RSD.DEC ne` (R266). -/
def execRsdDec (ne : Count) (s : State) : Host.Outcome State Fault Refusal :=
  runCommand (.rsdDec ne) s do
    let (r, k) ← popMany Elem.asByte 255 (Cursor.start s.opq)
    let (es, k) ← popMany Elem.asNat ne.toNat k
    checkPositions es
    let c ← decodeOrFail s.cfg.parity r es
    noneLeft k
    .ok (Done.pure s ((c.take (255 - s.cfg.parity)).map Elem.u8) (positionsChanged r c))

end Sys2Proof.Machine
end

