-- ==== Sys2Proof/Machine/Tone.lean ====
section
/-!
DEFINITION. coherence_tone_detector: `TONE.COH` (spec/42).
-/

namespace Sys2Proof.Machine

/-- The frequency of `TONE.COH`: an operand in radians per sample, or the training carrier `2 pi mult / Nsym` (R163). -/
inductive ToneFreq where
  | radians (w : ExactReal)
  | carrier (mult nSym : Nat)
deriving DecidableEq, Repr

/-- `(cos(w k), sin(w k))`; the carrier's angle is a rational number of turns (notes/assumptions/18.md). -/
def ToneFreq.phasor (w : ToneFreq) (k : Nat) : Cplx :=
  match w with
  | .radians x => ⟨cosRadians (x.times (.nat k)), sinRadians (x.times (.nat k))⟩
  | .carrier mult nSym => expTurn ((mult * k : Nat) / (nSym : Rat))

/-- `e`, the sum of the squares (R163). -/
def blockEnergy (c : Calc) (x : List ExactReal) : ExactReal := numValue c .cohEnergy 0 (dot x x)

/-- The coherence of a block of `n = len(x)` samples (R161, R163): 0 for a block without energy, else the projection
onto `exp(-j w k)` over `sqrt((n/2) e)`. -/
def coherence (c : Calc) (w : ToneFreq) (x : List ExactReal) : Cplx :=
  let e := blockEnergy c x
  if e.isZero then Cplx.zero
  else
    let ph := (List.range x.length).map w.phasor
    let scale := sqrtReal ((ExactReal.rat ((x.length : Rat) / 2)).times e)
    { re := numValue c .coherence 0 ((dot x (ph.map (·.re))).over scale)
      im := numValue c .coherence 1 ((dot x (ph.map (·.im))).negate.over scale) }

/-- The first operand of `TONE.COH`: the frequency, unless `pilot` takes it from the configuration (R163). -/
def toneFreq (pilot : Bool) (s : State) (c : Cursor) : Except Raise (ToneFreq × Cursor) :=
  if pilot then .ok (.carrier (s.cfg.mult.getD s.cfg.carrierIndex 0) s.cfg.nSym, c)
  else
    match popAs Elem.asReal c with
    | .error e => .error e
    | .ok (w, c') => .ok (.radians w, c')

/-- `TONE.COH [pilot,] n` (R163). -/
def execToneCoh (pilot : Bool) (n : Count) (s : State) : Host.Outcome State Fault Refusal :=
  runCommand (.toneCoh pilot n) s do
    raiseIf (n.toNat = 0) .badOperands 0
    let (w, c) ← toneFreq pilot s (Cursor.start s.opq)
    let (xs, c) ← popMany Elem.asReal n.toNat c
    noneLeft c
    let k := tablesCalc (.toneCoh pilot n) s
    .ok (Done.reals [k] s [Elem.cplx (coherence k w xs)] 1)

end Sys2Proof.Machine
end

