-- ==== Sys2Proof/Machine/Dispatch.lean ====
section
/-!
DEFINITION. The meaning of every command: one arm for each constructor of `Instr`.
-/

namespace Sys2Proof.Machine

def exec (i : Instr) (s : State) : Host.Outcome State Fault Refusal :=
  match i with
  | .sysNop => Sys2Proof.Machine.execSysNop s
  | .sysConfig => Sys2Proof.Machine.execSysConfig s
  | .sysReset => Sys2Proof.Machine.execSysReset s
  | .sysStatus => Sys2Proof.Machine.execSysStatus s
  | .qamMap n => Sys2Proof.Machine.execQamMap n s
  | .qamDemap report n => Sys2Proof.Machine.execQamDemap report n s
  | .firLoad c n => Sys2Proof.Machine.execFirLoad c n s
  | .firRun c n => Sys2Proof.Machine.execFirRun c n s
  | .iirLoad => Sys2Proof.Machine.execIirLoad s
  | .iirRun n => Sys2Proof.Machine.execIirRun n s
  | .toneCoh pilot n => Sys2Proof.Machine.execToneCoh pilot n s
  | .lsqSolve order lookahead => Sys2Proof.Machine.execLsqSolve order lookahead s
  | .demodBlock direct => Sys2Proof.Machine.execDemodBlock direct s
  | .rsmpInit => Sys2Proof.Machine.execRsmpInit s
  | .rsmpTake n => Sys2Proof.Machine.execRsmpTake n s
  | .rsmpWr reg => Sys2Proof.Machine.execRsmpWr reg s
  | .rsmpRd reg => Sys2Proof.Machine.execRsmpRd reg s
  | .rsmpAttach c => Sys2Proof.Machine.execRsmpAttach c s
  | .rsmpDetach => Sys2Proof.Machine.execRsmpDetach s
  | .modBlock => Sys2Proof.Machine.execModBlock s
  | .modPilot => Sys2Proof.Machine.execModPilot s
  | .rseEnc => Sys2Proof.Machine.execRseEnc s
  | .rsdDec ne => Sys2Proof.Machine.execRsdDec ne s
  | .crcReset => Sys2Proof.Machine.execCrcReset s
  | .crcUpdate n => Sys2Proof.Machine.execCrcUpdate n s
  | .crcRead => Sys2Proof.Machine.execCrcRead s

end Sys2Proof.Machine
end

