-- ==== Sys2Proof/Machine/Step.lean ====
section
/-!
DEFINITION. One step of the block (spec/30 R91): the next command word is taken from `CMDQ`, decoded, checked and
executed. The pieces are operations of Ops.lean and the decoder.
-/

namespace Sys2Proof.Machine

/-- A step. With an empty `CMDQ` the block is idle (60 R383; notes/assumptions/7.md). -/
def step (s : State) : Host.Outcome State Fault Refusal :=
  match s.cmdq with
  | [] => .next s
  | cmd :: rest =>
    match decode cmd.word with
    | .error _ => illegalWord cmd.word (s.accept cmd rest)
    | .ok i => exec i (s.accept cmd rest)

/-- The state with the command word `w` at the head of `CMDQ`, where `step` takes its next word, with an empty operand
list (notes/assumptions/16.md). -/
def State.withFetchWord (s : State) (_nbits w : Nat) : State := s.issueFirst (BitVec.ofNat 32 w)

end Sys2Proof.Machine
end

