-- ==== Sys2Proof/Machine/Range.lean ====
section
/-!
DEFINITION. What the real values of a command are computed from, as a function of the command and the state it starts from:
where a build leaves the range of `NUM` in one of these, the command is refused (spec/93 U2 (b)).
-/

namespace Sys2Proof.Machine

/-- The first `n` operands, where they are of one type. -/
def State.popped {α : Type} (s : State) (read : Elem → Option α) (n : Nat) : List α :=
  match popMany read n (Cursor.start s.opq) with
  | .ok (xs, _) => xs
  | .error _ => []

/-- What the real values of a command that completes are computed from; none where it computes no real value. -/
def realCalcs (s : State) : Instr → List Calc
  | .sysNop => []
  | .sysConfig =>
    match parseConfig s.build s.opq with
    | .ok cfg => [cfg.calc s.build]
    | .error _ => []
  | .sysReset => []
  | .sysStatus => []
  | .qamMap _ => []
  | .qamDemap _ n => (s.popped Elem.asCplx n.toNat).map (symbolCalc s.build s.qam)
  | .firLoad _ _ => []
  | .firRun c n => stepCalcs (firCalc c) (firStep c) (s.popped Elem.asReal n.toNat) s
  | .iirLoad => [iirLoadCalc s]
  | .iirRun n => stepCalcs iirCalc iirStep (s.popped Elem.asReal n.toNat) s
  | .toneCoh pilot n => [tablesCalc (.toneCoh pilot n) s]
  | .lsqSolve order lookahead => [tablesCalc (.lsqSolve order lookahead) s]
  | .demodBlock true => [blockCalc s (s.popped Elem.asReal s.cfg.nSym)]
  | .demodBlock false =>
    let r := takeSamples s.cfg.nSym s
    takeCalcs s.cfg.nSym s ++ if r.1.length < s.cfg.nSym then [] else [blockCalc r.2 r.1]
  | .rsmpInit => []
  | .rsmpTake n => takeCalcs n.toNat s
  | .rsmpWr _ => []
  | .rsmpRd _ => []
  | .rsmpAttach _ => []
  | .rsmpDetach => []
  | .modBlock => [tablesCalc .modBlock s]
  | .modPilot => [tablesCalc .modPilot s]
  | .rseEnc => []
  | .rsdDec _ => []
  | .crcReset => []
  | .crcUpdate _ => []
  | .crcRead => []

/-- Whether a command leaves the range of `NUM`: whether something that it computes does. -/
def leavesNumRange (i : Instr) (s : State) : Bool := (realCalcs s i).any Calc.leavesRange

end Sys2Proof.Machine
end

