-- ==== Sys2Proof/Safety.lean ====
section
/-!
DEFINITION. The terms in which the statements speak: the ways a command can end, what is compared in a frame, and the
invariants of the block.
-/

namespace Sys2Proof.Machine

/-- The state after a command that succeeded: its operands are consumed, its results follow the earlier ones, and one
record with code 0 is emitted (spec/20 R62, R63, R65). -/
def State.succeed (s : State) (results : List Elem) (eos : Bool) (count : Nat) : State :=
  { s with opq := [], resq := s.resq ++ results, completions := s.completions ++ [⟨0, eos, count⟩] }

/-- The state after a fault with this code and information word (spec/60 R365). -/
def State.failed (s : State) (code : Byte) (info : Nat) : State :=
  { s with fault := code, faultInfo := info, mode := .faulted, completions := s.completions ++ [⟨code, false, 0⟩] }

/-- The state after a command that `FAULTED` turned away (spec/60 R368). -/
def State.turnedAway (s : State) : State := { s with completions := s.completions ++ [⟨4, false, 0⟩] }

/-- Everything a frame compares: the build, the configuration and its tables, the filters, the sampler, the CRC
register, `CMDQ` and `SRC`. Left out are `MODE`, `FAULT`, `FAULT_INFO` and the streams of operands and results. -/
def State.registers (s : State) : State :=
  { s with mode := .unconfigured, fault := 0, faultInfo := 0, opq := [], resq := [], completions := [] }

/-- `MODE`, `FAULT` and `FAULT_INFO` are as they were, or the command faulted. -/
def SameStatusOrFault (s t : State) : Prop :=
  t.mode = .faulted ∨ (t.mode = s.mode ∧ t.fault = s.fault ∧ t.faultInfo = s.faultInfo)

/-- Every register to which spec/10 R42 gives a reset value has that value; the queues are apart (R391). -/
abbrev AtReset (t : State) : Prop :=
  t.mode = .unconfigured ∧ t.fault = 0 ∧ t.faultInfo = 0 ∧
  (∀ c, (t.firCtx c).ntaps = 0 ∧ (t.firCtx c).h = [] ∧ (t.firCtx c).hist = []) ∧
  t.iir.loaded = false ∧ t.rs.created = false ∧ t.rs.eqsel = none ∧ t.rs.eof = false ∧ t.crcReg = 0xFFFFFFFF

/-- The legal values of a configuration record in a build (spec/10 R23, R26). -/
abbrev Cfg.Legal (b : Build) (c : Cfg) : Prop :=
  1 ≤ c.fs ∧ 2 ≤ c.nSym ∧ c.nSym ≤ b.capNsym ∧ 1 ≤ c.nFreq ∧ c.nFreq ≤ b.capNfreq ∧
  c.mult.length = c.nFreq ∧ (∀ m ∈ c.mult, 1 ≤ m ∧ 2 * m < c.nSym) ∧ c.mult.Nodup ∧
  c.carrierIndex < c.nFreq ∧ 1 ≤ c.bitsPerSymbol ∧ c.bitsPerSymbol ≤ b.capBps ∧
  c.symbols.length = 2 ^ c.bitsPerSymbol ∧ fullGrid c.symbols = true ∧
  1 ≤ c.parity ∧ c.parity ≤ 254 ∧ 1 ≤ c.resolution ∧ c.resolution ≤ b.capRes ∧
  1 ≤ c.width ∧ c.width ≤ b.capWidth

/-- In `READY` the configuration is legal and the four tables are those derived from it (spec/10 R23 to R28). -/
abbrev ConfigInv (s : State) : Prop :=
  s.mode = .ready → s.cfg.Legal s.build ∧ s.carrier = carrierTable s.build s.cfg ∧ s.qam = qamTable s.build s.cfg ∧
    s.bank = bankTable s.build s.cfg ∧ s.rsGen = rsGenerator s.cfg.parity

/-- `FAULT` is 0 exactly outside `FAULTED`, holds a code the table of spec/60 R361 gives, never `Faulted`, and
`FAULT_INFO` is 0 while there is no fault (spec/10 R22). -/
abbrev FaultInv (s : State) : Prop :=
  (s.mode = .faulted ↔ s.fault ≠ 0) ∧ s.fault ≠ 4 ∧ s.fault ≤ 10 ∧ (s.mode ≠ .faulted → s.faultInfo = 0)

/-- A FIR context has as many taps and history values as `ntaps` says, at most `CAP_TAPS`, and a context the build
does not have is not loaded (spec/10 R30, spec/41 R142). -/
abbrev FirInv (s : State) : Prop :=
  ∀ c : Ctx, (s.firCtx c).h.length = (s.firCtx c).ntaps ∧ (s.firCtx c).hist.length = (s.firCtx c).ntaps ∧
    (s.firCtx c).ntaps ≤ s.build.capTaps ∧ (s.build.nfir ≤ c.toNat → (s.firCtx c).ntaps = 0)

/-- The sampler: none without a configuration; the window has `2 width` samples, `RS_PAD = max(0, width - RS_INDEX)`
(spec/45 R217), the offset is not negative and the step positive (R216), and an attached context is a loaded one of this
build (R218). -/
abbrev SamplerInv (s : State) : Prop :=
  (s.rs.created = false → s.rs.eqsel = none ∧ s.rs.eof = false) ∧
  (s.rs.created = true →
    s.mode ≠ .unconfigured ∧ s.rs.buff.length = 2 * s.cfg.width ∧ s.rs.pad = s.cfg.width - s.rs.index ∧
    0 ≤ s.rs.offset.val ∧ 0 < s.rs.freq.val ∧
    ∀ c : Ctx, s.rs.eqsel = some c → c.toNat < s.build.nfir ∧ (s.firCtx c).ntaps ≠ 0)

/-- The streams: between commands `OPQ` is empty unless a fault stranded operands there (spec/60 R365), `RS_EOF` is
set only when `SRC` has ended, and an ended `SRC` is empty (spec/20 R64, spec/10 R33). -/
abbrev StreamInv (s : State) : Prop :=
  (s.mode ≠ .faulted → s.opq = []) ∧ (s.rs.eof = true → s.srcEof = true) ∧ (s.srcEof = true → s.src = [])

/-- The invariant of the block. -/
abbrev Inv (s : State) : Prop := ConfigInv s ∧ FaultInv s ∧ FirInv s ∧ SamplerInv s ∧ StreamInv s

/-- A row of the opcode table as a pair of mask and match (spec/30 R95: "a word `W` is that command exactly when
`W & mask = match`"), and whether its `sel` is a FIR context, which must be below `NFIR`. -/
structure OpcodeRow where
  mask : CmdWord
  value : CmdWord
  context : Bool
deriving DecidableEq, Repr

/-- The rows of spec/opcode_table.json, in its order. -/
def opcodeRows : List OpcodeRow :=
  [
   { mask := 0xFFFFFFFF, value := 0x00000000, context := false },
   { mask := 0xFFFFFFFF, value := 0x01000000, context := false },
   { mask := 0xFFFFFFFF, value := 0x02000000, context := false },
   { mask := 0xFFFFFFFF, value := 0x03000000, context := false },
   { mask := 0xFFF00000, value := 0x10000000, context := false },
   { mask := 0xFFE00000, value := 0x11000000, context := false },
   { mask := 0xFF000000, value := 0x20000000, context := true },
   { mask := 0xFF000000, value := 0x21000000, context := true },
   { mask := 0xFFFFFFFF, value := 0x30000000, context := false },
   { mask := 0xFFF00000, value := 0x31000000, context := false },
   { mask := 0xFFE00000, value := 0x40000000, context := false },
   { mask := 0xFFF00000, value := 0x50000000, context := false },
   { mask := 0xFFEFFFFF, value := 0x60000000, context := false }]
  ++ [
   { mask := 0xFFFFFFFF, value := 0x70000000, context := false },
   { mask := 0xFFF00000, value := 0x71000000, context := false },
   { mask := 0xFFEFFFFF, value := 0x72000000, context := false },
   { mask := 0xFFCFFFFF, value := 0x73000000, context := false },
   { mask := 0xFF0FFFFF, value := 0x74000000, context := true },
   { mask := 0xFFFFFFFF, value := 0x75000000, context := false },
   { mask := 0xFFFFFFFF, value := 0x80000000, context := false },
   { mask := 0xFFFFFFFF, value := 0x81000000, context := false },
   { mask := 0xFFFFFFFF, value := 0x90000000, context := false },
   { mask := 0xFFF00000, value := 0xA0000000, context := false },
   { mask := 0xFFFFFFFF, value := 0xB0000000, context := false },
   { mask := 0xFFF00000, value := 0xB1000000, context := false },
   { mask := 0xFFFFFFFF, value := 0xB2000000, context := false }]

/-- The word is one of the 26 commands with legal fields, in a build with `nfir` contexts (spec/30 R95, R97). -/
def legalWord (nfir : Nat) (w : CmdWord) : Bool :=
  opcodeRows.any fun row => decide (w &&& row.mask = row.value) && (!row.context || decide ((selOf w).toNat < nfir))

/-- The commands that spec/60 R361 lists for `ModeError` in `UNCONFIGURED`: those that read `CFG` or its tables, which
are the units QAM, DEMOD, RSMP, MOD, RSE and RSD and `TONE.COH pilot`. -/
def needsConfig (i : Instr) : Bool :=
  decide ((unitOf (encode i)).toNat ∈ [1, 6, 7, 8, 9, 10]) ||
    (decide ((unitOf (encode i)).toNat = 4) && decide (selOf (encode i) = 1))

/-- The element types of spec/20 R61, an `R` or a `C` only where it is finite (spec/60 R361). -/
inductive ElemType where
  | nat
  | bit
  | u8
  | r
  | c
deriving DecidableEq, Repr

/-- Whether `pop(OPQ, T)` accepts the element (spec/20 R62, spec/93 U2 (a)). -/
def ElemType.accepts : ElemType → Elem → Bool
  | .nat, .nat _ => true
  | .bit, .bit _ => true
  | .u8, .u8 _ => true
  | .r, .r (.finite _) => true
  | .c, .c (.finite _) (.finite _) => true
  | _, _ => false

/-- The operand list is exactly one element of each of these types, in order (spec/20 R62). -/
def fits : List ElemType → List Elem → Bool
  | [], ops => ops.isEmpty
  | _ :: _, [] => false
  | T :: Ts, e :: ops => T.accepts e && fits Ts ops

/-- The index of the first element of an operand list that is missing, unacceptable or surplus, for a command that takes
one element of each of these types (spec/60 R362); it means nothing for a list that fits. -/
def firstBad : List ElemType → List Elem → Nat
  | [], _ => 0
  | _ :: _, [] => 0
  | T :: Ts, e :: ops => if T.accepts e then firstBad Ts ops + 1 else 0

/-- The element types a command pops, in order, from the operand list in `OPQ`, whose counts say how many of them there
are for `LSQ.SOLVE` (spec/30 R95; 42 R163, 43 R177, 47 R266); `SYS.CONFIG` apart, and the commands without operands. -/
def operandTypes (s : State) : Instr → Option (List ElemType)
  | .qamMap n => some (List.replicate (n.toNat * s.cfg.bitsPerSymbol) .bit)
  | .qamDemap _ n => some (List.replicate n.toNat .c)
  | .firLoad _ n => some (List.replicate n.toNat .r)
  | .firRun _ n => some (List.replicate n.toNat .r)
  | .iirLoad => some (List.replicate 6 .r)
  | .iirRun n => some (List.replicate n.toNat .r)
  | .toneCoh pilot n => some (List.replicate (if pilot then n.toNat else n.toNat + 1) .r)
  | .lsqSolve _ _ =>
    match s.opq with
    | .nat ls :: .nat le :: _ => some (.nat :: .nat :: List.replicate (ls + le) .r)
    | _ => some [.nat, .nat]
  | .demodBlock true => some (List.replicate s.cfg.nSym .r)
  | .rsmpWr _ => some [.r]
  | .modBlock => some (List.replicate s.cfg.nFreq .c)
  | .modPilot => some [.c]
  | .rseEnc => some (List.replicate (255 - s.cfg.parity) .u8)
  | .rsdDec ne => some (List.replicate 255 .u8 ++ List.replicate ne.toNat .nat)
  | .crcUpdate n => some (List.replicate n.toNat .u8)
  | _ => none

/-- The commands whose rule lists no operands and that check for it (spec/30 R95, spec/60 R366 (4)): all but
`SYS.RESET`, which accepts any list. -/
def takesNone : Instr → Bool
  | .sysNop => true
  | .sysStatus => true
  | .demodBlock false => true
  | .rsmpInit => true
  | .rsmpTake _ => true
  | .rsmpRd _ => true
  | .rsmpAttach _ => true
  | .rsmpDetach => true
  | .crcReset => true
  | .crcRead => true
  | _ => false

/-- The context is attached to the resampler (spec/41 R141). -/
abbrev Attached (s : State) (c : Ctx) : Prop := s.rs.created = true ∧ s.rs.eqsel = some c

/-- A legal erasure list of `RSD.DEC`: distinct positions below 255 (spec/47 R263, R266). -/
abbrev ErasureList (es : List Nat) : Prop := es.Nodup ∧ ∀ p ∈ es, p < 255

/-- No value check that the pseudocode of a command makes before it meets the first bad element of its operand list
fails (spec/41 R142, R143, R147, R148; 42 R163; 43 R177; 45 R216; 47 R266). -/
def PassesGuards (s : State) : Instr → Prop
  | .firLoad c n => 1 ≤ n.toNat ∧ n.toNat ≤ s.build.capTaps ∧ ¬ Attached s c
  | .firRun c _ => (s.firCtx c).ntaps ≠ 0 ∧ ¬ Attached s c
  | .iirLoad => ∀ b0 b1 b2 a0 a1 a2 surplus,
      s.opq = [b0, b1, b2, a0, a1, a2].map Elem.real ++ surplus → a0.val ≠ 0
  | .iirRun _ => s.iir.loaded = true
  | .toneCoh _ n => n.toNat ≠ 0
  | .lsqSolve order lookahead => order.toNat ≠ 0 ∧ order.toNat + lookahead.toNat ≤ s.build.capTaps ∧
      ∀ ls le rest, s.opq = .nat ls :: .nat le :: rest → lookahead.toNat < le ∧ le ≤ ls + lookahead.toNat
  | .rsmpWr .freq => s.rs.created = true ∧ ∀ x surplus, s.opq = Elem.real x :: surplus → 0 < x.val
  | .rsmpWr .offset => s.rs.created = true ∧ ∀ x surplus, s.opq = Elem.real x :: surplus → 0 ≤ x.val
  | .rsdDec ne => ∀ r es surplus, s.opq = r.map Elem.u8 ++ es.map Elem.nat ++ surplus → r.length = 255 →
      es.length = ne.toNat → ErasureList es ∧ rsDecode s.cfg.parity r es ≠ none
  | _ => True

/-- Whether a command may compute a real value, so that a build can leave the range of `NUM` in it (spec/93 U2 (b)). A
count of 0 asks for no value (spec/30 R98). -/
def computesReals : Instr → Bool
  | .sysNop => false
  | .sysConfig => true
  | .sysReset => false
  | .sysStatus => false
  | .qamMap _ => false
  | .qamDemap _ n => decide (n ≠ 0)
  | .firLoad _ _ => false
  | .firRun _ n => decide (n ≠ 0)
  | .iirLoad => true
  | .iirRun n => decide (n ≠ 0)
  | .toneCoh _ n => decide (n ≠ 0)
  | .lsqSolve _ _ => true
  | .demodBlock _ => true
  | .rsmpInit => false
  | .rsmpTake n => decide (n ≠ 0)
  | .rsmpWr _ => false
  | .rsmpRd _ => false
  | .rsmpAttach _ => false
  | .rsmpDetach => false
  | .modBlock => true
  | .modPilot => true
  | .rseEnc => false
  | .rsdDec _ => false
  | .crcReset => false
  | .crcUpdate _ => false
  | .crcRead => false

/-- The command may run in the mode of the state (spec/30 R99), outside `FAULTED`. -/
abbrev Accepted (s : State) (i : Instr) : Prop :=
  i.wellFormed s.build.nfir = true ∧
    ((s.mode = .ready ∧ i ≠ .sysConfig) ∨ (s.mode = .unconfigured ∧ needsConfig i = false))

/-- The operand list of `SYS.CONFIG` for a configuration record, in the order of spec/49 R301. -/
def configRecord (c : Cfg) : List Elem :=
  [.nat c.fs, .nat c.nSym, .nat c.nFreq] ++ c.mult.map Elem.nat ++ [.nat c.carrierIndex, .nat c.bitsPerSymbol] ++
    c.symbols.map Elem.cplx ++ [.nat c.parity, .nat c.resolution, .nat c.width]

/-- The eleven checks of spec/49 R301, in the order written: the number of each and its condition to fail. -/
def configChecks (b : Build) (c : Cfg) : List (Nat × Bool) :=
  [(1, decide (c.fs < 1)), (2, decide (c.nSym < 2 ∨ b.capNsym < c.nSym)),
   (3, decide (c.nFreq < 1 ∨ b.capNfreq < c.nFreq)), (4, c.mult.any fun m => decide (m < 1 ∨ c.nSym ≤ 2 * m)),
   (5, decide (¬ c.mult.Nodup)), (6, decide (c.nFreq ≤ c.carrierIndex)),
   (7, decide (c.bitsPerSymbol < 1 ∨ b.capBps < c.bitsPerSymbol)), (8, !fullGrid c.symbols),
   (9, decide (c.parity < 1 ∨ 254 < c.parity)), (10, decide (c.resolution < 1 ∨ b.capRes < c.resolution)),
   (11, decide (c.width < 1 ∨ b.capWidth < c.width))]

/-- The number of the first failing check of a configuration record. -/
def firstFailing (b : Build) (c : Cfg) : Option Nat := ((configChecks b c).find? fun k => k.2).map fun k => k.1

/-- The number of elements popped before check `k` of `SYS.CONFIG` (spec/49 R301, "in the order written"). -/
def poppedBefore (c : Cfg) : Nat → Nat
  | 1 => 1
  | 2 => 2
  | 3 => 3
  | 4 => 3 + c.nFreq
  | 5 => 3 + c.nFreq
  | 6 => 4 + c.nFreq
  | 7 => 5 + c.nFreq
  | 8 => 5 + c.nFreq + 2 ^ c.bitsPerSymbol
  | 9 => 6 + c.nFreq + 2 ^ c.bitsPerSymbol
  | 10 => 7 + c.nFreq + 2 ^ c.bitsPerSymbol
  | _ => 8 + c.nFreq + 2 ^ c.bitsPerSymbol

/-- The number of the first check of `SYS.CONFIG` that fails when only `n` elements have been popped. -/
def firstFailingOf (b : Build) (c : Cfg) (n : Nat) : Option Nat :=
  ((configChecks b c).find? fun k => k.2 && decide (poppedBefore c k.1 ≤ n)).map fun k => k.1

/-- The type of element `k` of a configuration record (spec/49 R301). -/
def configType (c : Cfg) (k : Nat) : ElemType :=
  if 5 + c.nFreq ≤ k ∧ k < 5 + c.nFreq + 2 ^ c.bitsPerSymbol then .c else .nat

/-- The bits of index `q`, first in stream order first: bit `k` is `(q >> k) & 1` (spec/40 R121, R124). -/
def indexTuple (m q : Nat) : List Elem := (List.range m).map fun k => Elem.bit (q.testBit k)

/-- The `ntaps` newest of an input history `hist` (newest first) after the first `t` of the inputs `xs` (spec/41 R143). -/
def firHist (ntaps : Nat) (hist xs : List ExactReal) (t : Nat) : List ExactReal := ((xs.take t).reverse ++ hist).take ntaps

/-- `E(h)` of spec/43 R176, with `s(n) = 0` outside the signal. -/
noncomputable def lsqError (order lookahead : Nat) (signal expected h : List ℝ) : ℝ :=
  ∑ i ∈ Finset.range (expected.length - lookahead),
    (expected.getD i 0 - ∑ m ∈ Finset.range (order + lookahead),
      h.getD m 0 * (if m ≤ i + lookahead then signal.getD (i + lookahead - m) 0 else 0)) ^ 2

/-- The sum of the squares of a list of real numbers. -/
noncomputable def sumSquares (h : List ℝ) : ℝ := (h.map fun x => x ^ 2).sum

/-- The numbers of a list. -/
noncomputable def vals (xs : List ExactReal) : List ℝ := xs.map ExactReal.val

/-- The angle of `TONE.COH` at sample `k`, in radians: `w k` for an operand `w`, `2 pi mult k / Nsym` for the training
carrier (spec/42 R163). -/
noncomputable def ToneFreq.angle (w : ToneFreq) (k : Nat) : ℝ :=
  match w with
  | .radians x => x.val * k
  | .carrier mult nSym => 2 * Real.pi * mult * k / nSym

/-- A codeword of spec/47 R261: 255 bytes whose polynomial vanishes at `alpha^i` for `i < nsym`. -/
def IsCodeword (nsym : Nat) (c : List Byte) : Prop := c.length = 255 ∧ ∀ i < nsym, hornerEval c (gfExp i) = 0

/-- The number of positions outside `E` at which two words differ, `e(c)` of spec/47 R263. -/
def errorCount (es : List Nat) (r c : List Byte) : Nat :=
  ((List.range 255).filter fun p => decide (p ∉ es) && decide (c.getD p 0 ≠ r.getD p 0)).length

/-- `CRC32` of a message, bit by bit as spec/48 R292 writes it, from a register value on. -/
def crcFrom (reg : BitVec 32) (d : List Byte) : BitVec 32 :=
  d.foldl (fun r byte =>
    (List.range 8).foldl (fun q _ => if q &&& 1 = 1 then (q >>> 1) ^^^ 0xEDB88320 else q >>> 1)
      (r ^^^ byte.setWidth 32)) reg

end Sys2Proof.Machine
end

