-- ==== Sys2Proof/Certificates/Slice0/Obligations.lean ====
section
/-!
DEFINITION. The statements for the provers. The docstring of each names the rule of spec/ it formalises; what rests on
a choice of the model says so and names the log entry. A statement with `leavesNumRange i s = false` speaks of every
number format: the hypothesis holds of every state whose `NUM` is the reference semantics (spec/93 U2 (b)), and in a build
it says that nothing the command computes leaves the range of `NUM` (notes/assumptions/4.md). `x.val` is
the real number that an expression stands for (notes/assumptions/1.md).
-/

open Sys2Proof Sys2Proof.Machine

/-! ## Encoding -/

/-- Decoding the word of any command gives the command back: no bit of an encoding is dropped (spec/30 R90 to R95). -/
def Obligations.DecodeOfEncode : Prop := ∀ i : Instr, decode (encode i) = .ok i

/-- The decoder accepts exactly the words that some row of the opcode table matches, a word has one meaning, and the
command it reads has that word as its encoding (spec/30 R95, R97). -/
def Obligations.DecodeAcceptsTheTable : Prop :=
  (∀ w : CmdWord, (∃ i, decode w = .ok i) ↔ ∃ row ∈ opcodeRows, w &&& row.mask = row.value) ∧
  (∀ (w : CmdWord) (i : Instr), decode w = .ok i → encode i = w) ∧
  opcodeRows.Pairwise fun a b => ∀ w : CmdWord, ¬ (w &&& a.mask = a.value ∧ w &&& b.mask = b.value)

/-- The words V1 to V15 of spec/95 decode as it says (V13 is a matter of the build: `Instr.wellFormed`). -/
def Obligations.SpecWordsDecode : Prop :=
  decode 0x00000000 = .ok .sysNop ∧ decode 0x20100003 = .ok (.firLoad 1 3) ∧
  decode 0x50000803 = .ok (.lsqSolve 3 2) ∧ decode 0x50005014 = .ok (.lsqSolve 20 20) ∧
  decode 0x11100008 = .ok (.qamDemap true 8) ∧ decode 0x60100000 = .ok (.demodBlock true) ∧
  decode 0xA0000020 = .ok (.rsdDec 32) ∧ decode 0xC0000000 = .error .reservedUnit ∧
  decode 0x00000001 = .error .nNotZero ∧ decode 0x04000000 = .error .reservedOp ∧
  decode 0x11200000 = .error .selRange ∧ decode 0x73400000 = .error .selRange ∧
  (decode 0x20200001 = .ok (.firLoad 2 1) ∧ (Instr.firLoad 2 1).wellFormed 2 = false) ∧
  decode 0x60000001 = .error .nNotZero ∧ decode 0x50100003 = .error .selNotZero

/-! ## The step -/

/-- A step takes the oldest command of `CMDQ`, puts its operands behind what `OPQ` holds, and is `exec` of the command
its word decodes to; with an empty `CMDQ` the block is idle (spec/30 R91, spec/60 R383; that operands follow what a
fault stranded is notes/assumptions/6.md, that an idle step keeps the state notes/assumptions/7.md). -/
def Obligations.StepRunsTheDecodedCommand : Prop :=
  ∀ s : State,
    (s.cmdq = [] → step s = .next s) ∧
    (∀ (cmd : Command) (rest : List Command) (i : Instr), s.cmdq = cmd :: rest → decode cmd.word = .ok i →
      step s = exec i { s with cmdq := rest, opq := s.opq ++ cmd.operands })

/-- R97: a word that is none of the 26 commands with legal fields raises `IllegalCommand` with the word as its
information and pops no operand; a legal word is executed. -/
def Obligations.IllegalWordsFault : Prop :=
  ∀ (s : State) (cmd : Command) (rest : List Command), s.cmdq = cmd :: rest → s.mode ≠ .faulted →
    (legalWord s.build.nfir cmd.word = false →
      step s = .next (({ s with cmdq := rest, opq := s.opq ++ cmd.operands } : State).failed 1 cmd.word.toNat)) ∧
    (legalWord s.build.nfir cmd.word = true →
      ∃ i, decode cmd.word = .ok i ∧ i.wellFormed s.build.nfir = true ∧
        step s = exec i { s with cmdq := rest, opq := s.opq ++ cmd.operands })

/-- R99: what `MODE` decides for a legal command, and for an illegal word in `FAULTED`. -/
def Obligations.ModeDecidesWhatRuns : Prop :=
  (∀ (i : Instr) (s : State), i.wellFormed s.build.nfir = true →
    (s.mode = .unconfigured → needsConfig i = true → exec i s = .next (s.failed 3 (encode i).toNat)) ∧
    (s.mode = .ready → i = .sysConfig → exec i s = .next (s.failed 3 (encode i).toNat)) ∧
    (s.mode = .faulted → i ≠ .sysStatus → i ≠ .sysReset → exec i s = .next s.turnedAway) ∧
    (Accepted s i ∨ (s.mode = .faulted ∧ (i = .sysStatus ∨ i = .sysReset)) →
      ∀ info, exec i s ≠ .next (s.failed 3 info) ∧ exec i s ≠ .next s.turnedAway)) ∧
  (∀ (s : State) (cmd : Command) (rest : List Command), s.cmdq = cmd :: rest → s.mode = .faulted →
    legalWord s.build.nfir cmd.word = false →
    step s = .next ({ s with cmdq := rest, opq := s.opq ++ cmd.operands } : State).turnedAway)

/-! ## Faults -/

/-- In `FAULTED`, `SYS.STATUS` and `SYS.RESET` run as their rules say, and every other word completes with the record
`(4, 0, 0)` and changes nothing (spec/60 R368). The zeros that `SYS.RESET` gives to the registers without a reset value
are the model's (notes/assumptions/10.md), and so is that `SYS.STATUS` leaves `OPQ` (notes/assumptions/20.md). -/
def Obligations.FaultedTurnsEverythingAway : Prop :=
  ∀ (s : State) (cmd : Command) (rest : List Command), s.cmdq = cmd :: rest → s.mode = .faulted →
    (cmd.word = 0x03000000 →
      step s = .next { s with
        cmdq := rest, opq := s.opq ++ cmd.operands,
        resq := s.resq ++ [.nat (2 + 4 * s.rs.eof.toNat + 8 * s.rs.created.toNat + 16 * s.iir.loaded.toNat
          + 256 * s.fault.toNat), .nat s.faultInfo],
        completions := s.completions ++ [⟨0, false, 2⟩] }) ∧
    (cmd.word = 0x02000000 →
      step s = .next { State.reset with
        build := s.build, cmdq := rest, resq := s.resq, src := s.src,
        completions := s.completions ++ [⟨0, false, 0⟩] }) ∧
    (cmd.word ≠ 0x03000000 → cmd.word ≠ 0x02000000 →
      step s = .next { s with
        cmdq := rest, opq := s.opq ++ cmd.operands, completions := s.completions ++ [⟨4, false, 0⟩] })

/-- R365: a command that faults in `UNCONFIGURED` or `READY` changes no register, pushes nothing, leaves `OPQ`, sets
`FAULT`, `FAULT_INFO` and `MODE`, and emits `(code, 0, 0)`. -/
def Obligations.FaultsArePrecise : Prop :=
  ∀ (i : Instr) (s t : State), s.mode ≠ .faulted → exec i s = .next t → t.mode = .faulted →
    ∃ code ∈ ([1, 2, 3, 5, 6, 7, 8, 9, 10] : List Byte), ∃ info : Nat,
      t = { s with
        fault := code, faultInfo := info, mode := .faulted, completions := s.completions ++ [⟨code, false, 0⟩] }

/-- A step that leaves `FAULTED` ran the word of `SYS.RESET`, and the block holds no configuration, no filter and no
sampler after it (spec/60 R369, which names power-on beside it: that power-on is an act from outside and no step is the
model's, notes/assumptions/24.md). -/
def Obligations.OnlyResetLeavesFaulted : Prop :=
  ∀ s t : State, s.mode = .faulted → step s = .next t → t.mode ≠ .faulted →
    (∃ ops rest, s.cmdq = ⟨0x02000000, ops⟩ :: rest) ∧ t.mode = .unconfigured ∧ t.fault = 0 ∧ t.faultInfo = 0 ∧
    (∀ c, (t.firCtx c).ntaps = 0) ∧ t.iir.loaded = false ∧ t.rs.created = false

/-- Every command emits exactly one completion record, appends its results to `RESQ`, and takes one command from
`CMDQ`; a record with a code other than 0 comes without results, with `eos = 0` and `count = 0`; `eos = 1` comes from
the commands that take samples only (spec/20 R63, R65; for `DEMOD.BLOCK direct` the model follows spec/44 R192,
notes/assumptions/25.md). -/
def Obligations.OneRecordPerCommand : Prop :=
  ∀ (s t : State) (cmd : Command) (rest : List Command), s.cmdq = cmd :: rest → step s = .next t →
    t.cmdq = rest ∧ ∃ (record : Completion) (results : List Elem),
      t.completions = s.completions ++ [record] ∧ t.resq = s.resq ++ results ∧
      (record.code ≠ 0 → results = [] ∧ record.eos = false ∧ record.count = 0) ∧
      (record.eos = true → decode cmd.word = .ok (.demodBlock false) ∨ ∃ n, decode cmd.word = .ok (.rsmpTake n)) ∧
      (t.mode = .faulted → s.mode ≠ .faulted → record.code = t.fault)

/-- Every step answers a next state in the reference semantics; in a build it stops only where a command leaves the range
of `NUM`, and that only where it has computed a real value: not with a count of 0, and not where the source ends before
the first output (spec/30 R98, spec/70 R407, spec/93 U2 (b); notes/assumptions/4.md). -/
def Obligations.EveryStepAnswers : Prop :=
  (∀ (i : Instr) (s : State), leavesNumRange i s = false → ∃ t, exec i s = .next t) ∧
  (∀ (i : Instr) (s : State),
    (∃ t, exec i s = .next t) ∨ (leavesNumRange i s = true ∧ exec i s = .refused .outOfNumRange)) ∧
  (∀ s : State, s.build.num = .reference → ∃ t, step s = .next t) ∧
  (∀ (i : Instr) (s : State), computesReals i = false → ∃ t, exec i s = .next t) ∧
  (∀ (s : State) (n : Count), (takeSamples n.toNat s).1 = [] →
    ∃ t, exec (.rsmpTake n) s = .next t) ∧
  (∀ s : State, 1 ≤ s.cfg.nSym → (takeSamples s.cfg.nSym s).1 = [] →
    ∃ t, exec (.demodBlock false) s = .next t)

/-! ## Reset and invariants -/

/-- R42: every register to which it gives a value has that value after reset, by power-on or by `SYS.RESET`; power-on
empties `CMDQ`, `OPQ` and `RESQ`, `SYS.RESET` only `OPQ`; both clear the `EOF` latch and leave the samples of `SRC` that
were not pulled (spec/70 R391) and the build parameters. -/
def Obligations.ResetValues : Prop :=
  AtReset State.reset ∧ State.reset.cmdq = [] ∧ State.reset.opq = [] ∧ State.reset.resq = [] ∧
  (∀ s : State, AtReset s.powerOn ∧ s.powerOn.cmdq = [] ∧ s.powerOn.opq = [] ∧ s.powerOn.resq = [] ∧
    s.powerOn.src = s.src ∧ s.powerOn.srcEof = false ∧ s.powerOn.build = s.build) ∧
  ∀ s : State, ∃ t, exec .sysReset s = .next t ∧ AtReset t ∧ t.cmdq = s.cmdq ∧ t.opq = [] ∧ t.resq = s.resq ∧
    t.src = s.src ∧ t.srcEof = false ∧ t.build = s.build

/-- The invariants hold after reset. -/
def Obligations.ResetMeetsTheInvariants : Prop := Inv State.reset

/-- In `READY` the configuration is legal and the four tables are those derived from it, after every step
(spec/10 R23 to R28). -/
def Obligations.StepKeepsConfigInv : Prop := ∀ s t : State, ConfigInv s → step s = .next t → ConfigInv t

/-- `FAULT` and `FAULT_INFO` agree with `MODE`, and `OPQ`, `SRC` and the `EOF` flags with each other, after every step
(spec/10 R22, R33; spec/20 R64; spec/60 R365). -/
def Obligations.StepKeepsFaultAndStreamInv : Prop :=
  ∀ s t : State, FaultInv s → StreamInv s → step s = .next t → FaultInv t ∧ StreamInv t

/-- FIR contexts keep their shape, and the sampler its window length, its count of padding, its ranges and an attached
context that is loaded, after every step (spec/10 R30, R32; spec/41 R141; spec/45 R216 to R218). The window needs a
width of at least 1, which `ConfigInv` gives. -/
def Obligations.StepKeepsFilterAndSamplerInv : Prop :=
  ∀ s t : State, ConfigInv s → FirInv s → SamplerInv s → step s = .next t → FirInv t ∧ SamplerInv t

/-! ## System commands -/

/-- R300: `SYS.NOP`. -/
def Obligations.SysNop : Prop :=
  (∀ s : State, s.mode ≠ .faulted → s.opq = [] →
    exec .sysNop s = .next { s with completions := s.completions ++ [⟨0, false, 0⟩] }) ∧
  (∀ s : State, s.mode ≠ .faulted → s.opq ≠ [] → exec .sysNop s = .next (s.failed 2 0)) ∧
  (∀ s : State, s.mode = .faulted → exec .sysNop s = .next s.turnedAway) ∧
  (∀ (w : CmdWord) (i : Instr), unitOf w = 0 → opOf w = 0 → (decode w = .ok i ↔ w = 0 ∧ i = .sysNop))

/-- `SYS.RESET` in every mode, whatever `OPQ` holds (spec/49 R302). The registers to which spec/10 R42 gives no value
take the zeros of `State.reset`, which are the model's choice (notes/assumptions/10.md). -/
def Obligations.SysReset : Prop :=
  (∀ s : State, exec .sysReset s = .next { State.reset with
    build := s.build, cmdq := s.cmdq, resq := s.resq, src := s.src,
    completions := s.completions ++ [⟨0, false, 0⟩] }) ∧
  (∀ (w : CmdWord) (i : Instr), unitOf w = 0 → opOf w = 2 → (decode w = .ok i ↔ w = 0x02000000 ∧ i = .sysReset))

/-- `SYS.STATUS` pushes the status word and `FAULT_INFO` (spec/49 R303); in `FAULTED` it ignores `OPQ` and leaves what is
there (spec/60 R365: removed only by `SYS.RESET`; read so by the model, notes/assumptions/20.md). -/
def Obligations.SysStatus : Prop :=
  (∀ s : State, s.mode ≠ .faulted → s.opq ≠ [] → exec .sysStatus s = .next (s.failed 2 0)) ∧
  (∀ s : State, s.mode = .faulted ∨ s.opq = [] →
    ∃ m w : Nat, w = m + 4 * s.rs.eof.toNat + 8 * s.rs.created.toNat + 16 * s.iir.loaded.toNat + 256 * s.fault.toNat ∧
      (s.mode = .unconfigured → m = 0) ∧ (s.mode = .ready → m = 1) ∧ (s.mode = .faulted → m = 2) ∧
      exec .sysStatus s = .next { s with
        resq := s.resq ++ [.nat w, .nat s.faultInfo], completions := s.completions ++ [⟨0, false, 2⟩] }) ∧
  (∀ (w : CmdWord) (i : Instr), unitOf w = 0 → opOf w = 3 → (decode w = .ok i ↔ w = 0x03000000 ∧ i = .sysStatus))

/-- `SYS.CONFIG` on a record with as many multiples and points as its counts say: it writes the record, the four
tables and `MODE` when all eleven checks hold, and faults with the number of the first that fails otherwise; an element
left over is `BadOperands` (spec/49 R301). -/
def Obligations.SysConfig : Prop :=
  ∀ (s : State) (c : Cfg) (surplus : List Elem), s.mode = .unconfigured → c.mult.length = c.nFreq →
    c.symbols.length = 2 ^ c.bitsPerSymbol → s.opq = configRecord c ++ surplus → leavesNumRange .sysConfig s = false →
    match firstFailing s.build c with
    | some k => exec .sysConfig s = .next (s.failed 5 k)
    | none =>
      if surplus = [] then
        exec .sysConfig s = .next (({ s with
          cfg := c
          carrier := carrierTable s.build c
          qam := qamTable s.build c
          bank := bankTable s.build c
          rsGen := rsGenerator c.parity
          mode := .ready } : State).succeed [] false 0)
      else exec .sysConfig s = .next (s.failed 2 (configRecord c).length)

/-- In the reference semantics `CARRIER[m][k]` is `exp(2 pi j mult[m] k / Nsym)`, with period dividing `Nsym`; the table
has one row a carrier and one entry a sample (spec/10 R25, spec/00 R13), and the symmetries of cosine and sine hold. That
the cosines and sines which are rational stand as rational numbers, and that entries a period apart are the same
expression, is how the model holds a real number: its own choice (notes/assumptions/1.md). -/
def Obligations.CarrierTableEntries : Prop :=
  (∀ (b : Build) (c : Cfg) (m k : Nat), b.num = .reference → m < c.mult.length → k < c.nSym →
    (((carrierTable b c).getD m []).getD k Cplx.zero).val
      = Complex.exp (2 * Real.pi * Complex.I * ((c.mult.getD m 0 * k : Nat) : ℂ) / (c.nSym : ℂ))) ∧
  (∀ (b : Build) (c : Cfg), (carrierTable b c).length = c.mult.length ∧
    ∀ row ∈ carrierTable b c, row.length = c.nSym) ∧
  (∀ (run : Calc) (nSym m mult k : Nat), run.num = .reference → 0 < nSym →
    carrierEntry run nSym m mult (k + nSym) = carrierEntry run nSym m mult k) ∧
  (cosTurn 0 = .rat 1 ∧ cosTurn (1 / 6) = .rat (1 / 2) ∧ cosTurn (1 / 4) = .rat 0 ∧ cosTurn (1 / 2) = .rat (-1) ∧
    sinTurn 0 = .rat 0 ∧ sinTurn (1 / 12) = .rat (1 / 2) ∧ sinTurn (1 / 4) = .rat 1 ∧ sinTurn (3 / 4) = .rat (-1)) ∧
  (∀ t : Rat, (cosTurn (t + 1 / 2)).val = -(cosTurn t).val ∧ (cosTurn (-t)).val = (cosTurn t).val ∧
    (sinTurn (-t)).val = -(sinTurn t).val ∧ (cosTurn t).val ^ 2 + (sinTurn t).val ^ 2 = 1)

/-- The table fitted from a constellation: the bias is the least coordinate of each axis, the factor of an axis is its
number of steps over its extent, 1 for a single coordinate, and the largest index is the number of steps. A point's cell is
its rounded place on the two axes, the grid condition holds exactly when the numbers of distinct coordinates multiply to the
number of points and every cell of the grid is hit, in every number format, and then each point stands in its cell with its
index, and in the reference semantics is decided as itself (spec/10 R26, spec/40 R121, R123). -/
def Obligations.QamTableFit : Prop :=
  (∀ (b : Build) (c : Cfg), c.symbols ≠ [] →
    let points := c.symbols
    let q := qamTable b c
    let nr := (points.map fun z => z.re.val).toFinset.card
    let ni := (points.map fun z => z.im.val).toFinset.card
    let cell := fun k => (gridCells points).getD k (0, 0)
    ((∀ z ∈ points, q.bias.re.val ≤ z.re.val ∧ q.bias.im.val ≤ z.im.val) ∧
      (∃ z ∈ points, q.bias.re = z.re) ∧ ∃ z ∈ points, q.bias.im = z.im) ∧
    (nr = 1 → q.realFactor = .rat 1) ∧ (ni = 1 → q.imagFactor = .rat 1) ∧
    (1 < nr → ∃ x, q.realFactor = numValue (c.calc b) .qamFactor 0 x ∧ (∃ top ∈ points,
      (∀ z ∈ points, z.re.val ≤ top.re.val) ∧ x.val = (nr - 1) / (top.re.val - q.bias.re.val)) ∧
      ∀ k < points.length, (cell k).1 =
        (((points.getD k Cplx.zero).re.minus q.bias.re).times x).roundEven) ∧
    (1 < ni → ∃ x, q.imagFactor = numValue (c.calc b) .qamFactor 1 x ∧ (∃ top ∈ points,
      (∀ z ∈ points, z.im.val ≤ top.im.val) ∧ x.val = (ni - 1) / (top.im.val - q.bias.im.val)) ∧
      ∀ k < points.length, (cell k).2 =
        (((points.getD k Cplx.zero).im.minus q.bias.im).times x).roundEven) ∧
    q.realMax = nr - 1 ∧ q.imagMax = ni - 1 ∧
    (fullGrid points = true ↔ nr * ni = points.length ∧
      ∀ i < nr, ∀ j < ni, ∃ k < points.length, cell k = ((i : Int), (j : Int))) ∧
    (fullGrid points = true → ∀ k < points.length,
      (q.table.getD (cell k).1.toNat []).getD (cell k).2.toNat (Cplx.zero, 0) = (points.getD k Cplx.zero, k))) ∧
  (∀ (b : Build) (c : Cfg) (k : Nat), b.num = .reference → fullGrid c.symbols = true → k < c.symbols.length →
    qamDecide b (qamTable b c) (c.symbols.getD k Cplx.zero) = (c.symbols.getD k Cplx.zero, k))

/-- In the reference semantics `BANK[jp][i] = sinc(jp/resolution + width - 1 - i) * cos(pi u / (2 Nw))^2`, and phase 0 is
the unit impulse at `width - 1` (spec/10 R27); that the impulse stands as the rational numbers 0 and 1 is how the model
holds a real number, its own choice (notes/assumptions/1.md). -/
def Obligations.BankTable : Prop :=
  (∀ (b : Build) (c : Cfg) (jp i : Nat), b.num = .reference → jp < c.resolution → i < 2 * c.width →
    let x : ℝ := jp / c.resolution + c.width - 1 - i
    let u : ℝ := jp + (2 * c.width - 1 - i) * c.resolution - c.resolution * c.width
    (((bankTable b c).getD jp []).getD i (.rat 0)).val
      = (if x = 0 then 1 else Real.sin (Real.pi * x) / (Real.pi * x)) *
        Real.cos (Real.pi * u / (2 * (c.resolution * c.width))) ^ 2) ∧
  (∀ (b : Build) (c : Cfg), b.num = .reference → 1 ≤ c.resolution → 1 ≤ c.width →
    (bankTable b c).getD 0 [] = (List.range (2 * c.width)).map fun i => .rat (if i = c.width - 1 then 1 else 0))

/-- R260: the generator polynomial is monic of degree `nsym`, its roots are `alpha^0` to `alpha^(nsym - 1)`, and its
coefficients for 1, 2, 4 and 32 parity bytes are those printed. -/
def Obligations.GeneratorPolynomial : Prop :=
  (∀ nsym : Nat, (rsGenerator nsym).length = nsym + 1 ∧ (rsGenerator nsym).headD 0 = 1 ∧
    ∀ i < nsym, hornerEval (rsGenerator nsym) (gfExp i) = 0) ∧
  rsGenerator 1 = [0x01, 0x01] ∧ rsGenerator 2 = [0x01, 0x03, 0x02] ∧
  rsGenerator 4 = [0x01, 0x0F, 0x36, 0x78, 0x40] ∧
  rsGenerator 32 = [0x01, 0x74, 0x40, 0x34, 0xAE, 0x36, 0x7E, 0x10, 0xC2, 0xA2, 0x21, 0x21, 0x9D, 0xB0, 0xC5, 0xE1, 0x0C]
    ++ [0x3B, 0x37, 0xFD, 0xE4, 0x94, 0x2F, 0xB3, 0xB9, 0x18, 0x8A, 0xFD, 0x14, 0x8E, 0x37, 0xAC, 0x58]

/-! ## QAM -/

/-- `QAM.MAP` of the bit tuples of a list of indices, first bit lowest, pushes the points with those indices
(spec/40 R121, R122). -/
def Obligations.QamMap : Prop :=
  ∀ (s : State) (n : Count) (indices : List Nat), s.mode = .ready → n.toNat = indices.length →
    (∀ q ∈ indices, q < 2 ^ s.cfg.bitsPerSymbol) → s.opq = indices.flatMap (indexTuple s.cfg.bitsPerSymbol) →
    exec (.qamMap n) s =
      .next (s.succeed (indices.map fun q => Elem.cplx (s.cfg.symbols.getD q Cplx.zero)) false indices.length)

/-- `QAM.DEMAP` decides each symbol alone, from the symbol and the fitted table: round, clamp, look up, push the bits of the
index first bit lowest, and the decided point if `report` (spec/40 R123 to R125). It is the concatenation of single
commands where a build leaves the range of `NUM` too: it is refused exactly when one of its symbols alone is. -/
def Obligations.QamDemap : Prop :=
  (∀ (s : State) (report : Bool) (n : Count) (zs : List Cplx), s.mode = .ready → n.toNat = zs.length →
    s.opq = zs.map Elem.cplx →
    (exec (.qamDemap report n) s = .refused .outOfNumRange ↔
      ∃ z ∈ zs, exec (.qamDemap report 1) { s with opq := [Elem.cplx z] } = .refused .outOfNumRange)) ∧
  ∀ (s : State) (report : Bool) (n : Count) (zs : List Cplx), s.mode = .ready → n.toNat = zs.length →
    s.opq = zs.map Elem.cplx → leavesNumRange (.qamDemap report n) s = false →
    let place := fun (z : Cplx) (k : Nat) (bias factor x : ExactReal) =>
      (numValue (symbolCalc s.build s.qam z) .qamCoord k ((x.minus bias).times factor)).roundEven
    let cell := fun (z : Cplx) =>
      (s.qam.table.getD
        (max 0 (min (s.qam.realMax : Int) (place z 0 s.qam.bias.re s.qam.realFactor z.re))).toNat []).getD
        (max 0 (min (s.qam.imagMax : Int) (place z 1 s.qam.bias.im s.qam.imagFactor z.im))).toNat (Cplx.zero, 0)
    exec (.qamDemap report n) s = .next (s.succeed
      (zs.flatMap fun z =>
        indexTuple s.cfg.bitsPerSymbol (cell z).2 ++ if report then [Elem.cplx (cell z).1] else [])
      false zs.length)

/-- The operations and tests of the model on exact reals are those on the real numbers they stand for (spec/00 R8, R10):
`floor` is the greatest integer below, `round` a nearest integer, the even one at a tie, and `clamp` is as printed
(spec/00 R12). An enclosure holds its number, so that what the model computes from it is right. -/
def Obligations.RoundingRules : Prop :=
  (∀ x y : ExactReal, (x.plus y).val = x.val + y.val ∧ (x.minus y).val = x.val - y.val ∧
    (x.times y).val = x.val * y.val ∧ (x.over y).val = x.val / y.val ∧ (sqrtReal x).val = Real.sqrt x.val) ∧
  (∀ u v : List ExactReal, u.length = v.length →
    (dot u v).val = ∑ i ∈ Finset.range u.length, (vals u).getD i 0 * (vals v).getD i 0) ∧
  (∀ (x : ExactReal) (a : Enclosure), x.enclosure = some a → (a.lo : ℝ) ≤ x.val * unitParts ∧ x.val * unitParts ≤ a.hi) ∧
  (∀ x : ExactReal, x.floor = ⌊x.val⌋ ∧ (x.isZero = true ↔ x.val = 0) ∧ (x.negative = true ↔ x.val < 0) ∧
    (x.positive = true ↔ 0 < x.val)) ∧
  (∀ (x : ExactReal) (k : Int), |x.val - x.roundEven| ≤ |x.val - k| ∧
    (|x.val - x.roundEven| = |x.val - k| → k ≠ x.roundEven → x.roundEven % 2 = 0)) ∧
  (∀ (v : Int) (hi : Nat), (clampIndex v hi : Int) = max 0 (min (hi : Int) v)) ∧
  (ExactReal.rat (1 / 2)).roundEven = 0 ∧ (ExactReal.rat (3 / 2)).roundEven = 2 ∧
  (ExactReal.rat (5 / 2)).roundEven = 2 ∧ (ExactReal.rat (-1 / 2)).roundEven = 0

/-! ## Filters -/

/-- `FIR.LOAD` writes the taps and a history of zeros (spec/41 R142). -/
def Obligations.FirLoad : Prop :=
  ∀ (s : State) (c : Ctx) (n : Count) (taps : List ExactReal), s.mode ≠ .faulted → c.toNat < s.build.nfir →
    n.toNat = taps.length → 1 ≤ taps.length → taps.length ≤ s.build.capTaps → ¬ Attached s c →
    s.opq = taps.map Elem.real →
    exec (.firLoad c n) s = .next ((s.setFirCtx c
      { ntaps := taps.length, h := taps, hist := List.replicate taps.length (.rat 0) }).succeed [] false 0)

/-- `FIR.RUN` pushes for each input the sum of taps times history, the newest sample first, and leaves the history
that the last input made; where a signal is filtered in two commands, one command completes too and gives the same outputs
and registers, in every number format (spec/41 R143). -/
def Obligations.FirRun : Prop :=
  (∀ (s : State) (c : Ctx) (n : Count) (xs : List ExactReal), s.mode ≠ .faulted → c.toNat < s.build.nfir →
    (s.firCtx c).ntaps ≠ 0 → (s.firCtx c).hist.length = (s.firCtx c).ntaps → ¬ Attached s c →
    n.toNat = xs.length → s.opq = xs.map Elem.real → leavesNumRange (.firRun c n) s = false →
    let x := s.firCtx c
    let after := fun t => s.setFirCtx c { x with hist := firHist x.ntaps x.hist xs t }
    exec (.firRun c n) s = .next ((after xs.length).succeed
      ((List.range xs.length).map fun t => Elem.real (numValue
        ⟨.firRun c 1, (after t).still [Elem.real (xs.getD t (.rat 0))]⟩ .firStep 0
        (dot x.h (firHist x.ntaps x.hist xs (t + 1)))))
      false xs.length)) ∧
  (∀ (s t u : State) (c : Ctx) (n m k : Count) (xs ys : List ExactReal), n.toNat = xs.length → m.toNat = ys.length →
    k.toNat = xs.length + ys.length →
    exec (.firRun c n) { s with opq := xs.map Elem.real } = .next t →
    exec (.firRun c m) { t with opq := ys.map Elem.real } = .next u → u.mode ≠ .faulted →
    ∃ v, exec (.firRun c k) { s with opq := (xs ++ ys).map Elem.real } = .next v ∧
      u.registers = v.registers ∧ u.resq = v.resq)

/-- R140: after a load, output `t` is the convolution sum `h[i] x[t-i]` with zeros before the first input, one output
an input, and `hist[i] = x[t-i]`. -/
def Obligations.FirConvolution : Prop :=
  ∀ (s : State) (c : Ctx) (n k : Count) (h xs : List ExactReal), s.build.num = .reference → s.mode ≠ .faulted →
    c.toNat < s.build.nfir → n.toNat = h.length → 1 ≤ h.length → h.length ≤ s.build.capTaps → ¬ Attached s c →
    s.opq = h.map Elem.real → k.toNat = xs.length →
    ∃ loaded t : State, exec (.firLoad c n) s = .next loaded ∧
      exec (.firRun c k) { loaded with opq := xs.map Elem.real } = .next t ∧
      (∃ ys : List ExactReal, t.resq = s.resq ++ ys.map Elem.real ∧
        vals ys = (List.range xs.length).map fun t => ∑ i ∈ Finset.range h.length,
          (vals h).getD i 0 * if i ≤ t then (vals xs).getD (t - i) 0 else 0) ∧
      (t.firCtx c).hist = (List.range h.length).map fun i =>
        if i + 1 ≤ xs.length then xs.getD (xs.length - 1 - i) (.rat 0) else .rat 0

/-- `IIR.LOAD` divides by `a0`, clears both histories and faults on `a0 = 0` before it writes anything
(spec/41 R146, R147). -/
def Obligations.IirLoad : Prop :=
  (∀ (s : State) (b0 b1 b2 a0 a1 a2 : ExactReal), s.mode ≠ .faulted →
    s.opq = [b0, b1, b2, a0, a1, a2].map Elem.real →
    (a0.val = 0 → exec .iirLoad s = .next (s.failed 9 0)) ∧
    (a0.val ≠ 0 → leavesNumRange .iirLoad s = false →
      let q := fun (k : Nat) (b : ExactReal) => numValue ⟨.iirLoad, s.still s.opq⟩ .iirCoef k (b.over a0)
      exec .iirLoad s = .next (({ s with iir := {
        loaded := true, b0 := q 0 b0, b1 := q 1 b1, b2 := q 2 b2, a1 := q 3 a1, a2 := q 4 a2,
        xh0 := .rat 0, xh1 := .rat 0, xh2 := .rat 0, yh0 := .rat 0, yh1 := .rat 0 } } : State).succeed [] false 0))) ∧
  (∀ (run : Calc) (k : Nat) (b a0 : ExactReal), run.num = .reference →
    (numValue run .iirCoef k (b.over a0)).val = b.val / a0.val)

/-- `IIR.RUN` is the difference equation of spec/41 R146 on inputs and outputs that continue the two histories, which
end as R148 says; the values are a build's where `NUM` is one, computed from the registers before the sample and the
sample. -/
def Obligations.IirRun : Prop :=
  ∀ (s : State) (n : Count) (xs : List ExactReal), s.mode ≠ .faulted → s.iir.loaded = true → n.toNat = xs.length →
    s.opq = xs.map Elem.real → leavesNumRange (.iirRun n) s = false →
    ∃ us : List ExactReal, us.length = xs.length ∧
      (let q := s.iir
       let x := [q.xh2, q.xh1, q.xh0] ++ xs
       let y := [q.yh1, q.yh0] ++ us
       let xv := fun k => (vals x).getD k 0
       let yv := fun k => (vals y).getD k 0
       let after := fun t : Nat => ({ s with iir := { q with
         xh0 := x.getD (t + 2) (.rat 0), xh1 := x.getD (t + 1) (.rat 0), xh2 := x.getD t (.rat 0),
         yh0 := y.getD (t + 1) (.rat 0), yh1 := y.getD t (.rat 0) } } : State)
       (∀ t < xs.length, ∃ e : ExactReal,
         us.getD t (.rat 0)
           = numValue ⟨.iirRun 1, (after t).still [Elem.real (xs.getD t (.rat 0))]⟩ .iirStep 0 e ∧
         e.val = q.b0.val * xv (t + 3) + q.b1.val * xv (t + 2) + q.b2.val * xv (t + 1)
           - q.a1.val * yv (t + 1) - q.a2.val * yv t) ∧
       exec (.iirRun n) s = .next ((after xs.length).succeed (us.map Elem.real) false xs.length))

/-! ## Tone detector and equalizer -/

/-- `TONE.COH` pushes the coherence of its block: with `pilot` at the training carrier, without it at the frequency of
its first operand. In the reference semantics that is 0 for a block without energy and else the projection onto
`exp(-j w k)` over `sqrt((n/2) e)`, with `w k` radians for an operand `w` and `2 pi mult k / Nsym` for the training carrier (spec/42 R161, R163). At a carrier with `0 < p < n/2` its modulus is at
most 1, and `A cos(2 pi p k / n + phi)` with `A > 0` scores `exp(j phi)` (spec/42 R162). -/
def Obligations.ToneCoherence : Prop :=
  (∀ (s : State) (n : Count) (w : ExactReal) (xs : List ExactReal), s.mode ≠ .faulted → xs ≠ [] →
    n.toNat = xs.length → s.opq = Elem.real w :: xs.map Elem.real → leavesNumRange (.toneCoh false n) s = false →
    exec (.toneCoh false n) s =
      .next (s.succeed [Elem.cplx (coherence ⟨.toneCoh false n, s.tables s.opq⟩ (.radians w) xs)] false 1)) ∧
  (∀ (s : State) (n : Count) (xs : List ExactReal), s.mode = .ready → xs ≠ [] → n.toNat = xs.length →
    s.opq = xs.map Elem.real → leavesNumRange (.toneCoh true n) s = false →
    exec (.toneCoh true n) s = .next (s.succeed [Elem.cplx (coherence ⟨.toneCoh true n, s.tables s.opq⟩
      (.carrier (s.cfg.mult.getD s.cfg.carrierIndex 0) s.cfg.nSym) xs)] false 1)) ∧
  (∀ (run : Calc) (w : ToneFreq) (xs : List ExactReal), run.num = .reference →
    let x := fun k => (vals xs).getD k 0
    let e := ∑ k ∈ Finset.range xs.length, x k ^ 2
    (coherence run w xs).val = if e = 0 then 0 else
      (∑ k ∈ Finset.range xs.length, (x k : ℂ) * Complex.exp (-(w.angle k : ℂ) * Complex.I)) /
        (Real.sqrt (xs.length / 2 * e) : ℂ)) ∧
  (∀ (run : Calc) (p : Nat) (xs : List ExactReal), run.num = .reference → 0 < p →
    2 * p < xs.length →
    ‖(coherence run (.carrier p xs.length) xs).val‖ ≤ 1 ∧
    ∀ A phi : ℝ, 0 < A →
      (∀ k < xs.length, (vals xs).getD k 0 = A * Real.cos (2 * Real.pi * p * k / xs.length + phi)) →
      (coherence run (.carrier p xs.length) xs).val = Complex.exp (phi * Complex.I))

/-- `LSQ.SOLVE` completes with `order + lookahead` taps whenever its value checks hold (spec/43 R177). -/
def Obligations.LsqCompletes : Prop :=
  ∀ (s : State) (order lookahead : BitVec 10) (signal expected : List ExactReal), s.mode ≠ .faulted →
    1 ≤ order.toNat → order.toNat + lookahead.toNat ≤ s.build.capTaps → lookahead.toNat < expected.length →
    expected.length ≤ signal.length + lookahead.toNat →
    s.opq = .nat signal.length :: .nat expected.length :: (signal ++ expected).map Elem.real →
    leavesNumRange (.lsqSolve order lookahead) s = false →
    exec (.lsqSolve order lookahead) s = .next (s.succeed
      ((lsqTaps ⟨.lsqSolve order lookahead, s.tables s.opq⟩ order.toNat lookahead.toNat signal expected).map Elem.real) false
      (order.toNat + lookahead.toNat))

/-- R176: in the reference semantics the taps minimise `E(h)`, and of all minimisers they have the least sum of squares,
and they alone (whatever the procedure, notes/assumptions/14.md). -/
def Obligations.LsqContract : Prop :=
  ∀ (run : Calc) (order lookahead : Nat) (signal expected : List ExactReal), run.num = .reference → 1 ≤ order →
    lookahead < expected.length →
    let h := vals (lsqTaps run order lookahead signal expected)
    h.length = order + lookahead ∧ ∀ g : List ℝ, g.length = order + lookahead →
      lsqError order lookahead (vals signal) (vals expected) h ≤ lsqError order lookahead (vals signal) (vals expected) g ∧
      (lsqError order lookahead (vals signal) (vals expected) g
          = lsqError order lookahead (vals signal) (vals expected) h →
        sumSquares h ≤ sumSquares g ∧ (sumSquares g = sumSquares h → g = h))

/-! ## Demodulator and modulator -/

/-- `DEMOD.BLOCK direct` pushes for each carrier the projection of its block and touches no register; in the reference
semantics it is `(2/Nsym)` times the sum of `x[k] conj(CARRIER[m][k])` (spec/44 R191, R192), and on a block of `MOD.BLOCK`
or `MOD.PILOT` it gives `sym[m]/Nfreq`, or the pilot symbol at its carrier and 0 at the others (spec/44 R193). -/
def Obligations.DemodDirect : Prop :=
  (∀ (s : State) (x : List ExactReal), s.mode = .ready → x.length = s.cfg.nSym → s.opq = x.map Elem.real →
    leavesNumRange (.demodBlock true) s = false →
    exec (.demodBlock true) s = .next (s.succeed ((List.range s.cfg.nFreq).map fun m =>
      Elem.cplx (projectBlock (blockCalc s x) m s.cfg.nSym x (s.carrier.getD m []))) false s.cfg.nFreq)) ∧
  (∀ (run : Calc) (m nSym : Nat) (x : List ExactReal) (carrier : List Cplx), run.num = .reference →
    x.length = nSym → carrier.length = nSym →
    (projectBlock run m nSym x carrier).val = 2 / (nSym : ℂ) * ∑ k ∈ Finset.range nSym,
      ((vals x).getD k 0 : ℂ) * (starRingEnd ℂ) (carrier.getD k Cplx.zero).val) ∧
  (∀ (b : Build) (modulate demod : Calc) (c : Cfg) (syms : List Cplx) (m : Nat), b.num = .reference →
    modulate.num = .reference → demod.num = .reference → (∀ p ∈ c.mult, 1 ≤ p ∧ 2 * p < c.nSym) → c.mult.Nodup →
    syms.length = c.mult.length → m < c.mult.length →
    let table := carrierTable b c
    let block := (List.range c.nSym).map fun k =>
      modSample modulate k c.mult.length syms (table.map fun row => row.getD k Cplx.zero)
    (projectBlock demod m c.nSym block (table.getD m [])).val
      = (syms.getD m Cplx.zero).val / (c.mult.length : ℂ)) ∧
  (∀ (b : Build) (modulate demod : Calc) (c : Cfg) (z : Cplx) (m pilot : Nat), b.num = .reference →
    modulate.num = .reference → demod.num = .reference → (∀ p ∈ c.mult, 1 ≤ p ∧ 2 * p < c.nSym) → c.mult.Nodup →
    m < c.mult.length → pilot < c.mult.length →
    let table := carrierTable b c
    let block := (List.range c.nSym).map fun k => pilotSample modulate k z ((table.getD pilot []).getD k Cplx.zero)
    (projectBlock demod m c.nSym block (table.getD m [])).val = if m = pilot then z.val else 0)

/-- `DEMOD.BLOCK` with `direct = 0` takes `Nsym` samples as `RSMP.TAKE Nsym` would; a full block is projected as a direct
block of these samples is, a short one is dropped and completes with `count = 0` and `eos = 1`; the registers it leaves are
those that `RSMP.TAKE Nsym` leaves, in every number format (spec/44 R192). -/
def Obligations.DemodStream : Prop :=
  (∀ s : State, s.mode = .ready → s.rs.created = true → s.opq = [] → leavesNumRange (.demodBlock false) s = false →
    ∃ (x : List ExactReal) (t : State), takeSamples s.cfg.nSym s = (x, t) ∧ x.length ≤ s.cfg.nSym ∧
      (x.length = s.cfg.nSym → exec (.demodBlock false) s = .next (t.succeed ((List.range s.cfg.nFreq).map fun m =>
        Elem.cplx (projectBlock (blockCalc s x) m s.cfg.nSym x (s.carrier.getD m []))) t.rs.eof s.cfg.nFreq)) ∧
      (x.length < s.cfg.nSym → t.rs.eof = true ∧ exec (.demodBlock false) s = .next (t.succeed [] true 0))) ∧
  (∀ (s t : State) (n : Count), s.mode = .ready → s.rs.created = true → n.toNat = s.cfg.nSym →
    s.opq = [] → exec (.demodBlock false) s = .next t →
    ∃ u, exec (.rsmpTake n) s = .next u ∧ t.registers = u.registers ∧ t.mode = u.mode)

/-- `MOD.BLOCK` and `MOD.PILOT`: what they push, the sums of spec/46 R242 and R243 in the reference semantics, and that
with every symbol in the unit disc no sample of `MOD.BLOCK` is larger than 1 (spec/46 R240, R242). -/
def Obligations.Modulator : Prop :=
  (∀ (s : State) (syms : List Cplx), s.mode = .ready → syms.length = s.cfg.nFreq → s.opq = syms.map Elem.cplx →
    leavesNumRange .modBlock s = false →
    exec .modBlock s = .next (s.succeed ((List.range s.cfg.nSym).map fun k => Elem.real
      (modSample ⟨.modBlock, s.tables s.opq⟩ k s.cfg.nFreq syms (s.carrier.map fun row => row.getD k Cplx.zero))) false s.cfg.nSym)) ∧
  (∀ (run : Calc) (k nFreq : Nat) (syms column : List Cplx), run.num = .reference → syms.length = nFreq →
    column.length = nFreq →
    (modSample run k nFreq syms column).val = (1 / (nFreq : ℂ) * ∑ m ∈ Finset.range nFreq,
      (syms.getD m Cplx.zero).val * (column.getD m Cplx.zero).val).re) ∧
  (∀ (b : Build) (run : Calc) (c : Cfg) (k : Nat) (syms : List Cplx), b.num = .reference → run.num = .reference →
    k < c.nSym → syms.length = c.mult.length → (∀ z ∈ syms, ‖z.val‖ ≤ 1) →
    |(modSample run k c.mult.length syms ((carrierTable b c).map fun row => row.getD k Cplx.zero)).val| ≤ 1) ∧
  (∀ (s : State) (b : Cplx), s.mode = .ready → s.opq = [Elem.cplx b] → leavesNumRange .modPilot s = false →
    exec .modPilot s = .next (s.succeed ((List.range s.cfg.nSym).map fun k => Elem.real
      (pilotSample ⟨.modPilot, s.tables s.opq⟩ k b ((s.carrier.getD s.cfg.carrierIndex []).getD k Cplx.zero))) false s.cfg.nSym)) ∧
  (∀ (run : Calc) (k : Nat) (b w : Cplx), run.num = .reference → (pilotSample run k b w).val = (b.val * w.val).re)

/-! ## Resampler -/

/-- R212: `RSMP.INIT`. -/
def Obligations.RsmpInit : Prop :=
  (∀ s : State, s.mode = .ready → s.opq = [] →
    exec .rsmpInit s = .next (({ s with rs := {
      created := true, buff := List.replicate (2 * s.cfg.width) (.rat 0), pad := s.cfg.width, index := 0,
      offset := .rat ((s.cfg.width : Rat) + 1), freq := .rat 1, eqsel := none, eof := false } } : State).succeed [] false 0)) ∧
  (∀ s : State, s.mode = .unconfigured → exec .rsmpInit s = .next (s.failed 3 0x70000000)) ∧
  (∀ s : State, s.mode = .ready → s.opq ≠ [] → exec .rsmpInit s = .next (s.failed 2 0)) ∧
  (∀ (w : CmdWord) (i : Instr), unitOf w = 7 → opOf w = 0 → (decode w = .ok i ↔ w = 0x70000000 ∧ i = .rsmpInit))

/-- R207: the split of the offset into whole samples and a phase, truncated to a multiple of `1/resolution`, in the
reference semantics; the phase stays inside the table in every build. -/
def Obligations.OffsetSplit : Prop :=
  (∀ (run : Calc) (r : Sampler) (resolution : Nat), 1 ≤ resolution → r.phase run resolution < resolution) ∧
  ∀ (run : Calc) (r : Sampler) (resolution : Nat), run.num = .reference → 0 ≤ r.offset.val → 1 ≤ resolution →
    let k := r.whole
    let j := r.phase run resolution
    (k : Int) = ⌊r.offset.val⌋ ∧ j = min (resolution - 1) ⌊(r.offset.val - k) * resolution⌋.toNat ∧
    j < resolution ∧ (k : ℝ) + (j : ℝ) / resolution ≤ r.offset.val ∧
    r.offset.val < (k : ℝ) + ((j : ℝ) + 1) / resolution

/-- `RSMP.TAKE n` completes with the outputs of `take(n)`, at most `n`; fewer only when the source has ended, and then
`eos = 1`; two takes in a row are one take of the sum, as commands too, in every number format (spec/45 R213, spec/60 R372,
spec/41 R144). -/
def Obligations.RsmpTake : Prop :=
  (∀ (s : State) (n : Count), s.mode = .ready → s.rs.created = true → s.opq = [] →
    leavesNumRange (.rsmpTake n) s = false →
    ∃ (out : List ExactReal) (t : State), takeSamples n.toNat s = (out, t) ∧ out.length ≤ n.toNat ∧
      (out.length < n.toNat → t.rs.eof = true) ∧
      exec (.rsmpTake n) s = .next (t.succeed (out.map Elem.real) t.rs.eof out.length)) ∧
  (∀ (a b : Nat) (s : State),
    let first := takeSamples a s
    takeSamples (a + b) s = if first.1.length = a then
      (first.1 ++ (takeSamples b first.2).1, (takeSamples b first.2).2) else first) ∧
  (∀ (s t u : State) (a b n : Count), s.mode = .ready → s.rs.created = true → s.opq = [] →
    n.toNat = a.toNat + b.toNat → exec (.rsmpTake a) s = .next t → t.rs.eof = false → exec (.rsmpTake b) t = .next u →
    ∃ v, exec (.rsmpTake n) s = .next v ∧ u.registers = v.registers ∧ u.resq = v.resq)

/-- One output of `RSMP.TAKE`: the window is filled up to `floor(RS_OFFSET) + width` from the padding and the source;
if that succeeds the output is the window times the bank's row for the phase, through the attached context, and the
offset advances; if the source ends, what was pulled stays in the window and nothing else changes (spec/45 R213). -/
def Obligations.RsmpTakeOne : Prop :=
  ∀ s : State, s.mode = .ready → s.rs.created = true → s.opq = [] → StreamInv s → s.rs.buff ≠ [] →
    leavesNumRange (.rsmpTake 1) s = false →
    let need := s.rs.offset.floor.toNat + s.cfg.width - s.rs.index
    let feed := List.replicate s.rs.pad (.rat 0) ++ s.src
    if need ≤ feed.length then
      let window := (s.rs.buff ++ feed.take need).drop need
      let part := (s.rs.offset.minus (.nat s.rs.offset.floor.toNat)).times (.nat s.cfg.resolution)
      let j := min (s.cfg.resolution - 1) (numValue (takeCalc s) .rsmpPhase 0 part).floor.toNat
      let filled : State := { s with
        src := s.src.drop (need - s.rs.pad)
        rs := { s.rs with buff := window, pad := s.rs.pad - need, index := s.rs.index + need } }
      let y := numValue (takeCalc filled) .rsmpDot 0 (dot (s.bank.getD j []) window)
      let moved : State := { filled with rs := { filled.rs with
        offset := numValue (takeCalc filled) .rsmpOffset 0 (s.rs.offset.plus s.rs.freq) } }
      exec (.rsmpTake 1) s = .next (match s.rs.eqsel with
        | none => moved.succeed [Elem.real y] s.rs.eof 1
        | some c =>
          let x := s.firCtx c
          let hist := (y :: x.hist).take x.ntaps
          (moved.setFirCtx c { x with hist := hist }).succeed
            [Elem.real (numValue ⟨.firRun c 1, moved.still [Elem.real y]⟩ .firStep 0 (dot x.h hist))] s.rs.eof 1)
    else
      exec (.rsmpTake 1) s = .next (({ s with
        src := [], srcEof := true
        rs := { s.rs with
          buff := (s.rs.buff ++ feed).drop feed.length, pad := 0, index := s.rs.index + feed.length, eof := true }
        } : State).succeed [] true 0)

/-- R214: after `RSMP.INIT`, with no `RSMP.WR` but of the frequency and no equalizer, output `t` is produced exactly when
`floor(width + 1 + t f) <= L`; at `f = 1` the outputs are the source samples themselves, `L - width` of them (as
expressions, which rests on the model's choice notes/assumptions/1.md). -/
def Obligations.TakeFromInit : Prop :=
  ∀ (s : State) (n : Nat), s.build.num = .reference → ConfigInv s → s.mode = .ready → s.srcEof = false →
    0 < s.rs.freq.val → s.rs = { (Sampler.init s.cfg.width) with freq := s.rs.freq } →
    let out := (takeSamples n s).1
    (∀ t < n, t < out.length ↔ ⌊(s.cfg.width : ℝ) + 1 + t * s.rs.freq.val⌋ ≤ (s.src.length : Int)) ∧
    (s.rs.freq = .rat 1 → out = s.src.take (min n (s.src.length - s.cfg.width)))

/-- `RSMP.WR` writes `RS_FREQ` when the value is positive and `RS_OFFSET` when it is not negative, faults with the
register number otherwise, and needs a sampler (spec/45 R216). -/
def Obligations.RsmpWr : Prop :=
  (∀ (s : State) (v : ExactReal), s.mode = .ready → s.rs.created = true → s.opq = [Elem.real v] →
    (0 < v.val →
      exec (.rsmpWr .freq) s = .next (({ s with rs := { s.rs with freq := v } } : State).succeed [] false 0)) ∧
    (v.val ≤ 0 → exec (.rsmpWr .freq) s = .next (s.failed 2 0)) ∧
    (0 ≤ v.val →
      exec (.rsmpWr .offset) s = .next (({ s with rs := { s.rs with offset := v } } : State).succeed [] false 0)) ∧
    (v.val < 0 → exec (.rsmpWr .offset) s = .next (s.failed 2 1))) ∧
  (∀ (s : State) (reg : WrReg), s.mode = .ready → s.rs.created = true →
    (s.opq = [] ∨ ∃ e rest, s.opq = e :: rest ∧ ElemType.accepts .r e = false) →
    exec (.rsmpWr reg) s = .next (s.failed 2 0)) ∧
  (∀ (s : State) (reg : WrReg), s.mode = .ready → s.rs.created = false →
    exec (.rsmpWr reg) s = .next (s.failed 7 0))

/-- `RSMP.RD` (R217) pushes the register, `RS_EQSEL` as 0 for none and `c + 1` for context `c`, and writes nothing. -/
def Obligations.RsmpRd : Prop :=
  (∀ (s : State) (reg : RdReg), s.mode = .ready → s.rs.created = true → s.opq = [] →
    exec (.rsmpRd reg) s = .next (s.succeed [match reg with
      | .freq => .r (.finite s.rs.freq)
      | .offset => .r (.finite s.rs.offset)
      | .index => .nat s.rs.index
      | .eqsel => .nat (match s.rs.eqsel with | none => 0 | some c => c.toNat + 1)] false 1)) ∧
  (∀ (s : State) (reg : RdReg), s.mode = .ready → s.opq ≠ [] → exec (.rsmpRd reg) s = .next (s.failed 2 0)) ∧
  (∀ (s : State) (reg : RdReg), s.mode = .ready → s.rs.created = false → s.opq = [] →
    exec (.rsmpRd reg) s = .next (s.failed 7 0)) ∧
  (∀ (s : State) (reg : RdReg), s.mode = .unconfigured →
    exec (.rsmpRd reg) s = .next (s.failed 3 (encode (.rsmpRd reg)).toNat)) ∧
  (∀ (w : CmdWord) (i : Instr), unitOf w = 7 → opOf w = 3 →
    (decode w = .ok i ↔ (selOf w).toNat ≤ 3 ∧ countOf w = 0 ∧ ∃ reg, i = .rsmpRd reg ∧ selOf w = RdReg.sel reg))

/-- `RSMP.ATTACH` (R218) and `RSMP.DETACH` (R219) write `RS_EQSEL` and nothing else. -/
def Obligations.AttachAndDetach : Prop :=
  (∀ (s : State) (c : Ctx), s.mode = .ready → c.toNat < s.build.nfir → s.opq = [] →
    (s.rs.created = false → exec (.rsmpAttach c) s = .next (s.failed 7 0)) ∧
    (s.rs.created = true → (s.firCtx c).ntaps = 0 → exec (.rsmpAttach c) s = .next (s.failed 6 c.toNat)) ∧
    (s.rs.created = true → (s.firCtx c).ntaps ≠ 0 → exec (.rsmpAttach c) s =
      .next (({ s with rs := { s.rs with eqsel := some c } } : State).succeed [] false 0))) ∧
  (∀ s : State, s.mode = .ready → s.opq = [] →
    (s.rs.created = false → exec .rsmpDetach s = .next (s.failed 7 0)) ∧
    (s.rs.created = true → exec .rsmpDetach s =
      .next (({ s with rs := { s.rs with eqsel := none } } : State).succeed [] false 0))) ∧
  (∀ (s : State) (c : Ctx), s.mode ≠ .faulted →
    (s.build.nfir ≤ c.toNat → exec (.rsmpAttach c) s = .next (s.failed 1 (encode (.rsmpAttach c)).toNat)) ∧
    (c.toNat < s.build.nfir → s.mode = .unconfigured →
      exec (.rsmpAttach c) s = .next (s.failed 3 (encode (.rsmpAttach c)).toNat)) ∧
    (s.mode = .unconfigured → exec .rsmpDetach s = .next (s.failed 3 0x75000000)) ∧
    (c.toNat < s.build.nfir → s.mode = .ready → s.opq ≠ [] → exec (.rsmpAttach c) s = .next (s.failed 2 0)) ∧
    (s.mode = .ready → s.opq ≠ [] → exec .rsmpDetach s = .next (s.failed 2 0)))

/-! ## Reed-Solomon -/

/-- `RSE.ENC` pushes the message followed by the parity bytes that make the word a codeword (spec/47 R261, R262). -/
def Obligations.RseEncMakesACodeword : Prop :=
  ∀ (s : State) (msg : List Byte), s.mode = .ready → s.cfg.parity ≤ 254 → s.rsGen = rsGenerator s.cfg.parity →
    msg.length = 255 - s.cfg.parity → s.opq = msg.map Elem.u8 →
    ∃ parity : List Byte, parity.length = s.cfg.parity ∧ IsCodeword s.cfg.parity (msg ++ parity) ∧
      exec .rseEnc s = .next (s.succeed ((msg ++ parity).map Elem.u8) false 255)

/-- What `RSD.DEC` does on a well-formed operand list: a codeword is returned unchanged, more erasures than parity
bytes fail, and whatever else it returns is the message of a codeword within the bound `2 e + s <= nsym`, with the
number of positions changed (spec/47 R263, R265 step 8, R266). -/
def Obligations.RsdDecIsSound : Prop :=
  ∀ (s : State) (ne : Count) (r : List Byte) (es : List Nat), s.mode = .ready → r.length = 255 →
    ne.toNat = es.length → ErasureList es → s.opq = r.map Elem.u8 ++ es.map Elem.nat →
    (s.cfg.parity < es.length → exec (.rsdDec ne) s = .next (s.failed 10 es.length)) ∧
    (es.length ≤ s.cfg.parity → IsCodeword s.cfg.parity r →
      exec (.rsdDec ne) s = .next (s.succeed ((r.take (255 - s.cfg.parity)).map Elem.u8) false 0)) ∧
    (exec (.rsdDec ne) s = .next (s.failed 10 es.length) ∨
      ∃ c, IsCodeword s.cfg.parity c ∧ 2 * errorCount es r c + es.length ≤ s.cfg.parity ∧
        exec (.rsdDec ne) s =
          .next (s.succeed ((c.take (255 - s.cfg.parity)).map Elem.u8) false (errorCount [] r c)))

/-- R263: if a codeword lies within the bound, `RSD.DEC` returns its message; the spec takes from general knowledge that
the algorithm of R265, which the model runs (notes/assumptions/13.md), never misses one. -/
def Obligations.RsdDecMissesNoCodeword : Prop :=
  ∀ (s : State) (ne : Count) (r c : List Byte) (es : List Nat), s.mode = .ready → 1 ≤ s.cfg.parity →
    s.cfg.parity ≤ 254 → r.length = 255 → ne.toNat = es.length → ErasureList es →
    s.opq = r.map Elem.u8 ++ es.map Elem.nat → IsCodeword s.cfg.parity c →
    2 * errorCount es r c + es.length ≤ s.cfg.parity →
    exec (.rsdDec ne) s = .next (s.succeed ((c.take (255 - s.cfg.parity)).map Elem.u8) false (errorCount [] r c))

/-! ## CRC -/

/-- R293 and R295: `CRC.RESET` and `CRC.READ`. -/
def Obligations.CrcResetAndRead : Prop :=
  (∀ s : State, s.mode ≠ .faulted → s.opq = [] →
    exec .crcReset s = .next (({ s with crcReg := 0xFFFFFFFF } : State).succeed [] false 0) ∧
    (let v := s.crcReg ^^^ 0xFFFFFFFF
     exec .crcRead s = .next (s.succeed [.u8 (((v >>> 24) &&& 0xFF).setWidth 8), .u8 (((v >>> 16) &&& 0xFF).setWidth 8),
       .u8 (((v >>> 8) &&& 0xFF).setWidth 8), .u8 ((v &&& 0xFF).setWidth 8)] false 4))) ∧
  (∀ s : State, s.mode ≠ .faulted → s.opq ≠ [] →
    exec .crcReset s = .next (s.failed 2 0) ∧ exec .crcRead s = .next (s.failed 2 0)) ∧
  (∀ (w : CmdWord) (i : Instr), unitOf w = 11 →
    (opOf w = 0 → (decode w = .ok i ↔ w = 0xB0000000 ∧ i = .crcReset)) ∧
    (opOf w = 2 → (decode w = .ok i ↔ w = 0xB2000000 ∧ i = .crcRead)))

/-- R294: `CRC.UPDATE` works its bytes into `CRC_REG`, in order and bit by bit; a list that is not exactly `n` bytes is
`BadOperands`; a message may be fed in pieces. -/
def Obligations.CrcUpdate : Prop :=
  (∀ (s : State) (n : Count) (bytes : List Byte), s.mode ≠ .faulted → n.toNat = bytes.length →
    s.opq = bytes.map Elem.u8 →
    exec (.crcUpdate n) s = .next (({ s with crcReg := crcFrom s.crcReg bytes } : State).succeed [] false 0)) ∧
  (∀ (s : State) (n : Count), s.mode ≠ .faulted → fits (List.replicate n.toNat .u8) s.opq = false →
    exec (.crcUpdate n) s = .next (s.failed 2 (firstBad (List.replicate n.toNat .u8) s.opq))) ∧
  (∀ (w : CmdWord) (i : Instr), unitOf w = 11 → opOf w = 1 →
    (decode w = .ok i ↔ selOf w = 0 ∧ i = .crcUpdate (countOf w))) ∧
  (∀ (reg : BitVec 32) (a b : List Byte), crcFrom reg (a ++ b) = crcFrom (crcFrom reg a) b)

/-- Flipping any single bit of a frame, the four CRC bytes and the payload, makes the CRC of the payload differ from
the four bytes (spec/48 R292, R296). -/
def Obligations.CrcDetectsEverySingleBit : Prop :=
  ∀ (payload crc payload' crc' : List Byte) (p : Nat) (i : Fin 8),
    crc = be32 (crcFrom 0xFFFFFFFF payload ^^^ 0xFFFFFFFF) → p < (crc ++ payload).length → crc'.length = 4 →
    crc' ++ payload' = (crc ++ payload).set p ((crc ++ payload).getD p 0 ^^^ (1 <<< i.val)) →
    be32 (crcFrom 0xFFFFFFFF payload' ^^^ 0xFFFFFFFF) ≠ crc'

/-! ## Operands, guards, value checks -/

/-- A command whose list does not fit raises `BadOperands` with the index of the first element that is missing, of the
wrong type, not finite or surplus, unless a value check of its pseudocode fails before; a command without operands
refuses any; a record of `SYS.CONFIG` that is cut short or goes wrong at element `k` raises `BadOperands` with index `k`,
unless a check on what was popped before fails first (spec/20 R62, spec/60 R362, R366, spec/49 R301; a surplus element of
`SYS.CONFIG` is in `SysConfig`). -/
def Obligations.OperandListsMustFit : Prop :=
  (∀ (i : Instr) (s : State) (types : List ElemType), operandTypes s i = some types → Accepted s i →
    PassesGuards s i → fits types s.opq = false → exec i s = .next (s.failed 2 (firstBad types s.opq))) ∧
  (∀ (i : Instr) (s : State), takesNone i = true → Accepted s i → s.opq ≠ [] → exec i s = .next (s.failed 2 0)) ∧
  (∀ (s : State) (c : Cfg) (k : Nat) (tail : List Elem), s.mode = .unconfigured → c.mult.length = c.nFreq →
    c.symbols.length = 2 ^ c.bitsPerSymbol → k < (configRecord c).length →
    (tail = [] ∨ ∃ e rest, tail = e :: rest ∧ (configType c k).accepts e = false) →
    s.opq = (configRecord c).take k ++ tail →
    exec .sysConfig s = .next (match firstFailingOf s.build c k with
      | some check => s.failed 5 check
      | none => s.failed 2 k))

/-- The checks made before the first pop: `FIR.LOAD` of a bad count, a context that is busy or not loaded, a biquad
that is not loaded, a sampler that is not created (spec/41 R141 to R143, R148; spec/45 R213; spec/70 R392, R401). -/
def Obligations.GuardsFault : Prop :=
  (∀ (s : State) (c : Ctx) (n : Count), s.mode ≠ .faulted → c.toNat < s.build.nfir →
    (n = 0 ∨ s.build.capTaps < n.toNat → exec (.firLoad c n) s = .next (s.failed 2 n.toNat)) ∧
    (n ≠ 0 → n.toNat ≤ s.build.capTaps → Attached s c → exec (.firLoad c n) s = .next (s.failed 8 c.toNat)) ∧
    ((s.firCtx c).ntaps = 0 → exec (.firRun c n) s = .next (s.failed 6 c.toNat)) ∧
    ((s.firCtx c).ntaps ≠ 0 → Attached s c → exec (.firRun c n) s = .next (s.failed 8 c.toNat)) ∧
    (s.iir.loaded = false → exec (.iirRun n) s = .next (s.failed 6 0xFF))) ∧
  (∀ (s : State) (n : Count), s.mode = .ready → s.rs.created = false → s.opq = [] →
    exec (.rsmpTake n) s = .next (s.failed 7 0) ∧ exec (.demodBlock false) s = .next (s.failed 7 0))

/-- The value checks of `TONE.COH`, `LSQ.SOLVE` and `RSD.DEC` (spec/42 R163, spec/43 R177, spec/47 R266; which of two
equal positions offends is notes/assumptions/22.md). -/
def Obligations.ValueChecksFault : Prop :=
  (∀ (s : State) (pilot : Bool), Accepted s (.toneCoh pilot 0) → exec (.toneCoh pilot 0) s = .next (s.failed 2 0)) ∧
  (∀ (s : State) (order lookahead : BitVec 10), s.mode ≠ .faulted →
    let taps := order.toNat + lookahead.toNat
    (order = 0 ∨ s.build.capTaps < taps → exec (.lsqSolve order lookahead) s = .next (s.failed 2 taps)) ∧
    (order ≠ 0 → taps ≤ s.build.capTaps → ∀ (ls le : Nat) (rest : List Elem), s.opq = .nat ls :: .nat le :: rest →
      (le ≤ lookahead.toNat → exec (.lsqSolve order lookahead) s = .next (s.failed 2 le)) ∧
      (lookahead.toNat < le → ls + lookahead.toNat < le →
        exec (.lsqSolve order lookahead) s = .next (s.failed 2 ls)))) ∧
  (∀ (s : State) (ne : Count) (r : List Byte) (es : List Nat) (i : Nat), s.mode = .ready → r.length = 255 →
    ne.toNat = es.length → s.opq = r.map Elem.u8 ++ es.map Elem.nat → i < es.length →
    ErasureList (es.take i) → ¬ ErasureList (es.take (i + 1)) → exec (.rsdDec ne) s = .next (s.failed 2 i))

/-! ## Frames -/

/-- The commands with no register to write leave every register, and but for a fault `MODE`, `FAULT` and `FAULT_INFO`
(spec/49 R300, R303; spec/40 R122, R124; spec/42 R163; spec/43 R177; spec/44 R192; spec/45 R217; spec/46 R242, R243;
spec/47 R262, R266; spec/48 R295: "State written: none"). -/
def Obligations.FrameOfStatelessCommands : Prop :=
  ∀ (i : Instr) (s t : State), exec i s = .next t →
    (i = .sysNop ∨ i = .sysStatus ∨ (∃ n, i = .qamMap n) ∨ (∃ r n, i = .qamDemap r n) ∨ (∃ p n, i = .toneCoh p n) ∨
      (∃ o l, i = .lsqSolve o l) ∨ i = .demodBlock true ∨ (∃ r, i = .rsmpRd r) ∨ i = .modBlock ∨ i = .modPilot ∨
      i = .rseEnc ∨ (∃ n, i = .rsdDec n) ∨ i = .crcRead) →
    t.registers = s.registers ∧ SameStatusOrFault s t

/-- `FIR.*` write one context, `FIR.RUN` its history only; `IIR.*` write the biquad, `IIR.RUN` its histories only;
`CRC.RESET` and `CRC.UPDATE` write `CRC_REG`; nothing else changes (spec/41 R142, R143, R147, R148; spec/48 R293,
R294). -/
def Obligations.FrameOfFiltersAndCrc : Prop :=
  ∀ (i : Instr) (s t : State), exec i s = .next t →
    ((∃ c n, i = .firLoad c n ∨ i = .firRun c n) → t.registers = { s.registers with fir := t.fir }) ∧
    (∀ c n, (i = .firLoad c n ∨ i = .firRun c n) → ∀ d, d ≠ c → t.firCtx d = s.firCtx d) ∧
    (∀ c n, i = .firRun c n → (t.firCtx c).ntaps = (s.firCtx c).ntaps ∧ (t.firCtx c).h = (s.firCtx c).h) ∧
    ((i = .iirLoad ∨ ∃ n, i = .iirRun n) → t.registers = { s.registers with iir := t.iir }) ∧
    (∀ n, i = .iirRun n → t.iir = { s.iir with
      xh0 := t.iir.xh0, xh1 := t.iir.xh1, xh2 := t.iir.xh2, yh0 := t.iir.yh0, yh1 := t.iir.yh1 }) ∧
    ((i = .crcReset ∨ ∃ n, i = .crcUpdate n) → t.registers = { s.registers with crcReg := t.crcReg }) ∧
    ((∃ c n, i = .firLoad c n ∨ i = .firRun c n) ∨ (i = .iirLoad ∨ ∃ n, i = .iirRun n) ∨
      (i = .crcReset ∨ ∃ n, i = .crcUpdate n) → SameStatusOrFault s t)

/-- `RSMP.INIT` writes `RS_*` only; `RSMP.WR` the one register; `RSMP.ATTACH` and `RSMP.DETACH` `RS_EQSEL` only
(spec/45 R212, R216, R218, R219). -/
def Obligations.FrameOfSamplerRegisters : Prop :=
  ∀ (i : Instr) (s t : State), exec i s = .next t →
    ((i = .rsmpInit ∨ (∃ r, i = .rsmpWr r) ∨ (∃ c, i = .rsmpAttach c) ∨ i = .rsmpDetach) →
      t.registers = { s.registers with rs := t.rs } ∧ SameStatusOrFault s t) ∧
    (i = .rsmpWr .freq → t.rs = { s.rs with freq := t.rs.freq }) ∧
    (i = .rsmpWr .offset → t.rs = { s.rs with offset := t.rs.offset }) ∧
    ((∃ c, i = .rsmpAttach c) ∨ i = .rsmpDetach → t.rs = { s.rs with eqsel := t.rs.eqsel })

/-- `RSMP.TAKE` and `DEMOD.BLOCK` write the window, its counts, the offset, `RS_EOF` and the history of the attached
context, and take samples from the head of `SRC`; the window never moves back (spec/45 R213, R215; spec/44 R192). -/
def Obligations.FrameOfTake : Prop :=
  ∀ (i : Instr) (s t : State), exec i s = .next t → ((∃ n, i = .rsmpTake n) ∨ ∃ d, i = .demodBlock d) →
    t.registers = { s.registers with rs := t.rs, fir := t.fir, src := t.src, srcEof := t.srcEof } ∧
    SameStatusOrFault s t ∧
    t.rs = { s.rs with
      buff := t.rs.buff, pad := t.rs.pad, index := t.rs.index, offset := t.rs.offset, eof := t.rs.eof } ∧
    s.rs.index ≤ t.rs.index ∧ (∃ pulled, s.src = pulled ++ t.src) ∧
    (∀ c, s.rs.eqsel ≠ some c → t.firCtx c = s.firCtx c) ∧
    (∀ c, (t.firCtx c).ntaps = (s.firCtx c).ntaps ∧ (t.firCtx c).h = (s.firCtx c).h)

/-- Only `SYS.CONFIG` and `SYS.RESET` write the configuration and its tables, and `SYS.CONFIG` writes nothing else but
`MODE`; no command writes a build parameter (spec/10 R24; spec/49 R301; spec/00 R6). -/
def Obligations.FrameOfConfiguration : Prop :=
  ∀ (i : Instr) (s t : State), exec i s = .next t →
    t.build = s.build ∧
    (i ≠ .sysConfig → i ≠ .sysReset →
      t.cfg = s.cfg ∧ t.carrier = s.carrier ∧ t.qam = s.qam ∧ t.bank = s.bank ∧ t.rsGen = s.rsGen) ∧
    (i = .sysConfig → t.registers = { s.registers with
      cfg := t.cfg, carrier := t.carrier, qam := t.qam, bank := t.bank, rsGen := t.rsGen })
end

