-- ==== Sys2Proof/Laws/Decode.lean ====
section
/-!
SUPPORT. The fields of a word built from fields, and a word rebuilt from its fields (spec/30 R90).
-/

namespace Sys2Proof

@[simp] theorem unitOf_formatN (u o s : BitVec 4) (n : Count) : unitOf (formatN u o s n) = u := by
  ext i hi
  simp only [unitOf, formatN, BitVec.getElem_extractLsb', BitVec.getLsbD_append]
  rw [if_neg (by omega), if_neg (by omega), if_neg (by omega)]
  rw [show 28 + i - 20 - 4 - 4 = i by omega, BitVec.getLsbD_eq_getElem hi]

@[simp] theorem opOf_formatN (u o s : BitVec 4) (n : Count) : opOf (formatN u o s n) = o := by
  ext i hi
  simp only [opOf, formatN, BitVec.getElem_extractLsb', BitVec.getLsbD_append]
  rw [if_neg (by omega), if_neg (by omega), if_pos (by omega)]
  rw [show 24 + i - 20 - 4 = i by omega, BitVec.getLsbD_eq_getElem hi]

@[simp] theorem selOf_formatN (u o s : BitVec 4) (n : Count) : selOf (formatN u o s n) = s := by
  ext i hi
  simp only [selOf, formatN, BitVec.getElem_extractLsb', BitVec.getLsbD_append]
  rw [if_neg (by omega), if_pos (by omega)]
  rw [show 20 + i - 20 = i by omega, BitVec.getLsbD_eq_getElem hi]

@[simp] theorem countOf_formatN (u o s : BitVec 4) (n : Count) : countOf (formatN u o s n) = n := by
  ext i hi
  simp only [countOf, formatN, BitVec.getElem_extractLsb', BitVec.getLsbD_append]
  rw [if_pos (by omega), show 0 + i = i by omega, BitVec.getLsbD_eq_getElem hi]

/-- Format L is format N with `lookahead` and `order` in place of `n` (R90, R93). -/
theorem formatL_eq (u o s : BitVec 4) (la ord : BitVec 10) : formatL u o s la ord = formatN u o s (la ++ ord) := by
  apply BitVec.eq_of_getLsbD_eq
  intro i hi
  simp only [formatL, formatN, BitVec.getLsbD_append]
  split_ifs <;> first | rfl | omega

@[simp] theorem lookaheadOf_formatL (u o s : BitVec 4) (la ord : BitVec 10) :
    lookaheadOf (formatL u o s la ord) = la := by
  ext i hi
  simp only [lookaheadOf, formatL, BitVec.getElem_extractLsb', BitVec.getLsbD_append]
  rw [if_neg (by omega), if_pos (by omega), show 10 + i - 10 = i by omega, BitVec.getLsbD_eq_getElem hi]

@[simp] theorem orderOf_formatL (u o s : BitVec 4) (la ord : BitVec 10) :
    Sys2Proof.orderOf (formatL u o s la ord) = ord := by
  ext i hi
  simp only [Sys2Proof.orderOf, formatL, BitVec.getElem_extractLsb', BitVec.getLsbD_append]
  rw [if_pos (by omega), show 0 + i = i by omega, BitVec.getLsbD_eq_getElem hi]

@[simp] theorem unitOf_formatL (u o s : BitVec 4) (la ord : BitVec 10) : unitOf (formatL u o s la ord) = u := by
  rw [formatL_eq, unitOf_formatN]

@[simp] theorem opOf_formatL (u o s : BitVec 4) (la ord : BitVec 10) : opOf (formatL u o s la ord) = o := by
  rw [formatL_eq, opOf_formatN]

@[simp] theorem selOf_formatL (u o s : BitVec 4) (la ord : BitVec 10) : selOf (formatL u o s la ord) = s := by
  rw [formatL_eq, selOf_formatN]

/-- A word is the word of its four fields. -/
theorem formatN_fields (w : CmdWord) : formatN (unitOf w) (opOf w) (selOf w) (countOf w) = w := by
  apply BitVec.eq_of_getLsbD_eq
  intro i hi
  simp only [formatN, unitOf, opOf, selOf, countOf, BitVec.getLsbD_append, BitVec.getLsbD_extractLsb']
  split_ifs <;> (rw [decide_eq_true (by omega), Bool.true_and]; congr 1; omega)

theorem formatL_fields (w : CmdWord) :
    formatL (unitOf w) (opOf w) (selOf w) (lookaheadOf w) (Sys2Proof.orderOf w) = w := by
  rw [formatL_eq]
  have h : lookaheadOf w ++ Sys2Proof.orderOf w = countOf w := by
    apply BitVec.eq_of_getLsbD_eq
    intro i hi
    simp only [lookaheadOf, Sys2Proof.orderOf, countOf, BitVec.getLsbD_append, BitVec.getLsbD_extractLsb']
    split_ifs
    · rw [decide_eq_true (by omega), decide_eq_true (by omega)]
    · rw [decide_eq_true (by omega), decide_eq_true (by omega), Bool.true_and, Bool.true_and]
      congr 1
      omega
  rw [h, formatN_fields]

end Sys2Proof
end

