-- ==== Sys2Proof/Laws/Reals.lean ====
section
/-!
SUPPORT. What the operations on exact reals do to the numbers the expressions stand for, and that enclosures enclose.
-/

namespace Sys2Proof

/-! ## Operations -/

@[simp] theorem ExactReal.val_rat (q : Rat) : (ExactReal.rat q).val = (q : ℝ) := rfl
@[simp] theorem ExactReal.val_pi : ExactReal.pi.val = Real.pi := rfl
@[simp] theorem ExactReal.val_nat (n : Nat) : (ExactReal.nat n).val = (n : ℝ) := by simp [ExactReal.nat]

@[simp] theorem ExactReal.val_plus (x y : ExactReal) : (x.plus y).val = x.val + y.val := by
  unfold ExactReal.plus
  split
  · simp
  · split_ifs with h <;> simp [h, ExactReal.val]
  · split_ifs with h <;> simp [h, ExactReal.val]
  · rfl

@[simp] theorem ExactReal.val_times (x y : ExactReal) : (x.times y).val = x.val * y.val := by
  unfold ExactReal.times
  split
  · simp
  · split_ifs <;> simp [*, ExactReal.val]
  · split_ifs <;> simp [*, ExactReal.val]
  · rfl

@[simp] theorem ExactReal.val_negate (x : ExactReal) : x.negate.val = -x.val := by simp [ExactReal.negate]

@[simp] theorem ExactReal.val_minus (x y : ExactReal) : (x.minus y).val = x.val - y.val := by
  unfold ExactReal.minus
  split_ifs with h
  · simp [h]
  · simp [sub_eq_add_neg]

@[simp] theorem ExactReal.val_inverse (x : ExactReal) : x.inverse.val = x.val⁻¹ := by
  cases x <;> simp [ExactReal.inverse, ExactReal.val]

@[simp] theorem ExactReal.val_over (x y : ExactReal) : (x.over y).val = x.val / y.val := by
  simp [ExactReal.over, div_eq_mul_inv]

@[simp] theorem ExactReal.sum_nil : ExactReal.sum [] = .rat 0 := rfl
@[simp] theorem ExactReal.sum_cons (x : ExactReal) (xs : List ExactReal) :
    ExactReal.sum (x :: xs) = x.plus (ExactReal.sum xs) := rfl

@[simp] theorem ExactReal.val_sum (xs : List ExactReal) : (ExactReal.sum xs).val = (xs.map ExactReal.val).sum := by
  induction xs with
  | nil => simp
  | cons x xs ih => simp [ih]

@[simp] theorem Cplx.val_zero : Cplx.zero.val = 0 := by simp [Cplx.val, Cplx.zero, Complex.ext_iff]
@[simp] theorem Cplx.val_add (z w : Cplx) : (z.add w).val = z.val + w.val := by
  simp [Cplx.val, Cplx.add, Complex.ext_iff]
@[simp] theorem Cplx.val_mul (z w : Cplx) : (z.mul w).val = z.val * w.val := by
  simp [Cplx.val, Cplx.mul, Complex.ext_iff]
@[simp] theorem Cplx.val_conj (z : Cplx) : z.conj.val = (starRingEnd ℂ) z.val := by
  simp [Cplx.val, Cplx.conj, Complex.ext_iff]
@[simp] theorem Cplx.val_scale (x : ExactReal) (z : Cplx) : (z.scale x).val = (x.val : ℂ) * z.val := by
  simp [Cplx.val, Cplx.scale, Complex.ext_iff]
@[simp] theorem Cplx.val_sum (zs : List Cplx) : (Cplx.sum zs).val = (zs.map Cplx.val).sum := by
  induction zs with
  | nil => simp [Cplx.sum]
  | cons z zs ih => simpa [Cplx.sum] using ih

/-! ## Enclosures -/

/-- The number lies in the interval. -/
def Enclosure.Holds (a : Enclosure) (v : ℝ) : Prop := (a.lo : ℝ) ≤ v * unitParts ∧ v * unitParts ≤ a.hi

theorem unitParts_pos : (0 : ℝ) < unitParts := by simp [unitParts]

/-- A quotient of integers lies between its integer part and the next integer. -/
theorem intDiv_bounds (n d : Int) (hd : 0 < d) : ((n / d : Int) : ℝ) ≤ (n : ℝ) / d ∧ (n : ℝ) / d ≤ (n / d : Int) + 1 := by
  have hd' : (0 : ℝ) < d := by exact_mod_cast hd
  have h1 : d * (n / d) ≤ n := Int.mul_ediv_self_le hd.ne'
  have h2 : n < d * (n / d) + d := Int.lt_mul_ediv_self_add hd
  constructor
  · rw [le_div_iff₀ hd']; rw [mul_comm]; exact_mod_cast h1
  · rw [div_le_iff₀ hd']
    have : (n : ℝ) < d * (n / d : Int) + d := by exact_mod_cast h2
    nlinarith

theorem Enclosure.ofRat_holds (q : Rat) : (Enclosure.ofRat q).Holds q := by
  have h := intDiv_bounds (q.num * unitParts) q.den (by exact_mod_cast q.den_pos)
  have hq : (q : ℝ) * unitParts = ((q.num * unitParts : Int) : ℝ) / ((q.den : Int) : ℝ) := by
    rw [Rat.cast_def q]; push_cast; ring
  unfold Enclosure.Holds Enclosure.ofRat
  rw [hq]
  exact ⟨h.1, by push_cast at h ⊢; exact h.2⟩

theorem Enclosure.pi_holds : Enclosure.pi.Holds Real.pi := by
  have hu := unitParts_pos
  have h1 := intDiv_bounds (314159265358979323846 * unitParts) (10 ^ 20) (by norm_num)
  have h2 := intDiv_bounds (314159265358979323847 * unitParts) (10 ^ 20) (by norm_num)
  have l : (314159265358979323846 : ℝ) ≤ Real.pi * 100000000000000000000 := by
    have := Real.pi_gt_d20
    norm_num at this ⊢
    linarith
  have r : Real.pi * 100000000000000000000 ≤ (314159265358979323847 : ℝ) := by
    have := Real.pi_lt_d20
    norm_num at this ⊢
    linarith
  unfold Enclosure.Holds Enclosure.pi
  constructor
  · refine h1.1.trans ?_
    push_cast
    rw [div_le_iff₀ (by norm_num)]
    nlinarith
  · have h := h2.2
    push_cast at h ⊢
    rw [div_le_iff₀ (by norm_num)] at h
    nlinarith

theorem Enclosure.add_holds {a b : Enclosure} {v w : ℝ} (ha : a.Holds v) (hb : b.Holds w) : (a.add b).Holds (v + w) := by
  unfold Enclosure.Holds Enclosure.add at *
  push_cast
  constructor <;> nlinarith [ha.1, ha.2, hb.1, hb.2]

theorem Enclosure.neg_holds {a : Enclosure} {v : ℝ} (ha : a.Holds v) : a.neg.Holds (-v) := by
  unfold Enclosure.Holds Enclosure.neg at *
  push_cast
  constructor <;> nlinarith [ha.1, ha.2]

/-- The product of two numbers lies between the least and the greatest product of the ends. -/
theorem mul_between {a b c d x y : ℝ} (hx : a ≤ x ∧ x ≤ b) (hy : c ≤ y ∧ y ≤ d) :
    min (min (a * c) (a * d)) (min (b * c) (b * d)) ≤ x * y ∧
      x * y ≤ max (max (a * c) (a * d)) (max (b * c) (b * d)) := by
  have h1 : min (a * y) (b * y) ≤ x * y ∧ x * y ≤ max (a * y) (b * y) := by
    rcases le_total 0 y with h | h
    · exact ⟨(min_le_left _ _).trans (mul_le_mul_of_nonneg_right hx.1 h),
        (mul_le_mul_of_nonneg_right hx.2 h).trans (le_max_right _ _)⟩
    · exact ⟨(min_le_right _ _).trans (mul_le_mul_of_nonpos_right hx.2 h),
        (mul_le_mul_of_nonpos_right hx.1 h).trans (le_max_left _ _)⟩
  have h2 : ∀ z : ℝ, min (z * c) (z * d) ≤ z * y ∧ z * y ≤ max (z * c) (z * d) := by
    intro z
    rcases le_total 0 z with h | h
    · exact ⟨(min_le_left _ _).trans (mul_le_mul_of_nonneg_left hy.1 h),
        (mul_le_mul_of_nonneg_left hy.2 h).trans (le_max_right _ _)⟩
    · exact ⟨(min_le_right _ _).trans (mul_le_mul_of_nonpos_left hy.2 h),
        (mul_le_mul_of_nonpos_left hy.1 h).trans (le_max_left _ _)⟩
  exact ⟨(min_le_min (h2 a).1 (h2 b).1).trans h1.1, h1.2.trans (max_le_max (h2 a).2 (h2 b).2)⟩

theorem Enclosure.mul_holds {a b : Enclosure} {v w : ℝ} (ha : a.Holds v) (hb : b.Holds w) : (a.mul b).Holds (v * w) := by
  have hu := unitParts_pos
  have h := mul_between ha hb
  have hi : (0 : Int) < unitParts := by simp [unitParts]
  unfold Enclosure.Holds Enclosure.mul
  have e : v * w * unitParts = v * unitParts * (w * unitParts) / unitParts := by field_simp
  rw [e]
  constructor
  · refine (intDiv_bounds _ _ hi).1.trans ?_
    push_cast
    exact div_le_div_of_nonneg_right h.1 hu.le
  · have := (div_le_div_of_nonneg_right h.2 hu.le)
    refine this.trans ?_
    have h2 := (intDiv_bounds (max (max (a.lo * b.lo) (a.lo * b.hi)) (max (a.hi * b.lo) (a.hi * b.hi))) _ hi).2
    push_cast at h2 ⊢
    exact h2

theorem Enclosure.invPos_holds {a : Enclosure} {v : ℝ} (ha : a.Holds v) (h0 : 0 < a.lo) : a.invPos.Holds v⁻¹ := by
  have hu := unitParts_pos
  have hl : (0 : ℝ) < a.lo := by exact_mod_cast h0
  have hv : 0 < v * unitParts := hl.trans_le ha.1
  have hh : (0 : ℝ) < a.hi := hv.trans_le ha.2
  have e : v⁻¹ * unitParts = unitParts * unitParts / (v * unitParts) := by
    have : v ≠ 0 := by rintro rfl; simp at hv
    field_simp
  unfold Enclosure.Holds Enclosure.invPos
  rw [e]
  constructor
  · refine (intDiv_bounds _ _ (by exact_mod_cast hh)).1.trans ?_
    push_cast
    exact div_le_div_of_nonneg_left (by positivity) hv ha.2
  · refine (div_le_div_of_nonneg_left (by positivity) hl ha.1).trans ?_
    have := (intDiv_bounds (unitParts * unitParts) a.lo h0).2
    push_cast at this ⊢
    exact this

theorem Enclosure.inv_holds {a b : Enclosure} {v : ℝ} (ha : a.Holds v) (h : a.inv = some b) : b.Holds v⁻¹ := by
  unfold Enclosure.inv at h
  split_ifs at h with h1 h2
  · cases h; exact invPos_holds ha h1
  · cases h
    have := Enclosure.neg_holds (invPos_holds (neg_holds ha) (by simpa [Enclosure.neg] using h2))
    simpa [inv_neg] using this

/-- The integer square root from a start, one bit at a time. -/
theorem isqrtFrom_spec : ∀ (k n r : Nat), r * r ≤ n → n < (r + 2 ^ k) * (r + 2 ^ k) →
    isqrtFrom k n r * isqrtFrom k n r ≤ n ∧ n < (isqrtFrom k n r + 1) * (isqrtFrom k n r + 1) := by
  intro k
  induction k with
  | zero => intro n r h1 h2; exact ⟨h1, by simpa [isqrtFrom] using h2⟩
  | succ k ih =>
    intro n r h1 h2
    unfold isqrtFrom
    split_ifs with h
    · refine ih n _ h ?_
      have e : r + 2 ^ k + 2 ^ k = r + 2 ^ (k + 1) := by rw [pow_succ]; omega
      rwa [e]
    · exact ih n r h1 (by omega)

theorem isqrt_spec (n : Nat) : isqrt n * isqrt n ≤ n ∧ n < (isqrt n + 1) * (isqrt n + 1) := by
  refine isqrtFrom_spec _ n 0 (by simp) ?_
  have h : n < 2 ^ (n.log2 + 1) := Nat.lt_log2_self
  refine h.trans_le ?_
  rw [zero_add, ← pow_add]
  exact Nat.pow_le_pow_right (by norm_num) (by omega)

theorem Enclosure.sqrt_holds {a : Enclosure} {v : ℝ} (ha : a.Holds v) : a.sqrt.Holds (Real.sqrt v) := by
  have hu := unitParts_pos
  have hi : (0 : Int) ≤ unitParts := by simp [unitParts]
  have e : Real.sqrt v * unitParts = Real.sqrt (v * unitParts * unitParts) := by
    rw [mul_assoc, Real.sqrt_mul' _ (by positivity), Real.sqrt_mul_self hu.le]
  unfold Enclosure.Holds Enclosure.sqrt
  rw [e]
  have toNat_le : ∀ z : Int, ((z.toNat : Nat) : ℝ) = max (z : ℝ) 0 := by
    intro z
    have : ((z.toNat : Nat) : Int) = max z 0 := Int.toNat_eq_max z
    have h2 : (((z.toNat : Nat) : Int) : ℝ) = ((max z 0 : Int) : ℝ) := by rw [this]
    push_cast at h2
    simpa using h2
  constructor
  · have h := (isqrt_spec (a.lo * unitParts).toNat).1
    have h' : ((isqrt (a.lo * unitParts).toNat : Nat) : ℝ) * (isqrt (a.lo * unitParts).toNat : Nat)
        ≤ max ((a.lo : ℝ) * unitParts) 0 := by
      have := toNat_le (a.lo * unitParts)
      push_cast at this
      rw [← this]
      exact_mod_cast h
    push_cast
    rcases le_total ((a.lo : ℝ) * unitParts) 0 with h0 | h0
    · rw [max_eq_right h0] at h'
      have : ((isqrt (a.lo * unitParts).toNat : Nat) : ℝ) = 0 := by
        have h3 := mul_self_nonneg ((isqrt (a.lo * unitParts).toNat : Nat) : ℝ)
        exact mul_self_eq_zero.mp (le_antisymm h' h3)
      rw [this]
      exact Real.sqrt_nonneg _
    · rw [max_eq_left h0] at h'
      refine Real.le_sqrt_of_sq_le ?_
      rw [pow_two]
      exact h'.trans (mul_le_mul_of_nonneg_right ha.1 hu.le)
  · have h := (isqrt_spec (a.hi * unitParts).toNat).2
    have h' : (a.hi : ℝ) * unitParts ≤ ((isqrt (a.hi * unitParts).toNat : Nat) + 1 : ℝ) ^ 2 := by
      have h1 := toNat_le (a.hi * unitParts)
      push_cast at h1
      refine (le_max_left _ 0).trans ?_
      rw [← h1, pow_two]
      exact_mod_cast h.le
    push_cast
    refine Real.sqrt_le_iff.mpr ⟨by positivity, ?_⟩
    exact (mul_le_mul_of_nonneg_right ha.2 hu.le).trans h'

theorem Enclosure.cosSmall_holds (m : Int) (hm : m.natAbs ≤ unitParts.natAbs * 2 ^ cosHalvings) :
    (Enclosure.cosSmall m).Holds (Real.cos ((m : ℝ) / (unitParts * 2 ^ cosHalvings))) := by
  have hu := unitParts_pos
  have hk : (0 : ℝ) < 2 ^ cosHalvings := by positivity
  set y : ℝ := (m : ℝ) / (unitParts * 2 ^ cosHalvings) with hy
  have hab : |y| ≤ 1 := by
    rw [hy, abs_div, abs_of_pos (mul_pos hu hk), div_le_one (mul_pos hu hk)]
    have h1 : (m.natAbs : ℝ) ≤ (unitParts.natAbs : ℝ) * 2 ^ cosHalvings := by exact_mod_cast hm
    have h2 : ∀ z : Int, ((z.natAbs : Nat) : ℝ) = |(z : ℝ)| := by
      intro z
      rw [Nat.cast_natAbs]
      simp
    rw [h2, h2, abs_of_pos hu] at h1
    exact h1
  have hb := Real.cos_bound hab
  have e1 : (1 - y ^ 2 / 2) * unitParts = unitParts - (m : ℝ) ^ 2 / (2 * unitParts * 4 ^ cosHalvings) := by
    have : (4 : ℝ) ^ cosHalvings = 2 ^ cosHalvings * 2 ^ cosHalvings := by rw [← mul_pow]; norm_num
    rw [hy, this]
    field_simp
  have e2 : |y| ^ 4 * (5 / 96) * unitParts = 5 * (m : ℝ) ^ 4 / (96 * unitParts ^ 3 * 16 ^ cosHalvings) := by
    have h16 : (16 : ℝ) ^ cosHalvings = (2 ^ cosHalvings) ^ 4 := by rw [← pow_mul, mul_comm, pow_mul]; norm_num
    have h4 : |y| ^ 4 = y ^ 4 := Even.pow_abs (by decide) y
    rw [h4, hy, h16]
    field_simp
  have d1 := intDiv_bounds (m ^ 2) (2 * unitParts * 4 ^ cosHalvings) (by
    have : (0 : Int) < unitParts := by simp [unitParts]
    positivity)
  have d2 := intDiv_bounds (5 * m ^ 4) (96 * unitParts ^ 3 * 16 ^ cosHalvings) (by
    have : (0 : Int) < unitParts := by simp [unitParts]
    positivity)
  rw [abs_le] at hb
  have l := mul_le_mul_of_nonneg_right hb.1 hu.le
  have r := mul_le_mul_of_nonneg_right hb.2 hu.le
  rw [sub_mul, e1, neg_mul, e2] at l
  rw [sub_mul, e1, e2] at r
  push_cast at d1 d2
  unfold Enclosure.Holds Enclosure.cosSmall
  push_cast
  constructor <;> linarith [d1.1, d1.2, d2.1, d2.2]

theorem Enclosure.cosDouble_holds : ∀ (k : Nat) (a : Enclosure) (x : ℝ), a.Holds (Real.cos x) →
    (Enclosure.cosDouble k a).Holds (Real.cos (2 ^ k * x)) := by
  intro k
  induction k with
  | zero => intro a x h; simpa [Enclosure.cosDouble] using h
  | succ k ih =>
    intro a x h
    have h2 := mul_holds h h
    have e : (2 : ℝ) ^ (k + 1) * x = 2 ^ k * (2 * x) := by ring
    rw [e]
    refine ih _ _ ?_
    unfold Enclosure.Holds at h2 ⊢
    rw [Real.cos_two_mul]
    push_cast
    constructor <;> nlinarith [h2.1, h2.2]

theorem Enclosure.cos_holds {a b : Enclosure} {v : ℝ} (ha : a.Holds v) (h : a.cos = some b) : b.Holds (Real.cos v) := by
  have hu := unitParts_pos
  unfold Enclosure.cos at h
  simp only at h
  split_ifs at h with hm
  rw [Option.some.injEq] at h
  subst h
  set m := (a.lo + a.hi) / 2 with hmd
  have hc := cosDouble_holds cosHalvings _ _ (cosSmall_holds m hm)
  have e : 2 ^ cosHalvings * ((m : ℝ) / (unitParts * 2 ^ cosHalvings)) = m / unitParts := by field_simp
  rw [e] at hc
  have hr : |v - m / unitParts| * unitParts ≤ (max (a.hi - m) (m - a.lo) : Int) := by
    rw [← abs_of_pos hu, ← abs_mul, sub_mul, abs_of_pos hu, div_mul_cancel₀ _ hu.ne']
    push_cast
    rw [abs_le]
    exact ⟨by linarith [le_max_right ((a.hi : ℝ) - m) (m - a.lo), ha.1],
      by linarith [le_max_left ((a.hi : ℝ) - m) (m - a.lo), ha.2]⟩
  have hl : |Real.cos v - Real.cos (m / unitParts)| ≤ |v - m / unitParts| := by
    simpa using Real.abs_cos_sub_cos_le v (m / unitParts)
  have hd := (mul_le_mul_of_nonneg_right hl hu.le).trans hr
  rw [← abs_of_pos hu, ← abs_mul, sub_mul, abs_of_pos hu, abs_le] at hd
  unfold Enclosure.Holds at hc ⊢
  push_cast at hd ⊢
  constructor <;> linarith [hc.1, hc.2, hd.1, hd.2]

/-- The interval of an expression holds its number. -/
theorem ExactReal.enclosure_holds : ∀ (x : ExactReal) (a : Enclosure), x.enclosure = some a → a.Holds x.val := by
  intro x
  induction x with
  | rat q => intro a h; cases h; exact Enclosure.ofRat_holds q
  | pi => intro a h; cases h; exact Enclosure.pi_holds
  | add x y hx hy =>
    intro a h
    unfold ExactReal.enclosure at h
    split at h
    · rename_i b c h1 h2
      cases h
      exact Enclosure.add_holds (hx b h1) (hy c h2)
    · cases h
  | mul x y hx hy =>
    intro a h
    unfold ExactReal.enclosure at h
    split at h
    · rename_i b c h1 h2
      cases h
      exact Enclosure.mul_holds (hx b h1) (hy c h2)
    · cases h
  | inv x hx =>
    intro a h
    unfold ExactReal.enclosure at h
    split at h
    · rename_i b h1
      exact Enclosure.inv_holds (hx b h1) h
    · cases h
  | sqrt x hx =>
    intro a h
    unfold ExactReal.enclosure at h
    split at h
    · rename_i b h1
      cases h
      exact Enclosure.sqrt_holds (hx b h1)
    · cases h
  | cos x hx =>
    intro a h
    unfold ExactReal.enclosure at h
    split at h
    · rename_i b h1
      exact Enclosure.cos_holds (hx b h1) h
    · cases h
  | sin x hx =>
    intro a h
    unfold ExactReal.enclosure at h
    split at h
    · rename_i b h1
      have hp := Enclosure.mul_holds (Enclosure.ofRat_holds (1 / 2)) Enclosure.pi_holds
      have hs := Enclosure.cos_holds (Enclosure.add_holds (hx b h1) (Enclosure.neg_holds hp)) h
      have e : x.val + -(((1 / 2 : Rat) : ℝ) * Real.pi) = x.val - Real.pi / 2 := by push_cast; ring
      rw [e, Real.cos_sub_pi_div_two] at hs
      exact hs
    · cases h
  | cosTurn t =>
    intro a h
    have hp := Enclosure.mul_holds (Enclosure.ofRat_holds (2 * t)) Enclosure.pi_holds
    have hs := Enclosure.cos_holds hp h
    have e : (((2 * t : Rat) : ℝ) * Real.pi) = 2 * Real.pi * t := by push_cast; ring
    rw [e] at hs
    exact hs

/-! ## Tests -/

/-- The integer part of a rational number is exact. -/
@[simp] theorem ExactReal.floor_rat (q : Rat) : (ExactReal.rat q).floor = ⌊(q : ℝ)⌋ := by
  simp only [ExactReal.floor]
  rw [Rat.floor_cast]
  rfl

/-- Where the interval lies between two integers, the integer part is exact. -/
theorem ExactReal.floor_of_enclosure (x : ExactReal) (a : Enclosure) (h : x.enclosure = some a)
    (hd : a.lo / unitParts = a.hi / unitParts) : x.floor = ⌊x.val⌋ := by
  have hu := unitParts_pos
  have hi : (0 : Int) < unitParts := by simp [unitParts]
  have hh := x.enclosure_holds a h
  have key : a.lo / unitParts = ⌊x.val⌋ := by
    symm
    rw [Int.floor_eq_iff]
    constructor
    · have h1 := (intDiv_bounds a.lo unitParts hi).1
      have h2 : (a.lo : ℝ) / unitParts ≤ x.val := by rw [div_le_iff₀ hu]; exact hh.1
      linarith
    · rw [hd]
      have h1 : a.hi < unitParts * (a.hi / unitParts) + unitParts := Int.lt_mul_ediv_self_add hi
      have h1' : (a.hi : ℝ) < unitParts * (a.hi / unitParts : Int) + unitParts := by exact_mod_cast h1
      have h2 := hh.2
      have : x.val * unitParts < ((a.hi / unitParts : Int) + 1) * unitParts := by linarith
      exact lt_of_mul_lt_mul_right this hu.le
  rw [← key]
  cases x with
  | rat q =>
    rw [ExactReal.floor_rat]
    exact key.symm
  | _ =>
    simp [ExactReal.floor, h, hd]

/-- The integer part of the model is that of the real number (spec/00 R12). -/
theorem ExactReal.floor_eq (x : ExactReal) : x.floor = ⌊x.val⌋ := by
  cases he : x.enclosure with
  | none =>
    cases x with
    | rat q => exact ExactReal.floor_rat q
    | _ =>
      simp only [ExactReal.floor, he]
      exact (ExactReal.integerPart _).2
  | some a =>
    by_cases hd : a.lo / unitParts = a.hi / unitParts
    · exact x.floor_of_enclosure a he hd
    · cases x with
      | rat q => exact ExactReal.floor_rat q
      | _ =>
        simp only [ExactReal.floor, he, if_neg hd]
        exact (ExactReal.integerPart _).2

/-- The integer parts of `x` and `-x` are both 0 for 0 alone. -/
theorem floors_zero_iff (v : ℝ) : ⌊v⌋ = 0 ∧ ⌊-v⌋ = 0 ↔ v = 0 := by
  simp only [Int.floor_eq_iff]
  constructor
  · rintro ⟨⟨h1, _⟩, h2, _⟩
    push_cast at h1 h2
    linarith
  · intro h
    simp [h]

/-- The zero test is that of the real number. -/
@[simp] theorem ExactReal.isZero_iff (x : ExactReal) : x.isZero = true ↔ x.val = 0 := by
  have key : decide (x.floor = 0 ∧ x.negate.floor = 0) = true ↔ x.val = 0 := by
    rw [decide_eq_true_eq, x.floor_eq, x.negate.floor_eq, ExactReal.val_negate, floors_zero_iff]
  unfold ExactReal.isZero
  split
  · simp
  · split
    · rename_i a ha
      have hh := ExactReal.enclosure_holds _ _ ha
      split_ifs with h1
      · refine ⟨fun h => by simp at h, fun h => ?_⟩
        unfold Enclosure.Holds at hh
        rw [h, zero_mul] at hh
        rcases h1 with h1 | h1
        · exact absurd hh.2 (not_le.mpr (by exact_mod_cast h1))
        · exact absurd hh.1 (not_le.mpr (by exact_mod_cast h1))
      · exact key
    · exact key

@[simp] theorem ExactReal.isZero_false_iff (x : ExactReal) : x.isZero = false ↔ x.val ≠ 0 := by
  rw [← Bool.not_eq_true, x.isZero_iff]

/-- The sign tests are those of the real number. -/
@[simp] theorem ExactReal.negative_iff (x : ExactReal) : x.negative = true ↔ x.val < 0 := by
  have hu := unitParts_pos
  have key : decide (x.floor < 0) = true ↔ x.val < 0 := by
    rw [decide_eq_true_eq, x.floor_eq, Int.floor_lt]
    simp
  unfold ExactReal.negative
  split
  · simp
  · split
    · rename_i a ha
      have hh := ExactReal.enclosure_holds _ _ ha
      unfold Enclosure.Holds at hh
      split_ifs with h1 h2
      · refine ⟨fun _ => ?_, fun _ => rfl⟩
        have h1' : (a.hi : ℝ) < 0 := by exact_mod_cast h1
        nlinarith [hh.2]
      · refine ⟨fun h => by simp at h, fun h => ?_⟩
        have h2' : (0 : ℝ) ≤ a.lo := by exact_mod_cast h2
        nlinarith [hh.1]
      · exact key
    · exact key

@[simp] theorem ExactReal.negative_false_iff (x : ExactReal) : x.negative = false ↔ 0 ≤ x.val := by
  rw [← Bool.not_eq_true, x.negative_iff, not_lt]

@[simp] theorem ExactReal.positive_iff (x : ExactReal) : x.positive = true ↔ 0 < x.val := by
  unfold ExactReal.positive
  rw [ExactReal.negative_iff, ExactReal.val_negate, neg_lt_zero]

@[simp] theorem ExactReal.positive_false_iff (x : ExactReal) : x.positive = false ↔ x.val ≤ 0 := by
  rw [← Bool.not_eq_true, x.positive_iff, not_lt]

@[simp] theorem ExactReal.lessThan_iff (x y : ExactReal) : x.lessThan y = true ↔ x.val < y.val := by
  unfold ExactReal.lessThan
  rw [ExactReal.negative_iff, ExactReal.val_minus, sub_neg]

/-- `round` in terms of `floor`: the lower neighbour below a half, the even one at a half, the upper one above
(spec/00 R12). -/
theorem ExactReal.roundEven_eq (x : ExactReal) : x.roundEven =
    if Int.fract x.val < 1 / 2 then ⌊x.val⌋
    else if Int.fract x.val = 1 / 2 then (if ⌊x.val⌋ % 2 = 0 then ⌊x.val⌋ else ⌊x.val⌋ + 1)
    else ⌊x.val⌋ + 1 := by
  have h1 : ((ExactReal.rat 2).times x).floor = ⌊2 * x.val⌋ := by rw [ExactReal.floor_eq]; simp
  have h2 : ((ExactReal.rat 2).times x).negate.floor = ⌊-(2 * x.val)⌋ := by rw [ExactReal.floor_eq]; simp
  unfold ExactReal.roundEven
  simp only [h1, h2]
  generalize x.val = v
  obtain ⟨n, f, hv, hf0, hf1⟩ : ∃ (n : Int) (f : ℝ), v = n + f ∧ 0 ≤ f ∧ f < 1 :=
    ⟨⌊v⌋, Int.fract v, (Int.floor_add_fract v).symm, Int.fract_nonneg v, Int.fract_lt_one v⟩
  subst hv
  have hfl : ⌊(n : ℝ) + f⌋ = n := by rw [Int.floor_eq_iff]; constructor <;> linarith
  have hfr : Int.fract ((n : ℝ) + f) = f := by rw [Int.fract, hfl]; ring
  rw [hfl, hfr]
  by_cases h : f < 1 / 2
  · have e : ⌊2 * ((n : ℝ) + f)⌋ = 2 * n := by rw [Int.floor_eq_iff]; push_cast; constructor <;> linarith
    rw [e, if_pos (by omega), if_pos h]
    omega
  · have e : ⌊2 * ((n : ℝ) + f)⌋ = 2 * n + 1 := by rw [Int.floor_eq_iff]; push_cast; constructor <;> linarith
    have e2 : (2 * n + 1) / 2 = n := by omega
    rw [e, if_neg (by omega), if_neg h, e2]
    by_cases h' : f = 1 / 2
    · have e3 : ⌊-(2 * ((n : ℝ) + f))⌋ = -(2 * n + 1) := by
        rw [Int.floor_eq_iff]; push_cast; constructor <;> linarith
      rw [e3, if_pos (by omega), if_pos h']
    · have hlt : 1 / 2 < f := lt_of_le_of_ne (not_lt.mp h) (Ne.symm h')
      have e3 : ⌊-(2 * ((n : ℝ) + f))⌋ = -(2 * n + 2) := by
        rw [Int.floor_eq_iff]; push_cast; constructor <;> linarith
      rw [e3, if_neg (by omega), if_neg h']

end Sys2Proof

namespace Sys2Proof.Machine

@[simp] theorem val_dot (u v : List ExactReal) :
    (dot u v).val = (List.zipWith (fun x y => x.val * y.val) u v).sum := by
  simp [dot, List.map_zipWith]

/-- The cosine of a number of turns, for every number of turns (spec/00 R13). -/
@[simp] theorem val_cosTurn (t : Rat) : (cosTurn t).val = Real.cos (2 * Real.pi * t) := by
  have hq : ∀ f : Rat, (cosFirstQuarter f).val = Real.cos (2 * Real.pi * f) := by
    intro f
    unfold cosFirstQuarter
    split_ifs with h0 h1 h2
    · simp [h0]
    · subst h1
      have : (2 : ℝ) * Real.pi * ((1 / 6 : Rat) : ℝ) = Real.pi / 3 := by push_cast; ring
      rw [this, Real.cos_pi_div_three]
      norm_num
    · subst h2
      have : (2 : ℝ) * Real.pi * ((1 / 4 : Rat) : ℝ) = Real.pi / 2 := by push_cast; ring
      rw [this, Real.cos_pi_div_two]
      simp
    · rfl
  have hp : Real.cos (2 * Real.pi * t) = Real.cos (2 * Real.pi * ((t - t.floor : Rat) : ℝ)) := by
    have : 2 * Real.pi * ((t - t.floor : Rat) : ℝ) = 2 * Real.pi * t - t.floor * (2 * Real.pi) := by push_cast; ring
    rw [this, Real.cos_sub_int_mul_two_pi]
  rw [hp]
  unfold cosTurn
  simp only
  generalize t - t.floor = f
  split_ifs
  · exact hq f
  · rw [ExactReal.val_negate, hq]
    have : 2 * Real.pi * ((1 / 2 - f : Rat) : ℝ) = Real.pi - 2 * Real.pi * f := by push_cast; ring
    rw [this, Real.cos_pi_sub, neg_neg]
  · rw [ExactReal.val_negate, hq]
    have : 2 * Real.pi * ((f - 1 / 2 : Rat) : ℝ) = 2 * Real.pi * f - Real.pi := by push_cast; ring
    rw [this, Real.cos_sub_pi, neg_neg]
  · rw [hq]
    have : 2 * Real.pi * ((1 - f : Rat) : ℝ) = 2 * Real.pi - 2 * Real.pi * f := by push_cast; ring
    rw [this, Real.cos_two_pi_sub]

@[simp] theorem val_sinTurn (t : Rat) : (sinTurn t).val = Real.sin (2 * Real.pi * t) := by
  unfold sinTurn
  rw [val_cosTurn, ← Real.cos_sub_pi_div_two]
  congr 1
  push_cast
  ring

@[simp] theorem val_cosRadians (x : ExactReal) : (cosRadians x).val = Real.cos x.val := by
  unfold cosRadians
  split_ifs with h
  · simp [h]
  · rfl

@[simp] theorem val_sinRadians (x : ExactReal) : (sinRadians x).val = Real.sin x.val := by
  unfold sinRadians
  split_ifs with h
  · simp [h]
  · rfl

@[simp] theorem val_sqrtReal (x : ExactReal) : (sqrtReal x).val = Real.sqrt x.val := by
  unfold sqrtReal
  split
  · rename_i q
    simp only
    split_ifs with h
    · obtain ⟨h0, h1, h2⟩ := h
      have hb : (isqrt q.den : ℝ) ≠ 0 := by
        intro h
        have h' : isqrt q.den = 0 := by exact_mod_cast h
        rw [h'] at h2
        exact q.den_nz h2.symm
      have hn : (q.num : ℝ) = (isqrt q.num.natAbs : ℝ) * isqrt q.num.natAbs := by
        have e : ((q.num.natAbs : Nat) : Int) = q.num := Int.natAbs_of_nonneg (Rat.num_nonneg.mpr h0)
        have h3 : ((isqrt q.num.natAbs * isqrt q.num.natAbs : Nat) : ℝ) = ((q.num.natAbs : Nat) : ℝ) := by rw [h1]
        have h4 : (((q.num.natAbs : Nat) : Int) : ℝ) = (q.num : ℝ) := by rw [e]
        rw [← h4, ← Nat.cast_mul, h3]
        simp
      have hd : (q.den : ℝ) = (isqrt q.den : ℝ) * isqrt q.den := by exact_mod_cast h2.symm
      have hq : ((q : Rat) : ℝ) = ((isqrt q.num.natAbs : ℝ) / isqrt q.den) * ((isqrt q.num.natAbs : ℝ) / isqrt q.den) := by
        rw [Rat.cast_def q, hn, hd]
        field_simp
      simp only [ExactReal.val_rat]
      rw [hq, Real.sqrt_mul_self (by positivity)]
      push_cast
      rfl
    · rfl
  · rfl

@[simp] theorem val_sinc (x : Rat) :
    (sinc x).val = if x = 0 then 1 else Real.sin (Real.pi * x) / (Real.pi * x) := by
  unfold sinc
  split_ifs with h0 h1
  · simp
  · have hx : (x : ℝ) = (x.num : ℝ) := by
      rw [Rat.cast_def x, h1]; simp
    have : Real.sin (Real.pi * x) = 0 := by rw [hx, mul_comm]; exact Real.sin_int_mul_pi x.num
    simp [this]
  · simp only [ExactReal.val_over, val_sinTurn, ExactReal.val_times, ExactReal.val_rat, ExactReal.val_pi]
    congr 1
    · congr 1; push_cast; ring
    · ring

end Sys2Proof.Machine
end

