-- ==== Sys2Proof/Laws/State.lean ====
section
/-!
SUPPORT. What each update of the state does to each field: one lemma a field and update, true by `rfl`.
-/

namespace Sys2Proof.Machine

section

variable (s : State) (results : List Elem) (code : Byte) (eos : Bool) (count : Nat)

@[simp] theorem State.complete_build : (s.complete results code eos count).build = s.build := rfl
@[simp] theorem State.complete_mode : (s.complete results code eos count).mode = s.mode := rfl
@[simp] theorem State.complete_fault : (s.complete results code eos count).fault = s.fault := rfl
@[simp] theorem State.complete_faultInfo : (s.complete results code eos count).faultInfo = s.faultInfo := rfl
@[simp] theorem State.complete_cfg : (s.complete results code eos count).cfg = s.cfg := rfl
@[simp] theorem State.complete_carrier : (s.complete results code eos count).carrier = s.carrier := rfl
@[simp] theorem State.complete_qam : (s.complete results code eos count).qam = s.qam := rfl
@[simp] theorem State.complete_bank : (s.complete results code eos count).bank = s.bank := rfl
@[simp] theorem State.complete_rsGen : (s.complete results code eos count).rsGen = s.rsGen := rfl
@[simp] theorem State.complete_fir : (s.complete results code eos count).fir = s.fir := rfl
@[simp] theorem State.complete_iir : (s.complete results code eos count).iir = s.iir := rfl
@[simp] theorem State.complete_rs : (s.complete results code eos count).rs = s.rs := rfl
@[simp] theorem State.complete_crcReg : (s.complete results code eos count).crcReg = s.crcReg := rfl
@[simp] theorem State.complete_cmdq : (s.complete results code eos count).cmdq = s.cmdq := rfl
@[simp] theorem State.complete_opq : (s.complete results code eos count).opq = s.opq := rfl
@[simp] theorem State.complete_resq : (s.complete results code eos count).resq = s.resq ++ results := rfl
@[simp] theorem State.complete_src : (s.complete results code eos count).src = s.src := rfl
@[simp] theorem State.complete_srcEof : (s.complete results code eos count).srcEof = s.srcEof := rfl
@[simp] theorem State.complete_completions : (s.complete results code eos count).completions = s.completions ++ [⟨code, eos, count⟩] := rfl

end

section

variable (s : State) (e : Raise)

@[simp] theorem State.enterFault_build : (s.enterFault e).build = s.build := rfl
@[simp] theorem State.enterFault_mode : (s.enterFault e).mode = .faulted := rfl
@[simp] theorem State.enterFault_fault : (s.enterFault e).fault = e.kind.code := rfl
@[simp] theorem State.enterFault_faultInfo : (s.enterFault e).faultInfo = e.info := rfl
@[simp] theorem State.enterFault_cfg : (s.enterFault e).cfg = s.cfg := rfl
@[simp] theorem State.enterFault_carrier : (s.enterFault e).carrier = s.carrier := rfl
@[simp] theorem State.enterFault_qam : (s.enterFault e).qam = s.qam := rfl
@[simp] theorem State.enterFault_bank : (s.enterFault e).bank = s.bank := rfl
@[simp] theorem State.enterFault_rsGen : (s.enterFault e).rsGen = s.rsGen := rfl
@[simp] theorem State.enterFault_fir : (s.enterFault e).fir = s.fir := rfl
@[simp] theorem State.enterFault_iir : (s.enterFault e).iir = s.iir := rfl
@[simp] theorem State.enterFault_rs : (s.enterFault e).rs = s.rs := rfl
@[simp] theorem State.enterFault_crcReg : (s.enterFault e).crcReg = s.crcReg := rfl
@[simp] theorem State.enterFault_cmdq : (s.enterFault e).cmdq = s.cmdq := rfl
@[simp] theorem State.enterFault_opq : (s.enterFault e).opq = s.opq := rfl
@[simp] theorem State.enterFault_resq : (s.enterFault e).resq = s.resq := List.append_nil _
@[simp] theorem State.enterFault_src : (s.enterFault e).src = s.src := rfl
@[simp] theorem State.enterFault_srcEof : (s.enterFault e).srcEof = s.srcEof := rfl
@[simp] theorem State.enterFault_completions : (s.enterFault e).completions = s.completions ++ [⟨e.kind.code, false, 0⟩] := rfl

end

section

variable (s : State)

@[simp] theorem State.resetRegisters_build : (s.resetRegisters).build = s.build := rfl
@[simp] theorem State.resetRegisters_mode : (s.resetRegisters).mode = State.reset.mode := rfl
@[simp] theorem State.resetRegisters_fault : (s.resetRegisters).fault = State.reset.fault := rfl
@[simp] theorem State.resetRegisters_faultInfo : (s.resetRegisters).faultInfo = State.reset.faultInfo := rfl
@[simp] theorem State.resetRegisters_cfg : (s.resetRegisters).cfg = State.reset.cfg := rfl
@[simp] theorem State.resetRegisters_carrier : (s.resetRegisters).carrier = State.reset.carrier := rfl
@[simp] theorem State.resetRegisters_qam : (s.resetRegisters).qam = State.reset.qam := rfl
@[simp] theorem State.resetRegisters_bank : (s.resetRegisters).bank = State.reset.bank := rfl
@[simp] theorem State.resetRegisters_rsGen : (s.resetRegisters).rsGen = State.reset.rsGen := rfl
@[simp] theorem State.resetRegisters_fir : (s.resetRegisters).fir = State.reset.fir := rfl
@[simp] theorem State.resetRegisters_iir : (s.resetRegisters).iir = State.reset.iir := rfl
@[simp] theorem State.resetRegisters_rs : (s.resetRegisters).rs = State.reset.rs := rfl
@[simp] theorem State.resetRegisters_crcReg : (s.resetRegisters).crcReg = State.reset.crcReg := rfl
@[simp] theorem State.resetRegisters_cmdq : (s.resetRegisters).cmdq = s.cmdq := rfl
@[simp] theorem State.resetRegisters_opq : (s.resetRegisters).opq = State.reset.opq := rfl
@[simp] theorem State.resetRegisters_resq : (s.resetRegisters).resq = s.resq := rfl
@[simp] theorem State.resetRegisters_src : (s.resetRegisters).src = s.src := rfl
@[simp] theorem State.resetRegisters_srcEof : (s.resetRegisters).srcEof = State.reset.srcEof := rfl
@[simp] theorem State.resetRegisters_completions : (s.resetRegisters).completions = s.completions := rfl

end

section

variable (s : State)

@[simp] theorem State.powerOn_build : s.powerOn.build = s.build := rfl
@[simp] theorem State.powerOn_mode : s.powerOn.mode = State.reset.mode := rfl
@[simp] theorem State.powerOn_fault : s.powerOn.fault = State.reset.fault := rfl
@[simp] theorem State.powerOn_faultInfo : s.powerOn.faultInfo = State.reset.faultInfo := rfl
@[simp] theorem State.powerOn_cfg : s.powerOn.cfg = State.reset.cfg := rfl
@[simp] theorem State.powerOn_carrier : s.powerOn.carrier = State.reset.carrier := rfl
@[simp] theorem State.powerOn_qam : s.powerOn.qam = State.reset.qam := rfl
@[simp] theorem State.powerOn_bank : s.powerOn.bank = State.reset.bank := rfl
@[simp] theorem State.powerOn_rsGen : s.powerOn.rsGen = State.reset.rsGen := rfl
@[simp] theorem State.powerOn_fir : s.powerOn.fir = State.reset.fir := rfl
@[simp] theorem State.powerOn_iir : s.powerOn.iir = State.reset.iir := rfl
@[simp] theorem State.powerOn_rs : s.powerOn.rs = State.reset.rs := rfl
@[simp] theorem State.powerOn_crcReg : s.powerOn.crcReg = State.reset.crcReg := rfl
@[simp] theorem State.powerOn_cmdq : s.powerOn.cmdq = State.reset.cmdq := rfl
@[simp] theorem State.powerOn_opq : s.powerOn.opq = State.reset.opq := rfl
@[simp] theorem State.powerOn_resq : s.powerOn.resq = State.reset.resq := rfl
@[simp] theorem State.powerOn_src : s.powerOn.src = s.src := rfl
@[simp] theorem State.powerOn_srcEof : s.powerOn.srcEof = State.reset.srcEof := rfl
@[simp] theorem State.powerOn_completions : s.powerOn.completions = s.completions := rfl

end

section

variable (s : State) (cmd : Command) (rest : List Command)

@[simp] theorem State.accept_build : (s.accept cmd rest).build = s.build := rfl
@[simp] theorem State.accept_mode : (s.accept cmd rest).mode = s.mode := rfl
@[simp] theorem State.accept_fault : (s.accept cmd rest).fault = s.fault := rfl
@[simp] theorem State.accept_faultInfo : (s.accept cmd rest).faultInfo = s.faultInfo := rfl
@[simp] theorem State.accept_cfg : (s.accept cmd rest).cfg = s.cfg := rfl
@[simp] theorem State.accept_carrier : (s.accept cmd rest).carrier = s.carrier := rfl
@[simp] theorem State.accept_qam : (s.accept cmd rest).qam = s.qam := rfl
@[simp] theorem State.accept_bank : (s.accept cmd rest).bank = s.bank := rfl
@[simp] theorem State.accept_rsGen : (s.accept cmd rest).rsGen = s.rsGen := rfl
@[simp] theorem State.accept_fir : (s.accept cmd rest).fir = s.fir := rfl
@[simp] theorem State.accept_iir : (s.accept cmd rest).iir = s.iir := rfl
@[simp] theorem State.accept_rs : (s.accept cmd rest).rs = s.rs := rfl
@[simp] theorem State.accept_crcReg : (s.accept cmd rest).crcReg = s.crcReg := rfl
@[simp] theorem State.accept_cmdq : (s.accept cmd rest).cmdq = rest := rfl
@[simp] theorem State.accept_opq : (s.accept cmd rest).opq = s.opq ++ cmd.operands := rfl
@[simp] theorem State.accept_resq : (s.accept cmd rest).resq = s.resq := rfl
@[simp] theorem State.accept_src : (s.accept cmd rest).src = s.src := rfl
@[simp] theorem State.accept_srcEof : (s.accept cmd rest).srcEof = s.srcEof := rfl
@[simp] theorem State.accept_completions : (s.accept cmd rest).completions = s.completions := rfl

end

section

variable (s : State) (w : CmdWord)

@[simp] theorem State.issueFirst_build : (s.issueFirst w).build = s.build := rfl
@[simp] theorem State.issueFirst_mode : (s.issueFirst w).mode = s.mode := rfl
@[simp] theorem State.issueFirst_fault : (s.issueFirst w).fault = s.fault := rfl
@[simp] theorem State.issueFirst_faultInfo : (s.issueFirst w).faultInfo = s.faultInfo := rfl
@[simp] theorem State.issueFirst_cfg : (s.issueFirst w).cfg = s.cfg := rfl
@[simp] theorem State.issueFirst_carrier : (s.issueFirst w).carrier = s.carrier := rfl
@[simp] theorem State.issueFirst_qam : (s.issueFirst w).qam = s.qam := rfl
@[simp] theorem State.issueFirst_bank : (s.issueFirst w).bank = s.bank := rfl
@[simp] theorem State.issueFirst_rsGen : (s.issueFirst w).rsGen = s.rsGen := rfl
@[simp] theorem State.issueFirst_fir : (s.issueFirst w).fir = s.fir := rfl
@[simp] theorem State.issueFirst_iir : (s.issueFirst w).iir = s.iir := rfl
@[simp] theorem State.issueFirst_rs : (s.issueFirst w).rs = s.rs := rfl
@[simp] theorem State.issueFirst_crcReg : (s.issueFirst w).crcReg = s.crcReg := rfl
@[simp] theorem State.issueFirst_cmdq : (s.issueFirst w).cmdq = ⟨w, []⟩ :: s.cmdq := rfl
@[simp] theorem State.issueFirst_opq : (s.issueFirst w).opq = s.opq := rfl
@[simp] theorem State.issueFirst_resq : (s.issueFirst w).resq = s.resq := rfl
@[simp] theorem State.issueFirst_src : (s.issueFirst w).src = s.src := rfl
@[simp] theorem State.issueFirst_srcEof : (s.issueFirst w).srcEof = s.srcEof := rfl
@[simp] theorem State.issueFirst_completions : (s.issueFirst w).completions = s.completions := rfl

end

section

variable (s : State) (c : Ctx) (x : FirCtx)

@[simp] theorem State.setFirCtx_build : (s.setFirCtx c x).build = s.build := rfl
@[simp] theorem State.setFirCtx_mode : (s.setFirCtx c x).mode = s.mode := rfl
@[simp] theorem State.setFirCtx_fault : (s.setFirCtx c x).fault = s.fault := rfl
@[simp] theorem State.setFirCtx_faultInfo : (s.setFirCtx c x).faultInfo = s.faultInfo := rfl
@[simp] theorem State.setFirCtx_cfg : (s.setFirCtx c x).cfg = s.cfg := rfl
@[simp] theorem State.setFirCtx_carrier : (s.setFirCtx c x).carrier = s.carrier := rfl
@[simp] theorem State.setFirCtx_qam : (s.setFirCtx c x).qam = s.qam := rfl
@[simp] theorem State.setFirCtx_bank : (s.setFirCtx c x).bank = s.bank := rfl
@[simp] theorem State.setFirCtx_rsGen : (s.setFirCtx c x).rsGen = s.rsGen := rfl
@[simp] theorem State.setFirCtx_iir : (s.setFirCtx c x).iir = s.iir := rfl
@[simp] theorem State.setFirCtx_rs : (s.setFirCtx c x).rs = s.rs := rfl
@[simp] theorem State.setFirCtx_crcReg : (s.setFirCtx c x).crcReg = s.crcReg := rfl
@[simp] theorem State.setFirCtx_cmdq : (s.setFirCtx c x).cmdq = s.cmdq := rfl
@[simp] theorem State.setFirCtx_opq : (s.setFirCtx c x).opq = s.opq := rfl
@[simp] theorem State.setFirCtx_resq : (s.setFirCtx c x).resq = s.resq := rfl
@[simp] theorem State.setFirCtx_src : (s.setFirCtx c x).src = s.src := rfl
@[simp] theorem State.setFirCtx_srcEof : (s.setFirCtx c x).srcEof = s.srcEof := rfl
@[simp] theorem State.setFirCtx_completions : (s.setFirCtx c x).completions = s.completions := rfl

end

section

variable (s : State) (operands : List Elem)

@[simp] theorem State.still_build : (s.still operands).build = s.build := rfl
@[simp] theorem State.still_mode : (s.still operands).mode = s.mode := rfl
@[simp] theorem State.still_fault : (s.still operands).fault = s.fault := rfl
@[simp] theorem State.still_faultInfo : (s.still operands).faultInfo = s.faultInfo := rfl
@[simp] theorem State.still_cfg : (s.still operands).cfg = s.cfg := rfl
@[simp] theorem State.still_carrier : (s.still operands).carrier = s.carrier := rfl
@[simp] theorem State.still_qam : (s.still operands).qam = s.qam := rfl
@[simp] theorem State.still_bank : (s.still operands).bank = s.bank := rfl
@[simp] theorem State.still_rsGen : (s.still operands).rsGen = s.rsGen := rfl
@[simp] theorem State.still_fir : (s.still operands).fir = s.fir := rfl
@[simp] theorem State.still_iir : (s.still operands).iir = s.iir := rfl
@[simp] theorem State.still_rs : (s.still operands).rs = s.rs := rfl
@[simp] theorem State.still_crcReg : (s.still operands).crcReg = s.crcReg := rfl
@[simp] theorem State.still_cmdq : (s.still operands).cmdq = [] := rfl
@[simp] theorem State.still_opq : (s.still operands).opq = operands := rfl
@[simp] theorem State.still_resq : (s.still operands).resq = [] := rfl
@[simp] theorem State.still_src : (s.still operands).src = [] := rfl
@[simp] theorem State.still_srcEof : (s.still operands).srcEof = false := rfl
@[simp] theorem State.still_completions : (s.still operands).completions = [] := rfl

@[simp] theorem State.tables_build : (s.tables operands).build = s.build := rfl
@[simp] theorem State.tables_mode : (s.tables operands).mode = State.reset.mode := rfl
@[simp] theorem State.tables_fault : (s.tables operands).fault = State.reset.fault := rfl
@[simp] theorem State.tables_faultInfo : (s.tables operands).faultInfo = State.reset.faultInfo := rfl
@[simp] theorem State.tables_cfg : (s.tables operands).cfg = s.cfg := rfl
@[simp] theorem State.tables_carrier : (s.tables operands).carrier = s.carrier := rfl
@[simp] theorem State.tables_qam : (s.tables operands).qam = s.qam := rfl
@[simp] theorem State.tables_bank : (s.tables operands).bank = s.bank := rfl
@[simp] theorem State.tables_rsGen : (s.tables operands).rsGen = s.rsGen := rfl
@[simp] theorem State.tables_fir : (s.tables operands).fir = State.reset.fir := rfl
@[simp] theorem State.tables_iir : (s.tables operands).iir = State.reset.iir := rfl
@[simp] theorem State.tables_rs : (s.tables operands).rs = State.reset.rs := rfl
@[simp] theorem State.tables_crcReg : (s.tables operands).crcReg = State.reset.crcReg := rfl
@[simp] theorem State.tables_cmdq : (s.tables operands).cmdq = State.reset.cmdq := rfl
@[simp] theorem State.tables_opq : (s.tables operands).opq = operands := rfl
@[simp] theorem State.tables_resq : (s.tables operands).resq = State.reset.resq := rfl
@[simp] theorem State.tables_src : (s.tables operands).src = State.reset.src := rfl
@[simp] theorem State.tables_srcEof : (s.tables operands).srcEof = State.reset.srcEof := rfl
@[simp] theorem State.tables_completions : (s.tables operands).completions = State.reset.completions := rfl

end

section

variable (s : State) (cfg : Cfg)

@[simp] theorem State.configure_build : (s.configure cfg).build = s.build := rfl
@[simp] theorem State.configure_mode : (s.configure cfg).mode = .ready := rfl
@[simp] theorem State.configure_fault : (s.configure cfg).fault = s.fault := rfl
@[simp] theorem State.configure_faultInfo : (s.configure cfg).faultInfo = s.faultInfo := rfl
@[simp] theorem State.configure_cfg : (s.configure cfg).cfg = cfg := rfl
@[simp] theorem State.configure_carrier : (s.configure cfg).carrier = carrierTable s.build cfg := rfl
@[simp] theorem State.configure_qam : (s.configure cfg).qam = qamTable s.build cfg := rfl
@[simp] theorem State.configure_bank : (s.configure cfg).bank = bankTable s.build cfg := rfl
@[simp] theorem State.configure_rsGen : (s.configure cfg).rsGen = rsGenerator cfg.parity := rfl
@[simp] theorem State.configure_fir : (s.configure cfg).fir = s.fir := rfl
@[simp] theorem State.configure_iir : (s.configure cfg).iir = s.iir := rfl
@[simp] theorem State.configure_rs : (s.configure cfg).rs = s.rs := rfl
@[simp] theorem State.configure_crcReg : (s.configure cfg).crcReg = s.crcReg := rfl
@[simp] theorem State.configure_cmdq : (s.configure cfg).cmdq = s.cmdq := rfl
@[simp] theorem State.configure_opq : (s.configure cfg).opq = s.opq := rfl
@[simp] theorem State.configure_resq : (s.configure cfg).resq = s.resq := rfl
@[simp] theorem State.configure_src : (s.configure cfg).src = s.src := rfl
@[simp] theorem State.configure_srcEof : (s.configure cfg).srcEof = s.srcEof := rfl
@[simp] theorem State.configure_completions : (s.configure cfg).completions = s.completions := rfl

end

section

variable (s : State) (v : ExactReal)

@[simp] theorem State.shiftIn_build : (s.shiftIn v).build = s.build := rfl
@[simp] theorem State.shiftIn_mode : (s.shiftIn v).mode = s.mode := rfl
@[simp] theorem State.shiftIn_fault : (s.shiftIn v).fault = s.fault := rfl
@[simp] theorem State.shiftIn_faultInfo : (s.shiftIn v).faultInfo = s.faultInfo := rfl
@[simp] theorem State.shiftIn_cfg : (s.shiftIn v).cfg = s.cfg := rfl
@[simp] theorem State.shiftIn_carrier : (s.shiftIn v).carrier = s.carrier := rfl
@[simp] theorem State.shiftIn_qam : (s.shiftIn v).qam = s.qam := rfl
@[simp] theorem State.shiftIn_bank : (s.shiftIn v).bank = s.bank := rfl
@[simp] theorem State.shiftIn_rsGen : (s.shiftIn v).rsGen = s.rsGen := rfl
@[simp] theorem State.shiftIn_fir : (s.shiftIn v).fir = s.fir := rfl
@[simp] theorem State.shiftIn_iir : (s.shiftIn v).iir = s.iir := rfl
@[simp] theorem State.shiftIn_crcReg : (s.shiftIn v).crcReg = s.crcReg := rfl
@[simp] theorem State.shiftIn_cmdq : (s.shiftIn v).cmdq = s.cmdq := rfl
@[simp] theorem State.shiftIn_opq : (s.shiftIn v).opq = s.opq := rfl
@[simp] theorem State.shiftIn_resq : (s.shiftIn v).resq = s.resq := rfl
@[simp] theorem State.shiftIn_src : (s.shiftIn v).src = s.src := rfl
@[simp] theorem State.shiftIn_srcEof : (s.shiftIn v).srcEof = s.srcEof := rfl
@[simp] theorem State.shiftIn_completions : (s.shiftIn v).completions = s.completions := rfl

end

section

variable (s : State) (results : List Elem) (eos : Bool) (count : Nat)

@[simp] theorem State.succeed_build : (s.succeed results eos count).build = s.build := rfl
@[simp] theorem State.succeed_mode : (s.succeed results eos count).mode = s.mode := rfl
@[simp] theorem State.succeed_fault : (s.succeed results eos count).fault = s.fault := rfl
@[simp] theorem State.succeed_faultInfo : (s.succeed results eos count).faultInfo = s.faultInfo := rfl
@[simp] theorem State.succeed_cfg : (s.succeed results eos count).cfg = s.cfg := rfl
@[simp] theorem State.succeed_carrier : (s.succeed results eos count).carrier = s.carrier := rfl
@[simp] theorem State.succeed_qam : (s.succeed results eos count).qam = s.qam := rfl
@[simp] theorem State.succeed_bank : (s.succeed results eos count).bank = s.bank := rfl
@[simp] theorem State.succeed_rsGen : (s.succeed results eos count).rsGen = s.rsGen := rfl
@[simp] theorem State.succeed_fir : (s.succeed results eos count).fir = s.fir := rfl
@[simp] theorem State.succeed_iir : (s.succeed results eos count).iir = s.iir := rfl
@[simp] theorem State.succeed_rs : (s.succeed results eos count).rs = s.rs := rfl
@[simp] theorem State.succeed_crcReg : (s.succeed results eos count).crcReg = s.crcReg := rfl
@[simp] theorem State.succeed_cmdq : (s.succeed results eos count).cmdq = s.cmdq := rfl
@[simp] theorem State.succeed_opq : (s.succeed results eos count).opq = [] := rfl
@[simp] theorem State.succeed_resq : (s.succeed results eos count).resq = s.resq ++ results := rfl
@[simp] theorem State.succeed_src : (s.succeed results eos count).src = s.src := rfl
@[simp] theorem State.succeed_srcEof : (s.succeed results eos count).srcEof = s.srcEof := rfl
@[simp] theorem State.succeed_completions : (s.succeed results eos count).completions = s.completions ++ [⟨0, eos, count⟩] := rfl

end

section

variable (s : State) (code : Byte) (info : Nat)

@[simp] theorem State.failed_build : (s.failed code info).build = s.build := rfl
@[simp] theorem State.failed_mode : (s.failed code info).mode = .faulted := rfl
@[simp] theorem State.failed_fault : (s.failed code info).fault = code := rfl
@[simp] theorem State.failed_faultInfo : (s.failed code info).faultInfo = info := rfl
@[simp] theorem State.failed_cfg : (s.failed code info).cfg = s.cfg := rfl
@[simp] theorem State.failed_carrier : (s.failed code info).carrier = s.carrier := rfl
@[simp] theorem State.failed_qam : (s.failed code info).qam = s.qam := rfl
@[simp] theorem State.failed_bank : (s.failed code info).bank = s.bank := rfl
@[simp] theorem State.failed_rsGen : (s.failed code info).rsGen = s.rsGen := rfl
@[simp] theorem State.failed_fir : (s.failed code info).fir = s.fir := rfl
@[simp] theorem State.failed_iir : (s.failed code info).iir = s.iir := rfl
@[simp] theorem State.failed_rs : (s.failed code info).rs = s.rs := rfl
@[simp] theorem State.failed_crcReg : (s.failed code info).crcReg = s.crcReg := rfl
@[simp] theorem State.failed_cmdq : (s.failed code info).cmdq = s.cmdq := rfl
@[simp] theorem State.failed_opq : (s.failed code info).opq = s.opq := rfl
@[simp] theorem State.failed_resq : (s.failed code info).resq = s.resq := rfl
@[simp] theorem State.failed_src : (s.failed code info).src = s.src := rfl
@[simp] theorem State.failed_srcEof : (s.failed code info).srcEof = s.srcEof := rfl
@[simp] theorem State.failed_completions : (s.failed code info).completions = s.completions ++ [⟨code, false, 0⟩] := rfl

end

section

variable (s : State)

@[simp] theorem State.turnedAway_build : (s.turnedAway).build = s.build := rfl
@[simp] theorem State.turnedAway_mode : (s.turnedAway).mode = s.mode := rfl
@[simp] theorem State.turnedAway_fault : (s.turnedAway).fault = s.fault := rfl
@[simp] theorem State.turnedAway_faultInfo : (s.turnedAway).faultInfo = s.faultInfo := rfl
@[simp] theorem State.turnedAway_cfg : (s.turnedAway).cfg = s.cfg := rfl
@[simp] theorem State.turnedAway_carrier : (s.turnedAway).carrier = s.carrier := rfl
@[simp] theorem State.turnedAway_qam : (s.turnedAway).qam = s.qam := rfl
@[simp] theorem State.turnedAway_bank : (s.turnedAway).bank = s.bank := rfl
@[simp] theorem State.turnedAway_rsGen : (s.turnedAway).rsGen = s.rsGen := rfl
@[simp] theorem State.turnedAway_fir : (s.turnedAway).fir = s.fir := rfl
@[simp] theorem State.turnedAway_iir : (s.turnedAway).iir = s.iir := rfl
@[simp] theorem State.turnedAway_rs : (s.turnedAway).rs = s.rs := rfl
@[simp] theorem State.turnedAway_crcReg : (s.turnedAway).crcReg = s.crcReg := rfl
@[simp] theorem State.turnedAway_cmdq : (s.turnedAway).cmdq = s.cmdq := rfl
@[simp] theorem State.turnedAway_opq : (s.turnedAway).opq = s.opq := rfl
@[simp] theorem State.turnedAway_resq : (s.turnedAway).resq = s.resq := rfl
@[simp] theorem State.turnedAway_src : (s.turnedAway).src = s.src := rfl
@[simp] theorem State.turnedAway_srcEof : (s.turnedAway).srcEof = s.srcEof := rfl
@[simp] theorem State.turnedAway_completions : (s.turnedAway).completions = s.completions ++ [⟨4, false, 0⟩] := rfl

end

section

variable (s : State)

@[simp] theorem State.registers_build : (s.registers).build = s.build := rfl
@[simp] theorem State.registers_mode : (s.registers).mode = .unconfigured := rfl
@[simp] theorem State.registers_fault : (s.registers).fault = 0 := rfl
@[simp] theorem State.registers_faultInfo : (s.registers).faultInfo = 0 := rfl
@[simp] theorem State.registers_cfg : (s.registers).cfg = s.cfg := rfl
@[simp] theorem State.registers_carrier : (s.registers).carrier = s.carrier := rfl
@[simp] theorem State.registers_qam : (s.registers).qam = s.qam := rfl
@[simp] theorem State.registers_bank : (s.registers).bank = s.bank := rfl
@[simp] theorem State.registers_rsGen : (s.registers).rsGen = s.rsGen := rfl
@[simp] theorem State.registers_fir : (s.registers).fir = s.fir := rfl
@[simp] theorem State.registers_iir : (s.registers).iir = s.iir := rfl
@[simp] theorem State.registers_rs : (s.registers).rs = s.rs := rfl
@[simp] theorem State.registers_crcReg : (s.registers).crcReg = s.crcReg := rfl
@[simp] theorem State.registers_cmdq : (s.registers).cmdq = s.cmdq := rfl
@[simp] theorem State.registers_opq : (s.registers).opq = [] := rfl
@[simp] theorem State.registers_resq : (s.registers).resq = [] := rfl
@[simp] theorem State.registers_src : (s.registers).src = s.src := rfl
@[simp] theorem State.registers_srcEof : (s.registers).srcEof = s.srcEof := rfl
@[simp] theorem State.registers_completions : (s.registers).completions = [] := rfl

end

section

variable (s : State) (results : List Elem) (count : Nat) (calcs : List Calc)

@[simp] theorem Done.pure_state : (Done.pure s results count).state = s := rfl
@[simp] theorem Done.pure_results : (Done.pure s results count).results = results := rfl
@[simp] theorem Done.pure_eos : (Done.pure s results count).eos = false := rfl
@[simp] theorem Done.pure_count : (Done.pure s results count).count = count := rfl
@[simp] theorem Done.pure_calcs : (Done.pure s results count).calcs = [] := rfl
@[simp] theorem Done.reals_state : (Done.reals calcs s results count).state = s := rfl
@[simp] theorem Done.reals_results : (Done.reals calcs s results count).results = results := rfl
@[simp] theorem Done.reals_eos : (Done.reals calcs s results count).eos = false := rfl
@[simp] theorem Done.reals_count : (Done.reals calcs s results count).count = count := rfl
@[simp] theorem Done.reals_calcs : (Done.reals calcs s results count).calcs = calcs := rfl

end

@[simp] theorem State.setFirCtx_firCtx_same (s : State) (c : Ctx) (x : FirCtx) : (s.setFirCtx c x).firCtx c = x := by
  simp [State.firCtx, State.setFirCtx]

theorem State.setFirCtx_firCtx_other (s : State) (c d : Ctx) (x : FirCtx) (h : d ≠ c) :
    (s.setFirCtx c x).firCtx d = s.firCtx d := by
  have hn : c.toNat ≠ d.toNat := fun e => h (BitVec.eq_of_toNat_eq e.symm)
  simp [State.firCtx, State.setFirCtx, hn]

@[simp] theorem State.setFirCtx_twice (s : State) (c : Ctx) (x y : FirCtx) :
    (s.setFirCtx c x).setFirCtx c y = s.setFirCtx c y := by
  simp [State.setFirCtx]

@[simp] theorem State.setFirCtx_firCtx_self (s : State) (c : Ctx) : s.setFirCtx c (s.firCtx c) = s := by
  simp [State.firCtx, State.setFirCtx]

/-- A context is read from `FIR` alone. -/
theorem State.firCtx_congr {s t : State} (h : s.fir = t.fir) (c : Ctx) : s.firCtx c = t.firCtx c := by
  simp [State.firCtx, h]

@[simp] theorem State.shiftIn_created (s : State) (v : ExactReal) : (s.shiftIn v).rs.created = s.rs.created := rfl
@[simp] theorem State.shiftIn_buff (s : State) (v : ExactReal) : (s.shiftIn v).rs.buff = s.rs.buff.tail ++ [v] := rfl
@[simp] theorem State.shiftIn_pad (s : State) (v : ExactReal) : (s.shiftIn v).rs.pad = s.rs.pad := rfl
@[simp] theorem State.shiftIn_index (s : State) (v : ExactReal) : (s.shiftIn v).rs.index = s.rs.index + 1 := rfl
@[simp] theorem State.shiftIn_offset (s : State) (v : ExactReal) : (s.shiftIn v).rs.offset = s.rs.offset := rfl
@[simp] theorem State.shiftIn_freq (s : State) (v : ExactReal) : (s.shiftIn v).rs.freq = s.rs.freq := rfl
@[simp] theorem State.shiftIn_eqsel (s : State) (v : ExactReal) : (s.shiftIn v).rs.eqsel = s.rs.eqsel := rfl
@[simp] theorem State.shiftIn_eof (s : State) (v : ExactReal) : (s.shiftIn v).rs.eof = s.rs.eof := rfl

/-- Two states with the same fields are equal. -/
theorem State.ext_fields {s t : State} (h1 : s.registers = t.registers) (h2 : s.mode = t.mode) (h3 : s.fault = t.fault)
    (h4 : s.faultInfo = t.faultInfo) (h5 : s.opq = t.opq) (h6 : s.resq = t.resq)
    (h7 : s.completions = t.completions) : s = t := by
  cases s; cases t; simp_all [State.registers]

end Sys2Proof.Machine
end

