-- ==== Sys2Proof/Laws/Ops.lean ====
section
/-!
SUPPORT. One lemma for each shared operation, which says everything it can do; proofs cite it instead of unfolding
the operation.
-/

namespace Sys2Proof

/-- `strictly` only forces an evaluation. -/
@[simp] theorem strictly_eq {w : Nat} {α : Type} (x : BitVec w) (k : BitVec w → α) : strictly x k = k x := by
  have h : BitVec.ofNat w x.toNat = x := by simp
  unfold strictly
  split
  · rename_i h0
    rw [h0] at h
    rw [← h]
    rfl
  · rename_i n h1
    rw [← Nat.succ_eq_add_one, ← h1, h]

end Sys2Proof

namespace Sys2Proof.Machine

/-! ## Numerics -/

theorem numValue_reference (c : Calc) (op : RealOp) (k : Nat) (exact : ExactReal) (h : c.num = .reference) :
    numValue c op k exact = exact := by
  simp [numValue, h]

/-- What a formula's value can be: the exact one in the reference semantics, a number of the format in a build. -/
theorem numValue_cases (c : Calc) (op : RealOp) (k : Nat) (exact : ExactReal) :
    (c.num = .reference ∧ numValue c op k exact = exact) ∨
      (c.num ≠ .reference ∧ numValue c op k exact = .rat (c.built op k)) := by
  unfold numValue
  split <;> simp_all

/-- A build's `RS_OFFSET` after an output is not negative. -/
theorem Calc.built_rsmpOffset_nonneg (c : Calc) (k : Nat) : 0 ≤ c.built .rsmpOffset k := by
  simp [Calc.built]

theorem Calc.leavesRange_reference (c : Calc) (h : c.num = .reference) : c.leavesRange = false := by
  simp [Calc.leavesRange, h]

/-! ## Operands -/

theorem popAs_nil {α : Type} (read : Elem → Option α) (p : Nat) :
    popAs read ⟨p, []⟩ = .error (badOperands p) := rfl

theorem popAs_some {α : Type} (read : Elem → Option α) (p : Nat) (e : Elem) (rest : List Elem) (a : α)
    (h : read e = some a) : popAs read ⟨p, e :: rest⟩ = .ok (a, ⟨p + 1, rest⟩) := by
  simp [popAs, h]

theorem popAs_none {α : Type} (read : Elem → Option α) (p : Nat) (e : Elem) (rest : List Elem)
    (h : read e = none) : popAs read ⟨p, e :: rest⟩ = .error (badOperands p) := by
  simp [popAs, h]

/-- Popping the elements a list of values was written as gives the values back. -/
theorem popMany_map {α : Type} (read : Elem → Option α) (mk : α → Elem) (h : ∀ a, read (mk a) = some a) :
    ∀ (as : List α) (p : Nat) (rest : List Elem),
      popMany read as.length ⟨p, as.map mk ++ rest⟩ = .ok (as, ⟨p + as.length, rest⟩) := by
  intro as
  induction as with
  | nil => intro p rest; rfl
  | cons a as ih =>
    intro p rest
    simp only [List.map_cons, List.length_cons, List.cons_append, popMany, popAs_some read p _ _ a (h a), ih]
    rw [Nat.add_assoc, Nat.add_comm 1]

/-- What a successful row of pops has taken. -/
theorem popMany_ok {α : Type} (read : Elem → Option α) :
    ∀ (n : Nat) (c c' : Cursor) (as : List α), popMany read n c = .ok (as, c') →
      as.length = n ∧ c'.pos = c.pos + n ∧ c'.rest = c.rest.drop n ∧ (c.rest.take n).map read = as.map some := by
  intro n
  induction n with
  | zero => intro c c' as h; simp only [popMany, Except.ok.injEq, Prod.mk.injEq] at h; obtain ⟨rfl, rfl⟩ := h; simp
  | succ n ih =>
    intro c c' as h
    obtain ⟨p, ops⟩ := c
    cases ops with
    | nil => simp [popMany, popAs] at h
    | cons e ops =>
      cases he : read e with
      | none => simp [popMany, popAs, he] at h
      | some a =>
        simp only [popMany, popAs_some read p e ops a he] at h
        cases hr : popMany read n ⟨p + 1, ops⟩ with
        | error x => simp [hr] at h
        | ok r =>
          obtain ⟨as', c''⟩ := r
          simp only [hr, Except.ok.injEq, Prod.mk.injEq] at h
          obtain ⟨rfl, rfl⟩ := h
          obtain ⟨h1, h2, h3, h4⟩ := ih _ _ _ hr
          refine ⟨by simp [h1], ?_, by simp [h3], by simp [h4, he]⟩
          simp only [h2]
          omega

/-- The index of the first of `n` elements that is missing or unreadable. -/
def firstUnread {α : Type} (read : Elem → Option α) (n : Nat) (ops : List Elem) : Nat :=
  (ops.take n).findIdx fun e => (read e).isNone

/-- A row of pops that stops, stops at the first element that is missing or unreadable. -/
theorem popMany_error {α : Type} (read : Elem → Option α) :
    ∀ (n : Nat) (c : Cursor) (e : Raise), popMany read n c = .error e →
      e = badOperands (c.pos + firstUnread read n c.rest) ∧ firstUnread read n c.rest < n := by
  intro n
  induction n with
  | zero => intro c e h; simp [popMany] at h
  | succ n ih =>
    intro c e h
    obtain ⟨p, ops⟩ := c
    cases ops with
    | nil => simp only [popMany, popAs_nil, Except.error.injEq] at h; simp [← h, firstUnread]
    | cons x ops =>
      cases hx : read x with
      | none =>
        simp only [popMany, popAs_none read p x ops hx, Except.error.injEq] at h
        simp [← h, firstUnread, List.findIdx_cons, hx]
      | some a =>
        simp only [popMany, popAs_some read p x ops a hx] at h
        cases hr : popMany read n ⟨p + 1, ops⟩ with
        | ok r => simp [hr] at h
        | error e' =>
          simp only [hr, Except.error.injEq] at h
          obtain ⟨h1, h2⟩ := ih _ _ hr
          have hf : firstUnread read (n + 1) (x :: ops) = firstUnread read n ops + 1 := by
            simp [firstUnread, List.findIdx_cons, hx]
          refine ⟨?_, by rw [hf]; simpa using h2⟩
          rw [← h, h1, hf]
          simp only
          congr 1
          omega

/-- A list that fits can be popped whole. -/
theorem popMany_of_fits {α : Type} (read : Elem → Option α) :
    ∀ (ops : List Elem) (p : Nat), (∀ e ∈ ops, (read e).isSome) →
      ∃ as, popMany read ops.length ⟨p, ops⟩ = .ok (as, ⟨p + ops.length, []⟩) ∧ as.map some = ops.map read := by
  intro ops
  induction ops with
  | nil => intro p _; exact ⟨[], rfl, rfl⟩
  | cons e ops ih =>
    intro p h
    obtain ⟨a, ha⟩ := Option.isSome_iff_exists.mp (h e (by simp))
    obtain ⟨as, h1, h2⟩ := ih (p + 1) fun e' he' => h e' (by simp [he'])
    refine ⟨a :: as, ?_, by simp [h2, ha]⟩
    simp only [List.length_cons, popMany, popAs_some read p e ops a ha, h1]
    rw [Nat.add_assoc, Nat.add_comm 1]

@[simp] theorem noneLeft_nil (p : Nat) : noneLeft ⟨p, []⟩ = .ok () := rfl

@[simp] theorem noneLeft_cons (p : Nat) (e : Elem) (rest : List Elem) :
    noneLeft ⟨p, e :: rest⟩ = .error (badOperands p) := rfl

theorem noneLeft_ok (c : Cursor) (h : noneLeft c = .ok ()) : c.rest = [] := by
  obtain ⟨p, rest⟩ := c
  cases rest with
  | nil => rfl
  | cons e rest => simp at h

theorem noOperands_nil (s : State) (h : s.opq = []) : noOperands s = .ok () := by
  simp [noOperands, Cursor.start, h]

theorem noOperands_some (s : State) (h : s.opq ≠ []) : noOperands s = .error (badOperands 0) := by
  obtain ⟨e, rest, he⟩ := List.exists_cons_of_ne_nil h
  simp [noOperands, Cursor.start, he]

theorem raiseIf_false {bad : Prop} [Decidable bad] (k : FaultKind) (info : Nat) (h : ¬ bad) :
    raiseIf bad k info = .ok () := by
  simp [raiseIf, h]

theorem raiseIf_true {bad : Prop} [Decidable bad] (k : FaultKind) (info : Nat) (h : bad) :
    raiseIf bad k info = .error ⟨k, info⟩ := by
  simp [raiseIf, h]

theorem accepts_nat (e : Elem) : ElemType.accepts .nat e = (Elem.asNat e).isSome := by cases e <;> rfl
theorem accepts_bit (e : Elem) : ElemType.accepts .bit e = (Elem.asBit e).isSome := by cases e <;> rfl
theorem accepts_u8 (e : Elem) : ElemType.accepts .u8 e = (Elem.asByte e).isSome := by cases e <;> rfl
theorem accepts_r (e : Elem) : ElemType.accepts .r e = (Elem.asReal e).isSome := by
  cases e with
  | r v => cases v <;> rfl
  | _ => rfl
theorem accepts_c (e : Elem) : ElemType.accepts .c e = (Elem.asCplx e).isSome := by
  cases e with
  | c re im => cases re <;> cases im <;> rfl
  | _ => rfl

@[simp] theorem asNat_nat (v : Nat) : Elem.asNat (.nat v) = some v := rfl
@[simp] theorem asBit_bit (v : Bool) : Elem.asBit (.bit v) = some v := rfl
@[simp] theorem asByte_u8 (v : Byte) : Elem.asByte (.u8 v) = some v := rfl
@[simp] theorem asReal_real (x : ExactReal) : Elem.asReal (.real x) = some x := rfl
@[simp] theorem asCplx_cplx (z : Cplx) : Elem.asCplx (.cplx z) = some z := rfl

/-! ## Ending a command -/

theorem enterFault_eq (s : State) (e : Raise) : s.enterFault e = s.failed e.kind.code e.info := by
  simp [State.enterFault, State.complete, State.failed]

theorem completeFaulted_eq (s : State) : s.completeFaulted = s.turnedAway := by
  simp [State.completeFaulted, State.complete, State.turnedAway, faultedCode]

/-- Outside `FAULTED` a command that did not fault ends in the success of its state. -/
theorem Done.commit_eq (d : Done) (h : d.state.mode ≠ .faulted) :
    d.commit = d.state.succeed d.results d.eos d.count := by
  simp [Done.commit, State.complete, State.succeed, successCode, h]

/-- In `FAULTED` it leaves `OPQ` as it is. -/
theorem Done.commit_faulted (d : Done) (h : d.state.mode = .faulted) :
    d.commit = d.state.complete d.results 0 d.eos d.count := by
  simp [Done.commit, State.complete, successCode, h]

/-- The code of a fault is one of the nine of 60 R361. -/
theorem FaultKind.code_mem (k : FaultKind) : k.code ∈ ([1, 2, 3, 5, 6, 7, 8, 9, 10] : List Byte) := by
  cases k <;> decide

/-! ## The order of checks -/

theorem runCommand_faulted (i : Instr) (s : State) (body : Except Raise Done) (h : s.mode = .faulted)
    (hi : modeAllows i .faulted = false) : runCommand i s body = .next s.turnedAway := by
  simp [runCommand, h, hi, completeFaulted_eq]

theorem runCommand_illegal (i : Instr) (s : State) (body : Except Raise Done) (h : s.mode ≠ .faulted)
    (hi : i.wellFormed s.build.nfir = false) : runCommand i s body = .next (s.failed 1 (encode i).toNat) := by
  simp [runCommand, h, hi, enterFault_eq, FaultKind.code]

theorem runCommand_modeError (i : Instr) (s : State) (body : Except Raise Done) (h : s.mode ≠ .faulted)
    (hw : i.wellFormed s.build.nfir = true) (hi : modeAllows i s.mode = false) :
    runCommand i s body = .next (s.failed 3 (encode i).toNat) := by
  simp [runCommand, h, hw, hi, enterFault_eq, FaultKind.code]

/-- A command that may run and whose body raises, faults. -/
theorem runCommand_error (i : Instr) (s : State) (e : Raise) (hw : i.wellFormed s.build.nfir = true)
    (hi : modeAllows i s.mode = true) : runCommand i s (.error e) = .next (s.failed e.kind.code e.info) := by
  have hf : ¬ (s.mode = .faulted ∧ modeAllows i .faulted = false) := by
    rintro ⟨h1, h2⟩
    rw [h1, h2] at hi
    cases hi
  simp [runCommand, hf, hw, hi, enterFault_eq]

/-- A command that may run and whose body succeeds, completes. -/
theorem runCommand_ok (i : Instr) (s : State) (d : Done) (hw : i.wellFormed s.build.nfir = true)
    (hi : modeAllows i s.mode = true) (hr : d.calcs.any Calc.leavesRange = false) :
    runCommand i s (.ok d) = .next d.commit := by
  have hf : ¬ (s.mode = .faulted ∧ modeAllows i .faulted = false) := by
    rintro ⟨h1, h2⟩
    rw [h1, h2] at hi
    cases hi
  simp only [runCommand, hf, hw, hi, hr, if_false, Bool.false_eq_true, Bool.true_eq_false]

/-- Everything a command can do. -/
theorem runCommand_cases (i : Instr) (s : State) (body : Except Raise Done) :
    (s.mode = .faulted ∧ modeAllows i .faulted = false ∧ runCommand i s body = .next s.turnedAway) ∨
    (s.mode ≠ .faulted ∧ i.wellFormed s.build.nfir = false ∧
      runCommand i s body = .next (s.failed 1 (encode i).toNat)) ∨
    (s.mode ≠ .faulted ∧ i.wellFormed s.build.nfir = true ∧ modeAllows i s.mode = false ∧
      runCommand i s body = .next (s.failed 3 (encode i).toNat)) ∨
    (∃ e, body = .error e ∧ modeAllows i s.mode = true ∧
      runCommand i s body = .next (s.failed e.kind.code e.info)) ∨
    (∃ d, body = .ok d ∧ i.wellFormed s.build.nfir = true ∧ modeAllows i s.mode = true ∧
      d.calcs.any Calc.leavesRange = false ∧ runCommand i s body = .next d.commit) ∨
    (∃ d, body = .ok d ∧ d.calcs.any Calc.leavesRange = true ∧
      runCommand i s body = .refused .outOfNumRange) ∨
    (s.mode = .faulted ∧ i.wellFormed s.build.nfir = false ∧ modeAllows i .faulted = true) := by
  unfold runCommand
  split
  · rename_i h
    exact .inl ⟨h.1, h.2, by rw [completeFaulted_eq]⟩
  · rename_i hf
    split
    · rename_i hw
      by_cases hm : s.mode = .faulted
      · right; right; right; right; right; right
        refine ⟨hm, hw, ?_⟩
        cases h : modeAllows i .faulted
        · exact absurd ⟨hm, h⟩ hf
        · rfl
      · exact .inr (.inl ⟨hm, hw, by rw [enterFault_eq]; rfl⟩)
    · rename_i hw
      have hw' : i.wellFormed s.build.nfir = true := by simpa using hw
      split
      · rename_i hm
        refine .inr (.inr (.inl ⟨?_, hw', hm, by rw [enterFault_eq]; rfl⟩))
        intro h
        rw [h] at hm
        exact hf ⟨h, hm⟩
      · rename_i hm
        have hm' : modeAllows i s.mode = true := by simpa using hm
        cases body with
        | error e => exact .inr (.inr (.inr (.inl ⟨e, rfl, hm', by simp only [enterFault_eq]⟩)))
        | ok d =>
          cases hr : d.calcs.any Calc.leavesRange with
          | false => exact .inr (.inr (.inr (.inr (.inl ⟨d, rfl, hw', hm', hr, by simp only [hr]; rfl⟩))))
          | true => exact .inr (.inr (.inr (.inr (.inr (.inl ⟨d, rfl, hr, by simp only [hr]; rfl⟩)))))

/-- The two commands that run in `FAULTED` are legal in every build. -/
theorem wellFormed_of_modeAllows_faulted (i : Instr) (n : Nat) (h : modeAllows i .faulted = true) :
    i.wellFormed n = true := by
  cases i <;> simp_all [modeAllows, Instr.wellFormed]

/-- A command that answers a next state was turned away, faulted, or completed. -/
theorem runCommand_next (i : Instr) (s t : State) (body : Except Raise Done) (h : runCommand i s body = .next t) :
    (s.mode = .faulted ∧ modeAllows i .faulted = false ∧ t = s.turnedAway) ∨
    (s.mode ≠ .faulted ∧ ∃ code info, code ∈ ([1, 2, 3, 5, 6, 7, 8, 9, 10] : List Byte) ∧ t = s.failed code info) ∨
    (∃ e, s.mode = .faulted ∧ body = .error e ∧ modeAllows i .faulted = true) ∨
    (∃ d, body = .ok d ∧ i.wellFormed s.build.nfir = true ∧ modeAllows i s.mode = true ∧ t = d.commit) := by
  rcases runCommand_cases i s body with ⟨h1, h2, h3⟩ | ⟨h1, _, h3⟩ | ⟨h1, _, _, h3⟩ | ⟨e, h1, h2, h3⟩ |
    ⟨d, h1, hw, h2, _, h3⟩ | ⟨_, _, _, h3⟩ | ⟨_, h2, h3⟩
  · rw [h3] at h; cases h; exact .inl ⟨h1, h2, rfl⟩
  · rw [h3] at h; cases h; exact .inr (.inl ⟨h1, 1, _, by decide, rfl⟩)
  · rw [h3] at h; cases h; exact .inr (.inl ⟨h1, 3, _, by decide, rfl⟩)
  · rw [h3] at h; cases h
    by_cases hm : s.mode = .faulted
    · exact .inr (.inr (.inl ⟨e, hm, h1, hm ▸ h2⟩))
    · exact .inr (.inl ⟨hm, _, _, e.kind.code_mem, rfl⟩)
  · rw [h3] at h; cases h; exact .inr (.inr (.inr ⟨d, h1, hw, h2, rfl⟩))
  · rw [h3] at h; cases h
  · rw [wellFormed_of_modeAllows_faulted i _ h3] at h2; cases h2

end Sys2Proof.Machine
end

