-- ==== Sys2Proof/Laws/Resampler.lean ====
section
/-!
SUPPORT. What a row of filter steps (spec/41 R143, R148) and the procedure `take` of spec/45 R213 can do: the window it
fills, and the frame it keeps.
-/

namespace Sys2Proof.Machine

/-- A block filtered in two parts (41 R143). -/
theorem runSteps_append (step : ExactReal → State → ExactReal × State) : ∀ (xs ys : List ExactReal) (s : State),
    runSteps step (xs ++ ys) s =
      ((runSteps step xs s).1 ++ (runSteps step ys (runSteps step xs s).2).1,
        (runSteps step ys (runSteps step xs s).2).2) := by
  intro xs
  induction xs with
  | nil => intro ys s; rfl
  | cons x xs ih => intro ys s; simp [runSteps, ih]

theorem runSteps_length (step : ExactReal → State → ExactReal × State) : ∀ (xs : List ExactReal) (s : State),
    (runSteps step xs s).1.length = xs.length := by
  intro xs
  induction xs with
  | nil => intro s; rfl
  | cons x xs ih => intro s; simp [runSteps, ih]

/-- The computations of a block filtered in two parts (41 R143). -/
theorem stepCalcs_append (f : ExactReal → State → Calc) (step : ExactReal → State → ExactReal × State) :
    ∀ (xs ys : List ExactReal) (s : State), stepCalcs f step (xs ++ ys) s
      = stepCalcs f step xs s ++ stepCalcs f step ys (runSteps step xs s).2 := by
  intro xs
  induction xs with
  | nil => intro ys s; rfl
  | cons x xs ih => intro ys s; simp [stepCalcs, runSteps, ih]

/-- The computations of a block are those of one sample each, on states that have the build of the first. -/
theorem stepCalcs_mem (f : ExactReal → State → Calc) (step : ExactReal → State → ExactReal × State)
    (hb : ∀ v s, (step v s).2.build = s.build) : ∀ (xs : List ExactReal) (s : State) (k : Calc),
    k ∈ stepCalcs f step xs s → ∃ v t, t.build = s.build ∧ k = f v t := by
  intro xs
  induction xs with
  | nil => intro s k h; cases h
  | cons x xs ih =>
    intro s k h
    rcases List.mem_cons.mp h with rfl | h
    · exact ⟨x, s, rfl, rfl⟩
    · obtain ⟨v, t, ht, hk⟩ := ih _ k h
      exact ⟨v, t, ht.trans (hb x s), hk⟩

/-- `fir_step` writes the history of its context, which keeps its length (41 R143). -/
theorem firSteps_state (c : Ctx) : ∀ (xs : List ExactReal) (s : State), ∃ hist,
    (runSteps (firStep c) xs s).2 = s.setFirCtx c { s.firCtx c with hist := hist } ∧
    ((s.firCtx c).hist.length = (s.firCtx c).ntaps → hist.length = (s.firCtx c).ntaps) := by
  intro xs
  induction xs with
  | nil => exact fun s => ⟨(s.firCtx c).hist, (State.setFirCtx_firCtx_self s c).symm, id⟩
  | cons x xs ih =>
    intro s
    obtain ⟨hist, h1, h2⟩ := ih (firStep c x s).2
    refine ⟨hist, ?_, fun h => ?_⟩
    · simp only [runSteps, h1]
      simp [firStep]
    · have := h2 (by simp [firStep]; omega)
      simpa [firStep] using this

/-- The biquad's steps write its histories (41 R148). -/
theorem iirSteps_state : ∀ (xs : List ExactReal) (s : State), ∃ x0 x1 x2 y0 y1,
    (runSteps iirStep xs s).2
      = { s with iir := { s.iir with xh0 := x0, xh1 := x1, xh2 := x2, yh0 := y0, yh1 := y1 } } := by
  intro xs
  induction xs with
  | nil => exact fun s => ⟨_, _, _, _, _, rfl⟩
  | cons x xs ih =>
    intro s
    obtain ⟨x0, x1, x2, y0, y1, h⟩ := ih (iirStep x s).2
    exact ⟨x0, x1, x2, y0, y1, by simp only [runSteps, h]; rfl⟩

/-- The samples the window can still get: the padding, then the source (R211). -/
def State.feed (s : State) : List ExactReal := List.replicate s.rs.pad (.rat 0) ++ s.src

theorem fillWindow_zero (s : State) : fillWindow 0 s = (true, s) := rfl

/-- A fill that the padding and the source can serve. -/
theorem fillWindow_full : ∀ (k : Nat) (s : State), (s.srcEof = true → s.src = []) → s.rs.buff ≠ [] →
    k ≤ s.feed.length →
    fillWindow k s = (true, { s with
      src := s.src.drop (k - s.rs.pad)
      rs := { s.rs with
        buff := (s.rs.buff ++ s.feed.take k).drop k, pad := s.rs.pad - k, index := s.rs.index + k } }) := by
  intro k
  induction k with
  | zero => intro s _ _ _; simp [fillWindow]
  | succ k ih =>
    intro s he hb hk
    obtain ⟨b, bs, hbs⟩ := List.exists_cons_of_ne_nil hb
    by_cases hp : 0 < s.rs.pad
    · obtain ⟨p, hp'⟩ : ∃ p, s.rs.pad = p + 1 := ⟨s.rs.pad - 1, by omega⟩
      have hf : s.feed = .rat 0 :: (List.replicate p (.rat 0) ++ s.src) := by
        simp [State.feed, hp', List.replicate_succ]
      have hk' : k ≤ (List.replicate p (ExactReal.rat 0) ++ s.src).length := by
        rw [hf, List.length_cons] at hk; omega
      simp only [fillWindow, State.nextPadded, hp, if_true]
      rw [ih _ (by simpa using he) (by simp) (by simpa [State.feed, hp', State.shiftIn] using hk')]
      simp only [State.shiftIn, State.feed, hp', hbs, List.replicate_succ]
      have h1 : k - (p + 1 - 1) = k + 1 - (p + 1) := by omega
      have h2 : p + 1 - 1 - k = p + 1 - (k + 1) := by omega
      have h3 : s.rs.index + 1 + k = s.rs.index + (k + 1) := by omega
      simp only [h1, h2, h3]
      simp
    · have hp' : s.rs.pad = 0 := by omega
      have hf : s.feed = s.src := by simp [State.feed, hp']
      cases hsrc : s.src with
      | nil => rw [hf, hsrc] at hk; simp at hk
      | cons v vs =>
        have hne : s.srcEof = false := by
          cases h : s.srcEof with
          | false => rfl
          | true => rw [he h] at hsrc; cases hsrc
        have hk' : k ≤ vs.length := by rw [hf, hsrc, List.length_cons] at hk; omega
        simp only [fillWindow, State.nextPadded, hp', lt_self_iff_false, if_false, State.pull, hne, hsrc,
          Bool.false_eq_true]
        rw [ih _ (by simp [State.shiftIn]) (by simp) (by simpa [State.feed, hp', State.shiftIn] using hk')]
        simp only [State.shiftIn, State.feed, hp', hbs, hsrc]
        have h3 : s.rs.index + 1 + k = s.rs.index + (k + 1) := by omega
        simp [h3]

/-- A fill that the source cuts short: what was pulled stays in the window, and `RS_EOF` is set. -/
theorem fillWindow_short : ∀ (k : Nat) (s : State), (s.srcEof = true → s.src = []) → s.rs.buff ≠ [] →
    s.feed.length < k →
    fillWindow k s = (false, { s with
      src := [], srcEof := true
      rs := { s.rs with
        buff := (s.rs.buff ++ s.feed).drop s.feed.length, pad := 0, index := s.rs.index + s.feed.length,
        eof := true } }) := by
  intro k
  induction k with
  | zero => intro s _ _ hk; exact absurd hk (by omega)
  | succ k ih =>
    intro s he hb hk
    obtain ⟨b, bs, hbs⟩ := List.exists_cons_of_ne_nil hb
    by_cases hp : 0 < s.rs.pad
    · obtain ⟨p, hp'⟩ : ∃ p, s.rs.pad = p + 1 := ⟨s.rs.pad - 1, by omega⟩
      have hf : s.feed = .rat 0 :: (List.replicate p (.rat 0) ++ s.src) := by
        simp [State.feed, hp', List.replicate_succ]
      have hk' : (List.replicate p (ExactReal.rat 0) ++ s.src).length < k := by
        rw [hf, List.length_cons] at hk; omega
      simp only [fillWindow, State.nextPadded, hp, if_true]
      rw [ih _ (by simpa using he) (by simp) (by simpa [State.feed, hp', State.shiftIn] using hk')]
      simp only [State.shiftIn, State.feed, hp', hbs, List.replicate_succ]
      simp
      omega
    · have hp' : s.rs.pad = 0 := by omega
      have hf : s.feed = s.src := by simp [State.feed, hp']
      cases hsrc : s.src with
      | nil =>
        cases hne : s.srcEof with
        | true =>
          simp [fillWindow, State.nextPadded, hp', State.pull, hne, State.feed, hsrc]
        | false =>
          simp [fillWindow, State.nextPadded, hp', State.pull, hne, State.feed, hsrc]
      | cons v vs =>
        have hne : s.srcEof = false := by
          cases h : s.srcEof with
          | false => rfl
          | true => rw [he h] at hsrc; cases hsrc
        have hk' : vs.length < k := by rw [hf, hsrc, List.length_cons] at hk; omega
        simp only [fillWindow, State.nextPadded, hp', lt_self_iff_false, if_false, State.pull, hne, hsrc,
          Bool.false_eq_true]
        rw [ih _ (by simp [State.shiftIn]) (by simp) (by simpa [State.feed, hp', State.shiftIn] using hk')]
        simp only [State.shiftIn, State.feed, hp', hbs, hsrc]
        simp
        omega

/-- What `take` may change: the window and its counts, the offset, the two ends of the stream, the head of the source
and the history of the attached context; the window never moves back (R213, R215). -/
structure Moves (s t : State) : Prop where
  same : t = { s with
    rs := { s.rs with
      buff := t.rs.buff, pad := t.rs.pad, index := t.rs.index, offset := t.rs.offset, eof := t.rs.eof }
    fir := t.fir, src := t.src, srcEof := t.srcEof }
  forward : s.rs.index ≤ t.rs.index
  pulled : ∃ front, s.src = front ++ t.src
  others : ∀ c, s.rs.eqsel ≠ some c → t.firCtx c = s.firCtx c
  taps : ∀ c, (t.firCtx c).ntaps = (s.firCtx c).ntaps ∧ (t.firCtx c).h = (s.firCtx c).h

theorem Moves.refl (s : State) : Moves s s := ⟨rfl, le_refl _, ⟨[], rfl⟩, fun _ _ => rfl, fun _ => ⟨rfl, rfl⟩⟩

theorem Moves.trans {s t u : State} (h : Moves s t) (k : Moves t u) : Moves s u := by
  have he : t.rs.eqsel = s.rs.eqsel := by rw [h.same]
  refine ⟨?_, h.forward.trans k.forward, ?_, ?_, ?_⟩
  · rw [k.same]
    conv_lhs => rw [h.same]
  · obtain ⟨a, ha⟩ := h.pulled
    obtain ⟨b, hb⟩ := k.pulled
    exact ⟨a ++ b, by rw [ha, hb, List.append_assoc]⟩
  · intro c hc
    rw [k.others c (by rwa [he]), h.others c hc]
  · intro c
    rw [(k.taps c).1, (k.taps c).2, (h.taps c).1, (h.taps c).2]
    exact ⟨rfl, rfl⟩

theorem fillWindow_moves : ∀ (k : Nat) (s : State), Moves s (fillWindow k s).2 := by
  intro k
  induction k with
  | zero => exact Moves.refl
  | succ k ih =>
    intro s
    simp only [fillWindow, State.nextPadded]
    split_ifs with hp
    · refine Moves.trans ?_ (ih _)
      exact ⟨rfl, by simp, ⟨[], rfl⟩, fun _ _ => rfl, fun _ => ⟨rfl, rfl⟩⟩
    · unfold State.pull
      cases he : s.srcEof with
      | true => exact ⟨rfl, le_refl _, ⟨[], rfl⟩, fun _ _ => rfl, fun _ => ⟨rfl, rfl⟩⟩
      | false =>
        cases hs : s.src with
        | nil => exact ⟨by simp, le_refl _, ⟨[], by simp [hs]⟩, fun _ _ => rfl, fun _ => ⟨rfl, rfl⟩⟩
        | cons v vs =>
          refine Moves.trans ?_ (ih _)
          exact ⟨by simp [State.shiftIn], by simp, ⟨[v], by simp [hs, State.shiftIn]⟩, fun _ _ => rfl,
            fun _ => ⟨rfl, rfl⟩⟩

theorem equalize_moves (s : State) (y : ExactReal) : Moves s (s.equalize y).2 := by
  unfold State.equalize
  cases he : s.rs.eqsel with
  | none => exact Moves.refl s
  | some c =>
    refine ⟨rfl, le_refl _, ⟨[], rfl⟩, ?_, ?_⟩
    · intro d hd
      exact State.setFirCtx_firCtx_other s c d _ fun h => hd (by rw [he, h])
    · intro d
      by_cases hd : d = c
      · subst hd
        simp [firStep]
      · simp [firStep, State.setFirCtx_firCtx_other s c d _ hd]

theorem takeOne_moves (s : State) : Moves s (takeOne s).2 := by
  have h := fillWindow_moves s.missing s
  unfold takeOne
  simp only
  generalize hf : fillWindow s.missing s = r at h ⊢
  obtain ⟨ok, s'⟩ := r
  cases ok with
  | false => exact h
  | true =>
    refine (h.trans ?_).trans (equalize_moves _ _)
    exact ⟨rfl, le_refl _, ⟨[], rfl⟩, fun _ _ => rfl, fun _ => ⟨rfl, rfl⟩⟩

theorem takeSamples_none (n : Nat) (s s' : State) (h : takeOne s = (none, s')) :
    takeSamples (n + 1) s = ([], s') := by
  simp [takeSamples, h]

theorem takeSamples_some (n : Nat) (s s' : State) (y : ExactReal)
    (h : takeOne s = (some y, s')) :
    takeSamples (n + 1) s = (y :: (takeSamples n s').1, (takeSamples n s').2) := by
  simp [takeSamples, h]

/-- The frame of `take` (R213). -/
theorem takeSamples_moves : ∀ (n : Nat) (s : State), Moves s (takeSamples n s).2 := by
  intro n
  induction n with
  | zero => exact fun s => Moves.refl s
  | succ n ih =>
    intro s
    have h := takeOne_moves s
    unfold takeSamples
    generalize takeOne s = r at h ⊢
    obtain ⟨y, s'⟩ := r
    cases y with
    | none => exact h
    | some y => exact h.trans (ih s')

/-- A take in two parts (R213): the second goes on where the first one was not cut short. -/
theorem takeCalcs_add (b : Nat) : ∀ (a : Nat) (s : State), (takeSamples a s).1.length = a →
    takeCalcs (a + b) s = takeCalcs a s ++ takeCalcs b (takeSamples a s).2 := by
  intro a
  induction a with
  | zero => intro s _; simp [takeCalcs, takeSamples]
  | succ a ih =>
    intro s h
    rw [Nat.add_right_comm]
    unfold takeSamples at h ⊢
    simp only [takeCalcs]
    generalize takeOne s = r at h ⊢
    obtain ⟨y, s'⟩ := r
    cases y with
    | none => simp at h
    | some y => simp only at h ⊢; rw [ih s' (by simpa using h), List.append_assoc]

/-- An output that does not come is computed from nothing. -/
theorem takeOneCalcs_none (s : State) (h : (takeOne s).1 = none) : takeOneCalcs s = [] := by
  unfold takeOne at h
  unfold takeOneCalcs
  simp only at h
  generalize fillWindow s.missing s = r at h ⊢
  obtain ⟨ok, s'⟩ := r
  cases ok with
  | false => rfl
  | true => cases h

/-- A take without outputs has computed nothing (93 U2 (b)). -/
theorem takeCalcs_nil (n : Nat) (s : State) (h : (takeSamples n s).1 = []) : takeCalcs n s = [] := by
  cases n with
  | zero => rfl
  | succ n =>
    have h0 := takeOneCalcs_none s
    unfold takeSamples at h
    unfold takeCalcs
    generalize takeOne s = r at h h0 ⊢
    obtain ⟨y, s'⟩ := r
    cases y with
    | none => simp [h0 rfl]
    | some y => cases h

theorem takeOneCalcs_num (s : State) (k : Calc) (h : k ∈ takeOneCalcs s) : k.num = s.build.num := by
  have hm := fillWindow_moves s.missing s
  unfold takeOneCalcs at h
  generalize fillWindow s.missing s = r at h hm
  obtain ⟨ok, s'⟩ := r
  have hb : s'.build = s.build := by simpa using congrArg State.build hm.same
  cases ok with
  | false => cases h
  | true =>
    simp only [List.mem_cons] at h
    rcases h with rfl | rfl | h
    · rfl
    · exact congrArg Build.num hb
    · unfold State.equalizeCalcs at h
      split at h
      · cases h
      · obtain rfl := List.mem_singleton.mp h
        exact congrArg Build.num hb

/-- The computations of a take are in the number format of the build. -/
theorem takeCalcs_num : ∀ (n : Nat) (s : State) (k : Calc), k ∈ takeCalcs n s → k.num = s.build.num := by
  intro n
  induction n with
  | zero => intro s k h; cases h
  | succ n ih =>
    intro s k h
    have hm := takeOne_moves s
    unfold takeCalcs at h
    rcases List.mem_append.mp h with h | h
    · exact takeOneCalcs_num s k h
    · generalize takeOne s = r at h hm
      obtain ⟨y, s'⟩ := r
      cases y with
      | none => cases h
      | some y =>
        rw [ih s' k h]
        exact congrArg Build.num (by simpa using congrArg State.build hm.same)

/-- A fill that fails has set `RS_EOF`. -/
theorem fillWindow_eof : ∀ (k : Nat) (s : State), (fillWindow k s).1 = false → (fillWindow k s).2.rs.eof = true := by
  intro k
  induction k with
  | zero => intro s h; cases h
  | succ k ih =>
    intro s
    unfold fillWindow
    generalize s.nextPadded = r
    obtain ⟨v, s'⟩ := r
    cases v with
    | none => intro _; rfl
    | some v => exact ih _

/-- `take(n)` returns at most `n` outputs, and fewer only when the source has ended (R213, 60 R372). -/
theorem takeSamples_length : ∀ (n : Nat) (s : State), (takeSamples n s).1.length ≤ n ∧
    ((takeSamples n s).1.length < n → (takeSamples n s).2.rs.eof = true) := by
  intro n
  induction n with
  | zero => intro s; exact ⟨le_refl _, fun h => absurd h (by simp [takeSamples])⟩
  | succ n ih =>
    intro s
    unfold takeSamples
    have h : (takeOne s).1 = none → (takeOne s).2.rs.eof = true := by
      unfold takeOne
      simp only
      have hf := fillWindow_eof s.missing s
      generalize fillWindow s.missing s = r at hf ⊢
      obtain ⟨ok, s'⟩ := r
      cases ok with
      | false => intro _; exact hf rfl
      | true => intro h; cases h
    generalize takeOne s = r at h ⊢
    obtain ⟨y, s'⟩ := r
    cases y with
    | none => exact ⟨Nat.zero_le _, fun _ => h rfl⟩
    | some y =>
      obtain ⟨h1, h2⟩ := ih s'
      exact ⟨by simpa using h1, fun h => h2 (by simpa using h)⟩

end Sys2Proof.Machine
end

