-- ==== Sys2Proof/Laws/Exec.lean ====
section
/-!
SUPPORT. Everything `exec` can do: the one inversion lemma from which frames and invariants follow.
-/

namespace Sys2Proof.Machine

theorem bind_ok {α β : Type} {x : Except Raise α} {f : α → Except Raise β} {b : β} (h : (x >>= f) = .ok b) :
    ∃ a, x = .ok a ∧ f a = .ok b := by
  cases x with
  | error e => cases h
  | ok a => exact ⟨a, rfl, h⟩

theorem raiseIf_ok {bad : Prop} [Decidable bad] {k : FaultKind} {info : Nat} {u : Unit}
    (h : raiseIf bad k info = .ok u) : ¬ bad := by
  intro hb
  rw [raiseIf_true k info hb] at h
  cases h

/-- How a command that completes ends: its registers, results and record in terms of its operands. -/
def Ends (i : Instr) (s : State) (d : Done) : Prop :=
  match i with
  | .sysNop => d = Done.pure s [] 0
  | .sysConfig => ∃ cfg, parseConfig s.build s.opq = .ok cfg ∧
      d = Done.reals (realCalcs s .sysConfig) (s.configure cfg) [] 0
  | .sysReset => d = Done.pure s.resetRegisters [] 0
  | .sysStatus => d = Done.pure s [.nat (statusWord s), .nat s.faultInfo] 2
  | .qamMap _ => ∃ results count, d = Done.pure s results count
  | .qamDemap report n => ∃ results count, d = Done.reals (realCalcs s (.qamDemap report n)) s results count
  | .firLoad c n => ∃ taps, n.toNat ≠ 0 ∧ n.toNat ≤ s.build.capTaps ∧ s.attached c = false ∧
      taps.length = n.toNat ∧ d = Done.pure (s.setFirCtx c (FirCtx.load taps)) [] 0
  | .firRun c n => ∃ xs count, (s.firCtx c).ntaps ≠ 0 ∧ s.attached c = false ∧
      d = Done.reals (realCalcs s (.firRun c n)) (runSteps (firStep c) xs s).2
        ((runSteps (firStep c) xs s).1.map Elem.real) count
  | .iirLoad => ∃ b0 b1 b2 a0 a1 a2, a0.isZero = false ∧
      d = Done.reals (realCalcs s .iirLoad) { s with iir := Biquad.load (iirLoadCalc s) b0 b1 b2 a0 a1 a2 } [] 0
  | .iirRun n => ∃ xs count, s.iir.loaded = true ∧
      d = Done.reals (realCalcs s (.iirRun n)) (runSteps iirStep xs s).2 ((runSteps iirStep xs s).1.map Elem.real) count
  | .toneCoh pilot n => n ≠ 0 ∧ ∃ results count, d = Done.reals (realCalcs s (.toneCoh pilot n)) s results count
  | .lsqSolve order lookahead =>
      ∃ results count, d = Done.reals (realCalcs s (.lsqSolve order lookahead)) s results count
  | .demodBlock true => ∃ results count, d = Done.reals (realCalcs s (.demodBlock true)) s results count
  | .demodBlock false => s.rs.created = true ∧ ∃ results count, d =
      { state := (takeSamples s.cfg.nSym s).2, results := results,
        eos := (takeSamples s.cfg.nSym s).2.rs.eof, count := count,
        calcs := realCalcs s (.demodBlock false) }
  | .rsmpInit => d = Done.pure { s with rs := Sampler.init s.cfg.width } [] 0
  | .rsmpTake n => s.rs.created = true ∧ d =
      let r := takeSamples n.toNat s
      { state := r.2, results := r.1.map Elem.real, eos := r.2.rs.eof, count := r.1.length,
        calcs := realCalcs s (.rsmpTake n) }
  | .rsmpWr reg => ∃ v rs, s.rs.created = true ∧ writeReg reg v s.rs = .ok rs ∧ d = Done.pure { s with rs := rs } [] 0
  | .rsmpRd reg => d = Done.pure s [readReg reg s.rs] 1
  | .rsmpAttach c => s.rs.created = true ∧ (s.firCtx c).ntaps ≠ 0 ∧
      d = Done.pure { s with rs := { s.rs with eqsel := some c } } [] 0
  | .rsmpDetach => s.rs.created = true ∧ d = Done.pure { s with rs := { s.rs with eqsel := none } } [] 0
  | .modBlock => ∃ results count, d = Done.reals (realCalcs s .modBlock) s results count
  | .modPilot => ∃ results count, d = Done.reals (realCalcs s .modPilot) s results count
  | .rseEnc => ∃ results count, d = Done.pure s results count
  | .rsdDec _ => ∃ results count, d = Done.pure s results count
  | .crcReset => d = Done.pure { s with crcReg := 0xFFFFFFFF } [] 0
  | .crcUpdate _ => ∃ bytes, d = Done.pure { s with crcReg := crcBytes s.crcReg bytes } [] 0
  | .crcRead => ∃ results count, d = Done.pure s results count

/-- The operands a command has popped. -/
theorem State.popped_eq {α : Type} {s : State} {read : Elem → Option α} {n : Nat} {r : List α × Cursor}
    (h : popMany read n (Cursor.start s.opq) = .ok r) : s.popped read n = r.1 := by
  simp only [State.popped, h]

/-- A computation that raises no fault that only the order of checks raises. -/
def Tame {α : Type} (x : Except Raise α) : Prop :=
  ∀ e, x = .error e → e.kind ≠ .modeError ∧ e.kind ≠ .illegalCommand

theorem Tame.ok {α : Type} (a : α) : Tame (.ok a : Except Raise α) := fun e h => by cases h

theorem Tame.bind {α β : Type} {x : Except Raise α} {f : α → Except Raise β} (hx : Tame x) (hf : ∀ a, Tame (f a)) :
    Tame (x >>= f) := by
  intro e h
  cases x with
  | error e' => exact hx e (by cases h; rfl)
  | ok a => exact hf a e h

theorem Tame.badOperands {α : Type} (n : Nat) : Tame (.error (badOperands n) : Except Raise α) := by
  intro e h
  cases h
  exact ⟨by simp [Machine.badOperands], by simp [Machine.badOperands]⟩

theorem Tame.popAs {α : Type} (read : Elem → Option α) (c : Cursor) : Tame (Machine.popAs read c) := by
  unfold Machine.popAs
  split
  · exact Tame.badOperands _
  · split
    · exact Tame.badOperands _
    · exact Tame.ok _

theorem Tame.popMany {α : Type} (read : Elem → Option α) (n : Nat) (c : Cursor) : Tame (Machine.popMany read n c) := by
  intro e h
  obtain ⟨rfl, _⟩ := popMany_error read n c e h
  exact ⟨by simp [Machine.badOperands], by simp [Machine.badOperands]⟩

theorem Tame.noneLeft (c : Cursor) : Tame (Machine.noneLeft c) := by
  unfold Machine.noneLeft
  split
  · exact Tame.ok _
  · exact Tame.badOperands _

theorem Tame.noOperands (s : State) : Tame (Machine.noOperands s) := Tame.noneLeft _

theorem Tame.raiseIf {bad : Prop} [Decidable bad] {k : FaultKind} {info : Nat} (h1 : k ≠ .modeError)
    (h2 : k ≠ .illegalCommand) : Tame (Machine.raiseIf bad k info) := by
  unfold Machine.raiseIf
  split
  · intro e h
    cases h
    exact ⟨h1, h2⟩
  · exact Tame.ok _

theorem Tame.configCheck {bad : Prop} [Decidable bad] {k : Nat} : Tame (Machine.configCheck bad k) :=
  Tame.raiseIf (by simp) (by simp)

theorem Tame.needSampler (s : State) : Tame (Machine.needSampler s) := Tame.raiseIf (by simp) (by simp)

theorem Tame.toneFreq (pilot : Bool) (s : State) (c : Cursor) : Tame (Machine.toneFreq pilot s c) := by
  unfold Machine.toneFreq
  split
  · exact Tame.ok _
  · have h := Tame.popAs Elem.asReal c
    generalize Machine.popAs Elem.asReal c = r at h ⊢
    cases r with
    | error e => exact fun e' he => h e' (by cases he; rfl)
    | ok a => exact Tame.ok _

theorem Tame.writeReg (reg : WrReg) (v : ExactReal) (r : Sampler) : Tame (Machine.writeReg reg v r) := by
  unfold Machine.writeReg
  cases reg <;> simp only <;> split <;> first | exact Tame.ok _ | exact Tame.badOperands _

theorem Tame.checkPositions (es : List Nat) : Tame (Machine.checkPositions es) := by
  unfold Machine.checkPositions
  split
  · exact Tame.ok _
  · exact Tame.badOperands _

theorem Tame.decodeOrFail (nsym : Nat) (r : List Byte) (es : List Nat) : Tame (Machine.decodeOrFail nsym r es) := by
  unfold Machine.decodeOrFail
  split
  · intro e h
    cases h
    exact ⟨by simp, by simp⟩
  · exact Tame.ok _

theorem Tame.parseConfig (b : Build) (ops : List Elem) : Tame (Machine.parseConfig b ops) := by
  unfold Machine.parseConfig
  repeat' first
    | exact Tame.ok _
    | exact Tame.popAs _ _
    | exact Tame.popMany _ _ _
    | exact Tame.configCheck
    | exact Tame.noneLeft _
    | refine Tame.bind ?_ fun _ => ?_

/-- The meaning of every command is the order of checks of 60 R366 around a body: the body's successes are those of
`Ends`, and its faults are faults of the pseudocode. -/
theorem exec_eq_runCommand (i : Instr) (s : State) : ∃ body : Except Raise Done, exec i s = runCommand i s body ∧
    (∀ d, body = .ok d → Ends i s d) ∧ Tame body ∧
    (s.mode = .faulted → modeAllows i .faulted = true → ∃ d, body = .ok d) := by
  cases i with
  | sysNop =>
    refine ⟨_, rfl, fun d h => ?_, Tame.bind (Tame.noOperands _) fun _ => Tame.ok _, fun _ h => by cases h⟩
    obtain ⟨_, _, h⟩ := bind_ok h
    cases h
    rfl
  | sysConfig =>
    refine ⟨_, rfl, fun d h => ?_, Tame.bind (Tame.parseConfig _ _) fun _ => Tame.ok _, fun _ h => by cases h⟩
    obtain ⟨cfg, hc, h⟩ := bind_ok h
    cases h
    exact ⟨cfg, hc, by simp only [realCalcs, hc]⟩
  | sysReset => exact ⟨_, rfl, fun d h => by cases h; rfl, Tame.ok _, fun _ _ => ⟨_, rfl⟩⟩
  | sysStatus =>
    refine ⟨_, rfl, fun d h => ?_, ?_, fun h _ => ⟨_, by rw [if_pos h]; rfl⟩⟩
    · split at h
      · cases h; rfl
      · obtain ⟨_, _, h⟩ := bind_ok h
        cases h
        rfl
    · split
      · exact Tame.ok _
      · exact Tame.bind (Tame.noOperands _) fun _ => Tame.ok _
  | qamMap n =>
    refine ⟨_, rfl, fun d h => ?_, Tame.bind (Tame.popMany _ _ _) fun _ => Tame.bind (Tame.noneLeft _) fun _ =>
      Tame.ok _, fun _ h => by cases h⟩
    obtain ⟨_, _, h⟩ := bind_ok h
    obtain ⟨_, _, h⟩ := bind_ok h
    cases h
    exact ⟨_, _, rfl⟩
  | qamDemap report n =>
    refine ⟨_, rfl, fun d h => ?_, Tame.bind (Tame.popMany _ _ _) fun _ => Tame.bind (Tame.noneLeft _) fun _ =>
      Tame.ok _, fun _ h => by cases h⟩
    obtain ⟨_, h1, h⟩ := bind_ok h
    obtain ⟨_, _, h⟩ := bind_ok h
    cases h
    exact ⟨_, _, by simp only [realCalcs, State.popped_eq h1]; rfl⟩
  | firLoad c n =>
    refine ⟨_, rfl, fun d h => ?_, Tame.bind (Tame.raiseIf (by simp) (by simp)) fun _ =>
      Tame.bind (Tame.raiseIf (by simp) (by simp)) fun _ => Tame.bind (Tame.popMany _ _ _) fun _ =>
      Tame.bind (Tame.noneLeft _) fun _ => Tame.ok _, fun _ h => by cases h⟩
    obtain ⟨_, h1, h⟩ := bind_ok h
    obtain ⟨_, h2, h⟩ := bind_ok h
    obtain ⟨⟨taps, k⟩, h3, h⟩ := bind_ok h
    obtain ⟨_, _, h⟩ := bind_ok h
    cases h
    have h1' := raiseIf_ok h1
    exact ⟨taps, by omega, by omega, by simpa using raiseIf_ok h2, (popMany_ok _ _ _ _ _ h3).1, rfl⟩
  | firRun c n =>
    refine ⟨_, rfl, fun d h => ?_, Tame.bind (Tame.raiseIf (by simp) (by simp)) fun _ =>
      Tame.bind (Tame.raiseIf (by simp) (by simp)) fun _ => Tame.bind (Tame.popMany _ _ _) fun _ =>
      Tame.bind (Tame.noneLeft _) fun _ => Tame.ok _, fun _ h => by cases h⟩
    obtain ⟨_, h1, h⟩ := bind_ok h
    obtain ⟨_, h2, h⟩ := bind_ok h
    obtain ⟨⟨xs, k⟩, h3, h⟩ := bind_ok h
    obtain ⟨_, _, h⟩ := bind_ok h
    cases h
    exact ⟨xs, _, raiseIf_ok h1, by simpa using raiseIf_ok h2,
      by simp only [realCalcs, State.popped_eq h3]; rfl⟩
  | iirLoad =>
    refine ⟨_, rfl, fun d h => ?_, Tame.bind (Tame.popAs _ _) fun _ => Tame.bind (Tame.popAs _ _) fun _ =>
      Tame.bind (Tame.popAs _ _) fun _ => Tame.bind (Tame.popAs _ _) fun _ => Tame.bind (Tame.popAs _ _) fun _ =>
      Tame.bind (Tame.popAs _ _) fun _ => Tame.bind (Tame.raiseIf (by simp) (by simp)) fun _ =>
      Tame.bind (Tame.noneLeft _) fun _ => Tame.ok _, fun _ h => by cases h⟩
    obtain ⟨⟨b0, _⟩, _, h⟩ := bind_ok h
    obtain ⟨⟨b1, _⟩, _, h⟩ := bind_ok h
    obtain ⟨⟨b2, _⟩, _, h⟩ := bind_ok h
    obtain ⟨⟨a0, _⟩, _, h⟩ := bind_ok h
    obtain ⟨⟨a1, _⟩, _, h⟩ := bind_ok h
    obtain ⟨⟨a2, _⟩, _, h⟩ := bind_ok h
    obtain ⟨_, h7, h⟩ := bind_ok h
    obtain ⟨_, _, h⟩ := bind_ok h
    cases h
    exact ⟨b0, b1, b2, a0, a1, a2, by simpa using raiseIf_ok h7, rfl⟩
  | iirRun n =>
    refine ⟨_, rfl, fun d h => ?_, Tame.bind (Tame.raiseIf (by simp) (by simp)) fun _ =>
      Tame.bind (Tame.popMany _ _ _) fun _ => Tame.bind (Tame.noneLeft _) fun _ => Tame.ok _, fun _ h => by cases h⟩
    obtain ⟨_, h1, h⟩ := bind_ok h
    obtain ⟨⟨xs, k⟩, h3, h⟩ := bind_ok h
    obtain ⟨_, _, h⟩ := bind_ok h
    cases h
    exact ⟨xs, _, by simpa using raiseIf_ok h1,
      by simp only [realCalcs, State.popped_eq h3]; rfl⟩
  | toneCoh pilot n =>
    refine ⟨_, rfl, fun d h => ?_, Tame.bind (Tame.raiseIf (by simp) (by simp)) fun _ =>
      Tame.bind (Tame.toneFreq _ _ _) fun _ => Tame.bind (Tame.popMany _ _ _) fun _ =>
      Tame.bind (Tame.noneLeft _) fun _ => Tame.ok _, fun _ h => by cases h⟩
    obtain ⟨_, h1, h⟩ := bind_ok h
    obtain ⟨_, _, h⟩ := bind_ok h
    obtain ⟨_, _, h⟩ := bind_ok h
    obtain ⟨_, _, h⟩ := bind_ok h
    cases h
    exact ⟨fun hn => raiseIf_ok h1 (by simp [hn]), _, _, rfl⟩
  | lsqSolve order lookahead =>
    refine ⟨_, rfl, fun d h => ?_, Tame.bind (Tame.raiseIf (by simp) (by simp)) fun _ =>
      Tame.bind (Tame.popAs _ _) fun _ => Tame.bind (Tame.popAs _ _) fun _ =>
      Tame.bind (Tame.raiseIf (by simp) (by simp)) fun _ => Tame.bind (Tame.raiseIf (by simp) (by simp)) fun _ =>
      Tame.bind (Tame.popMany _ _ _) fun _ => Tame.bind (Tame.popMany _ _ _) fun _ =>
      Tame.bind (Tame.noneLeft _) fun _ => Tame.ok _, fun _ h => by cases h⟩
    obtain ⟨_, _, h⟩ := bind_ok h
    obtain ⟨_, _, h⟩ := bind_ok h
    obtain ⟨_, _, h⟩ := bind_ok h
    obtain ⟨_, _, h⟩ := bind_ok h
    obtain ⟨_, _, h⟩ := bind_ok h
    obtain ⟨_, _, h⟩ := bind_ok h
    obtain ⟨_, _, h⟩ := bind_ok h
    obtain ⟨_, _, h⟩ := bind_ok h
    cases h
    exact ⟨_, _, rfl⟩
  | demodBlock direct =>
    cases direct with
    | true =>
      refine ⟨_, rfl, fun d h => ?_, Tame.bind (Tame.popMany _ _ _) fun _ => Tame.bind (Tame.noneLeft _) fun _ =>
        Tame.ok _, fun _ h => by cases h⟩
      obtain ⟨_, h1, h⟩ := bind_ok h
      obtain ⟨_, _, h⟩ := bind_ok h
      cases h
      exact ⟨_, _, by simp only [realCalcs, State.popped_eq h1]; rfl⟩
    | false =>
      refine ⟨_, rfl, fun d h => ?_, Tame.bind (Tame.noOperands _) fun _ => Tame.bind (Tame.needSampler _) fun _ => ?_,
        fun _ h => by cases h⟩
      · obtain ⟨_, _, h⟩ := bind_ok h
        obtain ⟨_, h2, h⟩ := bind_ok h
        have hc : s.rs.created = true := by simpa using raiseIf_ok h2
        simp only at h
        split at h <;> rename_i hl <;> cases h
        · exact ⟨hc, _, _, by simp only [realCalcs, if_pos hl, List.append_nil]; rfl⟩
        · exact ⟨hc, _, _, by simp only [realCalcs, if_neg hl]; rfl⟩
      · simp only
        split <;> exact Tame.ok _
  | rsmpInit =>
    refine ⟨_, rfl, fun d h => ?_, Tame.bind (Tame.noOperands _) fun _ => Tame.ok _, fun _ h => by cases h⟩
    obtain ⟨_, _, h⟩ := bind_ok h
    cases h
    rfl
  | rsmpTake n =>
    refine ⟨_, rfl, fun d h => ?_, Tame.bind (Tame.noOperands _) fun _ => Tame.bind (Tame.needSampler _) fun _ =>
      Tame.ok _, fun _ h => by cases h⟩
    obtain ⟨_, _, h⟩ := bind_ok h
    obtain ⟨_, h2, h⟩ := bind_ok h
    cases h
    exact ⟨by simpa using raiseIf_ok h2, rfl⟩
  | rsmpWr reg =>
    refine ⟨_, rfl, fun d h => ?_, Tame.bind (Tame.needSampler _) fun _ => Tame.bind (Tame.popAs _ _) fun _ =>
      Tame.bind (Tame.writeReg _ _ _) fun _ => Tame.bind (Tame.noneLeft _) fun _ => Tame.ok _, fun _ h => by cases h⟩
    obtain ⟨_, h1, h⟩ := bind_ok h
    obtain ⟨⟨v, _⟩, _, h⟩ := bind_ok h
    obtain ⟨rs, h3, h⟩ := bind_ok h
    obtain ⟨_, _, h⟩ := bind_ok h
    cases h
    exact ⟨v, rs, by simpa using raiseIf_ok h1, h3, rfl⟩
  | rsmpRd reg =>
    refine ⟨_, rfl, fun d h => ?_, Tame.bind (Tame.noOperands _) fun _ => Tame.bind (Tame.needSampler _) fun _ =>
      Tame.ok _, fun _ h => by cases h⟩
    obtain ⟨_, _, h⟩ := bind_ok h
    obtain ⟨_, _, h⟩ := bind_ok h
    cases h
    rfl
  | rsmpAttach c =>
    refine ⟨_, rfl, fun d h => ?_, Tame.bind (Tame.noOperands _) fun _ => Tame.bind (Tame.needSampler _) fun _ =>
      Tame.bind (Tame.raiseIf (by simp) (by simp)) fun _ => Tame.ok _, fun _ h => by cases h⟩
    obtain ⟨_, _, h⟩ := bind_ok h
    obtain ⟨_, h2, h⟩ := bind_ok h
    obtain ⟨_, h3, h⟩ := bind_ok h
    cases h
    exact ⟨by simpa using raiseIf_ok h2, raiseIf_ok h3, rfl⟩
  | rsmpDetach =>
    refine ⟨_, rfl, fun d h => ?_, Tame.bind (Tame.noOperands _) fun _ => Tame.bind (Tame.needSampler _) fun _ =>
      Tame.ok _, fun _ h => by cases h⟩
    obtain ⟨_, _, h⟩ := bind_ok h
    obtain ⟨_, h2, h⟩ := bind_ok h
    cases h
    exact ⟨by simpa using raiseIf_ok h2, rfl⟩
  | modBlock =>
    refine ⟨_, rfl, fun d h => ?_, Tame.bind (Tame.popMany _ _ _) fun _ => Tame.bind (Tame.noneLeft _) fun _ =>
      Tame.ok _, fun _ h => by cases h⟩
    obtain ⟨_, _, h⟩ := bind_ok h
    obtain ⟨_, _, h⟩ := bind_ok h
    cases h
    exact ⟨_, _, rfl⟩
  | modPilot =>
    refine ⟨_, rfl, fun d h => ?_, Tame.bind (Tame.popAs _ _) fun _ => Tame.bind (Tame.noneLeft _) fun _ =>
      Tame.ok _, fun _ h => by cases h⟩
    obtain ⟨_, _, h⟩ := bind_ok h
    obtain ⟨_, _, h⟩ := bind_ok h
    cases h
    exact ⟨_, _, rfl⟩
  | rseEnc =>
    refine ⟨_, rfl, fun d h => ?_, Tame.bind (Tame.popMany _ _ _) fun _ => Tame.bind (Tame.noneLeft _) fun _ =>
      Tame.ok _, fun _ h => by cases h⟩
    obtain ⟨_, _, h⟩ := bind_ok h
    obtain ⟨_, _, h⟩ := bind_ok h
    cases h
    exact ⟨_, _, rfl⟩
  | rsdDec ne =>
    refine ⟨_, rfl, fun d h => ?_, Tame.bind (Tame.popMany _ _ _) fun _ => Tame.bind (Tame.popMany _ _ _) fun _ =>
      Tame.bind (Tame.checkPositions _) fun _ => Tame.bind (Tame.decodeOrFail _ _ _) fun _ =>
      Tame.bind (Tame.noneLeft _) fun _ => Tame.ok _, fun _ h => by cases h⟩
    obtain ⟨_, _, h⟩ := bind_ok h
    obtain ⟨_, _, h⟩ := bind_ok h
    obtain ⟨_, _, h⟩ := bind_ok h
    obtain ⟨_, _, h⟩ := bind_ok h
    obtain ⟨_, _, h⟩ := bind_ok h
    cases h
    exact ⟨_, _, rfl⟩
  | crcReset =>
    refine ⟨_, rfl, fun d h => ?_, Tame.bind (Tame.noOperands _) fun _ => Tame.ok _, fun _ h => by cases h⟩
    obtain ⟨_, _, h⟩ := bind_ok h
    cases h
    rfl
  | crcUpdate n =>
    refine ⟨_, rfl, fun d h => ?_, Tame.bind (Tame.popMany _ _ _) fun _ => Tame.bind (Tame.noneLeft _) fun _ =>
      Tame.ok _, fun _ h => by cases h⟩
    obtain ⟨_, _, h⟩ := bind_ok h
    obtain ⟨_, _, h⟩ := bind_ok h
    cases h
    exact ⟨_, rfl⟩
  | crcRead =>
    refine ⟨_, rfl, fun d h => ?_, Tame.bind (Tame.noOperands _) fun _ => Tame.ok _, fun _ h => by cases h⟩
    obtain ⟨_, _, h⟩ := bind_ok h
    cases h
    exact ⟨_, _, rfl⟩

/-- The computations of a command are in the number format of the build. -/
theorem realCalcs_num (i : Instr) (s : State) (k : Calc) (h : k ∈ realCalcs s i) : k.num = s.build.num := by
  cases i with
  | sysConfig =>
    simp only [realCalcs] at h
    split at h
    · obtain rfl := List.mem_singleton.mp h; rfl
    · cases h
  | qamDemap => obtain ⟨z, _, rfl⟩ := List.mem_map.mp h; rfl
  | firRun c n =>
    obtain ⟨v, t, hb, rfl⟩ := stepCalcs_mem _ _ (fun v s => by simp [firStep]) _ s k h
    exact congrArg Build.num hb
  | iirRun n =>
    obtain ⟨v, t, hb, rfl⟩ := stepCalcs_mem _ _ (fun v s => by simp [iirStep]) _ s k h
    exact congrArg Build.num hb
  | demodBlock direct =>
    cases direct with
    | true => obtain rfl := List.mem_singleton.mp h; rfl
    | false =>
      rcases List.mem_append.mp h with h | h
      · exact takeCalcs_num _ s k h
      · split at h
        · cases h
        · obtain rfl := List.mem_singleton.mp h
          have hb : (takeSamples s.cfg.nSym s).2.build = s.build := by
            simpa using congrArg State.build (takeSamples_moves s.cfg.nSym s).same
          exact congrArg Build.num hb
  | rsmpTake n => exact takeCalcs_num _ s k h
  | iirLoad => obtain rfl := List.mem_singleton.mp h; rfl
  | toneCoh => obtain rfl := List.mem_singleton.mp h; rfl
  | lsqSolve => obtain rfl := List.mem_singleton.mp h; rfl
  | modBlock => obtain rfl := List.mem_singleton.mp h; rfl
  | modPilot => obtain rfl := List.mem_singleton.mp h; rfl
  | _ => cases h

/-- In the reference semantics no command leaves the range of `NUM` (93 U2 (b)). -/
theorem leavesNumRange_reference (i : Instr) (s : State) (h : s.build.num = .reference) :
    leavesNumRange i s = false :=
  List.any_eq_false.mpr fun k hk => by simp [k.leavesRange_reference ((realCalcs_num i s k hk).trans h)]

/-- A command is refused for the range of `NUM` as one whole: `QAM.DEMAP` of `n` symbols where one of them alone is
(40 R125). -/
theorem leavesNumRange_qamDemap (report : Bool) (n : Count) (s : State) (zs : List Cplx) (hn : n.toNat = zs.length)
    (h : s.opq = zs.map Elem.cplx) :
    leavesNumRange (.qamDemap report n) s = zs.any fun z => (symbolCalc s.build s.qam z).leavesRange := by
  have hp := popMany_map Elem.asCplx Elem.cplx (fun _ => rfl) zs 0 []
  rw [List.append_nil] at hp
  simp [leavesNumRange, realCalcs, State.popped, Cursor.start, h, hn, hp, Function.comp_def]

/-- How a command that completes leaves the range of `NUM`. -/
theorem Ends.calcs (i : Instr) (s : State) (d : Done) (h : Ends i s d) : d.calcs = realCalcs s i := by
  cases i with
  | demodBlock b =>
    cases b with
    | true => obtain ⟨_, _, rfl⟩ := h; rfl
    | false => obtain ⟨_, _, _, rfl⟩ := h; rfl
  | sysNop => obtain rfl := h; rfl
  | sysConfig => obtain ⟨_, _, rfl⟩ := h; rfl
  | sysReset => obtain rfl := h; rfl
  | sysStatus => obtain rfl := h; rfl
  | firLoad => obtain ⟨_, _, _, _, _, rfl⟩ := h; rfl
  | firRun => obtain ⟨_, _, _, _, rfl⟩ := h; rfl
  | iirLoad => obtain ⟨_, _, _, _, _, _, _, rfl⟩ := h; rfl
  | iirRun => obtain ⟨_, _, _, rfl⟩ := h; rfl
  | toneCoh => obtain ⟨_, _, _, rfl⟩ := h; rfl
  | rsmpInit => obtain rfl := h; rfl
  | rsmpTake => obtain ⟨_, rfl⟩ := h; rfl
  | rsmpWr => obtain ⟨_, _, _, _, rfl⟩ := h; rfl
  | rsmpRd => obtain rfl := h; rfl
  | rsmpAttach => obtain ⟨_, _, rfl⟩ := h; rfl
  | rsmpDetach => obtain ⟨_, rfl⟩ := h; rfl
  | crcReset => obtain rfl := h; rfl
  | crcUpdate => obtain ⟨_, rfl⟩ := h; rfl
  | _ => obtain ⟨_, _, rfl⟩ := h; rfl

/-- A command that answers a next state was turned away in `FAULTED`, faulted outside it, or completed. -/
theorem exec_next (i : Instr) (s t : State) (h : exec i s = .next t) :
    (s.mode = .faulted ∧ modeAllows i .faulted = false ∧ t = s.turnedAway) ∨
    (s.mode ≠ .faulted ∧ ∃ code info, code ∈ ([1, 2, 3, 5, 6, 7, 8, 9, 10] : List Byte) ∧ t = s.failed code info) ∨
    (∃ d, Ends i s d ∧ i.wellFormed s.build.nfir = true ∧ modeAllows i s.mode = true ∧ t = d.commit) := by
  obtain ⟨body, hb, h1, _, h3⟩ := exec_eq_runCommand i s
  rw [hb] at h
  rcases runCommand_next i s t body h with h | h | ⟨e, hm, he, ha⟩ | ⟨d, hd, hw, ha, rfl⟩
  · exact .inl h
  · exact .inr (.inl h)
  · obtain ⟨d, hd⟩ := h3 hm ha
    rw [hd] at he
    cases he
  · exact .inr (.inr ⟨d, h1 d hd, hw, ha, rfl⟩)

/-- A command that completes leaves `MODE`, `FAULT` and `FAULT_INFO`, but for `SYS.CONFIG` and `SYS.RESET`. -/
theorem Ends.mode (i : Instr) (s : State) (d : Done) (h : Ends i s d) :
    (i = .sysConfig ∧ d.state.mode = .ready) ∨ (i = .sysReset ∧ d.state.mode = .unconfigured) ∨
    (i ≠ .sysReset ∧ i ≠ .sysConfig ∧ d.state.mode = s.mode ∧ d.state.fault = s.fault ∧
      d.state.faultInfo = s.faultInfo) := by
  cases i with
  | sysConfig => obtain ⟨c, _, rfl⟩ := h; exact .inl ⟨rfl, rfl⟩
  | sysReset => obtain rfl := h; exact .inr (.inl ⟨rfl, rfl⟩)
  | demodBlock b =>
    cases b with
    | true => obtain ⟨_, _, rfl⟩ := h; simp
    | false =>
      obtain ⟨_, _, _, rfl⟩ := h
      simp; rw [(takeSamples_moves _ s).same]; simp
  | rsmpTake n => obtain ⟨_, rfl⟩ := h; simp; rw [(takeSamples_moves _ s).same]; simp
  | toneCoh => obtain ⟨_, _, _, rfl⟩ := h; simp
  | sysNop => obtain rfl := h; simp
  | sysStatus => obtain rfl := h; simp
  | rsmpInit => obtain rfl := h; simp
  | rsmpRd => obtain rfl := h; simp
  | crcReset => obtain rfl := h; simp
  | crcUpdate => obtain ⟨_, rfl⟩ := h; simp
  | rsmpDetach => obtain ⟨_, rfl⟩ := h; simp
  | rsmpAttach => obtain ⟨_, _, rfl⟩ := h; simp
  | rsmpWr => obtain ⟨_, _, _, _, rfl⟩ := h; simp
  | firLoad => obtain ⟨_, _, _, _, _, rfl⟩ := h; simp
  | firRun c =>
    obtain ⟨xs, _, _, _, rfl⟩ := h
    obtain ⟨hist, hs, _⟩ := firSteps_state c xs s
    simp [hs]
  | iirRun =>
    obtain ⟨xs, _, _, rfl⟩ := h
    obtain ⟨_, _, _, _, _, hs⟩ := iirSteps_state xs s
    simp [hs]
  | iirLoad => obtain ⟨_, _, _, _, _, _, _, rfl⟩ := h; simp
  | _ => obtain ⟨_, _, rfl⟩ := h; simp

/-- What a command that completes does to the streams outside its results and its record. -/
theorem Ends.streams (i : Instr) (s : State) (d : Done) (h : Ends i s d) :
    d.state.cmdq = s.cmdq ∧ d.state.resq = s.resq ∧ d.state.completions = s.completions ∧ d.state.build = s.build ∧
    (d.eos = true → i = .demodBlock false ∨ ∃ n, i = .rsmpTake n) := by
  cases i with
  | demodBlock b =>
    cases b with
    | true => obtain ⟨_, _, rfl⟩ := h; simp
    | false =>
      obtain ⟨_, _, _, rfl⟩ := h
      simp only; rw [(takeSamples_moves _ s).same]; simp
  | rsmpTake n => obtain ⟨_, rfl⟩ := h; simp only; rw [(takeSamples_moves _ s).same]; simp
  | toneCoh => obtain ⟨_, _, _, rfl⟩ := h; simp
  | sysConfig => obtain ⟨c, _, rfl⟩ := h; simp
  | sysReset => obtain rfl := h; simp
  | sysNop => obtain rfl := h; simp
  | sysStatus => obtain rfl := h; simp
  | rsmpInit => obtain rfl := h; simp
  | rsmpRd => obtain rfl := h; simp
  | crcReset => obtain rfl := h; simp
  | crcUpdate => obtain ⟨_, rfl⟩ := h; simp
  | rsmpDetach => obtain ⟨_, rfl⟩ := h; simp
  | rsmpAttach => obtain ⟨_, _, rfl⟩ := h; simp
  | rsmpWr => obtain ⟨_, _, _, _, rfl⟩ := h; simp
  | firLoad => obtain ⟨_, _, _, _, _, rfl⟩ := h; simp
  | firRun c =>
    obtain ⟨xs, _, _, _, rfl⟩ := h
    obtain ⟨hist, hs, _⟩ := firSteps_state c xs s
    simp [hs]
  | iirRun =>
    obtain ⟨xs, _, _, rfl⟩ := h
    obtain ⟨_, _, _, _, _, hs⟩ := iirSteps_state xs s
    simp [hs]
  | iirLoad => obtain ⟨_, _, _, _, _, _, _, rfl⟩ := h; simp
  | _ => obtain ⟨_, _, rfl⟩ := h; simp

end Sys2Proof.Machine
end

