-- ==== Sys2Proof/Laws/PerInstr.lean ====
section
/-!
SUPPORT. A fact about every command as syntax: its word is the one that its row of the opcode table describes.
-/

namespace Sys2Proof.Laws.Table

open Sys2Proof.Machine

/-- The position of a command's row in spec/opcode_table.json. -/
def rowOf : Instr → Nat
  | .sysNop => 0
  | .sysConfig => 1
  | .sysReset => 2
  | .sysStatus => 3
  | .qamMap _ => 4
  | .qamDemap _ _ => 5
  | .firLoad _ _ => 6
  | .firRun _ _ => 7
  | .iirLoad => 8
  | .iirRun _ => 9
  | .toneCoh _ _ => 10
  | .lsqSolve _ _ => 11
  | .demodBlock _ => 12
  | .rsmpInit => 13
  | .rsmpTake _ => 14
  | .rsmpWr _ => 15
  | .rsmpRd _ => 16
  | .rsmpAttach _ => 17
  | .rsmpDetach => 18
  | .modBlock => 19
  | .modPilot => 20
  | .rseEnc => 21
  | .rsdDec _ => 22
  | .crcReset => 23
  | .crcUpdate _ => 24
  | .crcRead => 25

/-- The command's word matches its row of the table, and only the rows with a context depend on the build (spec/30
R95). -/
def Statement (i : Instr) : Prop :=
  ∃ row, opcodeRows[rowOf i]? = some row ∧ encode i &&& row.mask = row.value ∧
    (row.context = false → ∀ nfir, i.wellFormed nfir = true)

/-- Masking a word masks its fields. -/
theorem formatN_and (u o s u' o' s' : BitVec 4) (n n' : Count) :
    formatN u o s n &&& formatN u' o' s' n' = formatN (u &&& u') (o &&& o') (s &&& s') (n &&& n') := by
  apply BitVec.eq_of_getLsbD_eq
  intro i hi
  simp only [formatN, BitVec.getLsbD_and, BitVec.getLsbD_append]
  split_ifs <;> rfl

theorem sysNop : Statement .sysNop := ⟨_, rfl, by decide, fun _ _ => rfl⟩

theorem sysConfig : Statement .sysConfig := ⟨_, rfl, by decide, fun _ _ => rfl⟩

theorem sysReset : Statement .sysReset := ⟨_, rfl, by decide, fun _ _ => rfl⟩

theorem sysStatus : Statement .sysStatus := ⟨_, rfl, by decide, fun _ _ => rfl⟩

theorem qamMap (n : Count) : Statement (.qamMap n) := by
  refine ⟨_, rfl, ?_, fun _ _ => rfl⟩
  exact (formatN_and 1 0 0 15 15 15 n 0#20).trans (by rw [BitVec.and_zero]; decide)

theorem qamDemap (report : Bool) (n : Count) : Statement (.qamDemap report n) := by
  refine ⟨_, rfl, ?_, fun _ _ => rfl⟩
  exact (formatN_and 1 1 (selBit report) 15 15 14 n 0#20).trans (by rw [BitVec.and_zero]; cases report <;> decide)

theorem firLoad (c : Ctx) (n : Count) : Statement (.firLoad c n) := by
  refine ⟨_, rfl, ?_, fun h => by cases h⟩
  exact (formatN_and 2 0 c 15 15 0#4 n 0#20).trans (by rw [BitVec.and_zero, BitVec.and_zero]; decide)

theorem firRun (c : Ctx) (n : Count) : Statement (.firRun c n) := by
  refine ⟨_, rfl, ?_, fun h => by cases h⟩
  exact (formatN_and 2 1 c 15 15 0#4 n 0#20).trans (by rw [BitVec.and_zero, BitVec.and_zero]; decide)

theorem iirLoad : Statement .iirLoad := ⟨_, rfl, by decide, fun _ _ => rfl⟩

theorem iirRun (n : Count) : Statement (.iirRun n) := by
  refine ⟨_, rfl, ?_, fun _ _ => rfl⟩
  exact (formatN_and 3 1 0 15 15 15 n 0#20).trans (by rw [BitVec.and_zero]; decide)

theorem toneCoh (pilot : Bool) (n : Count) : Statement (.toneCoh pilot n) := by
  refine ⟨_, rfl, ?_, fun _ _ => rfl⟩
  exact (formatN_and 4 0 (selBit pilot) 15 15 14 n 0#20).trans (by rw [BitVec.and_zero]; cases pilot <;> decide)

theorem lsqSolve (order lookahead : BitVec 10) : Statement (.lsqSolve order lookahead) := by
  refine ⟨_, rfl, ?_, fun _ _ => rfl⟩
  rw [show encode (.lsqSolve order lookahead) = formatN 5 0 0 (lookahead ++ order) from formatL_eq _ _ _ _ _]
  exact (formatN_and 5 0 0 15 15 15 (lookahead ++ order) 0#20).trans (by rw [BitVec.and_zero]; decide)

theorem demodBlock (direct : Bool) : Statement (.demodBlock direct) :=
  ⟨_, rfl, by cases direct <;> decide, fun _ _ => rfl⟩

theorem rsmpInit : Statement .rsmpInit := ⟨_, rfl, by decide, fun _ _ => rfl⟩

theorem rsmpTake (n : Count) : Statement (.rsmpTake n) := by
  refine ⟨_, rfl, ?_, fun _ _ => rfl⟩
  exact (formatN_and 7 1 0 15 15 15 n 0#20).trans (by rw [BitVec.and_zero]; decide)

theorem rsmpWr (reg : WrReg) : Statement (.rsmpWr reg) := ⟨_, rfl, by cases reg <;> decide, fun _ _ => rfl⟩

theorem rsmpRd (reg : RdReg) : Statement (.rsmpRd reg) := ⟨_, rfl, by cases reg <;> decide, fun _ _ => rfl⟩

theorem rsmpAttach (c : Ctx) : Statement (.rsmpAttach c) := by
  refine ⟨_, rfl, ?_, fun h => by cases h⟩
  exact (formatN_and 7 4 c 15 15 0#4 0 0xFFFFF).trans (by rw [BitVec.and_zero]; decide)

theorem rsmpDetach : Statement .rsmpDetach := ⟨_, rfl, by decide, fun _ _ => rfl⟩

theorem modBlock : Statement .modBlock := ⟨_, rfl, by decide, fun _ _ => rfl⟩

theorem modPilot : Statement .modPilot := ⟨_, rfl, by decide, fun _ _ => rfl⟩

theorem rseEnc : Statement .rseEnc := ⟨_, rfl, by decide, fun _ _ => rfl⟩

theorem rsdDec (ne : Count) : Statement (.rsdDec ne) := by
  refine ⟨_, rfl, ?_, fun _ _ => rfl⟩
  exact (formatN_and 10 0 0 15 15 15 ne 0#20).trans (by rw [BitVec.and_zero]; decide)

theorem crcReset : Statement .crcReset := ⟨_, rfl, by decide, fun _ _ => rfl⟩

theorem crcUpdate (n : Count) : Statement (.crcUpdate n) := by
  refine ⟨_, rfl, ?_, fun _ _ => rfl⟩
  exact (formatN_and 11 1 0 15 15 15 n 0#20).trans (by rw [BitVec.and_zero]; decide)

theorem crcRead : Statement .crcRead := ⟨_, rfl, by decide, fun _ _ => rfl⟩

end Sys2Proof.Laws.Table
end

