-- ==== Sys2Proof/Tests/Slice0.lean ====
section
/-!
SUPPORT. Small tests, each on one command with results from the vectors of spec/95 (V<n>) or worked by hand from a
rule, and for every statement with hypotheses a witness that meets them.
-/

open Sys2Proof Sys2Proof.Machine

/-! ## Helpers -/

/-- The block after power-on in a build whose `NUM` is the reference semantics. -/
def ideal : State := { State.reset with build := { Build.default with num := .reference } }

/-- A complex value with rational parts. -/
def z (re im : Rat) : Cplx := ⟨.rat re, .rat im⟩

/-- Rational numbers as real values. -/
def rats (qs : List Rat) : List ExactReal := qs.map ExactReal.rat

/-- The number is within `10^-10` of a printed decimal. -/
def near (x : ExactReal) (q : Rat) : Bool :=
  match x.enclosure with
  | none => false
  | some a => decide ((q - 1 / 10 ^ 10) * (unitParts : Rat) ≤ a.lo ∧ (a.hi : Rat) ≤ (q + 1 / 10 ^ 10) * (unitParts : Rat))

/-- The element is an `R`, or a `C`, within `10^-10` of the printed decimals. -/
def nearElem (e : Elem) (qs : List Rat) : Bool :=
  match e, qs with
  | .r (.finite x), [q] => near x q
  | .c (.finite x) (.finite y), [p, q] => near x p && near y q
  | _, _ => false

/-- The results of a command are those printed. -/
def prints (o : Host.Outcome State Fault Refusal) (qss : List (List Rat)) : Bool :=
  match o with
  | .next t => decide (t.resq.length = qss.length) && (List.zipWith nearElem t.resq qss).all id
  | .fault _ => false
  | .refused _ => false


/-- The small configuration of spec/95. -/
def smallCfg : Cfg :=
  { fs := 8000, nSym := 8, nFreq := 2, mult := [1, 2], carrierIndex := 0, bitsPerSymbol := 2
    symbols := [z (-1/2) (-1/2), z (-1/2) (1/2), z (1/2) (-1/2), z (1/2) (1/2)], parity := 4, resolution := 16, width := 4 }

/-- A configuration whose one carrier has a period of four samples, so that its table is rational. -/
def quarterCfg : Cfg := { smallCfg with nSym := 4, nFreq := 1, mult := [1] }

/-- The block after `SYS.CONFIG` of the small configuration. -/
def configured : State := ideal.configure smallCfg

/-- The block after `SYS.CONFIG` of the configuration with a rational carrier table. -/
def quartered : State := ideal.configure quarterCfg

/-- The block after a fault. -/
def broken : State := ideal.failed 6 255

/-- A sampler on the small configuration, with the source 1 to 20. -/
def sampling : State :=
  { configured with rs := Sampler.init 4, src := (List.range 20).map fun k => .rat ((k : Rat) + 1) }

/-- FIR context 0 loaded with two taps. -/
def filtering (s : State) : State := s.setFirCtx 0 (FirCtx.load (rats [1, 2]))

/-- The state with these operands. -/
def given (s : State) (ops : List Elem) : State := { s with opq := ops }

/-- The state with one command in `CMDQ`. -/
def queued (s : State) (w : CmdWord) (ops : List Elem) : State := { s with cmdq := [⟨w, ops⟩] }

/-- The biquad after `IIR.LOAD` of these coefficients in the reference semantics. -/
def biquad (b0 b1 b2 a0 a1 a2 : Rat) : Biquad :=
  Biquad.load ⟨.iirLoad, ideal⟩ (.rat b0) (.rat b1) (.rat b2) (.rat a0) (.rat a1) (.rat a2)

/-- Real operands. -/
def reals (qs : List Rat) : List Elem := (rats qs).map Elem.real

/-- Bit operands. -/
def bits (bs : List Nat) : List Elem := bs.map fun b => Elem.bit (b == 1)

/-- Byte operands. -/
def bytes (bs : List Byte) : List Elem := bs.map Elem.u8

/-- The results and the records after one command. -/
def answer (o : Host.Outcome State Fault Refusal) : Option (List Elem × List Completion) :=
  match o with
  | .next t => some (t.resq, t.completions)
  | .fault _ => none
  | .refused _ => none

/-- A part of the state after one command. -/
def look {α : Type} (o : Host.Outcome State Fault Refusal) (f : State → α) : Option α :=
  match o with
  | .next t => some (f t)
  | .fault _ => none
  | .refused _ => none

/-- The record `(code, eos, count)` alone. -/
def record (code : Byte) (eos : Bool) (count : Nat) : List Completion := [⟨code, eos, count⟩]

/-! ## WellFormed -/

theorem test_wellFormed_firLoad : (Instr.firLoad 2 1).wellFormed 2 = false ∧ (Instr.firLoad 1 1).wellFormed 2 = true := by
  decide

theorem test_wellFormed_firRun : (Instr.firRun 15 1).wellFormed 2 = false ∧ (Instr.firRun 15 1).wellFormed 16 = true := by
  decide

theorem test_wellFormed_rsmpAttach :
    (Instr.rsmpAttach 2).wellFormed 2 = false ∧ (Instr.rsmpAttach 0).wellFormed 1 = true := by
  decide

theorem test_wellFormed_others : Instr.crcRead.wellFormed 0 = true ∧ (Instr.qamMap 7).wellFormed 0 = true := by decide

/-! ## Decoding, each word written out as unit, op, sel, n (spec/30 R90, R95) -/

theorem test_decode_sys :
    decode 0b00000000000000000000000000000000 = .ok .sysNop ∧
    decode 0b00000001000000000000000000000000 = .ok .sysConfig ∧
    decode 0b00000010000000000000000000000000 = .ok .sysReset ∧
    decode 0b00000011000000000000000000000000 = .ok .sysStatus ∧
    decode 0b00000011000000000000000000000001 = .error .nNotZero ∧
    decode 0b00000001000100000000000000000000 = .error .selNotZero := by decide

theorem test_decode_qam :
    decode 0b00010000000000000000000000000010 = .ok (.qamMap 2) ∧
    decode 0b00010001000011111111111111111111 = .ok (.qamDemap false 0xFFFFF) ∧
    decode 0b00010001000100000000000000001000 = .ok (.qamDemap true 8) ∧
    decode 0b00010000000100000000000000000010 = .error .selNotZero := by decide

theorem test_decode_filters :
    decode 0b00100000000100000000000000000011 = .ok (.firLoad 1 3) ∧
    decode 0b00100001111100000000000000000100 = .ok (.firRun 15 4) ∧
    decode 0b00110000000000000000000000000000 = .ok .iirLoad ∧
    decode 0b00110001000000000000000000000101 = .ok (.iirRun 5) ∧
    decode 0b00110000000000000000000000000001 = .error .nNotZero := by decide

theorem test_decode_tone :
    decode 0b01000000000100000000000000001000 = .ok (.toneCoh true 8) ∧
    decode 0b01000000000000000000000000000010 = .ok (.toneCoh false 2) ∧
    decode 0b01000000001000000000000000000010 = .error .selRange := by decide

theorem test_decode_lsq :
    decode 0b01010000000000000000100000000011 = .ok (.lsqSolve 3 2) ∧
    decode 0b01010000000000000000011111111111 = .ok (.lsqSolve 1023 1) := by decide

theorem test_decode_demod :
    decode 0b01100000000000000000000000000000 = .ok (.demodBlock false) ∧
    decode 0b01100000000100000000000000000000 = .ok (.demodBlock true) := by decide

theorem test_decode_rsmp :
    decode 0b01110000000000000000000000000000 = .ok .rsmpInit ∧
    decode 0b01110001000000000000000000001010 = .ok (.rsmpTake 10) ∧
    decode 0b01110010000100000000000000000000 = .ok (.rsmpWr .offset) ∧
    decode 0b01110011001100000000000000000000 = .ok (.rsmpRd .eqsel) ∧
    decode 0b01110100000100000000000000000000 = .ok (.rsmpAttach 1) ∧
    decode 0b01110101000000000000000000000000 = .ok .rsmpDetach ∧
    decode 0b01110010001000000000000000000000 = .error .selRange := by decide

theorem test_decode_mod :
    decode 0b10000000000000000000000000000000 = .ok .modBlock ∧
    decode 0b10000001000000000000000000000000 = .ok .modPilot ∧
    decode 0b10000010000000000000000000000000 = .error .reservedOp := by decide

theorem test_decode_rs :
    decode 0b10010000000000000000000000000000 = .ok .rseEnc ∧
    decode 0b10100000000000000000000000100000 = .ok (.rsdDec 32) := by decide

theorem test_decode_crc :
    decode 0b10110000000000000000000000000000 = .ok .crcReset ∧
    decode 0b10110001000000000000000000001001 = .ok (.crcUpdate 9) ∧
    decode 0b10110010000000000000000000000000 = .ok .crcRead ∧
    decode 0b11000000000000000000000000000000 = .error .reservedUnit := by decide

theorem test_decodeTableWord :
    decodeTableWord 32 0x50000803 = some (.lsqSolve 3 2) ∧ decodeTableWord 32 0xC0000000 = none ∧
    decodeTableWord 32 (2 ^ 32) = none := by decide

/-! ## System -/

/-- V1, and V72: `SYS.NOP <- 1.0` is `BadOperands`, info 0. -/
theorem test_sysNop :
    answer (step (queued ideal 0 [])) = some ([], record 0 false 0) ∧
    look (step (queued ideal 0 (reals [1]))) (fun t => (t.fault, t.faultInfo)) = some (2, 0) := by
  decide +kernel

/-- The small configuration is accepted and becomes `CFG` (V17); a second `SYS.CONFIG` is `ModeError` (V18). -/
theorem test_sysConfig_accepts :
    look (exec .sysConfig (given ideal (configRecord smallCfg))) (fun t => (t.mode, t.cfg, t.rsGen, t.qam.realMax))
      = some (.ready, smallCfg, [0x01, 0x0F, 0x36, 0x78, 0x40], 1) ∧
    look (exec .sysConfig (given configured (configRecord smallCfg))) (fun t => (t.fault, t.faultInfo))
      = some (3, 16777216) := by
  decide +kernel

/-- V19: `mult = [1, 4]` fails check 4; a repeated point fails check 8; and V20: a record cut short after `Nfreq`. -/
theorem test_sysConfig_refuses :
    look (exec .sysConfig (given ideal (configRecord { smallCfg with mult := [1, 4] })))
      (fun t => (t.fault, t.faultInfo)) = some (5, 4) ∧
    look (exec .sysConfig (given ideal (configRecord
      { smallCfg with symbols := [z (-1/2) (-1/2), z (-1/2) (1/2), z (1/2) (-1/2), z (1/2) (-1/2)] })))
      (fun t => (t.fault, t.faultInfo)) = some (5, 8) ∧
    look (exec .sysConfig (given ideal ((configRecord smallCfg).take 3)))
      (fun t => (t.fault, t.faultInfo)) = some (2, 3) := by
  decide +kernel

/-- R302: reset from `FAULTED` empties `OPQ` and keeps `RESQ`. -/
theorem test_sysReset :
    look (exec .sysReset { given broken (reals [1]) with resq := bits [1] })
      (fun t => (t.mode, t.fault, t.opq, t.resq)) = some (.unconfigured, 0, [], bits [1]) := by
  decide +kernel

/-- 70 R391: power-on empties the queues and keeps what `SRC` has not delivered. -/
theorem test_powerOn :
    let t := State.powerOn { queued sampling 0 [] with resq := bits [1], srcEof := true }
    (t.mode, t.cmdq, t.resq, t.src.length, t.srcEof, t.rs.created) = (.unconfigured, [], [], 20, false, false) := by
  decide +kernel

/-- V16 and V71. -/
theorem test_sysStatus :
    answer (exec .sysStatus ideal) = some ([.nat 0, .nat 0], record 0 false 2) ∧
    look (exec .sysStatus broken) (fun t => t.resq) = some [.nat 1538, .nat 255] := by
  decide +kernel

/-! ## QAM -/

/-- V21. -/
theorem test_qamMap :
    answer (exec (.qamMap 4) (given configured (bits [0, 0, 1, 0, 0, 1, 1, 1])))
      = some (smallCfg.symbols.map Elem.cplx, record 0 false 4) := by
  decide +kernel

/-- V22d. -/
theorem test_qamDemap_report :
    answer (exec (.qamDemap true 1) (given configured [.cplx (z (2/5) (3/5))]))
      = some (bits [1, 1] ++ [.cplx (z (1/2) (1/2))], record 0 false 1) := by
  decide +kernel

/-- V22b and V22c: clamping, and ties to even. -/
theorem test_qamDemap_corners :
    look (exec (.qamDemap false 3) (given configured [.cplx (z (-3) (7)), .cplx (z (0) (0)), .cplx (z (0) (1))]))
      (fun t => t.resq) = some (bits [1, 0, 0, 0, 1, 0]) := by
  decide +kernel

/-! ## Filters -/

/-- R142, and V29: `FIR.LOAD 0, 1 <- 1.0, 2.0` is `BadOperands`, info 1. -/
theorem test_firLoad :
    look (exec (.firLoad 1 3) (given ideal (reals [1, 2, 3]))) (fun t => (t.firCtx 1, (t.firCtx 0).ntaps))
      = some (⟨3, rats [1, 2, 3], rats [0, 0, 0]⟩, 0) ∧
    look (exec (.firLoad 0 1) (given ideal (reals [1, 2]))) (fun t => (t.fault, t.faultInfo, (t.firCtx 0).ntaps))
      = some (2, 1, 0) := by
  decide +kernel

/-- V26, the second and the first block. -/
theorem test_firRun :
    look (exec (.firRun 0 2) (given (ideal.setFirCtx 0 (FirCtx.load (rats [1, 2, 3]))) (reals [1, 1])))
      (fun t => (t.resq, (t.firCtx 0).hist)) = some (reals [1, 3], rats [1, 1, 0]) ∧
    look (exec (.firRun 0 4) (given (ideal.setFirCtx 0 (FirCtx.load (rats [1, 2, 3]))) (reals [1, 0, 0, 0])))
      (fun t => t.resq) = some (reals [1, 2, 3, 0]) := by
  decide +kernel

/-- V32's division by `a0`, and V34a's faults. -/
theorem test_iirLoad :
    look (exec .iirLoad (given ideal (reals [1, 0, 0, 2, 0, 0]))) (fun t => (t.iir.loaded, t.iir.b0))
      = some (true, .rat (1/2)) ∧
    look (exec .iirLoad (given ideal (reals [1, 0, 0, 0, 1, 1]))) (fun t => (t.fault, t.faultInfo)) = some (9, 0) ∧
    look (exec .iirLoad (given ideal (reals [1, 0, 0, 1, 0]))) (fun t => (t.fault, t.faultInfo)) = some (2, 5) := by
  decide +kernel

/-- V31. -/
theorem test_iirRun :
    look (exec (.iirRun 5) (given { ideal with iir := biquad (1/2) 0 0 1 (-3/5) (1/10) }
      (reals [1, 0, 0, 0, 0]))) (fun t => (t.resq, t.iir.yh0, t.iir.yh1))
      = some (reals [1/2, 3/10, 13/100, 48/1000, 158/10000], .rat (158/10000), .rat (48/1000)) := by
  decide +kernel

/-! ## Tone detector and equalizer -/

/-- V25c, V25a, and a cosine of the training carrier scores 1 (R162). -/
theorem test_toneCoh :
    answer (exec (.toneCoh false 2) (given ideal (reals [0, 3, 4])))
      = some ([.cplx (z (7/5) (0))], record 0 false 1) ∧
    look (exec (.toneCoh true 4) (given quartered (reals [0, 0, 0, 0]))) (fun t => t.resq) = some [.cplx (z (0) (0))] ∧
    look (exec (.toneCoh true 4) (given quartered (reals [1, 0, -1, 0]))) (fun t => t.resq) = some [.cplx (z (1) (0))] := by
  decide +kernel

/-- V25d. -/
theorem test_toneCoh_faults :
    look (exec (.toneCoh false 0) (given ideal (reals [1/2]))) (fun t => (t.fault, t.faultInfo)) = some (2, 0) ∧
    look (exec (.toneCoh false 2) (given ideal (reals [0, 3]))) (fun t => (t.fault, t.faultInfo)) = some (2, 2) := by
  decide +kernel

/-- V36. -/
theorem test_lsqSolve :
    answer (exec (.lsqSolve 2 1) (given ideal
      ([.nat 6, .nat 6] ++ reals [1, 2, 0, -1, 3, 1, 2, 3, -2, -2, 7, -1])))
      = some (reals [0, 2, -1], record 0 false 3) := by
  decide +kernel

/-- V37, the minimum norm, and V39. -/
theorem test_lsqSolve_corners :
    look (exec (.lsqSolve 1 1) (given ideal ([.nat 2, .nat 2] ++ reals [1, 1, 4, 9]))) (fun t => t.resq)
      = some (reals [2, 2]) ∧
    look (exec (.lsqSolve 1023 1) (given ideal [])) (fun t => (t.fault, t.faultInfo)) = some (2, 1024) ∧
    look (exec (.lsqSolve 3 2) (given ideal [.nat 3, .nat 6])) (fun t => (t.fault, t.faultInfo)) = some (2, 3) := by
  decide +kernel

/-! ## Demodulator and modulator -/

/-- R191 on a block of the carrier itself: `(2/4) (1 + 1) = 1`; and V34b: seven samples of eight. -/
theorem test_demodBlock_direct :
    answer (exec (.demodBlock true) (given quartered (reals [1, 0, -1, 0])))
      = some ([.cplx (z (1) (0))], record 0 false 1) ∧
    look (exec (.demodBlock true) (given configured (reals [1, 1, 1, 1, 1, 1, 1]))) (fun t => (t.fault, t.faultInfo))
      = some (2, 7) := by
  decide +kernel

/-- R192 through the sampler: eight samples less the window of four make one block; the next one is cut short. -/
theorem test_demodBlock_stream :
    answer (exec (.demodBlock false) { quartered with rs := Sampler.init 4, src := rats [1, 0, -1, 0, 0, 0, 0, 0] })
      = some ([.cplx (z (1) (0))], record 0 false 1) ∧
    look (exec (.demodBlock false) { quartered with rs := Sampler.init 4, src := rats [1, 0, -1, 0, 0] })
      (fun t => (t.resq, t.completions, t.rs.eof)) = some ([], record 0 true 0, true) := by
  decide +kernel

/-- R242: the real part of the carrier, and of `j` times the carrier, over `Nfreq = 1`. -/
theorem test_modBlock :
    answer (exec .modBlock (given quartered [.cplx (z (1) (0))])) = some (reals [1, 0, -1, 0], record 0 false 4) ∧
    look (exec .modBlock (given configured [.cplx (z (1) (0))])) (fun t => (t.fault, t.faultInfo)) = some (2, 1) := by
  decide +kernel

/-- R243, and V48's sign: `Re(j exp(j theta)) = -sin(theta)`. -/
theorem test_modPilot :
    answer (exec .modPilot (given quartered [.cplx (z (0) (1))])) = some (reals [0, -1, 0, 1], record 0 false 4) := by
  decide +kernel

/-- V46, V48: the printed samples of the small configuration. -/
theorem test_modulator_prints :
    prints (exec .modBlock (given configured [.cplx (z (1/2) (1/2)), .cplx (z (-1/2) (1/2))]))
      [[0], [-0.25], [0], [-0.103553390593], [-0.5], [-0.25], [0.5], [0.603553390593]] = true ∧
    prints (exec .modPilot (given configured [.cplx (z 1 0)]))
      [[1], [0.707106781187], [0], [-0.707106781187], [-1], [-0.707106781187], [0], [0.707106781187]] = true := by
  decide +kernel

/-- V49 through both commands: the samples that `MOD.BLOCK` pushed, demodulated, are the symbols over 2. -/
theorem test_demodulator_prints :
    (match exec .modBlock (given configured [.cplx (z (1/2) (1/2)), .cplx (z (-1/2) (1/2))]) with
      | .next t => prints (exec (.demodBlock true) (given configured t.resq)) [[0.25, 0.25], [-0.25, 0.25]]
      | .fault _ => false
      | .refused _ => false) = true := by
  decide +kernel

/-- The example of R163 (`w = 2 pi/8` to the accuracy of the literals), and V25b. -/
theorem test_toneCoh_prints :
    prints (exec (.toneCoh false 4) (given ideal (reals [1.5707963267948966, 1, 0, 0, 0]))) [[0.707106781187, 0]] = true ∧
    (match exec .modPilot (given configured [.cplx (z 1 0)]) with
      | .next t => prints (exec (.toneCoh true 8) (given configured t.resq)) [[1, 0]]
      | .fault _ => false
      | .refused _ => false) = true := by
  decide +kernel

/-! ## Resampler -/

/-- V40: the half-sample phase of the bank. -/
theorem test_bank_prints : (List.zipWith near (configured.bank.getD 8 [])
    [-0.003461413906, 0.039299593277, -0.146707268661, 0.612389875025,
      0.612389875025, -0.146707268661, 0.039299593277, -0.003461413906]) = List.replicate 8 true := by
  decide +kernel

/-- V43: half rate. -/
theorem test_rsmpTake_prints :
    prints (exec (.rsmpTake 6) { sampling with rs := { sampling.rs with freq := .rat (1/2) } })
      [[1], [1.536939122667], [2], [2.504142514764], [3], [3.510645500139]] = true := by
  decide +kernel

/-- R212 with width 4. -/
theorem test_rsmpInit :
    look (exec .rsmpInit configured) (fun t => (t.rs.created, t.rs.buff, t.rs.pad, t.rs.index, t.rs.offset, t.rs.freq))
      = some (true, rats [0, 0, 0, 0, 0, 0, 0, 0], 4, 0, .rat 5, .rat 1) := by
  decide +kernel

/-- V41. -/
theorem test_rsmpTake :
    look (exec (.rsmpTake 10) sampling)
      (fun t => (t.resq, t.completions, t.rs.offset, t.rs.index, t.rs.pad, t.src.length))
      = some (reals [1, 2, 3, 4, 5, 6, 7, 8, 9, 10], record 0 false 10, .rat 15, 18, 0, 6) := by
  decide +kernel

/-- V41 and V42 together: twenty samples in, sixteen out. -/
theorem test_rsmpTake_end :
    look (exec (.rsmpTake 100) sampling) (fun t => (t.completions, t.rs.offset, t.rs.index, t.rs.eof))
      = some (record 0 true 16, .rat 21, 24, true) := by
  decide +kernel

/-- V45c. -/
theorem test_rsmpWr :
    look (exec (.rsmpWr .freq) (given sampling (reals [1/2]))) (fun t => t.rs.freq) = some (.rat (1/2)) ∧
    look (exec (.rsmpWr .freq) (given sampling (reals [0]))) (fun t => (t.fault, t.faultInfo)) = some (2, 0) ∧
    look (exec (.rsmpWr .offset) (given sampling (reals [-1/2]))) (fun t => (t.fault, t.faultInfo)) = some (2, 1) ∧
    look (exec (.rsmpWr .offset) (given sampling (reals [0]))) (fun t => t.rs.offset) = some (.rat 0) := by
  decide +kernel

/-- V45a. -/
theorem test_rsmpRd :
    answer (exec (.rsmpRd .eqsel) { sampling with rs := { sampling.rs with eqsel := some 1 } })
      = some ([.nat 2], record 0 false 1) ∧
    look (exec (.rsmpRd .offset) sampling) (fun t => t.resq) = some (reals [5]) := by
  decide +kernel

/-- V45c. -/
theorem test_rsmpAttach :
    look (exec (.rsmpAttach 0) (filtering sampling)) (fun t => t.rs.eqsel) = some (some 0) ∧
    look (exec (.rsmpAttach 1) (filtering sampling)) (fun t => (t.fault, t.faultInfo)) = some (6, 1) := by
  decide +kernel

/-- R219. -/
theorem test_rsmpDetach :
    look (exec .rsmpDetach { sampling with rs := { sampling.rs with eqsel := some 1 } })
      (fun t => (t.rs.eqsel, t.rs.created)) = some (none, true) ∧
    look (exec .rsmpDetach configured) (fun t => (t.fault, t.faultInfo)) = some (7, 0) := by
  decide +kernel

/-! ## Reed-Solomon -/

/-- The codeword of V50: the generator polynomial itself. -/
def unitCodeword : List Byte := List.replicate 250 0 ++ [0x01, 0x0F, 0x36, 0x78, 0x40]

/-- V50a: products and inverses. -/
theorem test_galois :
    gfMul 0x02 0x80 = 0x1D ∧ gfMul 0x53 0xCA = 0x8F ∧ gfMul 0xFF 0xFF = 0xE2 ∧ gfInv 0x02 = 0x8E ∧
    gfInv 0x53 = 0x8C := by
  decide +kernel

/-- V50. -/
theorem test_rseEnc :
    answer (exec .rseEnc (given configured (bytes (List.replicate 250 0 ++ [0x01]))))
      = some (bytes unitCodeword, record 0 false 255) := by
  decide +kernel

/-- V51, two errors. -/
theorem test_rsdDec :
    answer (exec (.rsdDec 0) (given configured (bytes ((unitCodeword.set 0 0x12).set 254 0x74))))
      = some (bytes (List.replicate 250 0 ++ [0x01]), record 0 false 2) := by
  decide +kernel

/-- V52: five erasures are too many; position 255 is none. -/
theorem test_rsdDec_faults :
    look (exec (.rsdDec 5) (given configured (bytes unitCodeword ++ [.nat 0, .nat 1, .nat 2, .nat 3, .nat 4])))
      (fun t => (t.fault, t.faultInfo)) = some (10, 5) ∧
    look (exec (.rsdDec 2) (given configured (bytes unitCodeword ++ [.nat 7, .nat 7])))
      (fun t => (t.fault, t.faultInfo)) = some (2, 1) ∧
    look (exec (.rsdDec 1) (given configured (bytes unitCodeword ++ [.nat 255])))
      (fun t => (t.fault, t.faultInfo)) = some (2, 0) := by
  decide +kernel

/-! ## CRC -/

/-- R293. -/
theorem test_crcReset : look (exec .crcReset { ideal with crcReg := 5 }) (fun t => t.crcReg) = some 0xFFFFFFFF := by
  decide +kernel

/-- V61's first piece, and V66: two bytes promised, one given. -/
theorem test_crcUpdate :
    look (exec (.crcUpdate 4) (given ideal (bytes [0x31, 0x32, 0x33, 0x34]))) (fun t => t.crcReg)
      = some 0x641C1F5C ∧
    look (exec (.crcUpdate 2) (given ideal (bytes [0x41]))) (fun t => (t.fault, t.faultInfo)) = some (2, 1) := by
  decide +kernel

/-- V61: the register after all nine digits reads as `cb f4 39 26`. -/
theorem test_crcRead :
    answer (exec .crcRead { ideal with crcReg := 0x340BC6D9 })
      = some (bytes [0xCB, 0xF4, 0x39, 0x26], record 0 false 4) := by
  decide +kernel

/-! ## Tests on irrational numbers: the outcome is that of the real number (R12) -/

/-- `floor(sqrt(2) * sqrt(2)) = 2`. -/
theorem test_floor_of_an_irrational_product :
    ((sqrtReal (.rat 2)).times (sqrtReal (.rat 2))).floor = 2 := by
  rw [ExactReal.floor_eq]
  simp

/-- R26 on the real coordinates 0, sqrt 2, 4 sqrt 2, 6 sqrt 2: the second is halfway between two places of the grid and
goes to the even one, so two points share a cell. -/
theorem test_gridPlace_of_an_irrational_tie :
    let root := sqrtReal (.rat 2)
    (root.times ((ExactReal.rat 3).over ((ExactReal.rat 6).times root))).roundEven = 0 := by
  have h : ((sqrtReal (.rat 2)).times ((ExactReal.rat 3).over ((ExactReal.rat 6).times (sqrtReal (.rat 2))))).val
      = 1 / 2 := by
    have : Real.sqrt 2 ≠ 0 := by positivity
    simp only [ExactReal.val_times, ExactReal.val_over, val_sqrtReal, ExactReal.val_rat]
    push_cast
    field_simp
    norm_num
  have h2 : ⌊(1 / 2 : ℝ)⌋ = 0 := by norm_num
  simp only [ExactReal.roundEven_eq, h, Int.fract, h2]
  norm_num

/-- R216: `RSMP.WR 1` of `sqrt(2) * sqrt(2) - 2` writes an offset that is not negative. -/
theorem test_rsmpWr_of_an_irrational_zero :
    (writeReg .offset (((sqrtReal (.rat 2)).times (sqrtReal (.rat 2))).minus (.rat 2)) sampling.rs).isOk = true := by
  have h : (((sqrtReal (.rat 2)).times (sqrtReal (.rat 2))).minus (.rat 2)).negative = false := by simp
  simp [writeReg, h, Except.isOk, Except.toBool]

/-- R301: the small configuration is accepted in the build of power-on too, whatever its arithmetic. -/
theorem test_firstFailing_in_a_build : firstFailing Build.default smallCfg = none := by
  decide +kernel

/-! ## Witnesses: for each statement with hypotheses, values that meet them -/

theorem witness_DecodeAcceptsTheTable :
    decode 0x5003FFFF = .ok (.lsqSolve 1023 255) ∧ (∃ row ∈ opcodeRows, (0x5003FFFF : CmdWord) &&& row.mask = row.value) ∧
    ¬ ∃ row ∈ opcodeRows, (0xB3000000 : CmdWord) &&& row.mask = row.value := by
  decide

theorem witness_StepRunsTheDecodedCommand :
    ideal.cmdq = [] ∧
    (queued ideal 0xB2000000 []).cmdq = ⟨0xB2000000, []⟩ :: [] ∧ decode 0xB2000000 = .ok .crcRead := by
  decide +kernel

/-- The context 1 is the last one of a build with two. -/
theorem witness_IllegalWordsFault :
    ideal.mode ≠ .faulted ∧ (queued ideal 0x20200001 []).cmdq = ⟨0x20200001, []⟩ :: [] ∧
    legalWord ideal.build.nfir 0x20200001 = false ∧ legalWord ideal.build.nfir 0x20100001 = true ∧
    legalWord ideal.build.nfir 0xC0000000 = false := by
  decide +kernel

theorem witness_ModeDecidesWhatRuns :
    (Instr.qamMap 1).wellFormed ideal.build.nfir = true ∧ ideal.mode = .unconfigured ∧
    needsConfig (.qamMap 1) = true ∧ needsConfig (.toneCoh true 1) = true ∧ needsConfig (.toneCoh false 1) = false ∧
    configured.mode = .ready ∧ broken.mode = .faulted ∧ Instr.sysNop ≠ .sysStatus ∧ Instr.sysNop ≠ .sysReset ∧
    Accepted ideal .sysConfig ∧ Accepted configured (.rsmpAttach 1) ∧ ¬ Accepted configured .sysConfig ∧
    (queued broken 0xC0000000 []).mode = .faulted ∧ legalWord broken.build.nfir 0xC0000000 = false := by
  decide +kernel

theorem witness_FaultedTurnsEverythingAway :
    (queued broken 0x03000000 []).cmdq = ⟨0x03000000, []⟩ :: [] ∧ (queued broken 0x03000000 []).mode = .faulted ∧
    (queued broken 0x02000000 []).mode = .faulted ∧ (queued broken 0x00000000 []).mode = .faulted ∧
    (0x00000000 : CmdWord) ≠ 0x03000000 ∧ (0x00000000 : CmdWord) ≠ 0x02000000 := by
  decide +kernel

theorem witness_FaultsArePrecise :
    ideal.mode ≠ .faulted ∧ look (exec (.iirRun 1) ideal) (fun t => t.mode) = some .faulted := by
  decide +kernel

theorem witness_OnlyResetLeavesFaulted :
    (queued broken 0x02000000 []).mode = .faulted ∧
    look (step (queued broken 0x02000000 [])) (fun t => t.mode) = some .unconfigured := by
  decide +kernel

/-- One record each: a success with results, a fault, and the end of the stream. -/
theorem witness_OneRecordPerCommand :
    answer (step (queued ideal 0xB2000000 [])) = some (bytes [0, 0, 0, 0], record 0 false 4) ∧
    look (step (queued ideal 0x70000000 [])) (fun t => (t.mode, t.completions))
      = some (.faulted, record 3 false 0) ∧
    look (step (queued { sampling with src := [] } 0x71000001 [])) (fun t => t.completions) = some (record 0 true 0) := by
  decide +kernel

/-- A count of 0, in the build of power-on, whose `NUM` is binary64; and a source that ends before the first output. -/
theorem witness_EveryStepAnswers :
    leavesNumRange (.firRun 0 1) (given (filtering ideal) (reals [1])) = false ∧ ideal.build.num = .reference ∧ computesReals (.firRun 0 0) = false ∧
    computesReals (.rsmpTake 0) = false ∧ computesReals .crcRead = false ∧
    (takeSamples 3 { sampling with src := [] }).1 = [] ∧
    1 ≤ sampling.cfg.nSym ∧
    (takeSamples sampling.cfg.nSym { sampling with src := [] }).1 = [] ∧
    answer (exec (.qamDemap true 0) { configured with build := Build.default }) = some ([], record 0 false 0) ∧
    answer (exec (.iirRun 0) { State.reset with iir := biquad 1 0 0 1 0 0 }) = some ([], record 0 false 0) := by
  decide +kernel

/-- The configuration that `SYS.CONFIG` left. -/
theorem configured_legal : smallCfg.Legal ideal.build := by
  decide +kernel

/-- The invariant holds of a state in `READY`. -/
theorem witness_configured_Inv : ConfigInv configured :=
  fun _ => ⟨configured_legal, rfl, rfl, rfl, rfl⟩

theorem witness_StepKeepsConfigInv :
    ConfigInv configured ∧ look (step (queued configured 0 [])) (fun t => t.mode) = some .ready :=
  ⟨witness_configured_Inv, by decide +kernel⟩

theorem witness_StepKeepsFaultAndStreamInv :
    FaultInv broken ∧ StreamInv broken ∧ FaultInv sampling ∧ StreamInv sampling ∧
    look (step (queued sampling 0x71000001 [])) (fun t => t.mode) = some .ready := by
  decide +kernel

/-- A sampler attached to the last context of the build. -/
theorem witness_StepKeepsFilterAndSamplerInv :
    let s := { sampling.setFirCtx 1 (FirCtx.load (rats [1, 2])) with rs := { sampling.rs with eqsel := some 1 } }
    ConfigInv s ∧ FirInv s ∧ SamplerInv s ∧ look (step (queued s 0x71000001 [])) (fun t => t.mode) = some .ready := by
  refine ⟨fun _ => ⟨configured_legal, rfl, rfl, rfl, rfl⟩, by decide +kernel,
    ⟨by decide +kernel, fun _ => ⟨by decide +kernel, by decide +kernel, by decide +kernel, ?_, ?_, by decide +kernel⟩⟩,
    by decide +kernel⟩
  · have : sampling.rs.offset = .rat 5 := by decide +kernel
    simp [this]
  · have : sampling.rs.freq = .rat 1 := by decide +kernel
    simp [this]

theorem witness_SysNop :
    ideal.mode ≠ .faulted ∧ ideal.opq = [] ∧ (given ideal (bits [1])).opq ≠ [] ∧
    broken.mode = .faulted ∧ unitOf 0x00000001 = 0 ∧ opOf 0x00000001 = 0 := by
  decide +kernel

theorem witness_SysReset : unitOf 0x02000001 = 0 ∧ opOf 0x02000001 = 2 := by decide

theorem witness_SysStatus :
    ideal.mode ≠ .faulted ∧ (given ideal (bits [1])).opq ≠ [] ∧ ideal.opq = [] ∧
    (given broken (bits [1])).mode = .faulted ∧ configured.mode = .ready ∧ unitOf 0x03000000 = 0 ∧
    opOf 0x03000000 = 3 := by
  decide +kernel

/-- A good record, one with an element too many, one that fails the first check and one that fails the last. -/
theorem witness_SysConfig :
    ideal.mode = .unconfigured ∧ smallCfg.mult.length = smallCfg.nFreq ∧
    smallCfg.symbols.length = 2 ^ smallCfg.bitsPerSymbol ∧
    (given ideal (configRecord smallCfg ++ bits [1])).opq = configRecord smallCfg ++ bits [1] ∧
    leavesNumRange .sysConfig (given ideal (configRecord smallCfg)) = false ∧
    firstFailing ideal.build smallCfg = none ∧
    firstFailing ideal.build { smallCfg with fs := 0, width := 0 } = some 1 ∧
    firstFailing ideal.build { smallCfg with width := 4097 } = some 11 := by
  decide +kernel

theorem witness_CarrierTableEntries :
    ideal.build.num = .reference ∧ Calc.num ⟨.sysConfig, ideal⟩ = .reference ∧ 1 < smallCfg.mult.length ∧
    7 < smallCfg.nSym ∧ 0 < smallCfg.nSym := by
  decide

/-- A full grid, and one whose second and third point fall into one cell. -/
theorem witness_QamTableFit :
    smallCfg.symbols ≠ [] ∧ ideal.build.num = .reference ∧ fullGrid smallCfg.symbols = true ∧
    3 < smallCfg.symbols.length ∧ fullGrid [z 0 0, z 1 0, z (6/5) 0, z 4 0] = false := by
  decide +kernel

/-- A tie: the even neighbour is taken, the other one is as near; and an enclosure that tells an integer part. -/
theorem witness_RoundingRules :
    (ExactReal.rat (1/2)).roundEven = 0 ∧ |(1/2 : Rat) - 0| = |(1/2 : Rat) - 1| ∧
    [ExactReal.pi].length = [ExactReal.rat 1].length ∧
    (∃ a, (ExactReal.sqrt (.rat 2)).enclosure = some a ∧ a.lo / unitParts = 1 ∧ a.hi / unitParts = 1) := by
  refine ⟨by decide +kernel, by decide +kernel, rfl, _, rfl, ?_, ?_⟩ <;>
    decide +kernel

theorem witness_BankTable :
    ideal.build.num = .reference ∧ 15 < smallCfg.resolution ∧ 7 < 2 * smallCfg.width ∧ 1 ≤ smallCfg.resolution ∧
    1 ≤ smallCfg.width := by
  decide

theorem witness_QamMap :
    configured.mode = .ready ∧ (4 : Count).toNat = [3, 0, 1, 2].length ∧
    (∀ q ∈ [3, 0, 1, 2], q < 2 ^ configured.cfg.bitsPerSymbol) ∧
    (given configured (bits [1, 1, 0, 0, 1, 0, 0, 1])).opq = [3, 0, 1, 2].flatMap (indexTuple 2) := by
  decide +kernel

theorem witness_QamDemap :
    configured.mode = .ready ∧ (1 : Count).toNat = [z 0 9].length ∧
    (given configured [.cplx (z (0) (9))]).opq = [z 0 9].map Elem.cplx ∧
    leavesNumRange (.qamDemap true 1) (given configured [.cplx (z 0 9)]) = false := by
  decide +kernel

/-- One tap, the fewest, in the last context of the build. -/
theorem witness_FirLoad :
    ideal.mode ≠ .faulted ∧ (1 : Ctx).toNat < ideal.build.nfir ∧ (1 : Count).toNat = (rats [5]).length ∧
    1 ≤ (rats [5]).length ∧ (rats [5]).length ≤ ideal.build.capTaps ∧ ¬ Attached ideal 1 ∧
    (given ideal (reals [5])).opq = (rats [5]).map Elem.real := by
  decide +kernel

/-- Three samples in one command, and the last two after the first. -/
theorem witness_FirRun :
    look (exec (.firRun 0 1) (given (filtering ideal) (reals [1]))) (fun t =>
      look (exec (.firRun 0 2) (given t (reals [0, 7]))) fun u => u.mode) = some (some .unconfigured) ∧
    (3 : Count).toNat = (rats [1]).length + (rats [0, 7]).length ∧
    (filtering ideal).mode ≠ .faulted ∧ (0 : Ctx).toNat < (filtering ideal).build.nfir ∧
    ((filtering ideal).firCtx 0).ntaps ≠ 0 ∧
    ((filtering ideal).firCtx 0).hist.length = ((filtering ideal).firCtx 0).ntaps ∧
    ¬ Attached (filtering ideal) 0 ∧ (3 : Count).toNat = (rats [1, 0, 7]).length ∧
    (given (filtering ideal) (reals [1, 0, 7])).opq = (rats [1, 0, 7]).map Elem.real ∧
    leavesNumRange (.firRun 0 3) (given (filtering ideal) (reals [1, 0, 7])) = false := by
  decide +kernel

theorem witness_FirConvolution :
    ideal.build.num = .reference ∧ ideal.mode ≠ .faulted ∧ (0 : Ctx).toNat < ideal.build.nfir ∧
    (2 : Count).toNat = (rats [1, 2]).length ∧ 1 ≤ (rats [1, 2]).length ∧
    (rats [1, 2]).length ≤ ideal.build.capTaps ∧ ¬ Attached ideal 0 ∧
    (given ideal (reals [1, 2])).opq = (rats [1, 2]).map Elem.real ∧ (3 : Count).toNat = (rats [1, 0, 7]).length := by
  decide +kernel

theorem witness_IirLoad :
    ideal.mode ≠ .faulted ∧ (given ideal (reals [1, 2, 3, 0, 5, 6])).opq = (rats [1, 2, 3, 0, 5, 6]).map Elem.real ∧
    (ExactReal.rat 0).val = 0 ∧
    (given ideal (reals [1, 2, 3, 4, 5, 6])).opq = (rats [1, 2, 3, 4, 5, 6]).map Elem.real ∧
    (ExactReal.rat 4).val ≠ 0 ∧ leavesNumRange .iirLoad (given ideal (reals [1, 2, 3, 4, 5, 6])) = false ∧ Calc.num ⟨.iirLoad, ideal⟩ = .reference :=
  ⟨by decide +kernel, by decide +kernel, by simp, by decide +kernel, by simp, by decide +kernel, rfl⟩

theorem witness_IirRun :
    let s := { ideal with iir := biquad 1 2 3 4 5 6, opq := reals [1, 0, 7] }
    s.mode ≠ .faulted ∧ s.iir.loaded = true ∧ (3 : Count).toNat = (rats [1, 0, 7]).length ∧
    s.opq = (rats [1, 0, 7]).map Elem.real ∧ leavesNumRange (.iirRun 3) s = false := by
  decide +kernel

/-- One sample at half a radian; and eight samples of the carrier with one period in them. -/
theorem witness_ToneCoherence :
    ideal.mode ≠ .faulted ∧ rats [3] ≠ [] ∧ (1 : Count).toNat = (rats [3]).length ∧
    (given ideal (reals [1/2, 3])).opq = Elem.real (.rat (1/2)) :: (rats [3]).map Elem.real ∧
    leavesNumRange (.toneCoh false 1) (given ideal (reals [1/2, 3])) = false ∧
    configured.mode = .ready ∧ (given configured (reals [3])).opq = (rats [3]).map Elem.real ∧
    leavesNumRange (.toneCoh true 1) (given configured (reals [3])) = false ∧ Calc.num ⟨.toneCoh true 8, configured⟩ = .reference ∧
    0 < 1 ∧ 2 * 1 < (rats [1, 0, 0, 0]).length := by
  decide +kernel

/-- The last clause: a block that is the cosine itself, `A = 1`, `phi = 0`, one period in four samples. -/
theorem witness_ToneCoherence_cosine : ∀ k < (rats [1, 0, -1, 0]).length,
    (vals (rats [1, 0, -1, 0])).getD k 0 = 1 * Real.cos (2 * Real.pi * (1 : Nat) * k / (rats [1, 0, -1, 0]).length + 0) := by
  intro k hk
  have hk' : k < 4 := hk
  interval_cases k
  · simp [vals, rats]
  · have : 2 * Real.pi * ((1 : Nat) : ℝ) * ((1 : Nat) : ℝ) / ((rats [1, 0, -1, 0]).length : ℝ) + 0 = Real.pi / 2 := by
      simp [rats]; ring
    rw [this, Real.cos_pi_div_two]
    simp [vals, rats]
  · have : 2 * Real.pi * ((1 : Nat) : ℝ) * ((2 : Nat) : ℝ) / ((rats [1, 0, -1, 0]).length : ℝ) + 0 = Real.pi := by
      simp [rats]; ring
    rw [this, Real.cos_pi]
    simp [vals, rats]
  · have : 2 * Real.pi * ((1 : Nat) : ℝ) * ((3 : Nat) : ℝ) / ((rats [1, 0, -1, 0]).length : ℝ) + 0
        = Real.pi / 2 + Real.pi := by
      simp [rats]; ring
    rw [this, Real.cos_add_pi, Real.cos_pi_div_two]
    simp [vals, rats]

/-- The expected signal as long as the signal and the lookahead allow. -/
theorem witness_LsqCompletes :
    ideal.mode ≠ .faulted ∧ 1 ≤ (1 : BitVec 10).toNat ∧
    (1 : BitVec 10).toNat + (2 : BitVec 10).toNat ≤ ideal.build.capTaps ∧
    (2 : BitVec 10).toNat < (rats [1, 2, 3]).length ∧
    (rats [1, 2, 3]).length ≤ (rats [4]).length + (2 : BitVec 10).toNat ∧
    (given ideal (.nat 1 :: .nat 3 :: reals [4, 1, 2, 3])).opq
      = .nat (rats [4]).length :: .nat (rats [1, 2, 3]).length :: (rats [4] ++ rats [1, 2, 3]).map Elem.real ∧
    leavesNumRange (.lsqSolve 1 2) (given ideal (.nat 1 :: .nat 3 :: reals [4, 1, 2, 3])) = false := by
  decide +kernel

theorem witness_LsqContract :
    Calc.num ⟨.lsqSolve 1 1, ideal⟩ = .reference ∧ 1 ≤ 1 ∧ 1 < (rats [4, 9]).length ∧
    (vals (rats [2, 2])).length = 1 + 1 :=
  ⟨rfl, le_refl _, by decide, by simp [vals, rats]⟩

theorem witness_DemodDirect :
    quartered.mode = .ready ∧ (rats [1, 0, -1, 0]).length = quartered.cfg.nSym ∧
    (given quartered (reals [1, 0, -1, 0])).opq = (rats [1, 0, -1, 0]).map Elem.real ∧
    leavesNumRange (.demodBlock true) (given quartered (reals [1, 0, -1, 0])) = false ∧ [z 1 0, z 0 1, z (-1) 0, z 0 (-1)].length = 4 ∧
    Calc.num ⟨.demodBlock true, quartered⟩ = .reference ∧ Calc.num ⟨.modBlock, configured⟩ = .reference ∧
    (∀ p ∈ smallCfg.mult, 1 ≤ p ∧ 2 * p < smallCfg.nSym) ∧ smallCfg.mult.Nodup ∧
    [z 1 0, z 0 1].length = smallCfg.mult.length ∧ 1 < smallCfg.mult.length ∧ 0 < smallCfg.mult.length := by
  decide +kernel

/-- A source with a whole block, and one that is cut short. -/
theorem witness_DemodStream :
    sampling.mode = .ready ∧ sampling.rs.created = true ∧ sampling.opq = [] ∧
    leavesNumRange (.demodBlock false) sampling = false ∧
    (takeSamples sampling.cfg.nSym sampling).1.length = 8 ∧
    (takeSamples sampling.cfg.nSym { sampling with src := rats [1, 2, 3, 4, 5] }).1.length = 1 ∧
    (8 : Count).toNat = sampling.cfg.nSym ∧
    look (exec (.demodBlock false) sampling) (fun t => t.mode) = some .ready := by
  decide +kernel

theorem witness_Modulator :
    quartered.mode = .ready ∧ [z 1 0].length = quartered.cfg.nFreq ∧
    (given quartered [.cplx (z 1 0)]).opq = [z 1 0].map Elem.cplx ∧
    leavesNumRange .modBlock (given quartered [.cplx (z 1 0)]) = false ∧
    leavesNumRange .modPilot (given quartered [.cplx (z 1 0)]) = false ∧
    [z 0 1].length = 1 ∧ Calc.num ⟨.modBlock, configured⟩ = .reference ∧ 7 < smallCfg.nSym ∧
    [z 1 0, z 0 1].length = smallCfg.mult.length ∧ ∀ v ∈ [z 1 0, z 0 1], ‖v.val‖ ≤ 1 := by
  refine ⟨by decide +kernel, by decide +kernel, by decide +kernel, by decide +kernel, by decide +kernel,
    by decide +kernel, by decide +kernel, by decide, by decide, ?_⟩
  intro v hv
  simp only [List.mem_cons, List.not_mem_nil, or_false] at hv
  rcases hv with rfl | rfl <;> simp [Cplx.val, z, Complex.norm_def, Complex.normSq]

theorem witness_RsmpInit :
    configured.mode = .ready ∧ configured.opq = [] ∧ ideal.mode = .unconfigured ∧
    (given configured (bits [0])).opq ≠ [] ∧ unitOf 0x70000001 = 7 ∧ opOf 0x70000001 = 0 := by
  decide +kernel

theorem witness_OffsetSplit :
    Calc.num ⟨.rsmpTake 1, sampling⟩ = .reference ∧ 0 ≤ ({ sampling.rs with offset := .rat (21/16) } : Sampler).offset.val ∧
    1 ≤ 16 := by
  refine ⟨rfl, ?_, by decide⟩
  simp only [ExactReal.val_rat]
  norm_num

/-- A take that is cut short, and one in two parts that is not. -/
theorem witness_RsmpTake :
    sampling.mode = .ready ∧ sampling.rs.created = true ∧ sampling.opq = [] ∧
    leavesNumRange (.rsmpTake 3) sampling = false ∧ (takeSamples 17 sampling).1.length < 17 ∧
    (takeSamples 16 sampling).1.length = 16 ∧ (3 : Count).toNat = (1 : Count).toNat + (2 : Count).toNat ∧
    look (exec (.rsmpTake 1) sampling) (fun t => (t.rs.eof, look (exec (.rsmpTake 2) t) fun u => u.mode))
      = some (false, some .ready) := by
  decide +kernel

/-- The source with exactly the samples the first output needs, and with one less. -/
theorem witness_RsmpTakeOne :
    sampling.mode = .ready ∧ sampling.rs.created = true ∧ sampling.opq = [] ∧ StreamInv sampling ∧
    sampling.rs.buff ≠ [] ∧ leavesNumRange (.rsmpTake 1) sampling = false ∧
    sampling.rs.offset.floor.toNat + sampling.cfg.width - sampling.rs.index
      = (List.replicate sampling.rs.pad (ExactReal.rat 0) ++ rats [1, 2, 3, 4, 5]).length ∧
    StreamInv { sampling with src := rats [1, 2, 3, 4] } := by
  decide +kernel

theorem witness_TakeFromInit :
    sampling.build.num = .reference ∧ ConfigInv sampling ∧ sampling.mode = .ready ∧ sampling.srcEof = false ∧
    0 < sampling.rs.freq.val ∧ sampling.rs = { (Sampler.init sampling.cfg.width) with freq := sampling.rs.freq } ∧
    sampling.rs.freq = .rat 1 := by
  refine ⟨rfl, fun _ => ⟨configured_legal, rfl, rfl, rfl, rfl⟩, by decide +kernel, by decide +kernel, ?_,
    by decide +kernel, by decide +kernel⟩
  have : sampling.rs.freq = .rat 1 := rfl
  simp [this]

/-- The values where the clauses meet: a zero is a bad step and a good offset. -/
theorem witness_RsmpWr :
    sampling.mode = .ready ∧ sampling.rs.created = true ∧ (given sampling (reals [1])).opq = [Elem.real (.rat 1)] ∧
    0 < (ExactReal.rat 1).val ∧ (ExactReal.rat 0).val ≤ 0 ∧ 0 ≤ (ExactReal.rat 0).val ∧ (ExactReal.rat (-1)).val < 0 ∧
    sampling.opq = [] ∧ ElemType.accepts .r (.r .nan) = false ∧ configured.rs.created = false :=
  ⟨by decide +kernel, by decide +kernel, by decide +kernel, by simp, by simp, by simp, by simp,
    by decide +kernel, by decide +kernel, by decide +kernel⟩

theorem witness_RsmpRd :
    sampling.mode = .ready ∧ sampling.rs.created = true ∧ sampling.opq = [] ∧ (given sampling (bits [1])).opq ≠ [] ∧
    configured.rs.created = false ∧ ideal.mode = .unconfigured ∧ unitOf 0x73300000 = 7 ∧ opOf 0x73300000 = 3 := by
  decide +kernel

theorem witness_AttachAndDetach :
    sampling.mode = .ready ∧ (1 : Ctx).toNat < sampling.build.nfir ∧ sampling.opq = [] ∧ configured.rs.created = false ∧
    sampling.rs.created = true ∧ (sampling.firCtx 1).ntaps = 0 ∧ ((filtering sampling).firCtx 0).ntaps ≠ 0 ∧
    sampling.build.nfir ≤ (2 : Ctx).toNat ∧ ideal.mode = .unconfigured ∧ (given sampling (bits [1])).opq ≠ [] := by
  decide +kernel

/-- A message of `K = 251` bytes. -/
theorem witness_RseEncMakesACodeword :
    configured.mode = .ready ∧ configured.cfg.parity ≤ 254 ∧ configured.rsGen = rsGenerator configured.cfg.parity ∧
    (List.replicate 251 (7 : Byte)).length = 255 - configured.cfg.parity ∧
    (given configured (bytes (List.replicate 251 7))).opq = (List.replicate 251 (7 : Byte)).map Elem.u8 := by
  decide +kernel

theorem unitCodeword_isCodeword : IsCodeword 4 unitCodeword := by
  unfold IsCodeword
  decide +kernel

/-- Four erasures, the most that four parity bytes allow, and five. -/
theorem witness_RsdDecIsSound :
    configured.mode = .ready ∧ unitCodeword.length = 255 ∧ (4 : Count).toNat = [0, 1, 2, 254].length ∧
    ErasureList [0, 1, 2, 254] ∧ [0, 1, 2, 254].length ≤ configured.cfg.parity ∧
    (given configured (bytes unitCodeword ++ [0, 1, 2, 254].map Elem.nat)).opq
      = unitCodeword.map Elem.u8 ++ [0, 1, 2, 254].map Elem.nat ∧
    IsCodeword configured.cfg.parity unitCodeword ∧ configured.cfg.parity < [0, 1, 2, 3, 254].length ∧
    ErasureList [0, 1, 2, 3, 254] :=
  ⟨by decide +kernel, by decide +kernel, by decide +kernel, by decide +kernel, by decide +kernel, by decide +kernel,
    unitCodeword_isCodeword, by decide +kernel, by decide +kernel⟩

/-- One error and two erasures: `2 * 1 + 2 = 4`. -/
theorem witness_RsdDecMissesNoCodeword :
    let r := ((unitCodeword.set 5 0x77).set 100 0x11).set 200 0x22
    configured.mode = .ready ∧ 1 ≤ configured.cfg.parity ∧ configured.cfg.parity ≤ 254 ∧ r.length = 255 ∧
    (2 : Count).toNat = [100, 200].length ∧ ErasureList [100, 200] ∧
    (given configured (bytes r ++ [100, 200].map Elem.nat)).opq = r.map Elem.u8 ++ [100, 200].map Elem.nat ∧
    IsCodeword configured.cfg.parity unitCodeword ∧
    2 * errorCount [100, 200] r unitCodeword + [100, 200].length ≤ configured.cfg.parity :=
  ⟨by decide +kernel, by decide +kernel, by decide +kernel, by decide +kernel, by decide +kernel, by decide +kernel,
    by decide +kernel, unitCodeword_isCodeword, by decide +kernel⟩

theorem witness_CrcResetAndRead :
    ideal.mode ≠ .faulted ∧ ideal.opq = [] ∧ (given ideal (bits [1])).opq ≠ [] ∧
    unitOf 0xB2000000 = 11 ∧ opOf 0xB2000000 = 2 ∧ unitOf 0xB0000000 = 11 ∧ opOf 0xB0000000 = 0 := by
  decide +kernel

theorem witness_CrcUpdate :
    ideal.mode ≠ .faulted ∧ (1 : Count).toNat = [(0x41 : Byte)].length ∧
    (given ideal (bytes [0x41])).opq = [(0x41 : Byte)].map Elem.u8 ∧ fits [.u8] (bytes []) = false ∧
    fits [.u8] (bytes [1, 2]) = false ∧ fits [.u8] (bits [1]) = false ∧ unitOf 0xB1000001 = 11 ∧ opOf 0xB1000001 = 1 := by
  decide +kernel

/-- The first bit of the CRC and the last bit of the payload. -/
theorem witness_CrcDetectsEverySingleBit :
    let crc := be32 (crcFrom 0xFFFFFFFF [0x41] ^^^ 0xFFFFFFFF)
    0 < (crc ++ [0x41]).length ∧ 4 < (crc ++ [0x41]).length ∧ [(0x52 : Byte), 0xD9, 0x9E, 0x8B].length = 4 ∧
    crc.length = 4 ∧
    [(0x53 : Byte), 0xD9, 0x9E, 0x8B] ++ [0x41] = (crc ++ [0x41]).set 0 ((crc ++ [0x41]).getD 0 0 ^^^ (1 <<< 7)) ∧
    crc ++ [0x40] = (crc ++ [0x41]).set 4 ((crc ++ [0x41]).getD 4 0 ^^^ (1 <<< 0)) := by
  decide +kernel

/-- For each form a list that is short, of a wrong type, or with an element too many; and an operand for a command
without. -/
theorem witness_OperandListsMustFit :
    (operandTypes configured (.qamMap 1) = some [.bit, .bit] ∧ Accepted configured (.qamMap 1) ∧
      fits [.bit, .bit] (bits [1]) = false ∧ fits [.bit, .bit] (bytes [1, 1]) = false ∧
      fits [.bit, .bit] (bits [1, 1, 1]) = false ∧ fits [.r] [.r .nan] = false) ∧
    (operandTypes (given ideal [.nat 1, .nat 2]) (.lsqSolve 1 1) = some [.nat, .nat, .r, .r, .r] ∧
      fits [.nat, .nat, .r, .r, .r] [.nat 1, .nat 2] = false ∧ firstBad [.nat, .nat, .r, .r, .r] [.nat 1, .nat 2] = 2) ∧
    (operandTypes ideal (.toneCoh false 2) = some [.r, .r, .r] ∧ operandTypes ideal .iirLoad = some (List.replicate 6 .r) ∧
      operandTypes sampling (.rsmpWr .freq) = some [.r] ∧ fits [.r] (reals [1, 2]) = false) ∧
    takesNone .rsmpDetach = true ∧ Accepted configured .rsmpDetach ∧ (given configured (bits [1])).opq ≠ [] := by
  decide +kernel

/-- The value checks of those lists: a filter, a surplus element behind good coefficients and behind a good step, counts
that are in order, and a surplus element behind a codeword. -/
theorem witness_OperandListsMustFit_guards :
    PassesGuards configured (.qamMap 1) ∧ PassesGuards (filtering configured) (.firRun 0 1) ∧
    PassesGuards configured (.firLoad 1 1023) ∧ PassesGuards (given ideal (reals [1, 0, 0, 1, 0, 0, 9])) .iirLoad ∧
    PassesGuards ideal (.toneCoh false 2) ∧ PassesGuards (given ideal [.nat 1, .nat 2]) (.lsqSolve 1 1) ∧
    PassesGuards (given sampling (reals [1, 9])) (.rsmpWr .freq) ∧
    PassesGuards (given configured []) (.rsdDec 0) := by
  refine ⟨trivial, ⟨by decide +kernel, by decide +kernel⟩, ⟨by decide +kernel, by decide +kernel, by decide +kernel⟩,
    ?_, ?_, ⟨by decide, by decide +kernel, ?_⟩, ⟨by decide +kernel, ?_⟩, ?_⟩
  · intro b0 b1 b2 a0 a1 a2 surplus h
    simp only [given, reals, rats, List.map_cons, List.map_nil, List.cons_append, List.nil_append, List.cons.injEq,
      Elem.real, Elem.r.injEq, Num.finite.injEq] at h
    rw [← h.2.2.2.1]
    simp
  · show (2 : Count).toNat ≠ 0
    decide
  · intro ls le rest h
    simp only [given, List.cons.injEq, Elem.nat.injEq] at h
    rw [← h.1, ← h.2.1]
    decide
  · intro x surplus h
    simp only [given, reals, rats, List.map_cons, List.cons.injEq, Elem.real, Elem.r.injEq, Num.finite.injEq] at h
    rw [← h.1]
    simp
  · intro r es surplus h hr _
    cases r with
    | nil => cases hr
    | cons b r => simp [given] at h

/-- A record cut short behind `Nfreq`, one that goes wrong at its first point, and one whose bad multiple comes first. -/
theorem witness_OperandListsMustFit_config :
    ideal.mode = .unconfigured ∧ smallCfg.mult.length = smallCfg.nFreq ∧
    smallCfg.symbols.length = 2 ^ smallCfg.bitsPerSymbol ∧ 3 < (configRecord smallCfg).length ∧
    (configType smallCfg 7).accepts (.nat 1) = false ∧ firstFailingOf ideal.build smallCfg 3 = none ∧
    firstFailingOf ideal.build { smallCfg with mult := [1, 4] } 7 = some 4 ∧
    (given ideal ((configRecord smallCfg).take 3)).opq = (configRecord smallCfg).take 3 ++ [] := by
  decide +kernel

/-- Counts 0, 1023 and 1024 of a build with 1023 taps, an attached context, and nothing loaded or created. -/
theorem witness_GuardsFault :
    ideal.mode ≠ .faulted ∧ (1 : Ctx).toNat < ideal.build.nfir ∧
    ideal.build.capTaps < (1024 : Count).toNat ∧ (1023 : Count).toNat ≤ ideal.build.capTaps ∧
    Attached { filtering sampling with rs := { sampling.rs with eqsel := some 0 } } 0 ∧
    ((filtering sampling).firCtx 0).ntaps ≠ 0 ∧ (ideal.firCtx 1).ntaps = 0 ∧ ideal.iir.loaded = false ∧
    configured.mode = .ready ∧ configured.rs.created = false ∧ configured.opq = [] := by
  decide +kernel

/-- The third of three positions offends: out of range, and a repeat. -/
theorem witness_ValueChecksFault :
    Accepted ideal (.toneCoh false 0) ∧ Accepted configured (.toneCoh true 0) ∧
    ideal.build.capTaps < (1023 : BitVec 10).toNat + (1 : BitVec 10).toNat ∧ (3 : BitVec 10) ≠ 0 ∧
    (3 : BitVec 10).toNat + (2 : BitVec 10).toNat ≤ ideal.build.capTaps ∧
    (given ideal [.nat 5, .nat 2]).opq = .nat 5 :: .nat 2 :: [] ∧ 2 ≤ (2 : BitVec 10).toNat ∧
    (2 : BitVec 10).toNat < 6 ∧ 3 + (2 : BitVec 10).toNat < 6 ∧
    configured.mode = .ready ∧ unitCodeword.length = 255 ∧ (3 : Count).toNat = [0, 254, 255].length ∧
    (given configured (bytes unitCodeword ++ [0, 254, 255].map Elem.nat)).opq
      = unitCodeword.map Elem.u8 ++ [0, 254, 255].map Elem.nat ∧ 2 < [0, 254, 255].length ∧
    ErasureList ([0, 254, 255].take 2) ∧ ¬ ErasureList ([0, 254, 255].take (2 + 1)) ∧
    ¬ ErasureList ([0, 254, 254].take (2 + 1)) := by
  decide +kernel

theorem witness_FrameOfStatelessCommands :
    look (exec .crcRead ideal) (fun t => t.mode) = some .unconfigured ∧
    look (exec .crcRead (given ideal (bits [1]))) (fun t => t.mode) = some .faulted := by
  decide +kernel

theorem witness_FrameOfFiltersAndCrc :
    look (exec (.firRun 0 1) (given (filtering ideal) (reals [7]))) (fun t => (t.mode, (t.firCtx 0).hist))
      = some (.unconfigured, rats [7, 0]) ∧ (1 : Ctx) ≠ 0 ∧
    look (exec (.iirRun 1) (given { ideal with iir := biquad 1 0 0 1 0 0 } (reals [7])))
      (fun t => (t.mode, t.iir.xh0)) = some (.unconfigured, .rat 7) ∧
    look (exec .crcReset ideal) (fun t => t.mode) = some .unconfigured := by
  decide +kernel

theorem witness_FrameOfSamplerRegisters :
    look (exec .rsmpInit configured) (fun t => t.rs.created) = some true ∧
    look (exec (.rsmpWr .freq) (given sampling (reals [2]))) (fun t => t.rs.freq) = some (.rat 2) ∧
    look (exec (.rsmpWr .offset) (given sampling (reals [2]))) (fun t => t.rs.offset) = some (.rat 2) ∧
    look (exec .rsmpDetach sampling) (fun t => t.mode) = some .ready := by
  decide +kernel

theorem witness_FrameOfTake :
    let s := { filtering sampling with rs := { sampling.rs with eqsel := some 0 } }
    look (exec (.rsmpTake 1) s) (fun t => (t.mode, (t.firCtx 0).hist)) = some (.ready, rats [1, 0]) ∧
    s.rs.eqsel ≠ some 1 := by
  decide +kernel

theorem witness_FrameOfConfiguration :
    look (exec .sysConfig (given ideal (configRecord smallCfg))) (fun t => t.cfg) = some smallCfg ∧
    look (exec .sysNop ideal) (fun t => t.mode) = some .unconfigured := by
  decide +kernel
end

section
/-!
The arithmetic and the tests on exact reals (spec/00 R8, R10, R12), from the laws of Laws/Reals.lean.
-/

namespace Sys2Proof

/-! ## Rounding -/

/-- The rounded value is at most a half away from the number. -/
theorem ExactReal.abs_sub_roundEven_le (x : ExactReal) : |x.val - x.roundEven| ≤ 1 / 2 := by
  have hx := Int.floor_add_fract x.val
  have h0 := Int.fract_nonneg x.val
  have h1 := Int.fract_lt_one x.val
  rw [abs_le, x.roundEven_eq]
  split_ifs with hlow htie <;> push_cast <;> constructor <;> linarith

/-- At a tie the rounded value is even. -/
theorem ExactReal.roundEven_even_of_tie (x : ExactReal) (h : |x.val - x.roundEven| = 1 / 2) :
    x.roundEven % 2 = 0 := by
  have hx := Int.floor_add_fract x.val
  have h0 := Int.fract_nonneg x.val
  have h1 := Int.fract_lt_one x.val
  rw [x.roundEven_eq] at h ⊢
  split_ifs at h ⊢ with hlow htie heven
  · exact absurd h (abs_lt.mpr ⟨by linarith, by linarith⟩).ne
  · exact heven
  · omega
  · have hhigh : 1 / 2 < Int.fract x.val := lt_of_le_of_ne (not_lt.mp hlow) (Ne.symm htie)
    push_cast at h
    exact absurd h (abs_lt.mpr ⟨by linarith, by linarith⟩).ne

/-- Where one integer is at most a half away, every other one is at least a half away. -/
theorem half_le_abs_sub_of_ne {v : ℝ} {r k : Int} (hr : |v - r| ≤ 1 / 2) (hk : k ≠ r) : 1 / 2 ≤ |v - k| := by
  have apart : (1 : ℝ) ≤ |(r : ℝ) - k| := by exact_mod_cast Int.one_le_abs (sub_ne_zero.mpr hk.symm)
  have triangle := abs_sub_le (r : ℝ) v k
  rw [abs_sub_comm (r : ℝ) v] at triangle
  linarith

/-- No integer is nearer than the rounded value (spec/00 R12). -/
theorem ExactReal.roundEven_nearest (x : ExactReal) (k : Int) : |x.val - x.roundEven| ≤ |x.val - k| := by
  by_cases hk : k = x.roundEven
  · rw [hk]
  · exact x.abs_sub_roundEven_le.trans (half_le_abs_sub_of_ne x.abs_sub_roundEven_le hk)

/-- Where another integer is as near as the rounded value, that value is the even one (spec/00 R12). -/
theorem ExactReal.roundEven_even_of_as_near (x : ExactReal) (k : Int)
    (hnear : |x.val - x.roundEven| = |x.val - k|) (hk : k ≠ x.roundEven) : x.roundEven % 2 = 0 := by
  have hge := half_le_abs_sub_of_ne x.abs_sub_roundEven_le hk
  exact x.roundEven_even_of_tie (le_antisymm x.abs_sub_roundEven_le (hnear ▸ hge))

end Sys2Proof

namespace Sys2Proof.Machine

/-! ## Sums and indices -/

/-- The sum of the products of two lists, index by index; past the end of either list the products are 0. -/
theorem sum_zipWith_mul : ∀ u v : List ℝ,
    (List.zipWith (· * ·) u v).sum = ∑ i ∈ Finset.range u.length, u.getD i 0 * v.getD i 0
  | [], _ => by simp
  | _ :: _, [] => by simp
  | a :: u, b :: v => by
    rw [List.zipWith_cons_cons, List.sum_cons, List.length_cons, Finset.sum_range_succ', sum_zipWith_mul u v]
    simp [add_comm]

/-- `dot(u, v)` over the reals (spec/00 R10). -/
theorem val_dot_eq_sum (u v : List ExactReal) :
    (dot u v).val = ∑ i ∈ Finset.range u.length, (vals u).getD i 0 * (vals v).getD i 0 := by
  have h := sum_zipWith_mul (vals u) (vals v)
  rw [vals, vals, List.zipWith_map, List.length_map] at h
  rw [val_dot]
  exact h

/-- `clamp(v, 0, hi)` as an integer (spec/00 R12). -/
theorem clampIndex_cast (v : Int) (hi : Nat) : (clampIndex v hi : Int) = max 0 (min (hi : Int) v) :=
  Int.toNat_of_nonneg (le_max_left _ _)

/-- Settles O27: each part is the law of that operation or test over the reals. -/
theorem roundingRules : Obligations.RoundingRules := by
  unfold Obligations.RoundingRules
  refine ⟨fun x y => ⟨x.val_plus y, x.val_minus y, x.val_times y, x.val_over y, val_sqrtReal x⟩,
    fun u v _ => val_dot_eq_sum u v,
    ExactReal.enclosure_holds,
    fun x => ⟨x.floor_eq, x.isZero_iff, x.negative_iff, x.positive_iff⟩,
    fun x k => ⟨x.roundEven_nearest k, x.roundEven_even_of_as_near k⟩,
    clampIndex_cast, ?printed⟩
  case printed => decide +kernel

end Sys2Proof.Machine
end

section
/-!
What a completed command writes and what a step can do, said once; the invariants of the block and the frame of the
configuration follow (spec/10 R21 to R33, R42; spec/70 R390, R391).
-/

namespace Sys2Proof.Machine

/-! ## What a command writes -/

/-- The ways in which a command that completes writes the registers, one constructor a kind of write, with what its
checks have established. -/
inductive Writes (i : Instr) (s : State) : State → Prop
  | nothing : Writes i s s
  | configuration (cfg : Cfg) (hi : i = .sysConfig) (hm : s.mode = .unconfigured)
      (hp : parseConfig s.build s.opq = .ok cfg) : Writes i s (s.configure cfg)
  | reset (hi : i = .sysReset) : Writes i s s.resetRegisters
  | taps (c : Ctx) (h : List ExactReal) (hc : c.toNat < s.build.nfir) (h0 : h.length ≠ 0)
      (hcap : h.length ≤ s.build.capTaps) : Writes i s (s.setFirCtx c (FirCtx.load h))
  | history (c : Ctx) (hist : List ExactReal)
      (hl : (s.firCtx c).hist.length = (s.firCtx c).ntaps → hist.length = (s.firCtx c).ntaps) :
      Writes i s (s.setFirCtx c { s.firCtx c with hist := hist })
  | biquad (q : Biquad) : Writes i s { s with iir := q }
  | crc (v : BitVec 32) : Writes i s { s with crcReg := v }
  | newSampler (hm : s.mode = .ready) : Writes i s { s with rs := Sampler.init s.cfg.width }
  | freq (v : ExactReal) (hc : s.rs.created = true) (hv : 0 < v.val) :
      Writes i s { s with rs := { s.rs with freq := v } }
  | offset (v : ExactReal) (hc : s.rs.created = true) (hv : 0 ≤ v.val) :
      Writes i s { s with rs := { s.rs with offset := v } }
  | eqsel (sel : Option Ctx) (hc : s.rs.created = true)
      (hs : ∀ c, sel = some c → c.toNat < s.build.nfir ∧ (s.firCtx c).ntaps ≠ 0) :
      Writes i s { s with rs := { s.rs with eqsel := sel } }
  | taken (n : Nat) (hm : s.mode = .ready) (hc : s.rs.created = true) : Writes i s (takeSamples n s).2

/-- A command that needs a configuration runs in `READY` only (30 R99). -/
theorem ready_of_modeAllows {i : Instr} {m : Mode} (h : modeAllows i m = true) (hi : runsUnconfigured i = false) :
    m = .ready := by
  cases m with
  | ready => rfl
  | unconfigured => exact absurd (hi.symm.trans h) (by decide)
  | faulted =>
    rcases (by simpa [modeAllows] using h : i = .sysStatus ∨ i = .sysReset) with rfl | rfl <;> cases hi

/-- `SYS.CONFIG` runs in `UNCONFIGURED` only (30 R99). -/
theorem unconfigured_of_modeAllows_sysConfig {m : Mode} (h : modeAllows .sysConfig m = true) : m = .unconfigured := by
  cases m with
  | unconfigured => rfl
  | ready => cases h
  | faulted => cases h

/-- A command that completes writes in one of these ways. -/
theorem Ends.writes {i : Instr} {s : State} {d : Done} (h : Ends i s d) (hw : i.wellFormed s.build.nfir = true)
    (hm : modeAllows i s.mode = true) : Writes i s d.state := by
  cases i with
  | sysConfig =>
    obtain ⟨cfg, hp, rfl⟩ := h
    exact .configuration cfg rfl (unconfigured_of_modeAllows_sysConfig hm) hp
  | sysReset => obtain rfl := h; exact .reset rfl
  | firLoad c n =>
    obtain ⟨taps, h0, hcap, _, hl, rfl⟩ := h
    exact .taps c taps (by simpa [Instr.wellFormed] using hw) (hl ▸ h0) (hl ▸ hcap)
  | firRun c n =>
    obtain ⟨xs, _, _, _, rfl⟩ := h
    obtain ⟨hist, hs, hl⟩ := firSteps_state c xs s
    rw [Done.reals_state, hs]
    exact .history c hist hl
  | iirLoad => obtain ⟨_, _, _, _, _, _, _, rfl⟩ := h; exact .biquad _
  | iirRun n =>
    obtain ⟨xs, _, _, rfl⟩ := h
    obtain ⟨_, _, _, _, _, hs⟩ := iirSteps_state xs s
    rw [Done.reals_state, hs]
    exact .biquad _
  | crcReset => obtain rfl := h; exact .crc _
  | crcUpdate n => obtain ⟨_, rfl⟩ := h; exact .crc _
  | rsmpInit => obtain rfl := h; exact .newSampler (ready_of_modeAllows hm rfl)
  | rsmpWr reg =>
    obtain ⟨v, rs, hc, hwr, rfl⟩ := h
    cases reg with
    | freq =>
      simp only [writeReg] at hwr
      split at hwr <;> cases hwr
      exact .freq v hc (v.positive_iff.mp ‹_›)
    | offset =>
      simp only [writeReg] at hwr
      split at hwr <;> cases hwr
      exact .offset v hc (not_lt.mp fun hv => absurd (v.negative_iff.mpr hv) ‹_›)
  | rsmpAttach c =>
    obtain ⟨hc, hn, rfl⟩ := h
    refine .eqsel (some c) hc fun c' hc' => ?_
    cases hc'
    exact ⟨by simpa [Instr.wellFormed] using hw, hn⟩
  | rsmpDetach => obtain ⟨hc, rfl⟩ := h; exact .eqsel none hc fun c hc => by cases hc
  | rsmpTake n => obtain ⟨hc, rfl⟩ := h; exact .taken _ (ready_of_modeAllows hm rfl) hc
  | demodBlock direct =>
    cases direct with
    | true => obtain ⟨_, _, rfl⟩ := h; exact .nothing
    | false => obtain ⟨hc, _, _, rfl⟩ := h; exact .taken _ (ready_of_modeAllows hm rfl) hc
  | sysNop => obtain rfl := h; exact .nothing
  | sysStatus => obtain rfl := h; exact .nothing
  | rsmpRd reg => obtain rfl := h; exact .nothing
  | toneCoh pilot n => obtain ⟨_, _, _, rfl⟩ := h; exact .nothing
  | _ => obtain ⟨_, _, rfl⟩ := h; exact .nothing

/-- No command writes the build parameters (00 R6). -/
theorem Writes.build {i : Instr} {s t : State} (h : Writes i s t) : t.build = s.build := by
  cases h with
  | taken n _ _ => rw [(takeSamples_moves n s).same]
  | _ => rfl

/-- Only `SYS.CONFIG` and `SYS.RESET` write the configuration and its tables (10 R24). -/
theorem Writes.sameConfiguration {i : Instr} {s t : State} (h : Writes i s t) (hc : i ≠ .sysConfig)
    (hr : i ≠ .sysReset) :
    t.cfg = s.cfg ∧ t.carrier = s.carrier ∧ t.qam = s.qam ∧ t.bank = s.bank ∧ t.rsGen = s.rsGen := by
  cases h with
  | configuration _ hi _ _ => exact absurd hi hc
  | reset hi => exact absurd hi hr
  | taken n _ _ => rw [(takeSamples_moves n s).same]; exact ⟨rfl, rfl, rfl, rfl, rfl⟩
  | _ => exact ⟨rfl, rfl, rfl, rfl, rfl⟩

/-! ## What a command and a step can do -/

/-- A command that answers a next state was turned away, faulted, or completed and wrote in one of the ways of
`Writes`. -/
theorem exec_next_writes {i : Instr} {s t : State} (h : exec i s = .next t) :
    (s.mode = .faulted ∧ t = s.turnedAway) ∨
    (s.mode ≠ .faulted ∧ ∃ code info, code ∈ ([1, 2, 3, 5, 6, 7, 8, 9, 10] : List Byte) ∧ t = s.failed code info) ∨
    ∃ d : Done, Ends i s d ∧ Writes i s d.state ∧ t = d.commit := by
  rcases exec_next i s t h with ⟨hm, _, ht⟩ | hf | ⟨d, hd, hw, hm, ht⟩
  · exact .inl ⟨hm, ht⟩
  · exact .inr (.inl hf)
  · exact .inr (.inr ⟨d, hd, hd.writes hw hm, ht⟩)

/-- A step is idle, or takes a command, which is turned away, faults or completes. -/
theorem step_next {s t : State} (h : step s = .next t) :
    t = s ∨ ∃ cmd rest,
      (s.mode = .faulted ∧ t = (s.accept cmd rest).turnedAway) ∨
      (s.mode ≠ .faulted ∧ ∃ code info, code ∈ ([1, 2, 3, 5, 6, 7, 8, 9, 10] : List Byte) ∧
        t = (s.accept cmd rest).failed code info) ∨
      ∃ (i : Instr) (d : Done), Writes i (s.accept cmd rest) d.state ∧ t = d.commit := by
  unfold step at h
  split at h
  · cases h; exact .inl rfl
  · rename_i cmd rest _
    refine .inr ⟨cmd, rest, ?_⟩
    split at h
    · unfold illegalWord at h
      split at h <;> rename_i hm <;> cases h
      · exact .inl ⟨hm, completeFaulted_eq _⟩
      · exact .inr (.inl ⟨hm, 1, _, by decide, enterFault_eq _ _⟩)
    · rename_i i _
      rcases exec_next_writes h with ha | hf | ⟨d, _, hd, ht⟩
      · exact .inl ha
      · exact .inr (.inl hf)
      · exact .inr (.inr ⟨i, d, hd, ht⟩)

/-- A predicate that each kind of change keeps is kept by every step. -/
theorem step_keeps {P : State → Prop}
    (accepts : ∀ s cmd rest, P s → P (s.accept cmd rest))
    (away : ∀ s, P s → P s.turnedAway)
    (faults : ∀ s code info, code ∈ ([1, 2, 3, 5, 6, 7, 8, 9, 10] : List Byte) → P s → P (s.failed code info))
    (writes : ∀ i s t, Writes i s t → P s → P t)
    (commits : ∀ d : Done, P d.state → P d.commit)
    {s t : State} (hs : P s) (h : step s = .next t) : P t := by
  rcases step_next h with rfl | ⟨cmd, rest, ⟨_, rfl⟩ | ⟨_, code, info, hc, rfl⟩ | ⟨i, d, hd, rfl⟩⟩
  · exact hs
  · exact away _ (accepts s cmd rest hs)
  · exact faults _ _ _ hc (accepts s cmd rest hs)
  · exact commits d (writes i _ _ hd (accepts s cmd rest hs))

/-! ## Reset -/

@[simp] theorem State.reset_firCtx (c : Ctx) : State.reset.firCtx c = FirCtx.unloaded := by
  simp [State.firCtx, State.reset]

@[simp] theorem State.resetRegisters_firCtx (s : State) (c : Ctx) : s.resetRegisters.firCtx c = FirCtx.unloaded :=
  State.reset_firCtx c

/-- `SYS.RESET` completes in every mode (49 R302). -/
theorem exec_sysReset (s : State) :
    exec .sysReset s = .next (Done.pure s.resetRegisters [] 0).commit :=
  runCommand_ok .sysReset s _ rfl (by cases s.mode <;> rfl) rfl

/-- The registers to which R42 gives a value are at reset. -/
theorem atReset_of_same_registers {t : State} (hm : t.mode = .unconfigured) (hf : t.fault = 0) (hi : t.faultInfo = 0)
    (hfir : t.fir = State.reset.fir) (hiir : t.iir = State.reset.iir) (hrs : t.rs = State.reset.rs)
    (hcrc : t.crcReg = 0xFFFFFFFF) : AtReset t := by
  refine ⟨hm, hf, hi, fun c => ?_, by rw [hiir]; rfl, by rw [hrs]; rfl, by rw [hrs]; rfl, by rw [hrs]; rfl, hcrc⟩
  rw [State.firCtx_congr hfir c, State.reset_firCtx]
  exact ⟨rfl, rfl, rfl⟩

/-- Settles O12: power-on and `SYS.RESET` write every register as `State.reset` holds it. -/
theorem resetValues : Obligations.ResetValues := by
  unfold Obligations.ResetValues
  refine ⟨atReset_of_same_registers rfl rfl rfl rfl rfl rfl rfl, rfl, rfl, rfl, fun s => ?powerOn, fun s => ?sysReset⟩
  case powerOn =>
    exact ⟨atReset_of_same_registers rfl rfl rfl rfl rfl rfl rfl, rfl, rfl, rfl, rfl, rfl, rfl⟩
  case sysReset =>
    refine ⟨_, exec_sysReset s, atReset_of_same_registers rfl rfl rfl rfl rfl rfl rfl, rfl, rfl, ?_, rfl, rfl, rfl⟩
    exact List.append_nil _

/-- Contexts that are not loaded have the shape `FirInv` asks for. -/
theorem firInv_of_unloaded {t : State} (h : ∀ c, t.firCtx c = FirCtx.unloaded) : FirInv t := by
  intro c
  rw [h c]
  exact ⟨rfl, rfl, Nat.zero_le _, fun _ => rfl⟩

theorem State.reset_faultInv : FaultInv State.reset := ⟨by decide, by decide, by decide, fun _ => rfl⟩

/-- Settles O13: at reset no context is loaded, no sampler is created, and `MODE` is `UNCONFIGURED`. -/
theorem resetMeetsTheInvariants : Obligations.ResetMeetsTheInvariants := by
  unfold Obligations.ResetMeetsTheInvariants
  exact ⟨nofun, State.reset_faultInv, firInv_of_unloaded State.reset_firCtx, ⟨fun _ => ⟨rfl, rfl⟩, nofun⟩,
    fun _ => rfl, nofun, nofun⟩

/-! ## The configuration -/

/-- A check that is passed. -/
theorem configCheck_bind_ok {β : Type} {bad : Prop} [Decidable bad] {k : Nat} {f : Unit → Except Raise β} {b : β}
    (h : (configCheck bad k >>= f) = .ok b) : ¬ bad ∧ f () = .ok b := by
  obtain ⟨_, hc, h⟩ := bind_ok h
  exact ⟨raiseIf_ok hc, h⟩

/-- A record that `SYS.CONFIG` accepts is legal (49 R301). -/
theorem parseConfig_legal {b : Build} {ops : List Elem} {cfg : Cfg} (h : parseConfig b ops = .ok cfg) :
    cfg.Legal b := by
  obtain ⟨⟨fs, _⟩, _, h⟩ := bind_ok h
  obtain ⟨hfs, h⟩ := configCheck_bind_ok h
  obtain ⟨⟨nSym, _⟩, _, h⟩ := bind_ok h
  obtain ⟨hnSym, h⟩ := configCheck_bind_ok h
  obtain ⟨⟨nFreq, _⟩, _, h⟩ := bind_ok h
  obtain ⟨hnFreq, h⟩ := configCheck_bind_ok h
  obtain ⟨⟨mult, _⟩, hmults, h⟩ := bind_ok h
  obtain ⟨hmult, h⟩ := configCheck_bind_ok h
  obtain ⟨hnodup, h⟩ := configCheck_bind_ok h
  obtain ⟨⟨carrierIndex, _⟩, _, h⟩ := bind_ok h
  obtain ⟨hindex, h⟩ := configCheck_bind_ok h
  obtain ⟨⟨bps, _⟩, _, h⟩ := bind_ok h
  obtain ⟨hbps, h⟩ := configCheck_bind_ok h
  obtain ⟨⟨symbols, _⟩, hsymbols, h⟩ := bind_ok h
  obtain ⟨hgrid, h⟩ := configCheck_bind_ok h
  obtain ⟨⟨parity, _⟩, _, h⟩ := bind_ok h
  obtain ⟨hparity, h⟩ := configCheck_bind_ok h
  obtain ⟨⟨resolution, _⟩, _, h⟩ := bind_ok h
  obtain ⟨hresolution, h⟩ := configCheck_bind_ok h
  obtain ⟨⟨width, _⟩, _, h⟩ := bind_ok h
  obtain ⟨hwidth, h⟩ := configCheck_bind_ok h
  obtain ⟨_, _, h⟩ := bind_ok h
  cases h
  have hrange : ∀ m ∈ mult, 1 ≤ m ∧ 2 * m < nSym := fun m hm => by
    have hgood : ¬ (m < 1 ∨ nSym ≤ 2 * m) := fun hbad => hmult ⟨m, hm, hbad⟩
    omega
  unfold Cfg.Legal
  dsimp only
  refine ⟨by omega, by omega, by omega, by omega, by omega, (popMany_ok _ _ _ _ _ hmults).1, hrange,
    not_not.mp hnodup, by omega, by omega, by omega, (popMany_ok _ _ _ _ _ hsymbols).1, by simpa using hgrid,
    by omega, by omega, by omega, by omega, by omega, by omega⟩

/-- `SYS.CONFIG` writes a legal record and its tables, `SYS.RESET` leaves `READY`, and nothing else writes them. -/
theorem Writes.configInv {i : Instr} {s t : State} (h : Writes i s t) (hs : ConfigInv s) : ConfigInv t := by
  cases h with
  | configuration cfg _ _ hp => exact fun _ => ⟨parseConfig_legal hp, rfl, rfl, rfl, rfl⟩
  | reset _ => exact nofun
  | taken n _ _ => rw [(takeSamples_moves n s).same]; exact hs
  | _ => exact hs

/-- Settles O14: what a command writes keeps the invariant, and a fault leaves `READY`. -/
theorem stepKeepsConfigInv : Obligations.StepKeepsConfigInv := by
  unfold Obligations.StepKeepsConfigInv
  intro s t hs h
  exact step_keeps (P := ConfigInv) (fun _ _ _ h => h) (fun _ h => h) (fun _ _ _ _ _ => nofun)
    (fun _ _ _ hw h => hw.configInv h) (fun _ h => h) hs h

/-- Settles O60: a fault writes `MODE`, `FAULT` and `FAULT_INFO` only, and of the ways to write, only those of
`SYS.CONFIG` and `SYS.RESET` touch the configuration. -/
theorem frameOfConfiguration : Obligations.FrameOfConfiguration := by
  unfold Obligations.FrameOfConfiguration
  intro i s t h
  rcases exec_next_writes h with ⟨_, rfl⟩ | ⟨_, _, _, _, rfl⟩ | ⟨d, hd, hw, rfl⟩
  · exact ⟨rfl, fun _ _ => ⟨rfl, rfl, rfl, rfl, rfl⟩, fun _ => rfl⟩
  · exact ⟨rfl, fun _ _ => ⟨rfl, rfl, rfl, rfl, rfl⟩, fun _ => rfl⟩
  · refine ⟨hw.build, hw.sameConfiguration, ?config⟩
    rintro rfl
    obtain ⟨cfg, _, rfl⟩ := hd
    rfl

end Sys2Proof.Machine
end

section
/-!
What `take` keeps, by one induction over its samples; the invariants of the fault registers, the streams, the FIR
contexts and the sampler (spec/10 R22, R30, R32, R33; spec/20 R64; spec/45 R213).
-/

namespace Sys2Proof.Machine

/-! ## The induction over `take` -/

/-- What one sample shifted into the window does: a padding zero is used up. -/
def State.shiftPadding (s : State) : State :=
  ({ s with rs := { s.rs with pad := s.rs.pad - 1 } } : State).shiftIn (.rat 0)

/-- A sample of the source is shifted in. -/
def State.shiftSource (s : State) (v : ExactReal) (rest : List ExactReal) : State :=
  ({ s with src := rest } : State).shiftIn v

/-- The source has ended in the middle of a fill: the latch and `RS_EOF` are set (R213). -/
def State.endSource (s : State) : State := { s with srcEof := true, rs := { s.rs with eof := true } }

/-- `P` is kept by everything that `take` does: a padding zero or a sample shifted in, the end of the source, an
output's offset and a step of the attached post-equalizer (R213). -/
structure KeptByTake (P : State → Prop) : Prop where
  padding : ∀ s, 0 < s.rs.pad → P s → P s.shiftPadding
  sample : ∀ s v rest, s.rs.pad = 0 → s.srcEof = false → s.src = v :: rest → P s → P (s.shiftSource v rest)
  ended : ∀ s, s.rs.pad = 0 → s.src = [] ∨ s.srcEof = true → P s → P s.endSource
  output : ∀ s j, P s → P (s.interpolate j).2
  equalizer : ∀ s c v, s.rs.eqsel = some c → P s → P (firStep c v s).2

/-- How a fill goes on, and how it ends early. -/
theorem fillWindow_succ (k : Nat) (s : State) :
    (0 < s.rs.pad ∧ fillWindow (k + 1) s = fillWindow k s.shiftPadding) ∨
    (∃ v rest, s.rs.pad = 0 ∧ s.srcEof = false ∧ s.src = v :: rest ∧
      fillWindow (k + 1) s = fillWindow k (s.shiftSource v rest)) ∨
    (s.rs.pad = 0 ∧ (s.src = [] ∨ s.srcEof = true) ∧ fillWindow (k + 1) s = (false, s.endSource)) := by
  by_cases hp : 0 < s.rs.pad
  · exact .inl ⟨hp, by simp only [fillWindow, State.nextPadded, if_pos hp, State.shiftPadding]⟩
  · have hpad : s.rs.pad = 0 := Nat.eq_zero_of_not_pos hp
    cases he : s.srcEof with
    | true =>
      refine .inr (.inr ⟨hpad, .inr rfl, ?_⟩)
      simp [fillWindow, State.nextPadded, hpad, State.pull, he, State.endSource]
    | false =>
      cases hs : s.src with
      | nil =>
        refine .inr (.inr ⟨hpad, .inl rfl, ?_⟩)
        simp [fillWindow, State.nextPadded, hpad, State.pull, he, hs, State.endSource]
      | cons v rest =>
        refine .inr (.inl ⟨v, rest, hpad, rfl, rfl, ?_⟩)
        simp [fillWindow, State.nextPadded, hpad, State.pull, he, hs, State.shiftSource]

section

variable {P : State → Prop} (hP : KeptByTake P)

include hP

theorem KeptByTake.fillWindow (k : Nat) : ∀ s, P s → P (fillWindow k s).2 := by
  induction k with
  | zero => exact fun _ h => h
  | succ k ih =>
    intro s h
    rcases fillWindow_succ k s with ⟨hp, e⟩ | ⟨v, rest, hp, he, hs, e⟩ | ⟨hp, he, e⟩ <;> rw [e]
    · exact ih _ (hP.padding s hp h)
    · exact ih _ (hP.sample s v rest hp he hs h)
    · exact hP.ended s hp he h

theorem KeptByTake.takeOne (s : State) (h : P s) : P (takeOne s).2 := by
  have hfill := hP.fillWindow s.missing s h
  unfold Machine.takeOne
  generalize Machine.fillWindow s.missing s = r at hfill ⊢
  obtain ⟨full, s'⟩ := r
  cases full with
  | false => exact hfill
  | true =>
    have hout := hP.output s' (s.rs.phase (takeCalc s) s.cfg.resolution) hfill
    simp only [State.equalize]
    split
    · exact hout
    · exact hP.equalizer _ _ _ ‹_› hout

theorem KeptByTake.takeSamples (n : Nat) : ∀ s, P s → P (takeSamples n s).2 := by
  induction n with
  | zero => exact fun _ h => h
  | succ n ih =>
    intro s h
    have hone := hP.takeOne s h
    cases hr : Machine.takeOne s with
    | mk y s' =>
      rw [hr] at hone
      cases y with
      | none => rw [takeSamples_none n s s' hr]; exact hone
      | some y => rw [takeSamples_some n s s' y hr]; exact ih s' hone

end

/-! ## The fault registers and the streams -/

/-- `RS_EOF` is set only when `SRC` has ended, and an ended `SRC` is empty (10 R33, 20 R64): the part of `StreamInv`
that speaks of no queue. -/
def EofInv (s : State) : Prop := (s.rs.eof = true → s.srcEof = true) ∧ (s.srcEof = true → s.src = [])

theorem eofInv_keptByTake : KeptByTake EofInv where
  padding := fun _ _ h => h
  sample := fun s v rest _ he _ h => ⟨h.1, fun he' => absurd (he.symm.trans he') (by decide)⟩
  ended := fun s _ he h => ⟨fun _ => rfl, fun _ => he.elim id h.2⟩
  output := fun _ _ h => h
  equalizer := fun _ _ _ _ h => h

theorem Writes.eofInv {i : Instr} {s t : State} (h : Writes i s t) (hs : EofInv s) : EofInv t := by
  cases h with
  | reset _ => exact ⟨nofun, nofun⟩
  | newSampler _ => exact ⟨nofun, hs.2⟩
  | taken n _ _ => exact eofInv_keptByTake.takeSamples n s hs
  | _ => exact hs

/-- A step keeps the `EOF` flags in agreement. -/
theorem step_keeps_eofInv {s t : State} (hs : EofInv s) (h : step s = .next t) : EofInv t :=
  step_keeps (P := EofInv) (fun _ _ _ h => h) (fun _ h => h) (fun _ _ _ _ h => h) (fun _ _ _ hw h => hw.eofInv h)
    (fun _ h => h) hs h

theorem Writes.faultInv {i : Instr} {s t : State} (h : Writes i s t) (hs : FaultInv s) : FaultInv t := by
  cases h with
  | configuration cfg _ hm _ =>
    obtain ⟨hmode, h4, h10, hinfo⟩ := hs
    have h0 : s.fault = 0 := by
      by_contra hne
      exact absurd (hm.symm.trans (hmode.mpr hne)) (by decide)
    exact ⟨⟨nofun, fun hne => absurd h0 hne⟩, h4, h10, fun _ => hinfo (by rw [hm]; decide)⟩
  | reset _ => exact State.reset_faultInv
  | taken n _ _ => rw [(takeSamples_moves n s).same]; exact hs
  | _ => exact hs

/-- After a fault `FAULT` holds a code of 60 R361 other than `Faulted`. -/
theorem failed_faultInv (s : State) {code : Byte} (info : Nat)
    (hc : code ∈ ([1, 2, 3, 5, 6, 7, 8, 9, 10] : List Byte)) : FaultInv (s.failed code info) := by
  have hcodes : ∀ k ∈ ([1, 2, 3, 5, 6, 7, 8, 9, 10] : List Byte), k ≠ 0 ∧ k ≠ 4 ∧ k ≤ 10 := by decide
  obtain ⟨h0, h4, h10⟩ := hcodes code hc
  exact ⟨⟨fun _ => h0, fun _ => rfl⟩, h4, h10, fun h => absurd rfl h⟩

theorem step_keeps_faultInv {s t : State} (hs : FaultInv s) (h : step s = .next t) : FaultInv t :=
  step_keeps (P := FaultInv) (fun _ _ _ h => h) (fun _ h => h) (fun s _ info hc _ => failed_faultInv s info hc)
    (fun _ _ _ hw h => hw.faultInv h) (fun _ h => h) hs h

/-- Outside `FAULTED` a command has left no operand (20 R62). -/
theorem Done.commit_opq_nil (d : Done) (h : d.commit.mode ≠ .faulted) : d.commit.opq = [] := if_neg h

/-- A step leaves operands only in `FAULTED` (60 R365). -/
theorem step_opq_nil {s t : State} (hs : s.mode ≠ .faulted → s.opq = []) (h : step s = .next t)
    (hm : t.mode ≠ .faulted) : t.opq = [] := by
  rcases step_next h with rfl | ⟨cmd, rest, ⟨hf, rfl⟩ | ⟨_, code, info, _, rfl⟩ | ⟨i, d, _, rfl⟩⟩
  · exact hs hm
  · exact absurd hf hm
  · exact absurd rfl hm
  · exact d.commit_opq_nil hm

/-- Settles O15: what a command writes keeps the two invariants, a fault writes a code of the table, and a command that
completes leaves `OPQ` empty. -/
theorem stepKeepsFaultAndStreamInv : Obligations.StepKeepsFaultAndStreamInv := by
  unfold Obligations.StepKeepsFaultAndStreamInv
  rintro s t hfault ⟨hopq, heof⟩ h
  exact ⟨step_keeps_faultInv hfault h, step_opq_nil hopq h, step_keeps_eofInv heof h⟩

/-! ## The FIR contexts and the sampler -/

/-- A write to context `c` that keeps its shape keeps that of all. -/
theorem firInv_setFirCtx {s : State} {c : Ctx} {x : FirCtx} (hs : FirInv s) (hh : x.h.length = x.ntaps)
    (hhist : x.hist.length = x.ntaps) (hcap : x.ntaps ≤ s.build.capTaps) (hn : s.build.nfir ≤ c.toNat → x.ntaps = 0) :
    FirInv (s.setFirCtx c x) := by
  intro d
  by_cases hd : d = c
  · subst hd
    rw [State.setFirCtx_firCtx_same]
    exact ⟨hh, hhist, hcap, hn⟩
  · rw [State.setFirCtx_firCtx_other s c d x hd]
    exact hs d

/-- A new history of the right length keeps the shape of the contexts. -/
theorem firInv_setHistory {s : State} {c : Ctx} {hist : List ExactReal} (hs : FirInv s)
    (hl : hist.length = (s.firCtx c).ntaps) : FirInv (s.setFirCtx c { s.firCtx c with hist := hist }) :=
  have ⟨hh, _, hcap, hn⟩ := hs c
  firInv_setFirCtx hs hh hl hcap hn

/-- The history after one step of `fir_step` (41 R143). -/
theorem firStep_state (c : Ctx) (v : ExactReal) (s : State) : (firStep c v s).2 =
    s.setFirCtx c { s.firCtx c with hist := (v :: (s.firCtx c).hist).take (s.firCtx c).ntaps } := rfl

theorem firStep_firInv {c : Ctx} {v : ExactReal} {s : State} (hs : FirInv s) : FirInv (firStep c v s).2 := by
  obtain ⟨_, hhist, _⟩ := hs c
  rw [firStep_state]
  exact firInv_setHistory hs (by rw [List.length_take, List.length_cons, hhist]; omega)

/-- A write to a context that leaves an attached one loaded keeps the invariant of the sampler. -/
theorem samplerInv_setFirCtx {s : State} {c : Ctx} {x : FirCtx} (hs : SamplerInv s)
    (hx : (s.firCtx c).ntaps ≠ 0 → x.ntaps ≠ 0) : SamplerInv (s.setFirCtx c x) := by
  refine ⟨hs.1, fun hc => ?_⟩
  obtain ⟨hm, hbuff, hpad, hoff, hfreq, hsel⟩ := hs.2 hc
  refine ⟨hm, hbuff, hpad, hoff, hfreq, fun d hd => ?_⟩
  obtain ⟨hbuild, hloaded⟩ := hsel d hd
  refine ⟨hbuild, ?_⟩
  by_cases hdc : d = c
  · subst hdc
    rw [State.setFirCtx_firCtx_same]
    exact hx hloaded
  · rwa [State.setFirCtx_firCtx_other s c d x hdc]

/-- What `take` keeps: a sampler, a window that is not empty, and the two invariants. -/
structure TakeInv (s : State) : Prop where
  created : s.rs.created = true
  width : 1 ≤ s.cfg.width
  fir : FirInv s
  sampler : SamplerInv s

theorem Cfg.Legal.one_le_width {b : Build} {c : Cfg} (h : c.Legal b) : 1 ≤ c.width := by
  obtain ⟨_, _, _, _, _, _, _, _, _, _, _, _, _, _, _, _, _, hwidth, _⟩ := h
  exact hwidth

/-- The next offset of a sampler is not negative (45 R216). -/
theorem interpolate_offset_nonneg {s : State} (j : Nat) (hoff : 0 ≤ s.rs.offset.val) (hfreq : 0 < s.rs.freq.val) :
    0 ≤ (s.interpolate j).2.rs.offset.val := by
  have hval : 0 ≤ (numValue (takeCalc s) .rsmpOffset 0 (s.rs.offset.plus s.rs.freq)).val := by
    rcases numValue_cases (takeCalc s) .rsmpOffset 0 (s.rs.offset.plus s.rs.freq) with ⟨_, e⟩ | ⟨_, e⟩
    · rw [e, ExactReal.val_plus]
      linarith
    · rw [e, ExactReal.val_rat]
      exact_mod_cast (takeCalc s).built_rsmpOffset_nonneg 0
  exact hval

/-- A sample shifted in, with the padding that is left. -/
theorem TakeInv.shift {s : State} (h : TakeInv s) (v : ExactReal) (src : List ExactReal) {p : Nat}
    (hp : p = s.cfg.width - (s.rs.index + 1)) :
    TakeInv (({ s with src := src, rs := { s.rs with pad := p } } : State).shiftIn v) := by
  obtain ⟨hc, hw, hfir, hs⟩ := h
  obtain ⟨hm, hbuff, _, hoff, hfreq, hsel⟩ := hs.2 hc
  have hlength : (s.rs.buff.tail ++ [v]).length = 2 * s.cfg.width := by
    rw [List.length_append, List.length_tail, hbuff, List.length_singleton]
    omega
  exact ⟨hc, hw, hfir, fun h => absurd (hc.symm.trans h) (by decide),
    fun _ => ⟨hm, hlength, hp, hoff, hfreq, hsel⟩⟩

theorem TakeInv.pad {s : State} (h : TakeInv s) : s.rs.pad = s.cfg.width - s.rs.index := by
  obtain ⟨_, _, hpad, _⟩ := h.sampler.2 h.created
  exact hpad

theorem takeInv_keptByTake : KeptByTake TakeInv where
  padding := fun s hp h => h.shift (.rat 0) s.src (p := s.rs.pad - 1) (by have := h.pad; omega)
  sample := fun s v rest hp _ _ h => h.shift v rest (p := s.rs.pad) (by have := h.pad; omega)
  ended := fun s _ _ h =>
    ⟨h.created, h.width, h.fir, fun hc => absurd (h.created.symm.trans hc) (by decide), h.sampler.2⟩
  output := by
    rintro s j ⟨hc, hw, hfir, hs⟩
    obtain ⟨hm, hbuff, hpad, hoff, hfreq, hsel⟩ := hs.2 hc
    exact ⟨hc, hw, hfir, hs.1, fun _ => ⟨hm, hbuff, hpad, interpolate_offset_nonneg j hoff hfreq, hfreq, hsel⟩⟩
  equalizer := fun s c v _ h =>
    ⟨h.created, h.width, firStep_firInv h.fir, firStep_state c v s ▸ samplerInv_setFirCtx h.sampler id⟩

/-- What a command writes keeps the shape of the contexts and of the sampler. -/
theorem Writes.filterAndSamplerInv {i : Instr} {s t : State} (h : Writes i s t) (hcfg : ConfigInv s) (hfir : FirInv s)
    (hs : SamplerInv s) : FirInv t ∧ SamplerInv t := by
  cases h with
  | configuration cfg _ hm _ =>
    exact ⟨hfir, hs.1, fun hc => absurd hm (hs.2 hc).1⟩
  | reset _ => exact ⟨firInv_of_unloaded s.resetRegisters_firCtx, fun _ => ⟨rfl, rfl⟩, nofun⟩
  | taps c h hc h0 hcap =>
    exact ⟨firInv_setFirCtx hfir rfl List.length_replicate hcap fun hn => absurd hc (not_lt.mpr hn),
      samplerInv_setFirCtx hs fun _ => h0⟩
  | history c hist hl =>
    exact ⟨firInv_setHistory hfir (hl (hfir c).2.1), samplerInv_setFirCtx hs id⟩
  | newSampler hm =>
    have hoff : 0 ≤ (ExactReal.rat ((s.cfg.width : Rat) + 1)).val := by
      rw [ExactReal.val_rat]
      positivity
    have hfreq : 0 < (ExactReal.rat 1).val := by simp
    exact ⟨hfir, nofun, fun _ => ⟨by rw [hm]; decide, List.length_replicate, rfl, hoff, hfreq, nofun⟩⟩
  | freq v hc hv =>
    obtain ⟨hm, hbuff, hpad, hoff, _, hsel⟩ := hs.2 hc
    exact ⟨hfir, hs.1, fun _ => ⟨hm, hbuff, hpad, hoff, hv, hsel⟩⟩
  | offset v hc hv =>
    obtain ⟨hm, hbuff, hpad, _, hfreq, hsel⟩ := hs.2 hc
    exact ⟨hfir, hs.1, fun _ => ⟨hm, hbuff, hpad, hv, hfreq, hsel⟩⟩
  | eqsel sel hc hsel =>
    obtain ⟨hm, hbuff, hpad, hoff, hfreq, _⟩ := hs.2 hc
    exact ⟨hfir, fun h => absurd (hc.symm.trans h) (by decide), fun _ => ⟨hm, hbuff, hpad, hoff, hfreq, hsel⟩⟩
  | taken n hm hc =>
    obtain ⟨hlegal, _⟩ := hcfg hm
    have ht := takeInv_keptByTake.takeSamples n s ⟨hc, hlegal.one_le_width, hfir, hs⟩
    exact ⟨ht.fir, ht.sampler⟩
  | _ => exact ⟨hfir, hs⟩

/-- A fault changes `MODE` to `FAULTED`, which keeps what the sampler says of it. -/
theorem failed_samplerInv {s : State} (code : Byte) (info : Nat) (hs : SamplerInv s) :
    SamplerInv (s.failed code info) := by
  refine ⟨hs.1, fun hc => ?_⟩
  obtain ⟨_, hrest⟩ := hs.2 hc
  exact ⟨nofun, hrest⟩

/-- Settles O16: the three invariants together are kept by each way to write, by an induction over the samples for
`take`, whose window is not empty because a legal width is at least 1. -/
theorem stepKeepsFilterAndSamplerInv : Obligations.StepKeepsFilterAndSamplerInv := by
  unfold Obligations.StepKeepsFilterAndSamplerInv
  intro s t hcfg hfir hs h
  have keeps := step_keeps (P := fun s => ConfigInv s ∧ FirInv s ∧ SamplerInv s) (fun _ _ _ h => h) (fun _ h => h)
    (fun _ code info _ ⟨_, hfir, hs⟩ => ⟨nofun, hfir, failed_samplerInv code info hs⟩)
    (fun _ _ _ hw ⟨hcfg, hfir, hs⟩ => ⟨hw.configInv hcfg, hw.filterAndSamplerInv hcfg hfir hs⟩) (fun _ h => h)
    ⟨hcfg, hfir, hs⟩ h
  exact keeps.2

end Sys2Proof.Machine
end

section
/-!
The tables `CARRIER` and `BANK` that `SYS.CONFIG` derives (spec/10 R25, R27).
-/

namespace Sys2Proof.Machine

/-! ## `CARRIER` -/

theorem cosTurn_zero : cosTurn 0 = .rat 1 := by decide +kernel

/-- A whole number of turns changes nothing, not even the expression (notes/assumptions/1.md). -/
theorem cosTurn_add_nat (t : Rat) (n : Nat) : cosTurn (t + n) = cosTurn t := by
  have hfloor : (t + n).floor = t.floor + n := Int.floor_add_natCast t n
  have hpart : t + n - (t + n).floor = t - t.floor := by
    rw [hfloor]
    push_cast
    ring
  unfold cosTurn
  rw [hpart]

theorem sinTurn_add_nat (t : Rat) (n : Nat) : sinTurn (t + n) = sinTurn t := by
  unfold sinTurn
  rw [add_sub_right_comm, cosTurn_add_nat]

/-- `exp(2 pi j t)` is the complex exponential (00 R13). -/
@[simp] theorem val_expTurn (t : Rat) : (expTurn t).val = Complex.exp (2 * Real.pi * Complex.I * t) := by
  have hangle : (2 * Real.pi * Complex.I * t : ℂ) = ((2 * Real.pi * t : ℝ) : ℂ) * Complex.I := by
    push_cast
    ring
  rw [hangle]
  apply Complex.ext
  · rw [Complex.exp_ofReal_mul_I_re]; exact val_cosTurn t
  · rw [Complex.exp_ofReal_mul_I_im]; exact val_sinTurn t

theorem carrierEntry_reference {run : Calc} (h : run.num = .reference) (nSym m mult k : Nat) :
    carrierEntry run nSym m mult k = expTurn (((mult * k : Nat) : Rat) / (nSym : Rat)) := by
  simp only [carrierEntry, numValue_reference _ _ _ _ h]

theorem carrierTable_getD {b : Build} {c : Cfg} {m k : Nat} (hm : m < c.mult.length) (hk : k < c.nSym) :
    ((carrierTable b c).getD m []).getD k Cplx.zero = carrierEntry (c.calc b) c.nSym m (c.mult.getD m 0) k := by
  simp [carrierTable, List.getD_eq_getElem?_getD, hm, hk]

theorem length_of_mem_carrierTable {b : Build} {c : Cfg} {row : List Cplx} (h : row ∈ carrierTable b c) :
    row.length = c.nSym := by
  obtain ⟨_, _, rfl⟩ := List.mem_map.mp h
  rw [List.length_map, List.length_range]

/-- `Nsym` samples of a carrier are `mult` whole turns. -/
theorem carrierEntry_add_nSym {run : Calc} (h : run.num = .reference) {nSym : Nat} (hn : 0 < nSym) (m mult k : Nat) :
    carrierEntry run nSym m mult (k + nSym) = carrierEntry run nSym m mult k := by
  have hturns : ((mult * (k + nSym) : Nat) : Rat) / nSym = ((mult * k : Nat) : Rat) / nSym + (mult : Nat) := by
    have hn' : (nSym : Rat) ≠ 0 := by exact_mod_cast hn.ne'
    push_cast
    field_simp
  rw [carrierEntry_reference h, carrierEntry_reference h, hturns]
  simp only [expTurn, cosTurn_add_nat, sinTurn_add_nat]

/-- Half a turn, a turn back, and the theorem of Pythagoras. -/
theorem turn_symmetries (t : Rat) : (cosTurn (t + 1 / 2)).val = -(cosTurn t).val ∧
    (cosTurn (-t)).val = (cosTurn t).val ∧ (sinTurn (-t)).val = -(sinTurn t).val ∧
    (cosTurn t).val ^ 2 + (sinTurn t).val ^ 2 = 1 := by
  simp only [val_cosTurn, val_sinTurn]
  have hhalf : 2 * Real.pi * ((t + 1 / 2 : Rat) : ℝ) = 2 * Real.pi * t + Real.pi := by
    push_cast
    ring
  have hneg : 2 * Real.pi * ((-t : Rat) : ℝ) = -(2 * Real.pi * t) := by
    push_cast
    ring
  rw [hhalf, hneg]
  exact ⟨Real.cos_add_pi _, Real.cos_neg _, Real.sin_neg _, Real.cos_sq_add_sin_sq _⟩

/-- Settles O21: each entry is `expTurn` of its number of turns, which `val_expTurn` gives over the complex numbers. -/
theorem carrierTableEntries : Obligations.CarrierTableEntries := by
  unfold Obligations.CarrierTableEntries
  refine ⟨fun b c m k hb hm hk => ?entry, fun b c => ⟨?rows, fun row => length_of_mem_carrierTable⟩,
    fun run nSym m mult k h hn => carrierEntry_add_nSym h hn m mult k, ?printed, turn_symmetries⟩
  case entry =>
    rw [carrierTable_getD hm hk, carrierEntry_reference (run := c.calc b) hb, val_expTurn]
    congr 1
    push_cast
    ring
  case rows => rw [carrierTable, List.length_map, List.length_zipIdx]
  case printed => decide +kernel

/-! ## `BANK` -/

theorem bankTable_getD {b : Build} {c : Cfg} {jp i : Nat} (hj : jp < c.resolution) (hi : i < 2 * c.width) :
    ((bankTable b c).getD jp []).getD i (.rat 0) = bankTap (c.calc b) c.resolution c.width jp i := by
  simp [bankTable, List.getD_eq_getElem?_getD, hj, hi]

theorem bankTap_reference {run : Calc} (h : run.num = .reference) (resolution width jp i : Nat) :
    bankTap run resolution width jp i = bankExact resolution width (bankArg resolution width jp i) := by
  rw [bankTap, numValue_reference _ _ _ _ h]

/-- `win(u)` over the reals (10 R27). -/
theorem val_bankWindow (resolution width : Nat) (u : Int) :
    (bankWindow resolution width u).val = Real.cos (Real.pi * u / (2 * (resolution * width))) ^ 2 := by
  have hangle : 2 * Real.pi * (((u : Rat) / (4 * ((resolution * width : Nat) : Rat)) : Rat) : ℝ)
      = Real.pi * u / (2 * (resolution * width)) := by
    push_cast
    ring
  simp only [bankWindow, ExactReal.val_times, val_cosTurn, hangle, pow_two]

/-- The argument of `sinc` in R27, `u / resolution`, over the reals. -/
theorem bankArg_div {resolution : Nat} (hr : resolution ≠ 0) (width jp i : Nat) :
    (((bankArg resolution width jp i : Int) : Rat) / (resolution : Rat) : ℚ)
      = (jp : ℚ) / resolution + width - 1 - i := by
  have hr' : (resolution : ℚ) ≠ 0 := by exact_mod_cast hr
  unfold bankArg
  push_cast
  field_simp
  ring

/-- At phase 0 the argument of `sinc` is an integer, 0 at `width - 1` alone: the tap is 1 there and 0 elsewhere. -/
theorem bankExact_phase_zero {resolution width : Nat} (hr : resolution ≠ 0) (hw : 1 ≤ width) (i : Nat) :
    bankExact resolution width (bankArg resolution width 0 i) = .rat (if i = width - 1 then 1 else 0) := by
  have hx : ((bankArg resolution width 0 i : Int) : Rat) / (resolution : Rat) = ((width - 1 - i : Int) : Rat) := by
    rw [bankArg_div hr]
    push_cast
    ring
  unfold bankExact
  rw [hx]
  by_cases hi : i = width - 1
  · have hz : (width - 1 - i : Int) = 0 := by omega
    have hu : bankArg resolution width 0 i = 0 := by
      subst hi
      unfold bankArg
      push_cast [hw]
      ring
    rw [if_pos hi, hz, hu]
    simp [sinc, bankWindow, cosTurn_zero, ExactReal.times]
  · have hz : ((width - 1 - i : Int) : Rat) ≠ 0 := by exact_mod_cast (by omega : (width - 1 - i : Int) ≠ 0)
    rw [if_neg hi, sinc, if_neg hz, if_pos (Rat.den_intCast _)]
    cases bankWindow resolution width (bankArg resolution width 0 i) <;> simp [ExactReal.times]

/-- Settles O23: an entry is the exact product of R27 over the reals, and at phase 0 the expression itself. -/
theorem bankTable_isWindowedSinc : Obligations.BankTable := by
  unfold Obligations.BankTable
  refine ⟨fun b c jp i hb hj hi => ?entry, fun b c hb hr hw => ?impulse⟩
  case entry =>
    have hr : c.resolution ≠ 0 := by omega
    rw [bankTable_getD hj hi, bankTap_reference (run := c.calc b) hb, bankExact, ExactReal.val_times, val_sinc,
      val_bankWindow, bankArg_div hr]
    have hx : ((jp / c.resolution + c.width - 1 - i : ℚ) : ℝ) = jp / c.resolution + c.width - 1 - i := by push_cast; rfl
    have hu : ((bankArg c.resolution c.width jp i : Int) : ℝ)
        = jp + (2 * c.width - 1 - i) * c.resolution - c.resolution * c.width := by
      unfold bankArg
      push_cast
      rfl
    have hzero : (jp / c.resolution + c.width - 1 - i : ℚ) = 0 ↔ (jp / c.resolution + c.width - 1 - i : ℝ) = 0 := by
      rw [← hx, Rat.cast_eq_zero]
    simp only [hx, hu, hzero]
  case impulse =>
    have hrow : (bankTable b c).getD 0 [] = (List.range (2 * c.width)).map fun i =>
        bankTap (c.calc b) c.resolution c.width 0 i := by
      simp [bankTable, List.getD_eq_getElem?_getD, Nat.lt_of_lt_of_le Nat.zero_lt_one hr]
    rw [hrow]
    refine List.map_congr_left fun i _ => ?_
    rw [bankTap_reference (run := c.calc b) hb, bankExact_phase_zero (by omega) hw]

end Sys2Proof.Machine
end

section
/-!
The demapper's table `QAM` fitted from a constellation (spec/10 R26): the coordinates of an axis, the grid condition,
the cells, and the decision of a point (spec/40 R123).
-/

namespace Sys2Proof.Machine

/-! ## The distinct coordinates of an axis, in increasing order -/

theorem mem_of_mem_insertDistinct {x z : ExactReal} : ∀ {ys : List ExactReal}, z ∈ insertDistinct x ys → z = x ∨ z ∈ ys
  | [], h => .inl (List.mem_singleton.mp h)
  | y :: ys, h => by
    unfold insertDistinct at h
    split_ifs at h
    · exact List.mem_cons.mp h
    · rcases List.mem_cons.mp h with rfl | h
      · exact .inr List.mem_cons_self
      · exact (mem_of_mem_insertDistinct h).imp_right (List.mem_cons_of_mem y)
    · exact .inr h

/-- Inserting adds the number of the expression, unless it is there already. -/
theorem mem_vals_insertDistinct (x : ExactReal) (v : ℝ) : ∀ ys : List ExactReal,
    v ∈ vals (insertDistinct x ys) ↔ v = x.val ∨ v ∈ vals ys
  | [] => by simp [insertDistinct, vals]
  | y :: ys => by
    have ih := mem_vals_insertDistinct x v ys
    simp only [vals] at ih ⊢
    unfold insertDistinct
    split_ifs with hlt hgt
    · simp
    · rw [List.map_cons, List.mem_cons, ih, List.map_cons, List.mem_cons]
      tauto
    · have heq : x.val = y.val :=
        le_antisymm (not_lt.mp fun h => hgt ((y.lessThan_iff x).mpr h))
          (not_lt.mp fun h => hlt ((x.lessThan_iff y).mpr h))
      simp [heq]

/-- The numbers increase along the list. -/
def Increasing (xs : List ExactReal) : Prop := xs.Pairwise fun x y => x.val < y.val

theorem insertDistinct_increasing (x : ExactReal) : ∀ {ys : List ExactReal}, Increasing ys →
    Increasing (insertDistinct x ys)
  | [], _ => List.pairwise_singleton _ _
  | y :: ys, h => by
    obtain ⟨hy, hys⟩ := List.pairwise_cons.mp h
    unfold insertDistinct
    split_ifs with hlt hgt
    · have hxy := (x.lessThan_iff y).mp hlt
      refine List.pairwise_cons.mpr ⟨fun z hz => ?_, h⟩
      rcases List.mem_cons.mp hz with rfl | hz
      · exact hxy
      · exact hxy.trans (hy z hz)
    · have hyx := (y.lessThan_iff x).mp hgt
      refine List.pairwise_cons.mpr ⟨fun z hz => ?_, insertDistinct_increasing x hys⟩
      rcases mem_of_mem_insertDistinct hz with rfl | hz
      · exact hyx
      · exact hy z hz
    · exact h

theorem mem_of_mem_distinctSorted {z : ExactReal} : ∀ {xs : List ExactReal}, z ∈ distinctSorted xs → z ∈ xs
  | x :: xs, h => by
    rcases mem_of_mem_insertDistinct (show z ∈ insertDistinct x (distinctSorted xs) from h) with rfl | h
    · exact List.mem_cons_self
    · exact List.mem_cons_of_mem x (mem_of_mem_distinctSorted h)

theorem mem_vals_distinctSorted (v : ℝ) : ∀ xs : List ExactReal, v ∈ vals (distinctSorted xs) ↔ v ∈ vals xs
  | [] => Iff.rfl
  | x :: xs => by
    have ih := mem_vals_distinctSorted v xs
    rw [show distinctSorted (x :: xs) = insertDistinct x (distinctSorted xs) from rfl, mem_vals_insertDistinct, ih]
    exact List.mem_cons.symm

theorem distinctSorted_increasing : ∀ xs : List ExactReal, Increasing (distinctSorted xs)
  | [] => List.Pairwise.nil
  | x :: xs => insertDistinct_increasing x (distinctSorted_increasing xs)

/-- The list has one expression for each number. -/
theorem length_distinctSorted (xs : List ExactReal) : (distinctSorted xs).length = (vals xs).toFinset.card := by
  have hnodup : (vals (distinctSorted xs)).Nodup :=
    List.pairwise_map.mpr ((distinctSorted_increasing xs).imp ne_of_lt)
  have hset : (vals xs).toFinset = (vals (distinctSorted xs)).toFinset := by
    ext v
    rw [List.mem_toFinset, List.mem_toFinset, mem_vals_distinctSorted]
  rw [hset, List.toFinset_card_of_nodup hnodup, vals, List.length_map]

theorem exists_mem_distinctSorted_val {x : ExactReal} {xs : List ExactReal} (h : x ∈ xs) :
    ∃ z ∈ distinctSorted xs, z.val = x.val :=
  List.mem_map.mp ((mem_vals_distinctSorted x.val xs).mpr (List.mem_map_of_mem h))

theorem distinctSorted_ne_nil {xs : List ExactReal} (h : xs ≠ []) : distinctSorted xs ≠ [] := by
  obtain ⟨x, hx⟩ := List.exists_mem_of_ne_nil xs h
  obtain ⟨z, hz, _⟩ := exists_mem_distinctSorted_val hx
  exact List.ne_nil_of_mem hz

/-- The first expression is one of the values, and its number the least. -/
theorem distinctSorted_headD {xs : List ExactReal} (h : xs ≠ []) (d : ExactReal) :
    (distinctSorted xs).headD d ∈ xs ∧ ∀ x ∈ xs, ((distinctSorted xs).headD d).val ≤ x.val := by
  have hne := distinctSorted_ne_nil h
  rw [List.headD_eq_head?_getD, List.head?_eq_some_head hne, Option.getD_some]
  refine ⟨mem_of_mem_distinctSorted (List.head_mem hne), fun x hx => ?_⟩
  obtain ⟨z, hz, hzx⟩ := exists_mem_distinctSorted_val hx
  rw [← hzx]
  exact ((distinctSorted_increasing xs).imp le_of_lt).rel_head_of_rel_head_head hz le_rfl

/-- The last expression is one of the values, and its number the greatest. -/
theorem distinctSorted_getLastD {xs : List ExactReal} (h : xs ≠ []) (d : ExactReal) :
    (distinctSorted xs).getLastD d ∈ xs ∧ ∀ x ∈ xs, x.val ≤ ((distinctSorted xs).getLastD d).val := by
  have hne := distinctSorted_ne_nil h
  rw [List.getLastD_eq_getLast?, List.getLast?_eq_some_getLast hne, Option.getD_some]
  refine ⟨mem_of_mem_distinctSorted (List.getLast_mem hne), fun x hx => ?_⟩
  obtain ⟨z, hz, hzx⟩ := exists_mem_distinctSorted_val hx
  rw [← hzx]
  exact ((distinctSorted_increasing xs).imp le_of_lt).rel_getLast_of_rel_getLast_getLast hz le_rfl

/-! ## The fit of one axis -/

section

variable (coord : Cplx → ExactReal) (points : List Cplx)

/-- The distinct values of one coordinate of the points, `reals` or `imags` of R26. -/
def axisOf : List ExactReal := distinctSorted (points.map coord)

theorem length_axisOf : (axisOf coord points).length = (points.map fun z => (coord z).val).toFinset.card := by
  rw [axisOf, length_distinctSorted, vals, List.map_map]
  rfl

/-- The bias is the least coordinate, and the coordinate of a point. -/
theorem axisOf_bias {points} (h : points ≠ []) :
    (∃ z ∈ points, (axisOf coord points).headD (.rat 0) = coord z) ∧
    ∀ z ∈ points, ((axisOf coord points).headD (.rat 0)).val ≤ (coord z).val := by
  obtain ⟨hmem, hleast⟩ := distinctSorted_headD (List.map_eq_nil_iff.not.mpr h) (.rat 0)
  obtain ⟨z, hz, hzc⟩ := List.mem_map.mp hmem
  exact ⟨⟨z, hz, hzc.symm⟩, fun z hz => hleast _ (List.mem_map_of_mem hz)⟩

/-- The factor of an axis with more than one coordinate: the number of steps over the extent. -/
theorem axisOf_factor {points} (h : points ≠ []) (hmany : 1 < (axisOf coord points).length) :
    ∃ top ∈ points, (∀ z ∈ points, (coord z).val ≤ (coord top).val) ∧
      (axisFactor (axisOf coord points)).val =
        ((axisOf coord points).length - 1) / ((coord top).val - ((axisOf coord points).headD (.rat 0)).val) := by
  obtain ⟨hmem, hgreatest⟩ := distinctSorted_getLastD (xs := points.map coord) (List.map_eq_nil_iff.not.mpr h) (.rat 0)
  obtain ⟨top, htop, htopc⟩ := List.mem_map.mp hmem
  refine ⟨top, htop, fun z hz => htopc ▸ hgreatest _ (List.mem_map_of_mem hz), ?_⟩
  rw [axisFactor, if_pos hmany, ExactReal.val_over, ExactReal.val_nat, ExactReal.val_minus, Nat.cast_sub hmany.le,
    Nat.cast_one, htopc]
  rfl

end

/-- In the reference semantics the stored factor is the exact one. -/
theorem storedFactor_reference {run : Calc} (h : run.num = .reference) (k : Nat) (axis : List ExactReal) :
    storedFactor run k axis = axisFactor axis := by
  unfold storedFactor
  split_ifs with hmany
  · exact numValue_reference _ _ _ _ h
  · rw [axisFactor, if_neg hmany]

/-! ## The grid -/

/-- The cells of a grid of `nr` times `ni`. -/
noncomputable def gridOf (nr ni : Nat) : Finset (Int × Int) := Finset.Ico 0 (nr : Int) ×ˢ Finset.Ico 0 (ni : Int)

theorem card_gridOf (nr ni : Nat) : (gridOf nr ni).card = nr * ni := by simp [gridOf]

theorem mem_gridOf {nr ni : Nat} {ij : Int × Int} :
    ij ∈ gridOf nr ni ↔ 0 ≤ ij.1 ∧ ij.1 < nr ∧ 0 ≤ ij.2 ∧ ij.2 < ni := by
  simp [gridOf, and_assoc]

/-- As many cells as the grid has are distinct cells of the grid exactly when they are all of it. -/
theorem nodup_subset_grid_iff {cells : List (Int × Int)} {nr ni : Nat} (hcard : nr * ni = cells.length) :
    (cells.Nodup ∧ ∀ ij ∈ cells, ij ∈ gridOf nr ni) ↔ ∀ ij ∈ gridOf nr ni, ij ∈ cells := by
  rw [← card_gridOf] at hcard
  constructor
  · rintro ⟨hnodup, hin⟩ ij hij
    have hsub : cells.toFinset ⊆ gridOf nr ni := fun ij h => hin ij (List.mem_toFinset.mp h)
    have hall := Finset.eq_of_subset_of_card_le hsub (by rw [List.toFinset_card_of_nodup hnodup, hcard])
    exact List.mem_toFinset.mp (hall ▸ hij)
  · intro hhit
    have hsub : gridOf nr ni ⊆ cells.toFinset := fun ij h => List.mem_toFinset.mpr (hhit ij h)
    have hle := List.toFinset_card_le (l := cells)
    have hall := Finset.eq_of_subset_of_card_le hsub (hle.trans hcard.ge)
    have hnodup : (cells : Multiset (Int × Int)).Nodup :=
      Multiset.toFinset_card_eq_card_iff_nodup.mp ((congrArg Finset.card hall).symm.trans hcard)
    exact ⟨hnodup, fun ij h => hall ▸ List.mem_toFinset.mpr h⟩

theorem fullGrid_iff {points : List Cplx} : fullGrid points = true ↔
    (realAxis points).length * (imagAxis points).length = points.length ∧ (gridCells points).Nodup ∧
      ∀ ij ∈ gridCells points, ij ∈ gridOf (realAxis points).length (imagAxis points).length := by
  simp only [fullGrid, Bool.and_eq_true, decide_eq_true_eq, List.all_eq_true, mem_gridOf, and_assoc]

theorem length_gridCells (points : List Cplx) : (gridCells points).length = points.length := List.length_map _

/-- The cell of point `k`. -/
theorem gridCells_getD {points : List Cplx} {k : Nat} (hk : k < points.length) : (gridCells points).getD k (0, 0) =
    (gridPlace (realAxis points) (points.getD k Cplx.zero).re,
      gridPlace (imagAxis points) (points.getD k Cplx.zero).im) := by
  simp [gridCells, List.getD_eq_getElem?_getD, hk]

theorem gridCells_getD_mem {points : List Cplx} {k : Nat} (hk : k < points.length) :
    (gridCells points).getD k (0, 0) ∈ gridCells points := by
  rw [← length_gridCells] at hk
  rw [List.getD_eq_getElem _ _ hk]
  exact List.getElem_mem hk

theorem mem_gridCells_iff {points : List Cplx} {ij : Int × Int} :
    ij ∈ gridCells points ↔ ∃ k < points.length, (gridCells points).getD k (0, 0) = ij := by
  constructor
  · intro h
    obtain ⟨k, hk, he⟩ := List.mem_iff_getElem.mp h
    exact ⟨k, length_gridCells points ▸ hk, by rw [List.getD_eq_getElem _ _ hk, he]⟩
  · rintro ⟨k, hk, rfl⟩
    exact gridCells_getD_mem hk

/-- The grid condition of R26 says that every cell is hit. -/
theorem fullGrid_iff_all_hit {points : List Cplx} : fullGrid points = true ↔
    (realAxis points).length * (imagAxis points).length = points.length ∧
      ∀ i < (realAxis points).length, ∀ j < (imagAxis points).length,
        ∃ k < points.length, (gridCells points).getD k (0, 0) = ((i : Int), (j : Int)) := by
  rw [fullGrid_iff]
  refine and_congr_right fun hcard => ?_
  rw [nodup_subset_grid_iff (hcard.trans (length_gridCells points).symm)]
  simp only [mem_gridCells_iff, mem_gridOf]
  constructor
  · intro h i hi j hj
    exact h (i, j) ⟨by simp, by simpa using hi, by simp, by simpa using hj⟩
  · rintro h ⟨i, j⟩ ⟨hi0, hi, hj0, hj⟩
    lift i to Nat using hi0
    lift j to Nat using hj0
    exact h i (by simpa using hi) j (by simpa using hj)

/-- On a full grid a point's cell is a cell of the table. -/
theorem fullGrid_cell {points : List Cplx} (h : fullGrid points = true) {k : Nat} (hk : k < points.length) :
    (gridCells points).getD k (0, 0) ∈ gridOf (realAxis points).length (imagAxis points).length := by
  obtain ⟨_, _, hin⟩ := fullGrid_iff.mp h
  exact hin _ (gridCells_getD_mem hk)

/-- On a full grid the first point in the cell of point `k` is `k`. -/
theorem fullGrid_idxOf {points : List Cplx} (h : fullGrid points = true) {k : Nat} (hk : k < points.length) :
    (gridCells points).idxOf ((gridCells points).getD k (0, 0)) = k := by
  obtain ⟨_, hnodup, _⟩ := fullGrid_iff.mp h
  rw [← length_gridCells] at hk
  rw [List.getD_eq_getElem _ _ hk, hnodup.idxOf_getElem]

theorem qamTable_getD (b : Build) (c : Cfg) {i j : Nat} (hi : i < (realAxis c.symbols).length)
    (hj : j < (imagAxis c.symbols).length) :
    ((qamTable b c).table.getD i []).getD j (Cplx.zero, 0) =
      (c.symbols.getD (cellIndex (gridCells c.symbols) i j) Cplx.zero, cellIndex (gridCells c.symbols) i j) := by
  simp [qamTable, List.getD_eq_getElem?_getD, hi, hj]

/-- On a full grid each point stands in its cell, with its index (40 R121). -/
theorem qamTable_cell (b : Build) {c : Cfg} (h : fullGrid c.symbols = true) {k : Nat} (hk : k < c.symbols.length) :
    ((qamTable b c).table.getD ((gridCells c.symbols).getD k (0, 0)).1.toNat []).getD
      ((gridCells c.symbols).getD k (0, 0)).2.toNat (Cplx.zero, 0) = (c.symbols.getD k Cplx.zero, k) := by
  have hindex := fullGrid_idxOf h hk
  obtain ⟨hi0, hi, hj0, hj⟩ := mem_gridOf.mp (fullGrid_cell h hk)
  generalize (gridCells c.symbols).getD k (0, 0) = ij at hindex hi0 hi hj0 hj ⊢
  have hcell : cellIndex (gridCells c.symbols) ij.1.toNat ij.2.toNat = k := by
    rw [cellIndex, Int.toNat_of_nonneg hi0, Int.toNat_of_nonneg hj0, hindex]
  rw [qamTable_getD b c (by omega) (by omega), hcell]

/-! ## The decision of a point -/

/-- In the reference semantics a symbol's place on an axis is the rounded exact coordinate (40 R123). -/
theorem qamDecide_reference {b : Build} (hb : b.num = .reference) (t : QamTable) (z : Cplx) : qamDecide b t z =
    (t.table.getD (clampIndex ((z.re.minus t.bias.re).times t.realFactor).roundEven t.realMax) []).getD
      (clampIndex ((z.im.minus t.bias.im).times t.imagFactor).roundEven t.imagMax) (Cplx.zero, 0) := by
  have hcalc : (symbolCalc b t z).num = .reference := hb
  simp only [qamDecide, numValue_reference _ _ _ _ hcalc]

/-- A clamp leaves a place that is in the table. -/
theorem clampIndex_of_lt {v : Int} {n : Nat} (h0 : 0 ≤ v) (h : v < n) : clampIndex v (n - 1) = v.toNat := by
  unfold clampIndex
  omega

/-- In the reference semantics a point is decided as itself (40 R123). -/
theorem qamDecide_point {b : Build} {c : Cfg} (hb : b.num = .reference) (h : fullGrid c.symbols = true) {k : Nat}
    (hk : k < c.symbols.length) :
    qamDecide b (qamTable b c) (c.symbols.getD k Cplx.zero) = (c.symbols.getD k Cplx.zero, k) := by
  have htable := qamTable_cell b h hk
  obtain ⟨hi0, hi, hj0, hj⟩ := mem_gridOf.mp (fullGrid_cell h hk)
  rw [gridCells_getD hk] at htable hi0 hi hj0 hj
  rw [← clampIndex_of_lt hi0 hi, ← clampIndex_of_lt hj0 hj] at htable
  have hfit : (c.calc b).num = .reference := hb
  have hreal : (qamTable b c).realFactor = axisFactor (realAxis c.symbols) := storedFactor_reference hfit 0 _
  have himag : (qamTable b c).imagFactor = axisFactor (imagAxis c.symbols) := storedFactor_reference hfit 1 _
  rw [qamDecide_reference hb, hreal, himag]
  exact htable

/-- The factor of an axis with more than one coordinate and the places it gives, as R26 writes them. -/
theorem axisOf_storedFactor (run : Calc) (n : Nat) (coord : Cplx → ExactReal) {points : List Cplx} (h : points ≠ [])
    (hmany : 1 < (points.map fun z => (coord z).val).toFinset.card) :
    ∃ x, storedFactor run n (axisOf coord points) = numValue run .qamFactor n x ∧
      (∃ top ∈ points, (∀ z ∈ points, (coord z).val ≤ (coord top).val) ∧
        x.val = (((points.map fun z => (coord z).val).toFinset.card : ℝ) - 1) /
          ((coord top).val - ((axisOf coord points).headD (.rat 0)).val)) ∧
      ∀ z, gridPlace (axisOf coord points) z =
        ((z.minus ((axisOf coord points).headD (.rat 0))).times x).roundEven := by
  rw [← length_axisOf] at hmany
  obtain ⟨top, htop, hgreatest, hval⟩ := axisOf_factor coord h hmany
  refine ⟨axisFactor (axisOf coord points), if_pos hmany, ⟨top, htop, hgreatest, ?_⟩, fun z => rfl⟩
  rw [hval, length_axisOf]

/-- Settles O22: the two axes are fitted alike, and the rest is the grid condition. -/
theorem qamTableFit : Obligations.QamTableFit := by
  unfold Obligations.QamTableFit
  refine ⟨fun b c hne => ?fit, fun b c k hb h hk => qamDecide_point hb h hk⟩
  case fit =>
    have hnr : (realAxis c.symbols).length = _ := length_axisOf (·.re) c.symbols
    have hni : (imagAxis c.symbols).length = _ := length_axisOf (·.im) c.symbols
    obtain ⟨hre, hreLeast⟩ := axisOf_bias (·.re) hne
    obtain ⟨him, himLeast⟩ := axisOf_bias (·.im) hne
    have hgrid := fullGrid_iff_all_hit (points := c.symbols)
    rw [hnr, hni] at hgrid
    refine ⟨⟨fun z hz => ⟨hreLeast z hz, himLeast z hz⟩, hre, him⟩, fun hone => if_neg (hnr ▸ hone.not_gt),
      fun hone => if_neg (hni ▸ hone.not_gt), fun hmany => ?real, fun hmany => ?imag, congrArg (· - 1) hnr,
      congrArg (· - 1) hni, hgrid, fun h k hk => qamTable_cell b h hk⟩
    case real =>
      obtain ⟨x, hx, htop, hplace⟩ := axisOf_storedFactor (c.calc b) 0 (·.re) hne hmany
      exact ⟨x, hx, htop, fun k hk => (congrArg Prod.fst (gridCells_getD hk)).trans (hplace _)⟩
    case imag =>
      obtain ⟨x, hx, htop, hplace⟩ := axisOf_storedFactor (c.calc b) 1 (·.im) hne hmany
      exact ⟨x, hx, htop, fun k hk => (congrArg Prod.snd (gridCells_getD hk)).trans (hplace _)⟩

end Sys2Proof.Machine
end

section
/-!
A step that takes a command ends in one of three ways, and each emits one record (spec/20 R63, R65; spec/60 R365, R368).
-/

namespace Sys2Proof.Machine

/-- A step that takes a command turns it away, faults, or completes what its word decodes to. -/
theorem step_takes_command {s t : State} {cmd : Command} {rest : List Command} (hq : s.cmdq = cmd :: rest)
    (h : step s = .next t) :
    (s.mode = .faulted ∧ t = (s.accept cmd rest).turnedAway) ∨
    (∃ code info, t = (s.accept cmd rest).failed code info) ∨
    ∃ i d, decode cmd.word = .ok i ∧ Ends i (s.accept cmd rest) d ∧ t = d.commit := by
  simp only [step, hq] at h
  split at h
  · unfold illegalWord at h
    split at h <;> rename_i hm <;> cases h
    · exact .inl ⟨hm, completeFaulted_eq _⟩
    · exact .inr (.inl ⟨_, _, enterFault_eq _ _⟩)
  · rename_i i hi
    rcases exec_next i _ t h with ⟨hm, _, ht⟩ | ⟨_, code, info, _, ht⟩ | ⟨d, hd, _, _, ht⟩
    · exact .inl ⟨hm, ht⟩
    · exact .inr (.inl ⟨code, info, ht⟩)
    · exact .inr (.inr ⟨i, d, hi, hd, ht⟩)

/-- A command that completes outside `FAULTED` does not enter it. -/
theorem Ends.not_faulted {i : Instr} {s : State} {d : Done} (h : Ends i s d) (hm : s.mode ≠ .faulted) :
    d.state.mode ≠ .faulted := by
  rcases h.mode i s d with ⟨_, hr⟩ | ⟨_, hu⟩ | ⟨_, _, hs, _⟩
  · rw [hr]; decide
  · rw [hu]; decide
  · rwa [hs]

/-- Settles O10: a turned-away command emits `(4, 0, 0)`, a fault `(code, 0, 0)`, and a command that completes the
record of its `Done` with code 0. -/
theorem oneRecordPerCommand : Obligations.OneRecordPerCommand := by
  unfold Obligations.OneRecordPerCommand
  intro s t cmd rest hq h
  rcases step_takes_command hq h with ⟨hm, rfl⟩ | ⟨code, info, rfl⟩ | ⟨i, d, hi, hd, rfl⟩
  case inl =>
    exact ⟨rfl, ⟨4, false, 0⟩, [], rfl, (List.append_nil _).symm, fun _ => ⟨rfl, rfl, rfl⟩, nofun,
      fun _ hs => absurd hm hs⟩
  case inr.inl =>
    exact ⟨rfl, ⟨code, false, 0⟩, [], rfl, (List.append_nil _).symm, fun _ => ⟨rfl, rfl, rfl⟩, nofun, fun _ _ => rfl⟩
  case inr.inr =>
    obtain ⟨hcmdq, hresq, hrecords, _, heos⟩ := hd.streams i _ d
    refine ⟨hcmdq, ⟨0, d.eos, d.count⟩, d.results, congrArg (· ++ [_]) hrecords, congrArg (· ++ d.results) hresq,
      fun hcode => absurd rfl hcode, fun he => ?_, fun ht hs => absurd ht (hd.not_faulted hs)⟩
    rcases heos he with rfl | ⟨n, rfl⟩
    · exact .inl hi
    · exact .inr ⟨n, hi⟩

end Sys2Proof.Machine
end

section
/-!
Operand lists that do not fit: each pop of a command's pseudocode takes one type off the list of types it expects, and
the first element that is missing, of a wrong type or surplus is the one that is reported (spec/20 R62, spec/60 R362).
-/

namespace Sys2Proof.Machine

/-! ## Reading an element of a type -/

/-- `read` is `pop(OPQ, T)` of an element that `mk` writes: it succeeds on what `T` accepts. -/
structure Reads {α : Type} (T : ElemType) (read : Elem → Option α) (mk : α → Elem) : Prop where
  accepts : ∀ e, T.accepts e = (read e).isSome
  read_mk : ∀ a, read (mk a) = some a
  eq_mk : ∀ e a, read e = some a → e = mk a

theorem reads_nat : Reads .nat Elem.asNat .nat :=
  ⟨accepts_nat, asNat_nat, fun e a h => by cases e <;> cases h; rfl⟩

theorem reads_bit : Reads .bit Elem.asBit .bit :=
  ⟨accepts_bit, asBit_bit, fun e a h => by cases e <;> cases h; rfl⟩

theorem reads_u8 : Reads .u8 Elem.asByte .u8 :=
  ⟨accepts_u8, asByte_u8, fun e a h => by cases e <;> cases h; rfl⟩

theorem reads_r : Reads .r Elem.asReal Elem.real :=
  ⟨accepts_r, asReal_real, fun e a h => by
    cases e with
    | r v => cases v <;> cases h; rfl
    | _ => cases h⟩

theorem reads_c : Reads .c Elem.asCplx Elem.cplx :=
  ⟨accepts_c, asCplx_cplx, fun e a h => by
    cases e with
    | c re im => cases re <;> cases im <;> cases h; rfl
    | _ => cases h⟩

/-! ## The first offending element -/

/-- On a list that does not fit the types, the computation raises `BadOperands` at the first offending element. -/
def RejectsMisfit {α : Type} (types : List ElemType) (c : Cursor) (x : Except Raise α) : Prop :=
  fits types c.rest = false → x = .error (badOperands (c.pos + firstBad types c.rest))

section

variable {α β : Type} {T : ElemType} {read : Elem → Option α} {mk : α → Elem} {types : List ElemType} {c : Cursor}

/-- The last check of R366: an element is left over. -/
theorem RejectsMisfit.noneLeft {f : Unit → Except Raise β} : RejectsMisfit [] c (noneLeft c >>= f) := by
  obtain ⟨p, ops⟩ := c
  cases ops with
  | nil => exact nofun
  | cons e ops => exact fun _ => rfl

/-- A pop takes the first type off the list. -/
theorem RejectsMisfit.popAs {f : α × Cursor → Except Raise β} (hread : Reads T read mk)
    (hf : ∀ a c', c.rest = mk a :: c'.rest → RejectsMisfit types c' (f (a, c'))) :
    RejectsMisfit (T :: types) c (popAs read c >>= f) := by
  obtain ⟨p, ops⟩ := c
  cases ops with
  | nil => exact fun _ => rfl
  | cons e ops =>
    intro hfits
    simp only [fits, firstBad, hread.accepts] at hfits ⊢
    cases he : read e with
    | none => rw [popAs_none read p e ops he]; rfl
    | some a =>
      rw [popAs_some read p e ops a he]
      rw [he] at hfits
      refine (hf a ⟨p + 1, ops⟩ (by rw [hread.eq_mk e a he]) hfits).trans ?_
      simp only [Option.isSome_some, if_true]
      rw [Nat.add_assoc, Nat.add_comm 1]

/-- A row of pops is a pop and a shorter row. -/
theorem popMany_succ_bind (read : Elem → Option α) (n : Nat) (c : Cursor) (f : List α × Cursor → Except Raise β) :
    (popMany read (n + 1) c >>= f) =
      popAs read c >>= fun first => popMany read n first.2 >>= fun others => f (first.1 :: others.1, others.2) := by
  simp only [popMany]
  cases Machine.popAs read c with
  | error e => rfl
  | ok first =>
    dsimp only [Bind.bind, Except.bind]
    cases popMany read n first.2 <;> rfl

/-- A row of pops takes its types off the list. -/
theorem RejectsMisfit.popMany (hread : Reads T read mk) (n : Nat) :
    ∀ {c : Cursor} {f : List α × Cursor → Except Raise β},
    (∀ as c', as.length = n → c.rest = as.map mk ++ c'.rest → RejectsMisfit types c' (f (as, c'))) →
    RejectsMisfit (List.replicate n T ++ types) c (popMany read n c >>= f) := by
  induction n with
  | zero => exact fun hf => hf [] _ rfl rfl
  | succ n ih =>
    intro c f hf
    rw [popMany_succ_bind]
    refine .popAs hread fun a c' hc => ih fun as c'' hl hc' => hf (a :: as) c'' (congrArg (· + 1) hl) ?_
    rw [hc, hc']
    rfl

/-- A row of pops for the whole of the list. -/
theorem RejectsMisfit.popAll {n : Nat} {f : List α × Cursor → Except Raise β} (hread : Reads T read mk)
    (hf : ∀ as c', as.length = n → c.rest = as.map mk ++ c'.rest → RejectsMisfit [] c' (f (as, c'))) :
    RejectsMisfit (List.replicate n T) c (Machine.popMany read n c >>= f) := by
  rw [← List.append_nil (List.replicate n T)]
  exact .popMany hread n hf

/-- A computation that succeeds and pops nothing. -/
theorem RejectsMisfit.after {γ : Type} {x : Except Raise γ} {a : γ} {f : γ → Except Raise β} (hx : x = .ok a)
    (hf : RejectsMisfit types c (f a)) : RejectsMisfit types c (x >>= f) := by
  rw [hx]
  exact hf

/-- A check that passes. -/
theorem RejectsMisfit.raiseIf {bad : Prop} [Decidable bad] {k : FaultKind} {info : Nat} {f : Unit → Except Raise β}
    (h : ¬ bad) (hf : RejectsMisfit types c (f ())) : RejectsMisfit types c (raiseIf bad k info >>= f) :=
  .after (raiseIf_false k info h) hf

end

/-! ## Commands that may run -/

/-- The two writings of R99 agree. -/
theorem needsConfig_eq (i : Instr) : needsConfig i = !runsUnconfigured i := by
  cases i with
  | toneCoh pilot n => cases pilot <;> simp [needsConfig, runsUnconfigured, encode, selBit]
  | _ => simp [needsConfig, runsUnconfigured, encode]

theorem Accepted.modeAllows {s : State} {i : Instr} (h : Accepted s i) : modeAllows i s.mode = true := by
  obtain ⟨_, ⟨hm, hi⟩ | ⟨hm, hi⟩⟩ := h
  · rw [hm]; exact decide_eq_true hi
  · rw [hm]
    show runsUnconfigured i = true
    simpa [needsConfig_eq] using hi

theorem Accepted.not_faulted {s : State} {i : Instr} (h : Accepted s i) : s.mode ≠ .faulted := by
  obtain ⟨_, ⟨hm, _⟩ | ⟨hm, _⟩⟩ := h <;> rw [hm] <;> decide

/-- An accepted command whose body raises `BadOperands`. -/
theorem runCommand_badOperands {i : Instr} {s : State} {body : Except Raise Done} {n : Nat} (h : Accepted s i)
    (hb : body = .error (badOperands n)) : runCommand i s body = .next (s.failed 2 n) := by
  rw [hb]
  exact runCommand_error i s _ h.1 h.modeAllows

/-- An accepted command whose body rejects a misfit faults at the first offending element. -/
theorem RejectsMisfit.runCommand {i : Instr} {s : State} {body : Except Raise Done} {types : List ElemType}
    (hb : RejectsMisfit types (Cursor.start s.opq) body) (h : Accepted s i) (hfits : fits types s.opq = false) :
    Machine.runCommand i s body = .next (s.failed 2 (firstBad types s.opq)) :=
  runCommand_badOperands h ((hb hfits).trans (by rw [Cursor.start, Nat.zero_add]))

theorem attached_iff {s : State} {c : Ctx} : s.attached c = true ↔ Attached s c := by
  simp [State.attached, Attached]

/-! ## The position check of `RSD.DEC` -/

/-- A legal erasure list passes the position check (R266). -/
theorem firstBadPosition_none (es : List Nat) : ∀ (before : List Nat) (i : Nat), es.Nodup → (∀ p ∈ es, p < 255) →
    (∀ p ∈ es, p ∉ before) → firstBadPosition before es i = none := by
  induction es with
  | nil => exact fun _ _ _ _ _ => rfl
  | cons p es ih =>
    intro before i hnodup hlt hnew
    obtain ⟨hp, hnodup⟩ := List.nodup_cons.mp hnodup
    have hgood : ¬ (255 ≤ p ∨ p ∈ before) := fun h =>
      h.elim (hlt p (List.mem_cons_self ..)).not_ge (hnew p (List.mem_cons_self ..))
    rw [firstBadPosition, if_neg hgood]
    refine ih _ _ hnodup (fun q hq => hlt q (List.mem_cons_of_mem _ hq)) fun q hq hmem => ?_
    rcases List.mem_append.mp hmem with hmem | hmem
    · exact hnew q (List.mem_cons_of_mem _ hq) hmem
    · exact hp (List.mem_singleton.mp hmem ▸ hq)

theorem checkPositions_ok {es : List Nat} (h : ErasureList es) : checkPositions es = .ok () := by
  rw [checkPositions, firstBadPosition_none es [] 0 h.1 h.2 fun _ _ => List.not_mem_nil]

theorem decodeOrFail_ok {nsym : Nat} {r : List Byte} {es : List Nat} (h : rsDecode nsym r es ≠ none) :
    ∃ c, decodeOrFail nsym r es = .ok c := by
  obtain ⟨c, hc⟩ := Option.ne_none_iff_exists'.mp h
  exact ⟨c, by rw [decodeOrFail, hc]⟩

/-! ## The commands with operands -/

/-- The frequency operand of `TONE.COH` (R163). -/
theorem toneFreq_operand_bind {β : Type} (s : State) (c : Cursor) (f : ToneFreq × Cursor → Except Raise β) :
    (toneFreq false s c >>= f) = popAs Elem.asReal c >>= fun r => f (.radians r.1, r.2) := by
  simp only [toneFreq]
  cases popAs Elem.asReal c <;> rfl

/-- A passing range check of `RSMP.WR` (R216). -/
theorem writeReg_ok {reg : WrReg} {s : State} {v : ExactReal} {surplus : List Elem} (h : PassesGuards s (.rsmpWr reg))
    (hops : s.opq = Elem.real v :: surplus) : ∃ rs, writeReg reg v s.rs = .ok rs := by
  cases reg with
  | freq => exact ⟨_, if_pos (v.positive_iff.mpr (h.2 v surplus hops))⟩
  | offset => exact ⟨_, if_neg fun hn => (h.2 v surplus hops).not_gt (v.negative_iff.mp hn)⟩

theorem created_of_passesGuards {reg : WrReg} {s : State} (h : PassesGuards s (.rsmpWr reg)) : s.rs.created = true := by
  cases reg with
  | freq => exact h.1
  | offset => exact h.1

/-- `IIR.LOAD` checks `a0` between its sixth pop and the surplus check (R147). -/
theorem exec_iirLoad_misfit {s : State} (ha : Accepted s .iirLoad) (hg : PassesGuards s .iirLoad)
    (hfits : fits (List.replicate 6 .r) s.opq = false) :
    exec .iirLoad s = .next (s.failed 2 (firstBad (List.replicate 6 .r) s.opq)) := by
  refine RejectsMisfit.runCommand (.popAs reads_r fun b0 _ h0 => .popAs reads_r fun b1 _ h1 =>
    .popAs reads_r fun b2 _ h2 => .popAs reads_r fun a0 _ h3 => .popAs reads_r fun a1 _ h4 =>
    .popAs reads_r fun a2 c' h5 => .raiseIf ?_ .noneLeft) ha hfits
  have hops : s.opq = [b0, b1, b2, a0, a1, a2].map Elem.real ++ c'.rest :=
    h0.trans (by rw [h1, h2, h3, h4, h5]; rfl)
  exact fun hz => hg b0 b1 b2 a0 a1 a2 _ hops (a0.isZero_iff.mp hz)

/-- `TONE.COH` pops its frequency as one more real, unless `pilot` takes it from the configuration (R163). -/
theorem exec_toneCoh_misfit {s : State} {pilot : Bool} {n : Count} (ha : Accepted s (.toneCoh pilot n))
    (hn : n.toNat ≠ 0) (hfits : fits (List.replicate (if pilot then n.toNat else n.toNat + 1) .r) s.opq = false) :
    exec (.toneCoh pilot n) s =
      .next (s.failed 2 (firstBad (List.replicate (if pilot then n.toNat else n.toNat + 1) .r) s.opq)) := by
  refine RejectsMisfit.runCommand (.raiseIf hn ?_) ha hfits
  cases pilot with
  | true => exact .popAll reads_r fun _ _ _ _ => .noneLeft
  | false =>
    rw [toneFreq_operand_bind]
    exact .popAs reads_r fun _ _ _ => .popAll reads_r fun _ _ _ _ => .noneLeft

/-- `LSQ.SOLVE` pops two lengths, checks them and pops as many reals (R177). -/
theorem exec_lsqSolve_misfit {s : State} {order lookahead : BitVec 10} {types : List ElemType}
    (hT : operandTypes s (.lsqSolve order lookahead) = some types) (ha : Accepted s (.lsqSolve order lookahead))
    (hg : PassesGuards s (.lsqSolve order lookahead)) (hfits : fits types s.opq = false) :
    exec (.lsqSolve order lookahead) s = .next (s.failed 2 (firstBad types s.opq)) := by
  obtain ⟨horder, hcap, hlengths⟩ := hg
  refine RejectsMisfit.runCommand (.raiseIf (by omega) ?_) ha hfits
  unfold operandTypes at hT
  dsimp only at hT
  split at hT <;> cases hT
  case h_1 ls le rest hops =>
    obtain ⟨hle, hls⟩ := hlengths ls le rest hops
    refine .popAs reads_nat fun a _ h0 => .popAs reads_nat fun b _ h1 => ?_
    obtain ⟨rfl, rfl⟩ : ls = a ∧ le = b := by
      have hcons := hops.symm.trans (h0.trans (congrArg (Elem.nat a :: ·) h1))
      simp only [List.cons.injEq, Elem.nat.injEq] at hcons
      exact ⟨hcons.1, hcons.2.1⟩
    rw [List.replicate_add]
    exact .raiseIf (by omega) (.raiseIf (by omega) (.popMany reads_r ls fun _ _ _ _ =>
      .popAll reads_r fun _ _ _ _ => .noneLeft))
  case h_2 hnot =>
    exact .popAs reads_nat fun a _ h0 => .popAs reads_nat fun b _ h1 =>
      (hnot a b _ (h0.trans (congrArg (Elem.nat a :: ·) h1))).elim

/-- `RSD.DEC` checks the positions and decodes between its last pop and the surplus check (R266). -/
theorem exec_rsdDec_misfit {s : State} {ne : Count} (ha : Accepted s (.rsdDec ne)) (hg : PassesGuards s (.rsdDec ne))
    (hfits : fits (List.replicate 255 .u8 ++ List.replicate ne.toNat .nat) s.opq = false) :
    exec (.rsdDec ne) s =
      .next (s.failed 2 (firstBad (List.replicate 255 .u8 ++ List.replicate ne.toNat .nat) s.opq)) := by
  refine RejectsMisfit.runCommand (.popMany reads_u8 255 fun r _ hr h0 => .popAll reads_nat fun es c' hes h1 => ?_)
    ha hfits
  have hops : s.opq = r.map Elem.u8 ++ es.map Elem.nat ++ c'.rest := h0.trans (by rw [h1, List.append_assoc])
  obtain ⟨hpositions, hdecode⟩ := hg r es _ hops hr hes
  obtain ⟨_, hword⟩ := decodeOrFail_ok hdecode
  exact .after (checkPositions_ok hpositions) (.after hword .noneLeft)

/-- An accepted command that takes operands and whose value checks pass faults at the first offending element. -/
theorem exec_misfit {i : Instr} {s : State} {types : List ElemType} (hT : operandTypes s i = some types)
    (ha : Accepted s i) (hg : PassesGuards s i) (hfits : fits types s.opq = false) :
    exec i s = .next (s.failed 2 (firstBad types s.opq)) := by
  cases i with
  | iirLoad => cases hT; exact exec_iirLoad_misfit ha hg hfits
  | toneCoh pilot n => cases hT; exact exec_toneCoh_misfit ha hg hfits
  | lsqSolve order lookahead => exact exec_lsqSolve_misfit hT ha hg hfits
  | rsdDec ne => cases hT; exact exec_rsdDec_misfit ha hg hfits
  | firLoad c n =>
    cases hT
    obtain ⟨hpos, hcap, hfree⟩ := hg
    exact RejectsMisfit.runCommand (.raiseIf (by omega) (.raiseIf (mt attached_iff.mp hfree)
      (.popAll reads_r fun _ _ _ _ => .noneLeft))) ha hfits
  | firRun c n =>
    cases hT
    obtain ⟨hloaded, hfree⟩ := hg
    exact RejectsMisfit.runCommand (.raiseIf hloaded (.raiseIf (mt attached_iff.mp hfree)
      (.popAll reads_r fun _ _ _ _ => .noneLeft))) ha hfits
  | iirRun n =>
    cases hT
    exact RejectsMisfit.runCommand (.raiseIf (ne_false_of_eq_true hg) (.popAll reads_r fun _ _ _ _ => .noneLeft))
      ha hfits
  | rsmpWr reg =>
    cases hT
    refine RejectsMisfit.runCommand (.raiseIf (ne_false_of_eq_true (created_of_passesGuards hg))
      (.popAs reads_r fun v _ hops => ?_)) ha hfits
    obtain ⟨_, hrange⟩ := writeReg_ok hg hops
    exact .after hrange .noneLeft
  | demodBlock direct =>
    cases direct with
    | true => cases hT; exact RejectsMisfit.runCommand (.popAll reads_r fun _ _ _ _ => .noneLeft) ha hfits
    | false => cases hT
  | qamMap n => cases hT; exact RejectsMisfit.runCommand (.popAll reads_bit fun _ _ _ _ => .noneLeft) ha hfits
  | qamDemap report n => cases hT; exact RejectsMisfit.runCommand (.popAll reads_c fun _ _ _ _ => .noneLeft) ha hfits
  | modBlock => cases hT; exact RejectsMisfit.runCommand (.popAll reads_c fun _ _ _ _ => .noneLeft) ha hfits
  | modPilot => cases hT; exact RejectsMisfit.runCommand (.popAs reads_c fun _ _ _ => .noneLeft) ha hfits
  | rseEnc => cases hT; exact RejectsMisfit.runCommand (.popAll reads_u8 fun _ _ _ _ => .noneLeft) ha hfits
  | crcUpdate n => cases hT; exact RejectsMisfit.runCommand (.popAll reads_u8 fun _ _ _ _ => .noneLeft) ha hfits
  | _ => cases hT

/-! ## The commands without operands -/

/-- An accepted command without operands faults at the first of any it is given (R366 (4)). -/
theorem exec_surplus {i : Instr} {s : State} (hi : takesNone i = true) (ha : Accepted s i) (hops : s.opq ≠ []) :
    exec i s = .next (s.failed 2 0) := by
  have refuses (f : Unit → Except Raise Done) : runCommand i s (noOperands s >>= f) = .next (s.failed 2 0) :=
    runCommand_badOperands ha (by rw [noOperands_some s hops]; rfl)
  cases i with
  | sysNop => exact refuses _
  | sysStatus =>
    show execSysStatus s = _
    rw [execSysStatus, if_neg ha.not_faulted]
    exact refuses _
  | demodBlock direct =>
    cases direct with
    | true => cases hi
    | false => exact refuses _
  | rsmpInit => exact refuses _
  | rsmpTake n => exact refuses _
  | rsmpRd reg => exact refuses _
  | rsmpAttach c => exact refuses _
  | rsmpDetach => exact refuses _
  | crcReset => exact refuses _
  | crcRead => exact refuses _
  | _ => cases hi

end Sys2Proof.Machine
end

section
/-!
A configuration record that is cut short or goes wrong at one element: the pops and checks of `SYS.CONFIG` run up to
that element, in the order written (spec/49 R301).
-/

namespace Sys2Proof.Machine

/-- What `SYS.CONFIG` raises for a record that goes wrong at element `k`, when `checks` are the checks still to come. -/
def configFault (cfg : Cfg) (k : Nat) (checks : List (Nat × Bool)) : Raise :=
  match checks.find? fun j => j.2 && decide (poppedBefore cfg j.1 ≤ k) with
  | some j => ⟨.configError, j.1⟩
  | none => badOperands k

/-- What follows in place of element `k`: nothing, or an element that the pop of `k` refuses. -/
def WrongAt (cfg : Cfg) (k : Nat) (tail : List Elem) : Prop :=
  tail = [] ∨ ∃ e rest, tail = e :: rest ∧ (configType cfg k).accepts e = false

/-- The cursor at element `p` of a record whose elements from `p` on are `record`, with `tail` in place of those from
`k` on. -/
def cutCursor (k : Nat) (tail : List Elem) (p : Nat) (record : List Elem) : Cursor := ⟨p, record.take (k - p) ++ tail⟩

section

variable {cfg : Cfg} {k : Nat} {tail : List Elem} {α β : Type} {T : ElemType} {read : Elem → Option α} {mk : α → Elem}

/-- No check to come is made before the pop of element `k`. -/
theorem configFault_none {checks : List (Nat × Bool)} (h : ∀ j ∈ checks, k < poppedBefore cfg j.1) :
    configFault cfg k checks = badOperands k := by
  have hnone : checks.find? (fun j => j.2 && decide (poppedBefore cfg j.1 ≤ k)) = none :=
    List.find?_eq_none.mpr fun j hj => by simp [(h j hj).not_ge]
  rw [configFault, hnone]

/-- The next check, made before the pop of element `k`. -/
theorem configCheck_cut {bad : Prop} [Decidable bad] {number : Nat} {fails : Bool} {checks : List (Nat × Bool)}
    {f : Unit → Except Raise β} (hfails : fails = true ↔ bad) (hp : poppedBefore cfg number ≤ k)
    (hf : f () = .error (configFault cfg k checks)) :
    (configCheck bad number >>= f) = .error (configFault cfg k ((number, fails) :: checks)) := by
  by_cases hb : bad
  · rw [configCheck, raiseIf_true _ _ hb, configFault, List.find?_cons_of_pos (by simp [hfails.mpr hb, hp])]
    rfl
  · have hfalse : fails = false := Bool.eq_false_iff.mpr (mt hfails.mp hb)
    rw [configCheck, raiseIf_false _ _ hb, configFault, List.find?_cons_of_neg (by simp [hfalse])]
    exact hf

/-- The next pop: of element `k`, which is missing or wrong, or of one before it. -/
theorem popAs_cut {p : Nat} {a : α} {record : List Elem} {checks : List (Nat × Bool)}
    {f : α × Cursor → Except Raise β} (hread : Reads T read mk) (htail : WrongAt cfg k tail) (hp : p ≤ k)
    (hT : configType cfg p = T) (hchecks : ∀ j ∈ checks, p < poppedBefore cfg j.1)
    (hf : p < k → f (a, cutCursor k tail (p + 1) record) = .error (configFault cfg k checks)) :
    (popAs read (cutCursor k tail p (mk a :: record)) >>= f) = .error (configFault cfg k checks) := by
  rcases hp.eq_or_lt with rfl | hlt
  · rw [configFault_none hchecks, cutCursor, Nat.sub_self, List.take_zero, List.nil_append]
    rcases htail with rfl | ⟨e, rest, rfl, he⟩
    · rfl
    · rw [hT, hread.accepts, Option.isSome_eq_false_iff, Option.isNone_iff_eq_none] at he
      rw [popAs_none read p e rest he]
      rfl
  · rw [cutCursor, show k - p = k - (p + 1) + 1 by omega, List.take_succ_cons, List.cons_append,
      popAs_some read p _ _ a (hread.read_mk a)]
    exact hf hlt

/-- The next row of pops: element `k` is one of them or comes behind. -/
theorem popMany_cut {record : List Elem} {checks : List (Nat × Bool)} (hread : Reads T read mk)
    (htail : WrongAt cfg k tail) (as : List α) : ∀ {n p : Nat} {f : List α × Cursor → Except Raise β},
    as.length = n → p ≤ k →
    (∀ q, p ≤ q → q < p + n → configType cfg q = T) → (∀ j ∈ checks, p + n ≤ poppedBefore cfg j.1) →
    (p + n ≤ k → f (as, cutCursor k tail (p + n) record) = .error (configFault cfg k checks)) →
    (popMany read n (cutCursor k tail p (as.map mk ++ record)) >>= f) = .error (configFault cfg k checks) := by
  induction as with
  | nil =>
    rintro n p f rfl hp _ _ hf
    exact hf hp
  | cons a as ih =>
    rintro n p f rfl hp hT hchecks hf
    have hlen : p + (a :: as).length = p + 1 + as.length := by simp only [List.length_cons]; omega
    rw [hlen] at hT hchecks hf
    rw [List.length_cons, popMany_succ_bind]
    exact popAs_cut hread htail hp (hT p le_rfl (by omega)) (fun j hj => by have := hchecks j hj; omega) fun h =>
      ih rfl h (fun q hq => hT q (by omega)) hchecks hf

end

/-- The pops and checks of `SYS.CONFIG` on a record that goes wrong at element `k` (R301). -/
theorem parseConfig_cut {b : Build} {cfg : Cfg} {k : Nat} {tail : List Elem} (hmult : cfg.mult.length = cfg.nFreq)
    (hsymbols : cfg.symbols.length = 2 ^ cfg.bitsPerSymbol) (hk : k < (configRecord cfg).length)
    (htail : WrongAt cfg k tail) :
    parseConfig b ((configRecord cfg).take k ++ tail) = .error (configFault cfg k (configChecks b cfg)) := by
  have hlen : (configRecord cfg).length = 8 + cfg.nFreq + 2 ^ cfg.bitsPerSymbol := by
    simp [configRecord, hmult, hsymbols]; omega
  rw [hlen] at hk
  have hnat {q : Nat} (h : q < 5 + cfg.nFreq ∨ 5 + cfg.nFreq + 2 ^ cfg.bitsPerSymbol ≤ q) : configType cfg q = .nat :=
    if_neg (by omega)
  have hstart : Cursor.start ((configRecord cfg).take k ++ tail) = cutCursor k tail 0 (configRecord cfg) := rfl
  rw [parseConfig, hstart, configChecks]
  simp only [configRecord, List.append_assoc, List.cons_append, List.nil_append]
  refine popAs_cut reads_nat htail k.zero_le (hnat (by omega)) (by simp [poppedBefore]) fun hfs => ?_
  refine configCheck_cut decide_eq_true_iff (by simp only [poppedBefore]; omega) ?_
  refine popAs_cut reads_nat htail hfs (hnat (by omega)) (by simp [poppedBefore]; omega) fun hnSym => ?_
  refine configCheck_cut decide_eq_true_iff (by simp only [poppedBefore]; omega) ?_
  refine popAs_cut reads_nat htail hnSym (hnat (by omega)) (by simp [poppedBefore]; omega) fun hnFreq => ?_
  refine configCheck_cut decide_eq_true_iff (by simp only [poppedBefore]; omega) ?_
  refine popMany_cut (n := cfg.nFreq) reads_nat htail cfg.mult hmult hnFreq (fun q _ _ => hnat (by omega))
    (by simp [poppedBefore]; omega) fun hmults => ?_
  refine configCheck_cut (by simp) (by simp only [poppedBefore]; omega) ?_
  refine configCheck_cut decide_eq_true_iff (by simp only [poppedBefore]; omega) ?_
  refine popAs_cut reads_nat htail hmults (hnat (by omega)) (by simp [poppedBefore]; omega) fun hindex => ?_
  refine configCheck_cut decide_eq_true_iff (by simp only [poppedBefore]; omega) ?_
  refine popAs_cut reads_nat htail hindex (hnat (by omega)) (by simp [poppedBefore]; omega) fun hbps => ?_
  refine configCheck_cut decide_eq_true_iff (by simp only [poppedBefore]; omega) ?_
  refine popMany_cut (n := 2 ^ cfg.bitsPerSymbol) reads_c htail cfg.symbols hsymbols hbps
    (fun q _ _ => if_pos (by omega)) (by simp [poppedBefore]; omega) fun hpoints => ?_
  refine configCheck_cut (by simp) (by simp only [poppedBefore]; omega) ?_
  refine popAs_cut reads_nat htail hpoints (hnat (by omega)) (by simp [poppedBefore]; omega) fun hparity => ?_
  refine configCheck_cut decide_eq_true_iff (by simp only [poppedBefore]; omega) ?_
  refine popAs_cut reads_nat htail hparity (hnat (by omega)) (by simp [poppedBefore]; omega) fun hresolution => ?_
  refine configCheck_cut decide_eq_true_iff (by simp only [poppedBefore]; omega) ?_
  exact popAs_cut reads_nat htail hresolution (hnat (by omega)) (by simp [poppedBefore]; omega) fun hwidth =>
    absurd hk (by omega)

/-- Settles O53: each pop takes its type off the list until the first offending element, a command without operands
refuses any, and a record of `SYS.CONFIG` is popped and checked up to the element where it goes wrong. -/
theorem operandListsMustFit : Obligations.OperandListsMustFit := by
  unfold Obligations.OperandListsMustFit
  refine ⟨fun i s types hT ha hg hfits => exec_misfit hT ha hg hfits, fun i s hi ha hops => exec_surplus hi ha hops,
    fun s cfg k tail hm hmult hsymbols hk htail hops => ?config⟩
  case config =>
    have hparse := parseConfig_cut (b := s.build) hmult hsymbols hk htail
    have hexec : exec .sysConfig s = .next (s.failed (configFault cfg k (configChecks s.build cfg)).kind.code
        (configFault cfg k (configChecks s.build cfg)).info) := by
      show execSysConfig s = _
      rw [execSysConfig, hops, hparse]
      exact runCommand_error .sysConfig s _ rfl (by rw [hm]; rfl)
    rw [hexec, configFault, firstFailingOf]
    cases (configChecks s.build cfg).find? _ <;> rfl

end Sys2Proof.Machine
end

section
/-!
The decoder and the encoder are inverse to each other: each arm of the decoder reads the fields that its command's word
is built from (spec/30 R90 to R95).
-/

namespace Sys2Proof

/-! ## Decoding an encoding -/

theorem whenSelZero_zero (i : Instr) : whenSelZero 0#4 i = .ok i := rfl

theorem whenCountZero_zero (i : Instr) : whenCountZero 0#20 i = .ok i := rfl

theorem whenBothZero_zero (i : Instr) : whenBothZero 0#4 0#20 i = .ok i := rfl

theorem withReg_some {ρ : Type} (reg : ρ) (f : ρ → Except DecodeError Instr) :
    withReg (some reg) f = f reg := rfl

theorem withModeBit_selBit (b : Bool) (f : Bool → Except DecodeError Instr) :
    withModeBit (selBit b) f = f b := by
  cases b <;> rfl

theorem wrRegOf_sel (reg : WrReg) : wrRegOf reg.sel = some reg := by
  cases reg <;> rfl

theorem rdRegOf_sel (reg : RdReg) : rdRegOf reg.sel = some reg := by
  cases reg <;> rfl

/-- Settles O1: the fields of a command's word are the command's fields, its opcode selects its arm of the decoder, and
the checks of that arm pass. -/
theorem decodeOfEncode : Obligations.DecodeOfEncode := by
  unfold Obligations.DecodeOfEncode
  intro i
  cases i
  case firLoad | firRun => simp [encode, decode]
  case qamMap | iirRun | lsqSolve | rsmpTake | rsdDec | crcUpdate => simp [encode, decode, whenSelZero_zero]
  case rsmpAttach => simp [encode, decode, whenCountZero_zero]
  case qamDemap | toneCoh => simp [encode, decode, withModeBit_selBit]
  case demodBlock => simp [encode, decode, withModeBit_selBit, whenCountZero_zero]
  case rsmpWr => simp [encode, decode, wrRegOf_sel, withReg_some, whenCountZero_zero]
  case rsmpRd => simp [encode, decode, rdRegOf_sel, withReg_some, whenCountZero_zero]
  case sysNop | sysConfig | sysReset | sysStatus | iirLoad | rsmpInit | rsmpDetach | modBlock | modPilot | rseEnc |
      crcReset | crcRead =>
    simp [encode, decode, whenBothZero_zero]

/-! ## Encoding what was decoded -/

/-- If `x` is a command, `w` is its word. -/
def IsWordOf (w : CmdWord) (x : Except DecodeError Instr) : Prop := ∀ i, x = .ok i → encode i = w

section

variable {w : CmdWord} {i : Instr}

theorem IsWordOf.error (e : DecodeError) : IsWordOf w (.error e) := nofun

theorem IsWordOf.ok (h : encode i = w) : IsWordOf w (.ok i) := by
  intro j hj
  cases hj
  exact h

theorem IsWordOf.whenSelZero (h : selOf w = 0 → encode i = w) : IsWordOf w (whenSelZero (selOf w) i) := by
  unfold Sys2Proof.whenSelZero
  split
  · exact .ok (h ‹_›)
  · exact .error _

theorem IsWordOf.whenCountZero (h : countOf w = 0 → encode i = w) : IsWordOf w (whenCountZero (countOf w) i) := by
  unfold Sys2Proof.whenCountZero
  split
  · exact .ok (h ‹_›)
  · exact .error _

theorem IsWordOf.whenBothZero (h : selOf w = 0 → countOf w = 0 → encode i = w) :
    IsWordOf w (whenBothZero (selOf w) (countOf w) i) := by
  unfold Sys2Proof.whenBothZero
  split
  · exact .whenCountZero (h ‹_›)
  · exact .error _

theorem IsWordOf.withModeBit {f : Bool → Except DecodeError Instr}
    (h : ∀ b, selOf w = selBit b → IsWordOf w (f b)) : IsWordOf w (withModeBit (selOf w) f) := by
  unfold Sys2Proof.withModeBit
  split_ifs with h0 h1
  · exact h false h0
  · exact h true h1
  · exact .error _

theorem IsWordOf.withReg {ρ : Type} {r : Option ρ} {f : ρ → Except DecodeError Instr}
    (h : ∀ x, r = some x → IsWordOf w (f x)) : IsWordOf w (withReg r f) := by
  cases r with
  | none => exact .error _
  | some x => exact h x rfl

end

theorem sel_of_wrRegOf {sel : BitVec 4} {reg : WrReg} (h : wrRegOf sel = some reg) : sel = reg.sel := by
  revert h
  fun_cases wrRegOf sel <;> rintro ⟨⟩ <;> assumption

theorem sel_of_rdRegOf {sel : BitVec 4} {reg : RdReg} (h : rdRegOf sel = some reg) : sel = reg.sel := by
  revert h
  fun_cases rdRegOf sel <;> rintro ⟨⟩ <;> assumption

/-- A word with these fields is the word built from them. -/
theorem formatN_eq_of_fields {w : CmdWord} {u o s : BitVec 4} {n : Count} (hu : (unitOf w).toNat = u.toNat)
    (ho : (opOf w).toNat = o.toNat) (hs : selOf w = s) (hn : countOf w = n) : formatN u o s n = w := by
  rw [← BitVec.eq_of_toNat_eq hu, ← BitVec.eq_of_toNat_eq ho, ← hs, ← hn, formatN_fields]

theorem formatL_eq_of_fields {w : CmdWord} {u o s : BitVec 4} (hu : (unitOf w).toNat = u.toNat)
    (ho : (opOf w).toNat = o.toNat) (hs : selOf w = s) : formatL u o s (lookaheadOf w) (orderOf w) = w := by
  rw [← BitVec.eq_of_toNat_eq hu, ← BitVec.eq_of_toNat_eq ho, ← hs, formatL_fields]

/-- A word that decodes is the word of the command it decodes to; the cases are the arms of the decoder. -/
theorem isWordOf_decode (w : CmdWord) : IsWordOf w (decode w) := by
  unfold decode
  split
  case h_1 hu ho | h_2 hu ho | h_3 hu ho | h_4 hu ho | h_9 hu ho | h_14 hu ho | h_19 hu ho | h_20 hu ho | h_21 hu ho |
      h_22 hu ho | h_24 hu ho | h_26 hu ho =>
    exact .whenBothZero (formatN_eq_of_fields hu ho)
  case h_7 hu ho | h_8 hu ho => exact .ok (formatN_eq_of_fields hu ho rfl rfl)
  case h_5 hu ho | h_10 hu ho | h_15 hu ho | h_23 hu ho | h_25 hu ho =>
    exact .whenSelZero fun hs => formatN_eq_of_fields hu ho hs rfl
  case h_12 hu ho => exact .whenSelZero (formatL_eq_of_fields hu ho)
  case h_6 hu ho | h_11 hu ho => exact .withModeBit fun b hs => .ok (formatN_eq_of_fields hu ho hs rfl)
  case h_13 hu ho => exact .withModeBit fun b hs => .whenCountZero (formatN_eq_of_fields hu ho hs)
  case h_16 hu ho =>
    exact .withReg fun reg hr => .whenCountZero (formatN_eq_of_fields hu ho (sel_of_wrRegOf hr))
  case h_17 hu ho =>
    exact .withReg fun reg hr => .whenCountZero (formatN_eq_of_fields hu ho (sel_of_rdRegOf hr))
  case h_18 hu ho => exact .whenCountZero (formatN_eq_of_fields hu ho rfl)
  case h_27 => split <;> exact .error _

/-- A word decodes to a command exactly when it is the command's word. -/
theorem decode_eq_ok_iff {w : CmdWord} {i : Instr} : decode w = .ok i ↔ encode i = w :=
  ⟨isWordOf_decode w i, fun h => h ▸ decodeOfEncode i⟩

end Sys2Proof
end

section
/-!
The opcode table: every command's word matches the command's row, every word that a row matches is the word of a
command, and no two rows match one word (spec/30 R95, R97).
-/

namespace Sys2Proof.Laws.Table

open Sys2Proof.Machine

/-! ## A command's word matches its row -/

/-- The word of every command matches the command's row (30 R95). -/
theorem encode_matches_rowOf (i : Instr) : Statement i := by
  cases i with
  | sysNop => exact sysNop
  | sysConfig => exact sysConfig
  | sysReset => exact sysReset
  | sysStatus => exact sysStatus
  | qamMap n => exact qamMap n
  | qamDemap report n => exact qamDemap report n
  | firLoad c n => exact firLoad c n
  | firRun c n => exact firRun c n
  | iirLoad => exact iirLoad
  | iirRun n => exact iirRun n
  | toneCoh pilot n => exact toneCoh pilot n
  | lsqSolve order lookahead => exact lsqSolve order lookahead
  | demodBlock direct => exact demodBlock direct
  | rsmpInit => exact rsmpInit
  | rsmpTake n => exact rsmpTake n
  | rsmpWr reg => exact rsmpWr reg
  | rsmpRd reg => exact rsmpRd reg
  | rsmpAttach c => exact rsmpAttach c
  | rsmpDetach => exact rsmpDetach
  | modBlock => exact modBlock
  | modPilot => exact modPilot
  | rseEnc => exact rseEnc
  | rsdDec ne => exact rsdDec ne
  | crcReset => exact crcReset
  | crcUpdate n => exact crcUpdate n
  | crcRead => exact crcRead

end Sys2Proof.Laws.Table

namespace Sys2Proof.Machine

theorem exists_row_of_encode (i : Instr) : ∃ row ∈ opcodeRows, encode i &&& row.mask = row.value := by
  obtain ⟨row, hrow, hmatch, _⟩ := Laws.Table.encode_matches_rowOf i
  exact ⟨row, List.mem_of_getElem? hrow, hmatch⟩

/-! ## A word that a row matches is a command's word -/

/-- Every word that the row matches is the word of a command, which is legal in the builds in which the row is. -/
def OpcodeRow.Reads (row : OpcodeRow) : Prop :=
  ∀ w : CmdWord, w &&& row.mask = row.value → ∃ i, encode i = w ∧
    ∀ nfir, i.wellFormed nfir = (!row.context || decide ((selOf w).toNat < nfir))

/-- A row that fixes `unit` and `op`, the bits `sm` of `sel` and the bits `nm` of `n`. -/
theorem OpcodeRow.Reads.of_fields {u o sm : BitVec 4} {nm : Count} {ctx : Bool}
    (h : ∀ s n, s &&& sm = 0 → n &&& nm = 0 → ∃ i, encode i = formatN u o s n ∧
      ∀ nfir, i.wellFormed nfir = (!ctx || decide (s.toNat < nfir))) :
    Reads ⟨formatN 15 15 sm nm, formatN u o 0 0, ctx⟩ := by
  intro w hw
  dsimp only at hw
  rw [← formatN_fields w, Laws.Table.formatN_and] at hw
  have hu := congrArg unitOf hw
  have ho := congrArg opOf hw
  have hs := congrArg selOf hw
  have hn := congrArg countOf hw
  simp only [unitOf_formatN, opOf_formatN, selOf_formatN, countOf_formatN] at hu ho hs hn
  obtain ⟨i, hi, hwf⟩ := h (selOf w) (countOf w) hs hn
  refine ⟨i, hi.trans ?_, hwf⟩
  have hones : (15 : BitVec 4) = BitVec.allOnes 4 := rfl
  rw [← hu, ← ho, hones, BitVec.and_allOnes, BitVec.and_allOnes, formatN_fields]

/-- The `sel` of a row that fixes all its bits. -/
theorem sel_eq_zero {s : BitVec 4} (h : s &&& 15 = 0) : s = 0 := by
  have hones : (15 : BitVec 4) = BitVec.allOnes 4 := rfl
  rwa [hones, BitVec.and_allOnes] at h

/-- The `n` of a row that fixes all its bits. -/
theorem count_eq_zero {n : Count} (h : n &&& 0xFFFFF = 0) : n = 0 := by
  have hones : (0xFFFFF : Count) = BitVec.allOnes 20 := rfl
  rwa [hones, BitVec.and_allOnes] at h

theorem exists_selBit : ∀ s : BitVec 4, s &&& 14 = 0 → ∃ b, selBit b = s := by decide

theorem exists_wrReg (s : BitVec 4) (h : s &&& 14 = 0) : ∃ reg : WrReg, reg.sel = s := by
  obtain ⟨_ | _, rfl⟩ := exists_selBit s h
  exacts [⟨.freq, rfl⟩, ⟨.offset, rfl⟩]

theorem exists_rdReg (s : BitVec 4) (h : s &&& 12 = 0) : ∃ reg : RdReg, reg.sel = s := by
  have hsel : ∀ s : BitVec 4, s &&& 12 = 0 → s = 0 ∨ s = 1 ∨ s = 2 ∨ s = 3 := by decide
  obtain rfl | rfl | rfl | rfl := hsel s h
  exacts [⟨.freq, rfl⟩, ⟨.offset, rfl⟩, ⟨.index, rfl⟩, ⟨.eqsel, rfl⟩]

/-- A row of one word. -/
theorem OpcodeRow.Reads.word {v : CmdWord} (i : Instr) (hi : encode i = v) (hwf : ∀ nfir, i.wellFormed nfir = true) :
    Reads ⟨0xFFFFFFFF, v, false⟩ := by
  intro w hw
  have hones : (0xFFFFFFFF : CmdWord) = BitVec.allOnes 32 := rfl
  dsimp only at hw
  rw [hones, BitVec.and_allOnes] at hw
  exact ⟨i, hi.trans hw.symm, hwf⟩

/-- A row that leaves `n` free. -/
theorem OpcodeRow.Reads.counted (u o : BitVec 4) (f : Count → Instr) (hf : ∀ n, encode (f n) = formatN u o 0 n)
    (hwf : ∀ n nfir, (f n).wellFormed nfir = true) : Reads ⟨formatN 15 15 15 0, formatN u o 0 0, false⟩ :=
  .of_fields fun _ n hs _ => ⟨f n, by rw [sel_eq_zero hs, hf], hwf n⟩

section

variable {ρ : Type} {sm : BitVec 4} (u o : BitVec 4) {g : ρ → BitVec 4}

/-- A row that leaves `n` free and the bits of `sel` that write an element of `ρ`. -/
theorem OpcodeRow.Reads.selectedCounted (hg : ∀ s, s &&& sm = 0 → ∃ r, g r = s) (f : ρ → Count → Instr)
    (hf : ∀ r n, encode (f r n) = formatN u o (g r) n) (hwf : ∀ r n nfir, (f r n).wellFormed nfir = true) :
    Reads ⟨formatN 15 15 sm 0, formatN u o 0 0, false⟩ :=
  .of_fields fun s n hs _ => by
    obtain ⟨r, rfl⟩ := hg s hs
    exact ⟨f r n, hf r n, hwf r n⟩

/-- A row that leaves only the bits of `sel` free that write an element of `ρ`. -/
theorem OpcodeRow.Reads.selected (hg : ∀ s, s &&& sm = 0 → ∃ r, g r = s) (f : ρ → Instr)
    (hf : ∀ r, encode (f r) = formatN u o (g r) 0) (hwf : ∀ r nfir, (f r).wellFormed nfir = true) :
    Reads ⟨formatN 15 15 sm 0xFFFFF, formatN u o 0 0, false⟩ :=
  .of_fields fun s n hs hn => by
    obtain ⟨r, rfl⟩ := hg s hs
    exact ⟨f r, by rw [count_eq_zero hn, hf], hwf r⟩

end

/-- The row of `LSQ.SOLVE`, whose `n` is `lookahead` and `order` (30 R93). -/
theorem reads_lsqSolve : OpcodeRow.Reads ⟨formatN 15 15 15 0, formatN 5 0 0 0, false⟩ :=
  .of_fields fun s n hs _ => by
    obtain rfl := sel_eq_zero hs
    refine ⟨.lsqSolve (orderOf (formatN 5 0 0 n)) (lookaheadOf (formatN 5 0 0 n)), ?_, fun _ => rfl⟩
    exact formatL_eq_of_fields (by rw [unitOf_formatN]) (by rw [opOf_formatN]) (selOf_formatN ..)

/-- A row that leaves the context and `n` free. -/
theorem OpcodeRow.Reads.contextCounted (u o : BitVec 4) (f : Ctx → Count → Instr)
    (hf : ∀ c n, encode (f c n) = formatN u o c n)
    (hwf : ∀ c n nfir, (f c n).wellFormed nfir = decide (c.toNat < nfir)) :
    Reads ⟨formatN 15 15 0 0, formatN u o 0 0, true⟩ :=
  .of_fields fun c n _ _ => ⟨f c n, hf c n, hwf c n⟩

/-- The row of `RSMP.ATTACH`, which leaves the context free. -/
theorem reads_rsmpAttach : OpcodeRow.Reads ⟨formatN 15 15 0 0xFFFFF, formatN 7 4 0 0, true⟩ :=
  .of_fields fun c _ _ hn => ⟨.rsmpAttach c, by rw [count_eq_zero hn]; rfl, fun _ => rfl⟩

/-- Every word that a row of the opcode table matches is the word of a command (30 R95). -/
theorem opcodeRows_read : ∀ row ∈ opcodeRows, row.Reads := by
  simp only [opcodeRows, List.cons_append, List.nil_append, List.forall_mem_cons]
  exact ⟨
    .word .sysNop rfl fun _ => rfl,
    .word .sysConfig rfl fun _ => rfl,
    .word .sysReset rfl fun _ => rfl,
    .word .sysStatus rfl fun _ => rfl,
    .counted 1 0 .qamMap (fun _ => rfl) fun _ _ => rfl,
    .selectedCounted 1 1 exists_selBit .qamDemap (fun _ _ => rfl) fun _ _ _ => rfl,
    .contextCounted 2 0 .firLoad (fun _ _ => rfl) fun _ _ _ => rfl,
    .contextCounted 2 1 .firRun (fun _ _ => rfl) fun _ _ _ => rfl,
    .word .iirLoad rfl fun _ => rfl,
    .counted 3 1 .iirRun (fun _ => rfl) fun _ _ => rfl,
    .selectedCounted 4 0 exists_selBit .toneCoh (fun _ _ => rfl) fun _ _ _ => rfl,
    reads_lsqSolve,
    .selected 6 0 exists_selBit .demodBlock (fun _ => rfl) fun _ _ => rfl,
    .word .rsmpInit rfl fun _ => rfl,
    .counted 7 1 .rsmpTake (fun _ => rfl) fun _ _ => rfl,
    .selected 7 2 exists_wrReg .rsmpWr (fun _ => rfl) fun _ _ => rfl,
    .selected 7 3 exists_rdReg .rsmpRd (fun _ => rfl) fun _ _ => rfl,
    reads_rsmpAttach,
    .word .rsmpDetach rfl fun _ => rfl,
    .word .modBlock rfl fun _ => rfl,
    .word .modPilot rfl fun _ => rfl,
    .word .rseEnc rfl fun _ => rfl,
    .counted 10 0 .rsdDec (fun _ => rfl) fun _ _ => rfl,
    .word .crcReset rfl fun _ => rfl,
    .counted 11 1 .crcUpdate (fun _ => rfl) fun _ _ => rfl,
    .word .crcRead rfl fun _ => rfl,
    nofun⟩

/-! ## No word matches two rows -/

/-- Two rows that match one word agree on the bits that both of them fix. -/
theorem values_agree_of_matches {a b : OpcodeRow} {w : CmdWord} (ha : w &&& a.mask = a.value)
    (hb : w &&& b.mask = b.value) : a.value &&& b.mask = b.value &&& a.mask := by
  rw [← ha, ← hb, BitVec.and_assoc, BitVec.and_assoc, BitVec.and_comm a.mask]

/-- No two rows of the table agree on the bits that both of them fix. -/
theorem opcodeRows_pairwise_disagree :
    opcodeRows.Pairwise fun a b => a.value &&& b.mask ≠ b.value &&& a.mask := by
  decide

theorem opcodeRows_pairwise_disjoint :
    opcodeRows.Pairwise fun a b => ∀ w : CmdWord, ¬ (w &&& a.mask = a.value ∧ w &&& b.mask = b.value) :=
  opcodeRows_pairwise_disagree.imp fun h _ ⟨ha, hb⟩ => h (values_agree_of_matches ha hb)

/-- Settles O2: a word that decodes is its command's word, which matches the command's row; a word that a row matches is
the word of a command; and two rows that matched one word would agree on the bits that both of them fix. -/
theorem decodeAcceptsTheTable : Obligations.DecodeAcceptsTheTable := by
  unfold Obligations.DecodeAcceptsTheTable
  refine ⟨fun w => ⟨?row, ?command⟩, isWordOf_decode, opcodeRows_pairwise_disjoint⟩
  case row =>
    rintro ⟨i, hi⟩
    obtain rfl := decode_eq_ok_iff.mp hi
    exact exists_row_of_encode i
  case command =>
    rintro ⟨row, hrow, hmatch⟩
    obtain ⟨i, hi, _⟩ := opcodeRows_read row hrow w hmatch
    exact ⟨i, decode_eq_ok_iff.mpr hi⟩

/-! ## Legal words -/

/-- A word is legal in a build exactly when it decodes to a command that is legal in it (30 R97). -/
theorem legalWord_iff {nfir : Nat} {w : CmdWord} :
    legalWord nfir w = true ↔ ∃ i, decode w = .ok i ∧ i.wellFormed nfir = true := by
  simp only [legalWord, List.any_eq_true, Bool.and_eq_true, decide_eq_true_eq]
  constructor
  · rintro ⟨row, hrow, hmatch, hctx⟩
    obtain ⟨i, hi, hwf⟩ := opcodeRows_read row hrow w hmatch
    exact ⟨i, decode_eq_ok_iff.mpr hi, (hwf nfir).trans hctx⟩
  · rintro ⟨i, hi, hwf⟩
    obtain rfl := decode_eq_ok_iff.mp hi
    obtain ⟨row, hrow, hmatch⟩ := exists_row_of_encode i
    obtain ⟨j, hj, hj_wf⟩ := opcodeRows_read row hrow _ hmatch
    have hij : Except.ok i = Except.ok j := hi.symm.trans (decode_eq_ok_iff.mpr hj)
    cases hij
    exact ⟨row, hrow, hmatch, (hj_wf nfir).symm.trans hwf⟩

/-- The command that an illegal word decodes to is not legal in the build. -/
theorem not_wellFormed_of_not_legalWord {nfir : Nat} {w : CmdWord} {i : Instr} (h : legalWord nfir w = false)
    (hi : decode w = .ok i) : i.wellFormed nfir = false := by
  rw [Bool.eq_false_iff] at h ⊢
  exact fun hwf => h (legalWord_iff.mpr ⟨i, hi, hwf⟩)

/-- Settles O3: the decoder, and `Instr.wellFormed` for V13, evaluated on the words of spec/95. -/
theorem specWordsDecode : Obligations.SpecWordsDecode := by
  unfold Obligations.SpecWordsDecode
  decide

end Sys2Proof.Machine
end

section
/-!
A step runs the command its word decodes to; a word that is no legal command, and a command that may not run in the
mode, end without it (spec/30 R91, R97, R99).
-/

namespace Sys2Proof.Machine

section

variable {s : State} {cmd : Command} {rest : List Command}

theorem step_of_decode_ok {i : Instr} (hq : s.cmdq = cmd :: rest) (hi : decode cmd.word = .ok i) :
    step s = exec i (s.accept cmd rest) := by
  simp only [step, hq, hi]

theorem step_of_decode_error {e : DecodeError} (hq : s.cmdq = cmd :: rest) (he : decode cmd.word = .error e) :
    step s = illegalWord cmd.word (s.accept cmd rest) := by
  simp only [step, hq, he]

/-! ## Illegal words -/

theorem illegalWord_of_not_faulted (w : CmdWord) (h : s.mode ≠ .faulted) :
    illegalWord w s = .next (s.failed 1 w.toNat) := by
  rw [illegalWord, if_neg h, enterFault_eq]
  rfl

theorem illegalWord_of_faulted (w : CmdWord) (h : s.mode = .faulted) : illegalWord w s = .next s.turnedAway := by
  rw [illegalWord, if_pos h, completeFaulted_eq]

theorem exec_of_not_wellFormed {i : Instr} (hm : s.mode ≠ .faulted) (hwf : i.wellFormed s.build.nfir = false) :
    exec i s = .next (s.failed 1 (encode i).toNat) := by
  obtain ⟨body, hbody, _⟩ := exec_eq_runCommand i s
  rw [hbody, runCommand_illegal i s body hm hwf]

theorem exec_of_faulted {i : Instr} (hm : s.mode = .faulted) (hi : modeAllows i .faulted = false) :
    exec i s = .next s.turnedAway := by
  obtain ⟨body, hbody, _⟩ := exec_eq_runCommand i s
  rw [hbody, runCommand_faulted i s body hm hi]

/-- Outside `FAULTED` a step on an illegal word raises `IllegalCommand` (30 R97). -/
theorem step_of_not_legalWord (hq : s.cmdq = cmd :: rest) (hm : s.mode ≠ .faulted)
    (hw : legalWord s.build.nfir cmd.word = false) :
    step s = .next ((s.accept cmd rest).failed 1 cmd.word.toNat) := by
  cases hd : decode cmd.word with
  | error e => exact (step_of_decode_error hq hd).trans (illegalWord_of_not_faulted cmd.word hm)
  | ok i =>
    have hwf := not_wellFormed_of_not_legalWord hw hd
    rw [← decode_eq_ok_iff.mp hd]
    exact (step_of_decode_ok hq hd).trans (exec_of_not_wellFormed hm hwf)

/-- In `FAULTED` a step on an illegal word is turned away: the mode is looked at first (30 R99). -/
theorem step_of_not_legalWord_faulted (hq : s.cmdq = cmd :: rest) (hm : s.mode = .faulted)
    (hw : legalWord s.build.nfir cmd.word = false) : step s = .next (s.accept cmd rest).turnedAway := by
  cases hd : decode cmd.word with
  | error e => exact (step_of_decode_error hq hd).trans (illegalWord_of_faulted cmd.word hm)
  | ok i =>
    have hwf := not_wellFormed_of_not_legalWord hw hd
    have hi : modeAllows i .faulted = false := Bool.eq_false_iff.mpr fun hi => by
      rw [wellFormed_of_modeAllows_faulted i _ hi] at hwf
      cases hwf
    exact (step_of_decode_ok hq hd).trans (exec_of_faulted hm hi)

end

/-- Settles O4: `step` looks at `CMDQ`, then at what the word decodes to. -/
theorem stepRunsTheDecodedCommand : Obligations.StepRunsTheDecodedCommand := by
  unfold Obligations.StepRunsTheDecodedCommand
  intro s
  refine ⟨fun hq => ?idle, fun cmd rest i hq hi => step_of_decode_ok hq hi⟩
  case idle => simp only [step, hq]

/-- Settles O5: an illegal word decodes to nothing or to a command that is not legal in the build, and a legal one to a
legal command. -/
theorem illegalWordsFault : Obligations.IllegalWordsFault := by
  unfold Obligations.IllegalWordsFault
  intro s cmd rest hq hm
  refine ⟨fun hw => step_of_not_legalWord hq hm hw, fun hw => ?legal⟩
  case legal =>
    obtain ⟨i, hi, hwf⟩ := legalWord_iff.mp hw
    exact ⟨i, hi, hwf, step_of_decode_ok hq hi⟩

/-! ## The mode -/

theorem exec_of_modeError {i : Instr} {s : State} (hwf : i.wellFormed s.build.nfir = true) (hm : s.mode ≠ .faulted)
    (hi : modeAllows i s.mode = false) : exec i s = .next (s.failed 3 (encode i).toNat) := by
  obtain ⟨body, hbody, _⟩ := exec_eq_runCommand i s
  rw [hbody, runCommand_modeError i s body hm hwf hi]

/-- Only `ModeError` has code 3, and no fault has code 4. -/
theorem FaultKind.code_ne {k : FaultKind} (h : k ≠ .modeError) : k.code ≠ 3 ∧ k.code ≠ 4 := by
  revert h
  cases k <;> decide

/-- A command that may run and has left the range of `NUM`, is refused (93 U2 (b)). -/
theorem runCommand_refused {i : Instr} {s : State} {d : Done} (hwf : i.wellFormed s.build.nfir = true)
    (hm : modeAllows i s.mode = true) (hr : d.calcs.any Calc.leavesRange = true) :
    runCommand i s (.ok d) = .refused .outOfNumRange := by
  have hf : ¬ (s.mode = .faulted ∧ modeAllows i .faulted = false) := by
    rintro ⟨h1, h2⟩
    rw [h1, h2] at hm
    cases hm
  simp only [runCommand, hf, hwf, hm, hr, if_false, if_true, Bool.true_eq_false]

/-- The record of a command that may run is neither that of `ModeError` nor that of `Faulted`. -/
theorem exec_record_of_modeAllows {i : Instr} {s t : State} (hwf : i.wellFormed s.build.nfir = true)
    (hm : modeAllows i s.mode = true) (h : exec i s = .next t) :
    ∃ records record, t.completions = records ++ [record] ∧ record.code ≠ 3 ∧ record.code ≠ 4 := by
  obtain ⟨body, hbody, _, htame, _⟩ := exec_eq_runCommand i s
  rw [hbody] at h
  cases hb : body with
  | error e =>
    rw [hb, runCommand_error i s e hwf hm] at h
    cases h
    exact ⟨s.completions, ⟨e.kind.code, false, 0⟩, rfl, FaultKind.code_ne (htame e hb).1⟩
  | ok d =>
    rw [hb] at h
    cases hr : d.calcs.any Calc.leavesRange with
    | true =>
      rw [runCommand_refused hwf hm hr] at h
      cases h
    | false =>
      rw [runCommand_ok i s d hwf hm hr] at h
      cases h
      exact ⟨d.state.completions, ⟨0, d.eos, d.count⟩, rfl, (by decide : (0 : Byte) ≠ 3), (by decide : (0 : Byte) ≠ 4)⟩

/-- A command that may run neither raises `ModeError` nor is turned away. -/
theorem exec_ne_of_modeAllows {i : Instr} {s : State} (hwf : i.wellFormed s.build.nfir = true)
    (hm : modeAllows i s.mode = true) (info : Nat) :
    exec i s ≠ .next (s.failed 3 info) ∧ exec i s ≠ .next s.turnedAway := by
  constructor
  · intro h
    obtain ⟨records, record, hrecord, h3, _⟩ := exec_record_of_modeAllows hwf hm h
    obtain ⟨_, hlast⟩ := List.append_inj' hrecord rfl
    cases hlast
    exact h3 rfl
  · intro h
    obtain ⟨records, record, hrecord, _, h4⟩ := exec_record_of_modeAllows hwf hm h
    obtain ⟨_, hlast⟩ := List.append_inj' hrecord rfl
    cases hlast
    exact h4 rfl

/-- Settles O6: `needsConfig` and `modeAllows` are the same table; a command it refuses is turned away or raises
`ModeError`, and the record of one it allows tells it from both. -/
theorem modeDecidesWhatRuns : Obligations.ModeDecidesWhatRuns := by
  unfold Obligations.ModeDecidesWhatRuns
  refine ⟨fun i s hwf => ⟨fun hm hi => ?unconfigured, fun hm hi => ?ready, fun hm h1 h2 => ?faulted, fun hi => ?runs⟩,
    fun s cmd rest hq hm hw => step_of_not_legalWord_faulted hq hm hw⟩
  case unconfigured =>
    refine exec_of_modeError hwf (by rw [hm]; decide) ?_
    rw [hm]
    show runsUnconfigured i = false
    simpa [needsConfig_eq] using hi
  case ready =>
    refine exec_of_modeError hwf (by rw [hm]; decide) ?_
    rw [hm, hi]
    rfl
  case faulted =>
    exact exec_of_faulted hm (by simp [modeAllows, h1, h2])
  case runs =>
    refine exec_ne_of_modeAllows hwf ?_
    rcases hi with hi | ⟨hm, rfl | rfl⟩
    · exact hi.modeAllows
    · rw [hm]; rfl
    · rw [hm]; rfl

end Sys2Proof.Machine
end

section
/-!
PROOFS. The QAM mapper and demapper (spec/40): bit tuples and the indices they stand for, and what `QAM.MAP` and
`QAM.DEMAP` do in `READY` on operands of their type.
-/

namespace Sys2Proof.Machine

/-! ## Bit tuples -/

/-- The tuple of the statements is the bits the demapper pushes. -/
theorem map_bit_indexBits (m q : Nat) : (indexBits m q).map Elem.bit = indexTuple m q := by
  induction m generalizing q with
  | zero => rfl
  | succ m ih => simp [indexBits, ih, indexTuple, List.range_succ_eq_map, Nat.testBit_succ]

@[simp] theorem length_indexBits (m q : Nat) : (indexBits m q).length = m := by
  induction m generalizing q with
  | zero => rfl
  | succ m ih => simp [indexBits, ih]

/-- The mapper's index of the demapper's bits is the index they were taken from (R121, R124). -/
theorem bitsIndex_indexBits {m q : Nat} (h : q < 2 ^ m) : bitsIndex (indexBits m q) = q := by
  induction m generalizing q with
  | zero => exact (Nat.lt_one_iff.mp h).symm
  | succ m ih =>
    have hlow : (q.testBit 0).toNat = q % 2 := by rw [Nat.toNat_testBit, pow_zero, Nat.div_one]
    have hhigh : bitsIndex (indexBits m (q / 2)) = q / 2 := ih (by omega)
    simp only [indexBits, bitsIndex, hlow, hhigh]
    omega

theorem mapSymbols_indexBits (symbols : List Cplx) {m : Nat} {indices : List Nat} (h : ∀ q ∈ indices, q < 2 ^ m) :
    mapSymbols symbols m indices.length (indices.flatMap (indexBits m)) =
      indices.map fun q => symbols.getD q Cplx.zero := by
  induction indices with
  | nil => rfl
  | cons q indices ih =>
    obtain ⟨hq, hrest⟩ := List.forall_mem_cons.mp h
    simp [mapSymbols, List.take_left', List.drop_left', bitsIndex_indexBits hq, ih hrest]

/-! ## A command whose operands are one list of values -/

/-- Pops that take the whole of `OPQ`. -/
theorem popMany_all {α : Type} {read : Elem → Option α} {mk : α → Elem} (h : ∀ a, read (mk a) = some a) (as : List α) :
    popMany read as.length (Cursor.start (as.map mk)) = .ok (as, ⟨as.length, []⟩) := by
  simpa [Cursor.start] using popMany_map read mk h as 0 []

/-! ## `QAM.MAP` -/

/-- What `QAM.MAP` does in `READY` on bits alone, of the number it takes (R122). -/
theorem exec_qamMap {s : State} {n : Count} {bits : List Bool} (hm : s.mode = .ready)
    (hlen : bits.length = n.toNat * s.cfg.bitsPerSymbol) (hops : s.opq = bits.map Elem.bit) :
    exec (.qamMap n) s = .next (s.succeed
      ((mapSymbols s.cfg.symbols s.cfg.bitsPerSymbol n.toNat bits).map Elem.cplx) false n.toNat) := by
  have hbody : exec (.qamMap n) s = runCommand (.qamMap n) s (.ok (Done.pure s
      ((mapSymbols s.cfg.symbols s.cfg.bitsPerSymbol n.toNat bits).map Elem.cplx) n.toNat)) := by
    simp only [exec, execQamMap, hops, ← hlen, popMany_all asBit_bit]
    rfl
  rw [hbody, runCommand_ok _ _ _ rfl (by rw [hm]; rfl) rfl, Done.commit_eq _ (by simp [hm])]
  rfl

/-- Settles O25: the operands are the bits of the indices, and the mapper's index of each tuple is the index itself. -/
theorem qamMap : Obligations.QamMap := by
  unfold Obligations.QamMap
  intro s n indices hm hn hq hops
  have hbits : s.opq = (indices.flatMap (indexBits s.cfg.bitsPerSymbol)).map Elem.bit := by
    simp only [hops, List.map_flatMap, map_bit_indexBits]
  rw [exec_qamMap hm (by simp [hn]) hbits, hn, mapSymbols_indexBits _ hq, List.map_map]
  rfl

/-! ## `QAM.DEMAP` -/

section

variable {s : State} {report : Bool} {n : Count} {zs : List Cplx}

/-- The body of `QAM.DEMAP` on finite symbols alone, of the number it takes, raises nothing (R124). -/
theorem exec_qamDemap (hn : n.toNat = zs.length) (hops : s.opq = zs.map Elem.cplx) :
    exec (.qamDemap report n) s = runCommand (.qamDemap report n) s (.ok (Done.reals
      (zs.map (symbolCalc s.build s.qam)) s
      (zs.flatMap (demapSymbol s.build s.qam s.cfg.bitsPerSymbol report)) zs.length)) := by
  simp only [exec, execQamDemap, hops, hn, popMany_all asCplx_cplx]
  rfl

/-- In `READY` it completes where no symbol's decision leaves the range of `NUM`. -/
theorem exec_qamDemap_completes (hm : s.mode = .ready) (hn : n.toNat = zs.length) (hops : s.opq = zs.map Elem.cplx)
    (hr : leavesNumRange (.qamDemap report n) s = false) :
    exec (.qamDemap report n) s =
      .next (s.succeed (zs.flatMap (demapSymbol s.build s.qam s.cfg.bitsPerSymbol report)) false zs.length) := by
  rw [leavesNumRange_qamDemap report n s zs hn hops] at hr
  rw [exec_qamDemap hn hops, runCommand_ok _ _ _ rfl (by rw [hm]; rfl) (by simpa [Function.comp_def] using hr),
    Done.commit_eq _ (by simp [hm])]
  rfl

/-- In `READY` it is refused where the decision of one of its symbols leaves the range of `NUM`, and only there
(R125; spec/93 U2 (b)). -/
theorem exec_qamDemap_refused_iff (hm : s.mode = .ready) (hn : n.toNat = zs.length)
    (hops : s.opq = zs.map Elem.cplx) :
    exec (.qamDemap report n) s = .refused .outOfNumRange ↔
      ∃ z ∈ zs, (symbolCalc s.build s.qam z).leavesRange = true := by
  rw [← List.any_eq_true, ← leavesNumRange_qamDemap report n s zs hn hops]
  cases hr : leavesNumRange (.qamDemap report n) s with
  | false => simp [exec_qamDemap_completes hm hn hops hr]
  | true =>
    rw [leavesNumRange_qamDemap report n s zs hn hops] at hr
    rw [exec_qamDemap hn hops, runCommand_refused rfl (by rw [hm]; rfl) (by simpa [Function.comp_def] using hr)]
    simp

end

/-- What is pushed for a symbol, as the tuple of the decided index. -/
theorem demapSymbol_eq (b : Build) (t : QamTable) (m : Nat) (report : Bool) (z : Cplx) :
    demapSymbol b t m report z =
      indexTuple m (qamDecide b t z).2 ++ if report then [Elem.cplx (qamDecide b t z).1] else [] := by
  rw [← map_bit_indexBits]
  rfl

/-- Settles O26: the command and each of its symbols alone are refused by the same value, that of the symbol's decision;
where none is, it pushes what each decision gives, in order. -/
theorem qamDemap : Obligations.QamDemap := by
  unfold Obligations.QamDemap
  refine ⟨fun s report n zs hm hn hops => ?refused, fun s report n zs hm hn hops hr => ?completes⟩
  case refused =>
    have halone (z : Cplx) : exec (.qamDemap report 1) { s with opq := [Elem.cplx z] } = .refused .outOfNumRange ↔
        (symbolCalc s.build s.qam z).leavesRange = true := by
      simpa using exec_qamDemap_refused_iff (s := { s with opq := [Elem.cplx z] }) (report := report) (n := 1)
        (zs := [z]) hm rfl rfl
    simp only [exec_qamDemap_refused_iff hm hn hops, halone]
  case completes =>
    rw [exec_qamDemap_completes hm hn hops hr, funext (demapSymbol_eq s.build s.qam s.cfg.bitsPerSymbol report)]
    rfl

end Sys2Proof.Machine
end

section
/-!
The checks that the commands make before the first pop (spec/41 R141 to R143, R148; spec/44 R192; spec/45 R213), and
`FIR.LOAD` (spec/41 R142).
-/

namespace Sys2Proof.Machine

/-! ## The checks of a body, one after another -/

section

variable {β : Type} {bad : Prop} [Decidable bad] {k : FaultKind} {info : Nat} {f : Unit → Except Raise β}

theorem raiseIf_bind_of_not (h : ¬ bad) : (raiseIf bad k info >>= f) = f () := by
  rw [raiseIf_false k info h]
  rfl

theorem raiseIf_bind_of (h : bad) : (raiseIf bad k info >>= f) = .error ⟨k, info⟩ := by
  rw [raiseIf_true k info h]
  rfl

end

theorem noOperands_bind_of_nil {β : Type} {s : State} {f : Unit → Except Raise β} (h : s.opq = []) :
    (noOperands s >>= f) = f () := by
  rw [noOperands_nil s h]
  rfl

/-- A body that pops reals and nothing after them goes on with the reals, where they are the whole of `OPQ`. -/
theorem popReals_bind {β : Type} {s : State} {n : Count} {xs : List ExactReal} (hn : n.toNat = xs.length)
    (hops : s.opq = xs.map Elem.real) (f : List ExactReal × Cursor → Except Raise β) :
    (popMany Elem.asReal n.toNat (Cursor.start s.opq) >>= f) = f (xs, ⟨xs.length, []⟩) := by
  rw [hn, hops, popMany_all asReal_real]
  rfl

/-! ## Commands that run without a configuration -/

/-- A command that needs no configuration runs outside `FAULTED`, but for `SYS.CONFIG` (30 R99). -/
theorem modeAllows_of_runsUnconfigured {i : Instr} {m : Mode} (hr : runsUnconfigured i = true) (hi : i ≠ .sysConfig)
    (hm : m ≠ .faulted) : modeAllows i m = true := by
  cases m with
  | unconfigured => exact hr
  | ready => exact decide_eq_true hi
  | faulted => exact absurd rfl hm

section

variable (i : Instr) {s : State} {body : Except Raise Done}

/-- A command that may run and whose body is known to raise, faults. -/
theorem runCommand_of_body_error (e : Raise) (hw : i.wellFormed s.build.nfir = true) (hm : modeAllows i s.mode = true)
    (hb : body = .error e) : runCommand i s body = .next (s.failed e.kind.code e.info) := by
  rw [hb]
  exact runCommand_error i s e hw hm

/-- A command that may run outside `FAULTED`, stays outside and computes no real value, succeeds. -/
theorem runCommand_of_body_pure {t : State} {results : List Elem} {count : Nat}
    (hw : i.wellFormed s.build.nfir = true) (hm : modeAllows i s.mode = true) (ht : t.mode ≠ .faulted)
    (hb : body = .ok (Done.pure t results count)) :
    runCommand i s body = .next (t.succeed results false count) := by
  rw [hb, runCommand_ok i s _ hw hm rfl, Done.commit_eq _ ht]
  rfl

/-- A command that may run outside `FAULTED`, stays outside and computes real values in the range of `NUM`,
succeeds. -/
theorem runCommand_of_body_reals {t : State} {calcs : List Calc} {results : List Elem} {count : Nat}
    (hw : i.wellFormed s.build.nfir = true) (hm : modeAllows i s.mode = true) (ht : t.mode ≠ .faulted)
    (hr : calcs.any Calc.leavesRange = false) (hb : body = .ok (Done.reals calcs t results count)) :
    runCommand i s body = .next (t.succeed results false count) := by
  rw [hb, runCommand_ok i s _ hw hm hr, Done.commit_eq _ ht]
  rfl

end

/-! ## The guards -/

section

variable {s : State} {c : Ctx} {n : Count}

theorem exec_firLoad_badCount (hm : s.mode ≠ .faulted) (hc : c.toNat < s.build.nfir)
    (h : n.toNat = 0 ∨ s.build.capTaps < n.toNat) : exec (.firLoad c n) s = .next (s.failed 2 n.toNat) :=
  runCommand_of_body_error (.firLoad c n) ⟨.badOperands, n.toNat⟩ (decide_eq_true hc)
    (modeAllows_of_runsUnconfigured rfl nofun hm) (raiseIf_bind_of h)

theorem exec_firLoad_busy (hm : s.mode ≠ .faulted) (hc : c.toNat < s.build.nfir) (h0 : n.toNat ≠ 0)
    (hcap : n.toNat ≤ s.build.capTaps) (h : Attached s c) : exec (.firLoad c n) s = .next (s.failed 8 c.toNat) :=
  runCommand_of_body_error (.firLoad c n) ⟨.contextBusy, c.toNat⟩ (decide_eq_true hc)
    (modeAllows_of_runsUnconfigured rfl nofun hm)
    ((raiseIf_bind_of_not (by omega)).trans (raiseIf_bind_of (attached_iff.mpr h)))

theorem exec_firRun_notLoaded (hm : s.mode ≠ .faulted) (hc : c.toNat < s.build.nfir) (h : (s.firCtx c).ntaps = 0) :
    exec (.firRun c n) s = .next (s.failed 6 c.toNat) :=
  runCommand_of_body_error (.firRun c n) ⟨.notLoaded, c.toNat⟩ (decide_eq_true hc)
    (modeAllows_of_runsUnconfigured rfl nofun hm) (raiseIf_bind_of h)

theorem exec_firRun_busy (hm : s.mode ≠ .faulted) (hc : c.toNat < s.build.nfir) (h0 : (s.firCtx c).ntaps ≠ 0)
    (h : Attached s c) : exec (.firRun c n) s = .next (s.failed 8 c.toNat) :=
  runCommand_of_body_error (.firRun c n) ⟨.contextBusy, c.toNat⟩ (decide_eq_true hc)
    (modeAllows_of_runsUnconfigured rfl nofun hm)
    ((raiseIf_bind_of_not h0).trans (raiseIf_bind_of (attached_iff.mpr h)))

theorem exec_iirRun_notLoaded (hm : s.mode ≠ .faulted) (h : s.iir.loaded = false) :
    exec (.iirRun n) s = .next (s.failed 6 0xFF) :=
  runCommand_of_body_error (.iirRun n) ⟨.notLoaded, 0xFF⟩ rfl
    (modeAllows_of_runsUnconfigured rfl nofun hm) (raiseIf_bind_of h)

/-- The guard of the sampler comes after the check that there are no operands. -/
theorem exec_rsmpTake_notCreated (hm : s.mode = .ready) (h : s.rs.created = false) (hops : s.opq = []) :
    exec (.rsmpTake n) s = .next (s.failed 7 0) :=
  runCommand_of_body_error (.rsmpTake n) ⟨.notCreated, 0⟩ rfl (by rw [hm]; rfl)
    ((noOperands_bind_of_nil hops).trans (raiseIf_bind_of h))

theorem exec_demodBlock_notCreated (hm : s.mode = .ready) (h : s.rs.created = false) (hops : s.opq = []) :
    exec (.demodBlock false) s = .next (s.failed 7 0) :=
  runCommand_of_body_error (.demodBlock false) ⟨.notCreated, 0⟩ rfl (by rw [hm]; rfl)
    ((noOperands_bind_of_nil hops).trans (raiseIf_bind_of h))

end

/-- Settles O54: the check that fails is the first of the body, or comes after checks that pass. -/
theorem guardsFault : Obligations.GuardsFault := by
  unfold Obligations.GuardsFault
  refine ⟨fun s c n hm hc => ⟨fun h => ?badCount, fun h0 hcap ha => ?busyLoad, exec_firRun_notLoaded hm hc,
    exec_firRun_busy hm hc, exec_iirRun_notLoaded hm⟩, fun s n hm h hops => ?sampler⟩
  case badCount => exact exec_firLoad_badCount hm hc (h.imp_left fun h0 => congrArg BitVec.toNat h0)
  case busyLoad => exact exec_firLoad_busy hm hc (BitVec.toNat_ne_iff_ne.mpr h0) hcap ha
  case sampler => exact ⟨exec_rsmpTake_notCreated hm h hops, exec_demodBlock_notCreated hm h hops⟩

/-! ## `FIR.LOAD` -/

/-- `FIR.LOAD` on operands that are the taps alone (R142). -/
theorem exec_firLoad {s : State} {c : Ctx} {n : Count} {taps : List ExactReal} (hm : s.mode ≠ .faulted)
    (hc : c.toNat < s.build.nfir) (hn : n.toNat = taps.length) (h1 : 1 ≤ taps.length)
    (hcap : taps.length ≤ s.build.capTaps) (ha : ¬ Attached s c) (hops : s.opq = taps.map Elem.real) :
    exec (.firLoad c n) s = .next ((s.setFirCtx c (FirCtx.load taps)).succeed [] false 0) :=
  runCommand_of_body_pure (.firLoad c n) (decide_eq_true hc) (modeAllows_of_runsUnconfigured rfl nofun hm) hm
    (((raiseIf_bind_of_not (by omega)).trans (raiseIf_bind_of_not (mt attached_iff.mp ha))).trans
      (popReals_bind hn hops _))

/-- Settles O28: the checks pass and the pops take the whole list. -/
theorem firLoad : Obligations.FirLoad := by
  unfold Obligations.FirLoad
  exact fun s c n taps hm hc hn h1 hcap ha hops => exec_firLoad hm hc hn h1 hcap ha hops

end Sys2Proof.Machine
end

section
/-!
`FIR.RUN`: its steps one after another, the history after each, and the convolution it computes from a history of zeros
(spec/41 R140, R143).
-/

namespace Sys2Proof.Machine

/-! ## A filter over a block of samples -/

/-- The first inputs and the next one are the first inputs of one more. -/
theorem take_succ_eq_append_getD {α : Type} {xs : List α} {t : Nat} (ht : t < xs.length) (d : α) :
    xs.take (t + 1) = xs.take t ++ [xs.getD t d] := by
  rw [List.getD_eq_getElem _ _ ht, List.take_append_getElem]

section

variable (step : ExactReal → State → ExactReal × State)

/-- The registers after one more input. -/
theorem runSteps_take_succ {xs : List ExactReal} {t : Nat} (ht : t < xs.length) (s : State) :
    (runSteps step (xs.take (t + 1)) s).2 = (step (xs.getD t (.rat 0)) (runSteps step (xs.take t) s).2).2 := by
  rw [take_succ_eq_append_getD ht (.rat 0), runSteps_append]
  rfl

/-- Output `t` is that of a step on input `t` and the registers that the inputs before it have left. -/
theorem runSteps_outputs (xs : List ExactReal) (s : State) : (runSteps step xs s).1 =
    (List.range xs.length).map fun t => (step (xs.getD t (.rat 0)) (runSteps step (xs.take t) s).2).1 := by
  induction xs generalizing s with
  | nil => rfl
  | cons x xs ih =>
    rw [List.length_cons, List.range_succ_eq_map, List.map_cons, List.map_map]
    exact congrArg _ (ih (step x s).2)

end

/-! ## Operands, results and records are no registers -/

/-- The state with other operands, results and records. -/
def State.withQueues (s : State) (opq resq : List Elem) (completions : List Completion) : State :=
  { s with opq := opq, resq := resq, completions := completions }

/-- A filter's step that neither reads nor writes operands, results and records. -/
def IgnoresQueues (step : ExactReal → State → ExactReal × State) : Prop :=
  ∀ v s opq resq completions, step v (s.withQueues opq resq completions) =
    ((step v s).1, (step v s).2.withQueues opq resq completions)

theorem firStep_ignoresQueues (c : Ctx) : IgnoresQueues (firStep c) := fun _ _ _ _ _ => rfl

section

variable {step : ExactReal → State → ExactReal × State} (hstep : IgnoresQueues step) (opq resq : List Elem)
  (completions : List Completion)

include hstep

theorem runSteps_withQueues (xs : List ExactReal) (s : State) : runSteps step xs (s.withQueues opq resq completions) =
    ((runSteps step xs s).1, (runSteps step xs s).2.withQueues opq resq completions) := by
  induction xs generalizing s with
  | nil => rfl
  | cons x xs ih => simp only [runSteps, hstep x s, ih]

theorem stepCalcs_withQueues {f : ExactReal → State → Calc}
    (hf : ∀ v s, f v (s.withQueues opq resq completions) = f v s) (xs : List ExactReal) (s : State) :
    stepCalcs f step xs (s.withQueues opq resq completions) = stepCalcs f step xs s := by
  induction xs generalizing s with
  | nil => rfl
  | cons x xs ih => simp only [stepCalcs, hstep x s, hf, ih]

end

/-! ## `FIR.RUN` -/

/-- The checks that `FIR.RUN c` passes before its first pop (R141, R143). -/
structure FirRunnable (s : State) (c : Ctx) : Prop where
  not_faulted : s.mode ≠ .faulted
  inBuild : c.toNat < s.build.nfir
  loaded : (s.firCtx c).ntaps ≠ 0
  free : ¬ Attached s c

/-- What the outputs of `FIR.RUN` are computed from stays in the range of `NUM`. -/
def FirInRange (s : State) (c : Ctx) (xs : List ExactReal) : Prop :=
  (stepCalcs (firCalc c) (firStep c) xs s).any Calc.leavesRange = false

/-- The state after `FIR.RUN c` of these inputs has completed. -/
def State.firRan (s : State) (c : Ctx) (xs : List ExactReal) : State :=
  (runSteps (firStep c) xs s).2.succeed ((runSteps (firStep c) xs s).1.map Elem.real) false xs.length

section

variable {s t : State} {c : Ctx} {n : Count} {xs : List ExactReal}

theorem mode_firSteps (s : State) (c : Ctx) (xs : List ExactReal) : (runSteps (firStep c) xs s).2.mode = s.mode := by
  obtain ⟨_, hs, _⟩ := firSteps_state c xs s
  rw [hs, State.setFirCtx_mode]

/-- The computations of `FIR.RUN` are one a sample. -/
theorem leavesNumRange_firRun (hn : n.toNat = xs.length) (hops : s.opq = xs.map Elem.real) :
    leavesNumRange (.firRun c n) s = false ↔ FirInRange s c xs := by
  rw [leavesNumRange, realCalcs, State.popped_eq (hops ▸ hn ▸ popMany_all asReal_real xs)]
  rfl

/-- Where its checks pass, the body of `FIR.RUN` on reals alone raises nothing. -/
theorem exec_firRun_eq (hr : FirRunnable s c) (hn : n.toNat = xs.length) (hops : s.opq = xs.map Elem.real) :
    exec (.firRun c n) s = runCommand (.firRun c n) s (.ok (Done.reals (stepCalcs (firCalc c) (firStep c) xs s)
      (runSteps (firStep c) xs s).2 ((runSteps (firStep c) xs s).1.map Elem.real) xs.length)) := by
  refine congrArg (runCommand _ s) (((raiseIf_bind_of_not hr.loaded).trans
    (raiseIf_bind_of_not (mt attached_iff.mp hr.free))).trans ((popReals_bind hn hops _).trans ?_))
  rw [hn]
  rfl

theorem exec_firRun (hr : FirRunnable s c) (hn : n.toNat = xs.length) (hops : s.opq = xs.map Elem.real)
    (hrange : FirInRange s c xs) : exec (.firRun c n) s = .next (s.firRan c xs) := by
  rw [exec_firRun_eq hr hn hops]
  exact runCommand_of_body_reals _ (decide_eq_true hr.inBuild)
    (modeAllows_of_runsUnconfigured rfl nofun hr.not_faulted) (by rw [mode_firSteps]; exact hr.not_faulted) hrange rfl

/-- `FIR.RUN` leaves the block outside `FAULTED` only where its checks have passed and no output has left the range. -/
theorem exec_firRun_inv (hn : n.toNat = xs.length) (hops : s.opq = xs.map Elem.real)
    (h : exec (.firRun c n) s = .next t) (ht : t.mode ≠ .faulted) :
    FirRunnable s c ∧ FirInRange s c xs ∧ t = s.firRan c xs := by
  rcases exec_next _ s t h with ⟨hm, _, rfl⟩ | ⟨_, _, _, _, rfl⟩ | ⟨d, ⟨_, _, hl, ha, _⟩, hw, hm, _⟩
  · exact absurd hm ht
  · exact absurd rfl ht
  · have hr : FirRunnable s c :=
      ⟨fun hf => absurd (hf ▸ hm : modeAllows (.firRun c n) .faulted = true) nofun, of_decide_eq_true hw, hl,
        fun h => absurd (attached_iff.mpr h) (by rw [ha]; decide)⟩
    cases hrange : (stepCalcs (firCalc c) (firStep c) xs s).any Calc.leavesRange with
    | false => exact ⟨hr, hrange, Host.Outcome.next.inj (h.symm.trans (exec_firRun hr hn hops hrange))⟩
    | true =>
      rw [exec_firRun_eq hr hn hops, runCommand_refused hw hm hrange] at h
      cases h

end

/-! ## The history -/

theorem firHist_zero {n : Nat} {hist : List ExactReal} (h : hist.length = n) (xs : List ExactReal) :
    firHist n hist xs 0 = hist := by
  rw [firHist, List.take_zero, List.reverse_nil, List.nil_append, ← h, List.take_length]

/-- The next input enters the history in front, and the oldest value leaves it (R143). -/
theorem firHist_succ (n : Nat) (hist : List ExactReal) {xs : List ExactReal} {t : Nat} (ht : t < xs.length) :
    firHist n hist xs (t + 1) = (xs.getD t (.rat 0) :: firHist n hist xs t).take n := by
  rw [firHist, firHist, take_succ_eq_append_getD ht (.rat 0), List.reverse_append, List.reverse_singleton,
    List.singleton_append, List.cons_append]
  cases n with
  | zero => rfl
  | succ n => rw [List.take_succ_cons, List.take_succ_cons, List.take_take, Nat.min_eq_left (Nat.le_succ n)]

/-- The state after the first `t` inputs of a block through a filter. -/
def State.afterFir (s : State) (c : Ctx) (xs : List ExactReal) (t : Nat) : State :=
  s.setFirCtx c { s.firCtx c with hist := firHist (s.firCtx c).ntaps (s.firCtx c).hist xs t }

section

variable {s : State} {c : Ctx} (hlen : (s.firCtx c).hist.length = (s.firCtx c).ntaps) {xs : List ExactReal}

/-- One step after `t` inputs. -/
theorem firStep_afterFir {t : Nat} (ht : t < xs.length) :
    firStep c (xs.getD t (.rat 0)) (s.afterFir c xs t) =
      (numValue ⟨.firRun c 1, (s.afterFir c xs t).still [Elem.real (xs.getD t (.rat 0))]⟩ .firStep 0
        (dot (s.firCtx c).h (firHist (s.firCtx c).ntaps (s.firCtx c).hist xs (t + 1))), s.afterFir c xs (t + 1)) := by
  simp only [State.afterFir, firStep, firCalc, State.setFirCtx_firCtx_same, State.setFirCtx_twice, firHist_succ _ _ ht]

include hlen

theorem firSteps_take {t : Nat} (ht : t ≤ xs.length) :
    (runSteps (firStep c) (xs.take t) s).2 = s.afterFir c xs t := by
  induction t with
  | zero => rw [State.afterFir, firHist_zero hlen, State.setFirCtx_firCtx_self]; rfl
  | succ t ih => rw [runSteps_take_succ _ ht, ih (Nat.le_of_succ_le ht), firStep_afterFir ht]

/-- The outputs of a block, each from the history that its input has made. -/
theorem firSteps_outputs : (runSteps (firStep c) xs s).1 = (List.range xs.length).map fun t =>
    numValue ⟨.firRun c 1, (s.afterFir c xs t).still [Elem.real (xs.getD t (.rat 0))]⟩ .firStep 0
      (dot (s.firCtx c).h (firHist (s.firCtx c).ntaps (s.firCtx c).hist xs (t + 1))) := by
  rw [runSteps_outputs]
  refine List.map_congr_left fun t ht => ?_
  have ht := List.mem_range.mp ht
  rw [firSteps_take hlen ht.le, firStep_afterFir ht]

theorem State.firRan_eq : s.firRan c xs = (s.afterFir c xs xs.length).succeed
    ((List.range xs.length).map fun t => Elem.real (numValue
      ⟨.firRun c 1, (s.afterFir c xs t).still [Elem.real (xs.getD t (.rat 0))]⟩ .firStep 0
      (dot (s.firCtx c).h (firHist (s.firCtx c).ntaps (s.firCtx c).hist xs (t + 1))))) false xs.length := by
  have hstate := firSteps_take hlen (xs := xs) le_rfl
  rw [List.take_length] at hstate
  rw [State.firRan, hstate, firSteps_outputs hlen, List.map_map]
  rfl

end

/-! ## Two blocks and one -/

theorem firCalc_withQueues (c : Ctx) (opq resq : List Elem) (completions : List Completion) (v : ExactReal)
    (s : State) : firCalc c v (s.withQueues opq resq completions) = firCalc c v s := rfl

section

variable {s : State} {c : Ctx}

theorem firInRange_withQueues {xs : List ExactReal} (opq resq : List Elem) (completions : List Completion) :
    FirInRange (s.withQueues opq resq completions) c xs ↔ FirInRange s c xs := by
  rw [FirInRange, stepCalcs_withQueues (firStep_ignoresQueues c) _ _ _ (firCalc_withQueues c opq resq completions)]
  rfl

/-- A completed `FIR.RUN` reads the registers only, and pushes its outputs behind what `RESQ` held. -/
theorem firRan_withQueues (opq resq : List Elem) (completions : List Completion) (xs : List ExactReal) :
    (s.withQueues opq resq completions).firRan c xs = (runSteps (firStep c) xs s).2.withQueues []
      (resq ++ (runSteps (firStep c) xs s).1.map Elem.real) (completions ++ [⟨0, false, xs.length⟩]) := by
  rw [State.firRan, runSteps_withQueues (firStep_ignoresQueues c)]
  rfl

theorem firInRange_append {xs ys : List ExactReal} (hx : FirInRange s c xs)
    (hy : FirInRange (runSteps (firStep c) xs s).2 c ys) : FirInRange s c (xs ++ ys) := by
  rw [FirInRange, stepCalcs_append, List.any_append, hx, hy]
  rfl

end

/-- Where two blocks complete one after the other, the two as one block complete, with the same registers and results
(R143). -/
theorem exec_firRun_append {s t u : State} {c : Ctx} {n m k : Count} {xs ys : List ExactReal}
    (hn : n.toNat = xs.length) (hm : m.toNat = ys.length) (hk : k.toNat = xs.length + ys.length)
    (hfirst : exec (.firRun c n) { s with opq := xs.map Elem.real } = .next t)
    (hsecond : exec (.firRun c m) { t with opq := ys.map Elem.real } = .next u) (hu : u.mode ≠ .faulted) :
    ∃ v, exec (.firRun c k) { s with opq := (xs ++ ys).map Elem.real } = .next v ∧
      u.registers = v.registers ∧ u.resq = v.resq := by
  obtain ⟨hrun, hyrange, rfl⟩ := exec_firRun_inv hm rfl hsecond hu
  obtain ⟨hready, hxrange, rfl⟩ := exec_firRun_inv hn rfl hfirst hrun.not_faulted
  have queues (ops : List Elem) : { s with opq := ops } = s.withQueues ops s.resq s.completions := rfl
  have second : { ({ s with opq := xs.map Elem.real } : State).firRan c xs with opq := ys.map Elem.real } =
      (runSteps (firStep c) xs s).2.withQueues (ys.map Elem.real)
        (s.resq ++ (runSteps (firStep c) xs s).1.map Elem.real) (s.completions ++ [⟨0, false, xs.length⟩]) := by
    rw [queues, firRan_withQueues]
    rfl
  rw [second, firInRange_withQueues] at hyrange
  rw [queues, firInRange_withQueues] at hxrange
  have hrange := firInRange_append hxrange hyrange
  rw [← firInRange_withQueues ((xs ++ ys).map Elem.real) s.resq s.completions] at hrange
  refine ⟨_, exec_firRun (xs := xs ++ ys) ⟨hready.not_faulted, hready.inBuild, hready.loaded, hready.free⟩
    (hk.trans List.length_append.symm) rfl hrange, ?_⟩
  rw [second, firRan_withQueues, queues, firRan_withQueues, runSteps_append, List.map_append, ← List.append_assoc]
  exact ⟨rfl, rfl⟩

/-- Settles O29: the outputs and the history by induction over the inputs; of two blocks, the second goes on from the
registers that the first has left. -/
theorem firRun : Obligations.FirRun := by
  unfold Obligations.FirRun
  refine ⟨fun s c n xs hm hc hl hlen ha hn hops hr => ?outputs, fun s t u c n m k xs ys hn hm hk hfirst hsecond hu =>
    exec_firRun_append hn hm hk hfirst hsecond hu⟩
  case outputs =>
    rw [exec_firRun ⟨hm, hc, hl, ha⟩ hn hops ((leavesNumRange_firRun hn hops).mp hr), State.firRan_eq hlen]
    rfl

/-! ## The convolution -/

/-- From a history of zeros, `hist[i] = x[t-1-i]` after `t` inputs, and zero before the first (R140). -/
theorem firHist_zeros (n : Nat) {xs : List ExactReal} {t : Nat} (ht : t ≤ xs.length) :
    firHist n (List.replicate n (.rat 0)) xs t =
      (List.range n).map fun i => if i + 1 ≤ t then xs.getD (t - 1 - i) (.rat 0) else .rat 0 := by
  have hlength : (xs.take t).length = t := List.length_take_of_le ht
  refine List.ext_getElem (by simp [firHist]) fun i hi _ => ?_
  rw [List.getElem_map, List.getElem_range]
  simp only [firHist, List.getElem_take, List.getElem_append, List.length_reverse, hlength, List.getElem_reverse,
    List.getElem_replicate]
  split_ifs with h1 h2 h2
  · rw [List.getD_eq_getElem]
  · omega
  · omega
  · rfl

theorem vals_getD (xs : List ExactReal) (k : Nat) : (vals xs).getD k 0 = (xs.getD k (.rat 0)).val := by
  have h := List.getD_map (l := xs) (d := .rat 0) (n := k) ExactReal.val
  rwa [ExactReal.val_rat, Rat.cast_zero] at h

/-- The sum of taps times a history that started with zeros is the convolution sum (R140). -/
theorem val_dot_firHist_zeros (h : List ExactReal) {xs : List ExactReal} {t : Nat} (ht : t < xs.length) :
    (dot h (firHist h.length (List.replicate h.length (.rat 0)) xs (t + 1))).val =
      ∑ i ∈ Finset.range h.length, (vals h).getD i 0 * if i ≤ t then (vals xs).getD (t - i) 0 else 0 := by
  rw [val_dot_eq_sum]
  refine Finset.sum_congr rfl fun i hi => congrArg _ ?_
  rw [firHist_zeros _ ht, vals_getD, List.getD_eq_getElem _ _ (by simpa using hi), List.getElem_map, List.getElem_range]
  by_cases hit : i ≤ t
  · rw [if_pos (Nat.succ_le_succ hit), if_pos hit, vals_getD, Nat.succ_sub_one]
  · rw [if_neg (mt Nat.le_of_succ_le_succ hit), if_neg hit, ExactReal.val_rat, Rat.cast_zero]

/-- The sums of taps times history for a block of inputs after a load. -/
def loadedSums (h xs : List ExactReal) : List ExactReal :=
  (List.range xs.length).map fun t => dot h (firHist h.length (List.replicate h.length (.rat 0)) xs (t + 1))

theorem vals_loadedSums (h xs : List ExactReal) : vals (loadedSums h xs) =
    (List.range xs.length).map fun t =>
      ∑ i ∈ Finset.range h.length, (vals h).getD i 0 * if i ≤ t then (vals xs).getD (t - i) 0 else 0 := by
  rw [vals, loadedSums, List.map_map]
  exact List.map_congr_left fun t ht => val_dot_firHist_zeros h (List.mem_range.mp ht)

section

variable {s : State} {c : Ctx} {h : List ExactReal} (hctx : s.firCtx c = FirCtx.load h) (xs : List ExactReal)

include hctx

/-- `FIR.RUN` after a load, in the reference semantics: each output is the exact sum. -/
theorem firRan_resq_of_load (hnum : s.build.num = .reference) :
    (s.firRan c xs).resq = s.resq ++ (loadedSums h xs).map Elem.real := by
  rw [State.firRan_eq (by rw [hctx]; exact List.length_replicate), hctx, loadedSums, List.map_map]
  refine congrArg (s.resq ++ ·) (List.map_congr_left fun t _ => congrArg Elem.real ?_)
  exact numValue_reference _ _ _ _ hnum

theorem firRan_hist_of_load : ((s.firRan c xs).firCtx c).hist =
    (List.range h.length).map fun i => if i + 1 ≤ xs.length then xs.getD (xs.length - 1 - i) (.rat 0) else .rat 0 := by
  rw [State.firRan_eq (by rw [hctx]; exact List.length_replicate), ← firHist_zeros h.length le_rfl]
  exact (congrArg FirCtx.hist (State.setFirCtx_firCtx_same s c _)).trans (by rw [hctx]; rfl)

end

/-- The state in which the command after `FIR.LOAD c` of the taps `h` starts. -/
def State.firLoaded (s : State) (c : Ctx) (h : List ExactReal) (operands : List Elem) : State :=
  { (s.setFirCtx c (FirCtx.load h)).succeed [] false 0 with opq := operands }

@[simp] theorem State.firLoaded_firCtx (s : State) (c : Ctx) (h : List ExactReal) (operands : List Elem) :
    (s.firLoaded c h operands).firCtx c = FirCtx.load h :=
  State.setFirCtx_firCtx_same s c (FirCtx.load h)

@[simp] theorem State.firLoaded_resq (s : State) (c : Ctx) (h : List ExactReal) (operands : List Elem) :
    (s.firLoaded c h operands).resq = s.resq :=
  List.append_nil s.resq

/-- Settles O30: the load leaves a history of zeros, from which each output's sum is the convolution sum. -/
theorem firConvolution : Obligations.FirConvolution := by
  unfold Obligations.FirConvolution
  intro s c n k h xs hnum hm hc hn h1 hcap ha hops hk
  have hctx := s.firLoaded_firCtx c h (xs.map Elem.real)
  have hresq := firRan_resq_of_load hctx xs hnum
  rw [State.firLoaded_resq] at hresq
  have hloaded : ((s.firLoaded c h (xs.map Elem.real)).firCtx c).ntaps ≠ 0 := by
    rw [hctx]
    exact Nat.ne_of_gt h1
  have hrange := (leavesNumRange_firRun (c := c) hk rfl).mp (leavesNumRange_reference _ (s.firLoaded c h _) hnum)
  exact ⟨_, _, exec_firLoad hm hc hn h1 hcap ha hops, exec_firRun ⟨hm, hc, hloaded, ha⟩ hk rfl hrange,
    ⟨loadedSums h xs, hresq, vals_loadedSums h xs⟩, firRan_hist_of_load hctx xs⟩

end Sys2Proof.Machine
end

section
/-!
`IIR.LOAD` and `IIR.RUN`: the coefficients over `a0`, and the difference equation on histories that the inputs and
outputs continue (spec/41 R146 to R148).
-/

namespace Sys2Proof.Machine

/-! ## `IIR.LOAD` -/

/-- Six pops that take the whole of `OPQ`, and what follows them in `IIR.LOAD` (R147). -/
theorem exec_iirLoad_eq {s : State} {b0 b1 b2 a0 a1 a2 : ExactReal}
    (hops : s.opq = [b0, b1, b2, a0, a1, a2].map Elem.real) :
    exec .iirLoad s = runCommand .iirLoad s (raiseIf (a0.isZero = true) .badCoefficient 0 >>= fun _ =>
      .ok (Done.reals [iirLoadCalc s] { s with iir := Biquad.load (iirLoadCalc s) b0 b1 b2 a0 a1 a2 } [] 0)) := by
  simp only [exec, execIirLoad, hops]
  rfl

/-- Settles O31: a zero `a0` is found before anything is written; else the biquad is the normalised one. -/
theorem iirLoad : Obligations.IirLoad := by
  unfold Obligations.IirLoad
  refine ⟨fun s b0 b1 b2 a0 a1 a2 hm hops => ⟨fun h0 => ?zero, fun h0 hr => ?loads⟩, fun run k b a0 hnum => ?quotient⟩
  case zero =>
    rw [exec_iirLoad_eq hops]
    exact runCommand_of_body_error .iirLoad ⟨.badCoefficient, 0⟩ rfl (modeAllows_of_runsUnconfigured rfl nofun hm)
      (raiseIf_bind_of (a0.isZero_iff.mpr h0))
  case loads =>
    rw [exec_iirLoad_eq hops]
    exact runCommand_of_body_reals .iirLoad rfl (modeAllows_of_runsUnconfigured rfl nofun hm) hm hr
      (raiseIf_bind_of_not (mt a0.isZero_iff.mp h0))
  case quotient => rw [numValue_reference _ _ _ _ hnum, ExactReal.val_over]

/-! ## `IIR.RUN` -/

/-- The outputs of `IIR.RUN` for these inputs. -/
def iirOutputs (s : State) (xs : List ExactReal) : List ExactReal := (runSteps iirStep xs s).1

theorem length_iirOutputs (s : State) (xs : List ExactReal) : (iirOutputs s xs).length = xs.length :=
  runSteps_length iirStep xs s

section

variable {s : State} {n : Count} {xs : List ExactReal}

/-- The computations of `IIR.RUN` are one a sample. -/
theorem leavesNumRange_iirRun (hn : n.toNat = xs.length) (hops : s.opq = xs.map Elem.real) :
    leavesNumRange (.iirRun n) s = (stepCalcs iirCalc iirStep xs s).any Calc.leavesRange := by
  rw [leavesNumRange, realCalcs, State.popped_eq (hops ▸ hn ▸ popMany_all asReal_real xs)]

theorem mode_iirSteps (s : State) (xs : List ExactReal) : (runSteps iirStep xs s).2.mode = s.mode := by
  obtain ⟨_, _, _, _, _, hs⟩ := iirSteps_state xs s
  rw [hs]

/-- `IIR.RUN` on operands that are the samples alone (R148). -/
theorem exec_iirRun (hm : s.mode ≠ .faulted) (hl : s.iir.loaded = true) (hn : n.toNat = xs.length)
    (hops : s.opq = xs.map Elem.real) (hr : leavesNumRange (.iirRun n) s = false) :
    exec (.iirRun n) s =
      .next ((runSteps iirStep xs s).2.succeed ((iirOutputs s xs).map Elem.real) false xs.length) := by
  rw [leavesNumRange_iirRun hn hops] at hr
  refine runCommand_of_body_reals (.iirRun n) rfl (modeAllows_of_runsUnconfigured rfl nofun hm)
    (by rw [mode_iirSteps]; exact hm) hr ((raiseIf_bind_of_not (ne_false_of_eq_true hl)).trans
      ((popReals_bind hn hops _).trans ?_))
  rw [hn]
  rfl

/-- The state after the first `t` inputs: the histories are the last three of the inputs `x` and the last two of the
outputs `y`, which start with the histories of `s`. -/
def State.afterIir (s : State) (xs us : List ExactReal) (t : Nat) : State :=
  let x := [s.iir.xh2, s.iir.xh1, s.iir.xh0] ++ xs
  let y := [s.iir.yh1, s.iir.yh0] ++ us
  { s with iir := { s.iir with
      xh0 := x.getD (t + 2) (.rat 0), xh1 := x.getD (t + 1) (.rat 0), xh2 := x.getD t (.rat 0),
      yh0 := y.getD (t + 1) (.rat 0), yh1 := y.getD t (.rat 0) } }

/-- The exact value of one step's output is the right side of the difference equation (R146). -/
theorem Biquad.val_output (q : Biquad) (x0 x1 x2 : ExactReal) : (q.output x0 x1 x2).val =
    q.b0.val * x0.val + q.b1.val * x1.val + q.b2.val * x2.val - q.a1.val * q.yh0.val - q.a2.val * q.yh1.val := by
  rw [Biquad.output, ExactReal.val_minus]
  simp only [ExactReal.val_plus, ExactReal.val_times]
  ring

/-- A step writes the histories, with its sample and its output. -/
theorem iirStep_state (v : ExactReal) (s : State) :
    (iirStep v s).2 = { s with iir := s.iir.shift v (iirStep v s).1 } := rfl

/-- Output `t` is that of the step on input `t`. -/
theorem iirSteps_output {t : Nat} (ht : t < xs.length) (s : State) :
    (iirOutputs s xs).getD t (.rat 0) = (iirStep (xs.getD t (.rat 0)) (runSteps iirStep (xs.take t) s).2).1 := by
  rw [iirOutputs, List.getD_eq_getElem _ _ (by rwa [runSteps_length])]
  simp only [runSteps_outputs, List.getElem_map, List.getElem_range]

/-- The registers after the first inputs are those of the continued histories. -/
theorem iirSteps_take (s : State) {t : Nat} (ht : t ≤ xs.length) :
    (runSteps iirStep (xs.take t) s).2 = s.afterIir xs (iirOutputs s xs) t := by
  induction t with
  | zero => rfl
  | succ t ih =>
    rw [runSteps_take_succ _ ht, iirStep_state, ← iirSteps_output ht s, ih (Nat.le_of_succ_le ht)]
    rfl

/-- Each output is the value of the difference equation's right side on the continued histories. -/
theorem iirSteps_value (s : State) {t : Nat} (ht : t < xs.length) :
    (iirOutputs s xs).getD t (.rat 0) =
      numValue (iirCalc (xs.getD t (.rat 0)) (s.afterIir xs (iirOutputs s xs) t)) .iirStep 0
        ((s.afterIir xs (iirOutputs s xs) t).iir.output (xs.getD t (.rat 0))
          (s.afterIir xs (iirOutputs s xs) t).iir.xh0 (s.afterIir xs (iirOutputs s xs) t).iir.xh1) :=
  (iirSteps_output ht s).trans (congrArg (fun s => (iirStep _ s).1) (iirSteps_take s ht.le))

end

/-- Settles O32: by induction over the inputs, the registers before each are those of the continued histories, on which
a step's exact output is the difference equation. -/
theorem iirRun : Obligations.IirRun := by
  unfold Obligations.IirRun
  intro s n xs hm hl hn hops hr
  have hstate := iirSteps_take (xs := xs) s le_rfl
  rw [List.take_length] at hstate
  refine ⟨iirOutputs s xs, length_iirOutputs s xs, fun t ht => ⟨_, iirSteps_value s ht, ?equation⟩, ?completes⟩
  case equation =>
    simp only [vals_getD]
    exact Biquad.val_output _ _ _ _
  case completes =>
    rw [exec_iirRun hm hl hn hops hr, hstate]
    rfl

end Sys2Proof.Machine
end

section
/-!
What the commands of the filters and of the CRC leave unchanged (spec/41 R142, R143, R147, R148; spec/48 R293, R294).
-/

namespace Sys2Proof.Machine

/-! ## What every command leaves -/

/-- A command that answers a next state ends in `FAULTED` with the registers as they were, or completes and leaves the
registers and the status of its `Done`. -/
theorem exec_next_registers {i : Instr} {s t : State} (h : exec i s = .next t) :
    (t.mode = .faulted ∧ t.registers = s.registers) ∨
    ∃ d, Ends i s d ∧ t.registers = d.state.registers ∧ t.mode = d.state.mode ∧ t.fault = d.state.fault ∧
      t.faultInfo = d.state.faultInfo := by
  rcases exec_next i s t h with ⟨hm, _, rfl⟩ | ⟨_, _, _, _, rfl⟩ | ⟨d, hd, _, _, rfl⟩
  · exact .inl ⟨hm, rfl⟩
  · exact .inl ⟨rfl, rfl⟩
  · exact .inr ⟨d, hd, rfl, rfl, rfl, rfl⟩

/-- Only `SYS.CONFIG` and `SYS.RESET` change the status without a fault. -/
theorem exec_sameStatusOrFault {i : Instr} {s t : State} (h : exec i s = .next t) (hc : i ≠ .sysConfig)
    (hr : i ≠ .sysReset) : SameStatusOrFault s t := by
  rcases exec_next_registers h with ⟨hm, _⟩ | ⟨d, hd, _, hm, hf, hi⟩
  · exact .inl hm
  · rw [SameStatusOrFault, hm, hf, hi]
    rcases hd.mode i s d with ⟨rfl, _⟩ | ⟨rfl, _⟩ | ⟨_, _, hs⟩
    · exact absurd rfl hc
    · exact absurd rfl hr
    · exact .inr hs

/-! ## The registers of each unit -/

section

variable {i : Instr} {s t : State}

/-- `FIR.*` write one context, and `FIR.RUN` its history only. -/
theorem exec_fir_registers {c : Ctx} {n : Count} (hi : i = .firLoad c n ∨ i = .firRun c n) (h : exec i s = .next t) :
    ∃ x : FirCtx, t.registers = (s.setFirCtx c x).registers ∧
      (i = .firRun c n → x.ntaps = (s.firCtx c).ntaps ∧ x.h = (s.firCtx c).h) := by
  rcases exec_next_registers h with ⟨_, ht⟩ | ⟨d, hd, ht, _⟩
  · exact ⟨s.firCtx c, by rw [ht, State.setFirCtx_firCtx_self], fun _ => ⟨rfl, rfl⟩⟩
  · rcases hi with rfl | rfl
    · obtain ⟨taps, _, _, _, _, rfl⟩ := hd
      exact ⟨_, ht, nofun⟩
    · obtain ⟨xs, _, _, _, rfl⟩ := hd
      obtain ⟨hist, hs, _⟩ := firSteps_state c xs s
      exact ⟨{ s.firCtx c with hist := hist }, by rw [ht, Done.reals_state, hs], fun _ => ⟨rfl, rfl⟩⟩

/-- `IIR.*` write the biquad, and `IIR.RUN` its histories only. -/
theorem exec_iir_registers (hi : i = .iirLoad ∨ ∃ n, i = .iirRun n) (h : exec i s = .next t) :
    ∃ q : Biquad, t.registers = { s.registers with iir := q } ∧ ∀ n, i = .iirRun n →
      q = { s.iir with xh0 := q.xh0, xh1 := q.xh1, xh2 := q.xh2, yh0 := q.yh0, yh1 := q.yh1 } := by
  rcases exec_next_registers h with ⟨_, ht⟩ | ⟨d, hd, ht, _⟩
  · exact ⟨s.iir, ht, fun _ _ => rfl⟩
  · rcases hi with rfl | ⟨n, rfl⟩
    · obtain ⟨_, _, _, _, _, _, _, rfl⟩ := hd
      exact ⟨_, ht, nofun⟩
    · obtain ⟨xs, _, _, rfl⟩ := hd
      obtain ⟨_, _, _, _, _, hs⟩ := iirSteps_state xs s
      exact ⟨_, by rw [ht, Done.reals_state, hs]; rfl, fun _ _ => rfl⟩

/-- `CRC.RESET` and `CRC.UPDATE` write `CRC_REG`. -/
theorem exec_crc_registers (hi : i = .crcReset ∨ ∃ n, i = .crcUpdate n) (h : exec i s = .next t) :
    ∃ v, t.registers = { s.registers with crcReg := v } := by
  rcases exec_next_registers h with ⟨_, ht⟩ | ⟨d, hd, ht, _⟩
  · exact ⟨s.crcReg, ht⟩
  · rcases hi with rfl | ⟨n, rfl⟩
    · obtain rfl := hd
      exact ⟨_, ht⟩
    · obtain ⟨_, rfl⟩ := hd
      exact ⟨_, ht⟩

theorem fir_of_registers {u : State} (h : t.registers = u.registers) : t.fir = u.fir := by
  have hfir := congrArg State.fir h
  exact hfir

end

/-- Settles O57: the registers after a command of a unit are those before with a write to the unit's own. -/
theorem frameOfFiltersAndCrc : Obligations.FrameOfFiltersAndCrc := by
  unfold Obligations.FrameOfFiltersAndCrc
  intro i s t h
  refine ⟨?fir, ?otherContexts, ?taps, ?iir, ?coefficients, ?crc, ?status⟩
  case fir =>
    rintro ⟨c, n, hi⟩
    obtain ⟨x, ht, _⟩ := exec_fir_registers hi h
    rw [ht, fir_of_registers ht]
    rfl
  case otherContexts =>
    intro c n hi d hd
    obtain ⟨x, ht, _⟩ := exec_fir_registers hi h
    rw [State.firCtx_congr (fir_of_registers ht), State.setFirCtx_firCtx_other s c d x hd]
  case taps =>
    intro c n hi
    obtain ⟨x, ht, hx⟩ := exec_fir_registers (.inr hi) h
    rw [State.firCtx_congr (fir_of_registers ht), State.setFirCtx_firCtx_same]
    exact hx hi
  case iir =>
    intro hi
    obtain ⟨q, ht, _⟩ := exec_iir_registers hi h
    obtain rfl : t.iir = q := congrArg State.iir ht
    exact ht
  case coefficients =>
    intro n hi
    obtain ⟨q, ht, hq⟩ := exec_iir_registers (.inr ⟨n, hi⟩) h
    obtain rfl : t.iir = q := congrArg State.iir ht
    exact hq n hi
  case crc =>
    intro hi
    obtain ⟨v, ht⟩ := exec_crc_registers hi h
    obtain rfl : t.crcReg = v := congrArg State.crcReg ht
    exact ht
  case status =>
    rintro (⟨c, n, rfl | rfl⟩ | (rfl | ⟨n, rfl⟩) | rfl | ⟨n, rfl⟩) <;> exact exec_sameStatusOrFault h nofun nofun

end Sys2Proof.Machine
end

section
/-!
`TONE.COH` (spec/42): the command, the coherence over the complex numbers, and its modulus and phase at a carrier. The
projection of a block, turned back by an angle, has the sum of the samples times a cosine as real part, and by Cauchy
and Schwarz that is at most the root by which the coherence is divided.
-/

namespace Sys2Proof.Machine

/-! ## The command -/

/-- What `TONE.COH` does on a frequency that is read and a block that is the rest of `OPQ` (R163). -/
theorem exec_toneCoh {s : State} {pilot : Bool} {n : Count} {w : ToneFreq} {p : Nat} {xs : List ExactReal}
    (hmode : modeAllows (.toneCoh pilot n) s.mode = true) (hm : s.mode ≠ .faulted) (hne : xs ≠ [])
    (hn : n.toNat = xs.length) (hfreq : toneFreq pilot s (Cursor.start s.opq) = .ok (w, ⟨p, xs.map Elem.real⟩))
    (hr : leavesNumRange (.toneCoh pilot n) s = false) :
    exec (.toneCoh pilot n) s =
      .next (s.succeed [Elem.cplx (coherence ⟨.toneCoh pilot n, s.tables s.opq⟩ w xs)] false 1) := by
  have hblock : popMany Elem.asReal n.toNat ⟨p, xs.map Elem.real⟩ = .ok (xs, ⟨p + xs.length, []⟩) := by
    simpa [hn] using popMany_map Elem.asReal Elem.real asReal_real xs p []
  refine runCommand_of_body_reals (.toneCoh pilot n) rfl hmode hm hr ((raiseIf_bind_of_not ?_).trans ?_)
  · rw [hn]
    exact (List.length_pos_of_ne_nil hne).ne'
  · rw [hfreq]
    dsimp only [Bind.bind, Except.bind]
    rw [hblock]
    rfl

/-! ## The coherence over the complex numbers -/

theorem vals_map_range_getD (f : Nat → ExactReal) {n k : Nat} (hk : k < n) :
    (vals ((List.range n).map f)).getD k 0 = (f k).val := by
  rw [vals_getD]
  simp [hk]

@[simp] theorem ToneFreq.val_phasor (w : ToneFreq) (k : Nat) :
    (w.phasor k).val = Complex.exp (w.angle k * Complex.I) := by
  cases w with
  | radians x =>
    refine Complex.ext ?_ ?_
    · rw [Complex.exp_ofReal_mul_I_re]; simp [ToneFreq.phasor, ToneFreq.angle, Cplx.val]
    · rw [Complex.exp_ofReal_mul_I_im]; simp [ToneFreq.phasor, ToneFreq.angle, Cplx.val]
  | carrier mult nSym =>
    rw [ToneFreq.phasor, val_expTurn, ToneFreq.angle]
    push_cast
    ring_nf

theorem ToneFreq.phasor_re (w : ToneFreq) (k : Nat) : (w.phasor k).re.val = Real.cos (w.angle k) := by
  have h := congrArg Complex.re (w.val_phasor k)
  rwa [Complex.exp_ofReal_mul_I_re] at h

theorem ToneFreq.phasor_im (w : ToneFreq) (k : Nat) : (w.phasor k).im.val = Real.sin (w.angle k) := by
  have h := congrArg Complex.im (w.val_phasor k)
  rwa [Complex.exp_ofReal_mul_I_im] at h

/-- The energy of a block, the `e` of R163. -/
noncomputable def energy (xs : List ExactReal) : ℝ := ∑ k ∈ Finset.range xs.length, (vals xs).getD k 0 ^ 2

/-- The sum of `x[k] exp(-j angle k)` over a block (R161). -/
noncomputable def projection (w : ToneFreq) (xs : List ExactReal) : ℂ :=
  ∑ k ∈ Finset.range xs.length, ((vals xs).getD k 0 : ℂ) * Complex.exp (-(w.angle k : ℂ) * Complex.I)

theorem val_dot_self (xs : List ExactReal) : (dot xs xs).val = energy xs := by
  simp only [val_dot_eq_sum, energy, sq]

/-- The real part of a projection turned back by `phi` is the sum of the samples times a cosine. -/
theorem projection_turned_re (w : ToneFreq) (xs : List ExactReal) (phi : ℝ) :
    (Complex.exp (-(phi : ℂ) * Complex.I) * projection w xs).re =
      ∑ k ∈ Finset.range xs.length, (vals xs).getD k 0 * Real.cos (w.angle k + phi) := by
  rw [projection, Finset.mul_sum, Complex.re_sum]
  refine Finset.sum_congr rfl fun k _ => ?_
  have hturn : Complex.exp (-(phi : ℂ) * Complex.I) *
      (((vals xs).getD k 0 : ℂ) * Complex.exp (-(w.angle k : ℂ) * Complex.I)) =
      ((vals xs).getD k 0 : ℂ) * Complex.exp ((-(w.angle k + phi) : ℝ) * Complex.I) := by
    rw [mul_left_comm, ← Complex.exp_add]
    push_cast
    ring_nf
  rw [hturn, Complex.re_ofReal_mul, Complex.exp_ofReal_mul_I_re, Real.cos_neg]

theorem projection_re (w : ToneFreq) (xs : List ExactReal) : (projection w xs).re =
    ∑ k ∈ Finset.range xs.length, (vals xs).getD k 0 * Real.cos (w.angle k) := by
  simpa using projection_turned_re w xs 0

theorem projection_im (w : ToneFreq) (xs : List ExactReal) : (projection w xs).im =
    -∑ k ∈ Finset.range xs.length, (vals xs).getD k 0 * Real.sin (w.angle k) := by
  rw [projection, Complex.im_sum, ← Finset.sum_neg_distrib]
  refine Finset.sum_congr rfl fun k _ => ?_
  rw [← Complex.ofReal_neg, Complex.im_ofReal_mul, Complex.exp_ofReal_mul_I_im, Real.sin_neg, mul_neg]

theorem val_dot_map_range {f : Nat → ExactReal} (xs : List ExactReal) :
    (dot xs ((List.range xs.length).map f)).val =
      ∑ k ∈ Finset.range xs.length, (vals xs).getD k 0 * (f k).val := by
  rw [val_dot_eq_sum]
  exact Finset.sum_congr rfl fun k hk => by rw [vals_map_range_getD f (Finset.mem_range.mp hk)]

/-- The coherence in the reference semantics (R161, R163). A silent block needs no case of its own over the complex
numbers, where a quotient by 0 is 0. -/
theorem coherence_val {run : Calc} (h : run.num = .reference) (w : ToneFreq) (xs : List ExactReal) :
    (coherence run w xs).val = projection w xs / (Real.sqrt (xs.length / 2 * energy xs) : ℂ) := by
  have henergy : (blockEnergy run xs).val = energy xs := by
    rw [blockEnergy, numValue_reference _ _ _ _ h, val_dot_self]
  rw [coherence]
  split
  next hz =>
    rw [ExactReal.isZero_iff, henergy] at hz
    simp [hz]
  next =>
    have hscale : (sqrtReal ((ExactReal.rat (xs.length / 2)).times (blockEnergy run xs))).val =
        Real.sqrt (xs.length / 2 * energy xs) := by
      simp [henergy]
    simp only [numValue_reference _ _ _ _ h, List.map_map]
    refine Complex.ext ?re ?im
    case re =>
      rw [Complex.div_ofReal_re, projection_re]
      simp only [Cplx.val, ExactReal.val_over, hscale, val_dot_map_range, Function.comp_apply, w.phasor_re]
    case im =>
      rw [Complex.div_ofReal_im, projection_im]
      simp only [Cplx.val, ExactReal.val_over, ExactReal.val_negate, hscale, val_dot_map_range, Function.comp_apply,
        w.phasor_im]

/-! ## A carrier -/

/-- Turned back by its own argument a number is its norm. -/
theorem exp_neg_arg_mul (z : ℂ) : Complex.exp (-(z.arg : ℂ) * Complex.I) * z = ‖z‖ := by
  have h := Complex.norm_mul_exp_arg_mul_I z
  nth_rewrite 2 [← h]
  rw [mul_left_comm, ← Complex.exp_add]
  simp

/-- Where the modulus is at most 1, a real part of 1 is the whole number. -/
theorem eq_one_of_re_eq_one {z : ℂ} (hre : z.re = 1) (hnorm : ‖z‖ ≤ 1) : z = 1 := by
  have him : z.im = 0 := Complex.abs_re_eq_norm.mp <|
    le_antisymm (Complex.abs_re_le_norm z) (by rwa [hre, abs_one])
  exact Complex.ext hre him

/-- The powers of a root of unity other than 1 add up to 0 over a block. -/
theorem sum_exp_turns {n : Nat} {q : Int} (hq : ¬ (n : Int) ∣ q) :
    ∑ k ∈ Finset.range n, Complex.exp ((2 * Real.pi * q * k / n : ℝ) * Complex.I) = 0 := by
  rcases Nat.eq_zero_or_pos n with rfl | hn
  · rfl
  have hroot := Complex.isPrimitiveRoot_exp n hn.ne'
  set z := Complex.exp (2 * Real.pi * Complex.I / n) ^ q with hz
  have hpow : z ^ n = 1 := by
    rw [hz, ← zpow_natCast, ← zpow_mul, mul_comm q, zpow_mul, zpow_natCast, hroot.pow_eq_one, one_zpow]
  have hterm (k : Nat) : Complex.exp ((2 * Real.pi * q * k / n : ℝ) * Complex.I) = z ^ k := by
    rw [hz, ← Complex.exp_int_mul, ← Complex.exp_nat_mul]
    push_cast
    ring_nf
  simp only [hterm]
  rw [geom_sum_eq (mt (hroot.zpow_eq_one_iff_dvd q).mp hq), hpow, sub_self, zero_div]

/-- A cosine with a whole number of periods in the block, not a multiple of its length, adds up to 0. -/
theorem sum_cos_turns {n : Nat} {q : Int} (hq : ¬ (n : Int) ∣ q) (phi : ℝ) :
    ∑ k ∈ Finset.range n, Real.cos (2 * Real.pi * q * k / n + phi) = 0 := by
  have h := congrArg (fun z => (Complex.exp (phi * Complex.I) * z).re) (sum_exp_turns hq)
  simp only [Finset.mul_sum, Complex.re_sum, mul_zero, Complex.zero_re] at h
  rw [← h]
  refine Finset.sum_congr rfl fun k _ => ?_
  rw [← Complex.exp_add, ← add_mul, ← Complex.ofReal_add, Complex.exp_ofReal_mul_I_re, add_comm]

/-- The energy of a unit cosine at a carrier is half its length. -/
theorem sum_sq_cos_carrier {p n : Nat} (hp : 0 < p) (hpn : 2 * p < n) (phi : ℝ) :
    ∑ k ∈ Finset.range n, Real.cos ((ToneFreq.carrier p n).angle k + phi) ^ 2 = n / 2 := by
  have hq : ¬ (n : Int) ∣ (2 * p : Nat) := by
    rw [Int.natCast_dvd_natCast]
    exact Nat.not_dvd_of_pos_of_lt (by omega) hpn
  have hdouble (k : Nat) : Real.cos ((ToneFreq.carrier p n).angle k + phi) ^ 2 =
      1 / 2 + Real.cos (2 * Real.pi * ((2 * p : Nat) : Int) * k / n + 2 * phi) / 2 := by
    rw [Real.cos_sq, ToneFreq.angle]
    push_cast
    ring_nf
  simp only [hdouble, Finset.sum_add_distrib, ← Finset.sum_div, sum_cos_turns hq]
  simp

/-- The real part of a coherence turned back by `phi`. -/
theorem coherence_turned_re {run : Calc} (h : run.num = .reference) (w : ToneFreq) (xs : List ExactReal) (phi : ℝ) :
    (Complex.exp (-(phi : ℂ) * Complex.I) * (coherence run w xs).val).re =
      (∑ k ∈ Finset.range xs.length, (vals xs).getD k 0 * Real.cos (w.angle k + phi)) /
        Real.sqrt (xs.length / 2 * energy xs) := by
  rw [coherence_val h, ← mul_div_assoc, Complex.div_ofReal_re, projection_turned_re]

section

variable {run : Calc} {p : Nat} {xs : List ExactReal}

/-- The modulus at a carrier is at most 1 (R162), by Cauchy and Schwarz. -/
theorem norm_coherence_carrier_le (h : run.num = .reference) (hp : 0 < p) (hpn : 2 * p < xs.length) :
    ‖(coherence run (.carrier p xs.length) xs).val‖ ≤ 1 := by
  set z := (coherence run (.carrier p xs.length) xs).val with hz
  have hnorm := congrArg Complex.re (exp_neg_arg_mul z)
  rw [hz, coherence_turned_re h, ← hz, Complex.ofReal_re] at hnorm
  rw [← hnorm]
  refine div_le_one_of_le₀ (Real.le_sqrt_of_sq_le ?_) (Real.sqrt_nonneg _)
  refine (Finset.sum_mul_sq_le_sq_mul_sq _ _ _).trans_eq ?_
  rw [sum_sq_cos_carrier hp hpn, mul_comm, energy]

section

variable {A phi : ℝ} (hp : 0 < p) (hpn : 2 * p < xs.length)
  (hx : ∀ k < xs.length, (vals xs).getD k 0 = A * Real.cos ((ToneFreq.carrier p xs.length).angle k + phi))
include hp hpn hx

theorem sum_mul_cos_of_carrier_cos : ∑ k ∈ Finset.range xs.length,
    (vals xs).getD k 0 * Real.cos ((ToneFreq.carrier p xs.length).angle k + phi) = A * (xs.length / 2) := by
  rw [← sum_sq_cos_carrier hp hpn phi, Finset.mul_sum]
  refine Finset.sum_congr rfl fun k hk => ?_
  rw [hx k (Finset.mem_range.mp hk), mul_assoc, ← sq]

theorem energy_of_carrier_cos : energy xs = A ^ 2 * (xs.length / 2) := by
  rw [energy, ← sum_sq_cos_carrier hp hpn phi, Finset.mul_sum]
  refine Finset.sum_congr rfl fun k hk => ?_
  rw [hx k (Finset.mem_range.mp hk), mul_pow]

/-- A cosine at a carrier scores the phase it has (R162): turned back by the phase its score has real part 1. -/
theorem coherence_carrier_cos (h : run.num = .reference) (hA : 0 < A) :
    (coherence run (.carrier p xs.length) xs).val = Complex.exp (phi * Complex.I) := by
  set z := (coherence run (.carrier p xs.length) xs).val with hz
  have hlen : (0 : ℝ) < xs.length := by exact_mod_cast (by omega : 0 < xs.length)
  have hpos : 0 < A * (xs.length / 2 : ℝ) := by positivity
  have hroot : Real.sqrt (xs.length / 2 * energy xs) = A * (xs.length / 2) := by
    have hsq : (xs.length / 2 : ℝ) * (A ^ 2 * (xs.length / 2)) = (A * (xs.length / 2)) ^ 2 := by ring
    rw [energy_of_carrier_cos hp hpn hx, hsq, Real.sqrt_sq hpos.le]
  have hturned : Complex.exp (-(phi : ℂ) * Complex.I) * z = 1 := by
    refine eq_one_of_re_eq_one ?_ ?_
    · rw [hz, coherence_turned_re h, sum_mul_cos_of_carrier_cos hp hpn hx, hroot, div_self hpos.ne']
    · rw [← Complex.ofReal_neg, norm_mul, Complex.norm_exp_ofReal_mul_I, one_mul]
      exact norm_coherence_carrier_le h hp hpn
  rw [neg_mul, Complex.exp_neg, inv_mul_eq_one₀ (Complex.exp_ne_zero _)] at hturned
  exact hturned.symm

end

end

/-- Settles O33: the command reads its frequency and its block; the coherence is the projection over the root, which
over the complex numbers covers the silent block; the modulus and the phase are those of a carrier. -/
theorem toneCoherence : Obligations.ToneCoherence := by
  unfold Obligations.ToneCoherence
  refine ⟨fun s n w xs hm hne hn hops hr => ?radians, fun s n xs hm hne hn hops hr => ?pilot,
    fun run w xs h => ?value,
    fun run p xs h hp hpn => ⟨norm_coherence_carrier_le h hp hpn, fun A phi hA hx => ?cosine⟩⟩
  case radians =>
    exact exec_toneCoh (modeAllows_of_runsUnconfigured rfl nofun hm) hm hne hn (by rw [hops]; rfl) hr
  case pilot =>
    exact exec_toneCoh (by rw [hm]; rfl) (by rw [hm]; decide) hne hn (by rw [hops]; rfl) hr
  case value =>
    refine (coherence_val h w xs).trans ?_
    split
    next hz => rw [show energy xs = 0 from hz]; simp
    next => rfl
  case cosine => exact coherence_carrier_cos hp hpn hx h hA

end Sys2Proof.Machine
end

section
/-!
The value checks of `TONE.COH`, `LSQ.SOLVE` and `RSD.DEC` (spec/42 R163, spec/43 R177, spec/47 R266).
-/

namespace Sys2Proof.Machine

/-! ## `TONE.COH` and `LSQ.SOLVE` -/

theorem exec_toneCoh_empty {s : State} {pilot : Bool} {n : Count} (ha : Accepted s (.toneCoh pilot n))
    (hn : n.toNat = 0) : exec (.toneCoh pilot n) s = .next (s.failed 2 0) :=
  runCommand_of_body_error (.toneCoh pilot n) (badOperands 0) rfl ha.modeAllows (raiseIf_bind_of hn)

section

variable {s : State} {order lookahead : BitVec 10}

theorem exec_lsqSolve_badTaps (hm : s.mode ≠ .faulted)
    (h : order.toNat = 0 ∨ s.build.capTaps < order.toNat + lookahead.toNat) :
    exec (.lsqSolve order lookahead) s = .next (s.failed 2 (order.toNat + lookahead.toNat)) :=
  runCommand_of_body_error (.lsqSolve order lookahead) (badOperands (order.toNat + lookahead.toNat)) rfl
    (modeAllows_of_runsUnconfigured rfl nofun hm) (raiseIf_bind_of h)

variable {ls le : Nat} {rest : List Elem} (hm : s.mode ≠ .faulted) (h0 : order.toNat ≠ 0)
  (hcap : order.toNat + lookahead.toNat ≤ s.build.capTaps) (hops : s.opq = .nat ls :: .nat le :: rest)
include hm h0 hcap hops

/-- The check of the length of `expected` is the first after the two lengths are popped (R177). -/
theorem exec_lsqSolve_badExpected (h : le ≤ lookahead.toNat) :
    exec (.lsqSolve order lookahead) s = .next (s.failed 2 le) :=
  runCommand_of_body_error (.lsqSolve order lookahead) (badOperands le) rfl
    (modeAllows_of_runsUnconfigured rfl nofun hm)
    ((raiseIf_bind_of_not (by omega)).trans (by rw [hops]; exact raiseIf_bind_of h))

theorem exec_lsqSolve_badSignal (hle : lookahead.toNat < le) (h : ls + lookahead.toNat < le) :
    exec (.lsqSolve order lookahead) s = .next (s.failed 2 ls) :=
  runCommand_of_body_error (.lsqSolve order lookahead) (badOperands ls) rfl
    (modeAllows_of_runsUnconfigured rfl nofun hm)
    ((raiseIf_bind_of_not (by omega)).trans
      (by rw [hops]; exact (raiseIf_bind_of_not (by omega)).trans (raiseIf_bind_of h)))

end

/-! ## `RSD.DEC` -/

/-- A position that follows a legal list keeps it legal when it passes the check of R266. -/
theorem erasureList_concat {before : List Nat} {p : Nat} :
    ErasureList (before ++ [p]) ↔ ErasureList before ∧ ¬ (255 ≤ p ∨ p ∈ before) := by
  simp only [ErasureList, List.nodup_append, List.mem_append, List.mem_singleton, not_or, not_le]
  constructor
  · rintro ⟨⟨hnodup, -, hnew⟩, hlt⟩
    exact ⟨⟨hnodup, fun q hq => hlt q (.inl hq)⟩, hlt p (.inr rfl), fun hp => hnew p hp p rfl rfl⟩
  · rintro ⟨⟨hnodup, hlt⟩, hp, hnew⟩
    refine ⟨⟨hnodup, List.nodup_singleton p, ?_⟩, ?_⟩
    · rintro q hq _ rfl rfl
      exact hnew hq
    · rintro q (hq | rfl)
      · exact hlt q hq
      · exact hp

theorem ErasureList.left {as bs : List Nat} (h : ErasureList (as ++ bs)) : ErasureList as :=
  ⟨(List.nodup_append.mp h.1).1, fun p hp => h.2 p (List.mem_append_left bs hp)⟩

/-- The position check stops at the position with which the list ceases to be legal (R266). -/
theorem firstBadPosition_some (es : List Nat) : ∀ (before : List Nat) (j i : Nat), i < es.length →
    ErasureList (before ++ es.take i) → ¬ ErasureList (before ++ es.take (i + 1)) →
    firstBadPosition before es j = some (j + i) := by
  induction es with
  | nil => exact fun _ _ _ hi => absurd hi (Nat.not_lt_zero _)
  | cons p es ih =>
    intro before j i hi hgood hbad
    cases i with
    | zero =>
      rw [List.take_zero, List.append_nil] at hgood
      have hp : 255 ≤ p ∨ p ∈ before := by
        by_contra hp
        exact hbad (erasureList_concat.mpr ⟨hgood, hp⟩)
      rw [firstBadPosition, if_pos hp]
      rfl
    | succ i =>
      rw [List.take_succ_cons, List.append_cons] at hgood hbad
      rw [firstBadPosition, if_neg (erasureList_concat.mp hgood.left).2,
        ih _ _ i (Nat.lt_of_succ_lt_succ hi) hgood hbad, Nat.add_assoc, Nat.add_comm 1]

/-- `RSD.DEC` checks the positions before it decodes (R266). -/
theorem exec_rsdDec_badPosition {s : State} {ne : Count} {r : List Byte} {es : List Nat} {i : Nat}
    (hm : s.mode = .ready) (hr : r.length = 255) (hne : ne.toNat = es.length)
    (hops : s.opq = r.map Elem.u8 ++ es.map Elem.nat) (hbad : firstBadPosition [] es 0 = some i) :
    exec (.rsdDec ne) s = .next (s.failed 2 i) := by
  have hword : popMany Elem.asByte 255 (Cursor.start s.opq) = .ok (r, ⟨255, es.map Elem.nat⟩) := by
    rw [hops, Cursor.start, ← hr, popMany_map Elem.asByte Elem.u8 asByte_u8, Nat.zero_add]
  have hpositions : popMany Elem.asNat ne.toNat ⟨255, es.map Elem.nat⟩ = .ok (es, ⟨255 + es.length, []⟩) := by
    simpa [hne] using popMany_map Elem.asNat Elem.nat asNat_nat es 255 []
  refine runCommand_of_body_error (.rsdDec ne) (badOperands i) rfl (by rw [hm]; rfl) ?_
  rw [hword]
  dsimp only [Bind.bind, Except.bind]
  rw [hpositions]
  dsimp only
  rw [checkPositions, hbad]

/-! ## The three commands -/

/-- Settles O55: the check that fails is the first of the body, or comes after pops and checks that succeed. -/
theorem valueChecksFault : Obligations.ValueChecksFault := by
  unfold Obligations.ValueChecksFault
  refine ⟨fun s pilot ha => ?tone, fun s order lookahead hm => ⟨fun h => ?taps, fun h0 hcap ls le rest hops =>
    ⟨?expected, ?signal⟩⟩, fun s ne r es i hm hr hne hops hi hgood hbad => ?positions⟩
  case tone => exact exec_toneCoh_empty ha rfl
  case taps => exact exec_lsqSolve_badTaps hm (h.imp_left (congrArg BitVec.toNat))
  case expected => exact exec_lsqSolve_badExpected hm (BitVec.toNat_ne_iff_ne.mpr h0) hcap hops
  case signal => exact exec_lsqSolve_badSignal hm (BitVec.toNat_ne_iff_ne.mpr h0) hcap hops
  case positions =>
    have hfirst := firstBadPosition_some es [] 0 i hi hgood hbad
    rw [Nat.zero_add] at hfirst
    exact exec_rsdDec_badPosition hm hr hne hops hfirst

end Sys2Proof.Machine
end

section
/-!
`LSQ.SOLVE` on operands that pass its checks (spec/43 R177).
-/

namespace Sys2Proof.Machine

/-- A body that pops a list of values goes on with the values and what is behind them. -/
theorem popMany_map_bind {α β : Type} {read : Elem → Option α} {mk : α → Elem} (h : ∀ a, read (mk a) = some a)
    (as : List α) (p : Nat) (rest : List Elem) (f : List α × Cursor → Except Raise β) :
    (popMany read as.length ⟨p, as.map mk ++ rest⟩ >>= f) = f (as, ⟨p + as.length, rest⟩) := by
  rw [popMany_map read mk h]
  rfl

/-- `LSQ.SOLVE` pops the two lengths, the signal and the expected signal, and nothing is left (R177). -/
theorem exec_lsqSolve {s : State} {order lookahead : BitVec 10} {signal expected : List ExactReal}
    (hm : s.mode ≠ .faulted) (h1 : 1 ≤ order.toNat) (hcap : order.toNat + lookahead.toNat ≤ s.build.capTaps)
    (hle : lookahead.toNat < expected.length) (hls : expected.length ≤ signal.length + lookahead.toNat)
    (hops : s.opq = .nat signal.length :: .nat expected.length :: (signal ++ expected).map Elem.real)
    (hr : leavesNumRange (.lsqSolve order lookahead) s = false) :
    exec (.lsqSolve order lookahead) s = .next (s.succeed
      ((lsqTaps (tablesCalc (.lsqSolve order lookahead) s) order.toNat lookahead.toNat signal expected).map Elem.real) false
      (order.toNat + lookahead.toNat)) := by
  refine runCommand_of_body_reals (calcs := [tablesCalc (.lsqSolve order lookahead) s]) (.lsqSolve order lookahead) rfl
    (modeAllows_of_runsUnconfigured rfl nofun hm) hm hr ((raiseIf_bind_of_not (by omega)).trans ?_)
  rw [hops, List.map_append, ← List.append_nil (expected.map Elem.real)]
  exact (raiseIf_bind_of_not (by omega)).trans ((raiseIf_bind_of_not (by omega)).trans
    ((popMany_map_bind asReal_real signal _ _ _).trans (popMany_map_bind asReal_real expected _ _ _)))

/-- Settles O34: the checks pass and the pops take the whole list. -/
theorem lsqCompletes : Obligations.LsqCompletes := by
  unfold Obligations.LsqCompletes
  exact fun s order lookahead signal expected hm h1 hcap hle hls hops hr => exec_lsqSolve hm h1 hcap hle hls hops hr

end Sys2Proof.Machine
end

section
/-!
The least-squares solution of least norm over the real matrices: when a vector is it, and that the products of the
procedure of `leastSquares` have a solution (spec/43 R176; notes/assumptions/14.md).
-/

namespace Sys2Proof.Machine

open Matrix

section

variable {m n : Nat} (A : Matrix (Fin m) (Fin n) ℝ) (b : Fin m → ℝ)

/-- `v` solves the normal equations of `A g = b` and lies in the row space of `A`: the contract of R176 follows. -/
def IsLeastSquares (v : Fin n → ℝ) : Prop := Aᵀ *ᵥ (A *ᵥ v) = Aᵀ *ᵥ b ∧ ∃ w, v = Aᵀ *ᵥ w

/-- `‖b - A u‖²`. -/
def squaredError (u : Fin n → ℝ) : ℝ := (b - A *ᵥ u) ⬝ᵥ (b - A *ᵥ u)

variable {A b} {u v : Fin n → ℝ}

/-- The theorem of Pythagoras. -/
theorem dotProduct_self_add_of_orthogonal {x y : Fin n → ℝ} (h : x ⬝ᵥ y = 0) :
    (x + y) ⬝ᵥ (x + y) = x ⬝ᵥ x + y ⬝ᵥ y := by
  rw [add_dotProduct, dotProduct_add, dotProduct_add, dotProduct_comm y x, h]
  ring

/-- The residual of a solution of the normal equations is orthogonal to the range of `A`. -/
theorem squaredError_eq (hv : IsLeastSquares A b v) (u : Fin n → ℝ) :
    squaredError A b u = squaredError A b v + (A *ᵥ (v - u)) ⬝ᵥ (A *ᵥ (v - u)) := by
  have horth : (b - A *ᵥ v) ⬝ᵥ (A *ᵥ (v - u)) = 0 := by
    rw [dotProduct_mulVec, ← mulVec_transpose, mulVec_sub, hv.1, sub_self, zero_dotProduct]
  have hsplit : b - A *ᵥ u = (b - A *ᵥ v) + A *ᵥ (v - u) := by
    rw [mulVec_sub]
    abel
  rw [squaredError, hsplit, dotProduct_self_add_of_orthogonal horth, squaredError]

theorem squaredError_le (hv : IsLeastSquares A b v) (u : Fin n → ℝ) : squaredError A b v ≤ squaredError A b u := by
  rw [squaredError_eq hv u]
  exact le_add_of_nonneg_right (dotProduct_self_star_nonneg _)

theorem mulVec_sub_eq_zero_of_squaredError_eq (hv : IsLeastSquares A b v) (h : squaredError A b u = squaredError A b v) :
    A *ᵥ (v - u) = 0 := by
  rw [squaredError_eq hv u, add_eq_left] at h
  exact dotProduct_self_eq_zero.mp h

/-- Two minimisers differ by a vector of the kernel of `A`, which is orthogonal to its row space. -/
theorem dotProduct_self_of_squaredError_eq (hv : IsLeastSquares A b v) (h : squaredError A b u = squaredError A b v) :
    u ⬝ᵥ u = v ⬝ᵥ v + (u - v) ⬝ᵥ (u - v) := by
  have hkernel : A *ᵥ (u - v) = 0 := by
    rw [← neg_sub, mulVec_neg, mulVec_sub_eq_zero_of_squaredError_eq hv h, neg_zero]
  obtain ⟨-, w, hw⟩ := hv
  have horth : v ⬝ᵥ (u - v) = 0 := by
    rw [hw, mulVec_transpose, ← dotProduct_mulVec, ← mulVec_transpose, ← hw, hkernel, dotProduct_zero]
  rw [← dotProduct_self_add_of_orthogonal horth, add_sub_cancel]

end

/-- `B Bᵀ` has the range of `B`, since it has its rank. -/
theorem exists_mulVec_mul_transpose {m n : Nat} (B : Matrix (Fin m) (Fin n) ℝ) (x : Fin n → ℝ) :
    ∃ y, (B * Bᵀ) *ᵥ y = B *ᵥ x := by
  have hle : LinearMap.range (B * Bᵀ).mulVecLin ≤ LinearMap.range B.mulVecLin := by
    rw [mulVecLin_mul]
    exact LinearMap.range_comp_le_range _ _
  have hrange := Submodule.eq_of_le_of_finrank_eq hle (rank_self_mul_transpose B)
  have hx : B *ᵥ x ∈ LinearMap.range (B * Bᵀ).mulVecLin := hrange ▸ ⟨x, rfl⟩
  exact hx

/-- The system that `leastSquares` solves, with `G = Aᵀ A`, has a solution. -/
theorem exists_normalSquared {m n : Nat} (A : Matrix (Fin m) (Fin n) ℝ) (b : Fin m → ℝ) :
    ∃ y, ((Aᵀ * A) * (Aᵀ * A)ᵀ) *ᵥ y = Aᵀ *ᵥ b := by
  obtain ⟨u, hu⟩ := exists_mulVec_mul_transpose Aᵀ b
  rw [transpose_transpose] at hu
  rw [← hu]
  exact exists_mulVec_mul_transpose (Aᵀ * A) u

/-- `G` times a solution of that system is the least-squares solution of least norm. -/
theorem isLeastSquares_of_normalSquared {m n : Nat} {A : Matrix (Fin m) (Fin n) ℝ} {b : Fin m → ℝ} {y : Fin n → ℝ}
    (h : ((Aᵀ * A) * (Aᵀ * A)ᵀ) *ᵥ y = Aᵀ *ᵥ b) : IsLeastSquares A b ((Aᵀ * A) *ᵥ y) := by
  refine ⟨?_, A *ᵥ y, (mulVec_mulVec _ _ _).symm⟩
  rw [← h, transpose_mul, transpose_transpose, mulVec_mulVec, mulVec_mulVec]

end Sys2Proof.Machine
end

section
/-!
The elimination of `LSQ.SOLVE` finds a solution of every solvable system (notes/assumptions/14.md).
-/

namespace Sys2Proof.Machine

/-! ## A pivot equation -/

/-- Whether `x` solves `e`, over the reals. -/
def Equation.SolvedBy (e : Equation) (x : List ℝ) : Prop := (List.zipWith (· * ·) (vals e.1) x).sum = e.2.val

/-- An equation that is not empty is solved by `x :: xs` if the terms of the first unknown and of the others sum up to
the right side. -/
theorem solvedBy_cons {e : Equation} (he : e.1 ≠ []) (x : ℝ) (xs : List ℝ) :
    e.SolvedBy (x :: xs) ↔ (leadCoef e).val * x + (List.zipWith (· * ·) (vals e.1.tail) xs).sum = e.2.val := by
  obtain ⟨_ | ⟨c, cs⟩, r⟩ := e
  · exact absurd rfl he
  · rfl

theorem pickPivot_none {es : List Equation} (h : pickPivot es = none) : ∀ e ∈ es, (leadCoef e).val = 0 := by
  induction es with
  | nil => exact List.forall_mem_nil _
  | cons e es ih =>
    rw [pickPivot] at h
    split_ifs at h with hz
    split at h
    next hrest => exact List.forall_mem_cons.mpr ⟨(leadCoef e).isZero_iff.mp hz, ih hrest⟩
    next => exact absurd h nofun

theorem pickPivot_some {es rest : List Equation} {p : Equation} (h : pickPivot es = some (p, rest)) :
    (leadCoef p).val ≠ 0 ∧ es.Perm (p :: rest) := by
  induction es generalizing rest with
  | nil => exact absurd h nofun
  | cons e es ih =>
    rw [pickPivot] at h
    split_ifs at h with hz
    · split at h
      next => exact absurd h nofun
      next hrest =>
        obtain ⟨rfl, rfl⟩ := Prod.mk.inj (Option.some.inj h)
        obtain ⟨hp, hperm⟩ := ih hrest
        exact ⟨hp, (hperm.cons e).trans (.swap _ _ _)⟩
    · obtain ⟨rfl, rfl⟩ := Prod.mk.inj (Option.some.inj h)
      exact ⟨mt (leadCoef e).isZero_iff.mpr hz, .refl _⟩

/-! ## Elimination -/

/-- The sum of a row minus a multiple of another row of the same length. -/
theorem sum_zipWith_sub_mul (f : ExactReal) : ∀ {u v : List ExactReal} (xs : List ℝ), u.length = v.length →
    (List.zipWith (· * ·) (vals (List.zipWith (fun x y => x.minus (f.times y)) u v)) xs).sum =
      (List.zipWith (· * ·) (vals u) xs).sum - f.val * (List.zipWith (· * ·) (vals v) xs).sum
  | [], [], _, _ => by simp [vals]
  | _ :: _, _ :: _, [], _ => by simp
  | a :: u, b :: v, x :: xs, h => by
    have ih := sum_zipWith_sub_mul f xs (Nat.succ.inj h)
    simp only [vals, List.zipWith_cons_cons, List.map_cons, List.sum_cons, ExactReal.val_minus, ExactReal.val_times] at ih ⊢
    rw [ih]
    ring

/-- Where the pivot equation is solved, the other equation is solved just when what elimination makes of it is. -/
theorem solvedBy_eliminate {p e : Equation} {n : Nat} (hlead : (leadCoef p).val ≠ 0) (hp : p.1.length = n + 1)
    (he : e.1.length = n + 1) {x : ℝ} {xs : List ℝ} (hsolved : p.SolvedBy (x :: xs)) :
    (eliminate p e).SolvedBy xs ↔ e.SolvedBy (x :: xs) := by
  rw [solvedBy_cons (List.ne_nil_of_length_eq_add_one hp)] at hsolved
  rw [solvedBy_cons (List.ne_nil_of_length_eq_add_one he), eliminate, Equation.SolvedBy,
    sum_zipWith_sub_mul _ xs (by simp [hp, he])]
  rw [ExactReal.val_minus, ExactReal.val_times, ExactReal.val_over, ← hsolved, mul_add, ← mul_assoc,
    div_mul_cancel₀ _ hlead]
  constructor <;> intro h <;> linarith

theorem length_eliminate {p e : Equation} {n : Nat} (hp : p.1.length = n + 1) (he : e.1.length = n + 1) :
    (eliminate p e).1.length = n := by simp [eliminate, hp, he]

/-! ## The solution -/

@[simp] theorem length_solveLinear : ∀ (n : Nat) (es : List Equation), (solveLinear n es).length = n
  | 0, _ => rfl
  | n + 1, es => by
    rw [solveLinear]
    split
    · rw [List.length_cons, length_solveLinear]
    · rw [List.length_cons, length_solveLinear]

/-- The unknown that the pivot equation gives solves it. -/
theorem pivot_solvedBy {p : Equation} (hlead : (leadCoef p).val ≠ 0) (hp : p.1 ≠ []) (xs : List ExactReal) :
    p.SolvedBy (vals ((p.2.minus (dot p.1.tail xs)).over (leadCoef p) :: xs)) := by
  have hdot : (dot p.1.tail xs).val = (List.zipWith (· * ·) (vals p.1.tail) (vals xs)).sum := by
    rw [val_dot_eq_sum, sum_zipWith_mul, vals, List.length_map]
  refine (solvedBy_cons hp _ _).mpr ?_
  rw [ExactReal.val_over, ExactReal.val_minus, hdot, mul_div_cancel₀ _ hlead]
  exact sub_add_cancel _ _

/-- `solveLinear` solves every system that has a solution. -/
theorem solvedBy_solveLinear (n : Nat) : ∀ es : List Equation, (∀ e ∈ es, e.1.length = n) →
    (∃ x : List ℝ, x.length = n ∧ ∀ e ∈ es, e.SolvedBy x) → ∀ e ∈ es, e.SolvedBy (vals (solveLinear n es)) := by
  induction n with
  | zero =>
    rintro es - ⟨x, hx, hsolved⟩
    rwa [List.length_eq_zero_iff.mp hx] at hsolved
  | succ n ih =>
    rintro es hlength ⟨_ | ⟨x, xs⟩, hx, hsolved⟩
    · exact absurd hx nofun
    have hne : ∀ e ∈ es, e.1 ≠ [] := fun e he => List.ne_nil_of_length_eq_add_one (hlength e he)
    rw [solveLinear]
    split
    next hnone =>
      have hfree : ∀ e ∈ es, ∀ (y : ℝ) (ys : List ℝ), e.SolvedBy (y :: ys) ↔ Equation.SolvedBy (e.1.tail, e.2) ys := by
        intro e he y ys
        rw [solvedBy_cons (hne e he), pickPivot_none hnone e he, zero_mul, zero_add]
        rfl
      have htails := ih (es.map fun e => (e.1.tail, e.2))
        (List.forall_mem_map.mpr fun e he => by simp [hlength e he])
        ⟨xs, Nat.succ.inj hx, List.forall_mem_map.mpr fun e he => (hfree e he _ _).mp (hsolved e he)⟩
      exact fun e he => (hfree e he _ _).mpr (List.forall_mem_map.mp htails e he)
    next p rest hsome =>
      obtain ⟨hlead, hperm⟩ := pickPivot_some hsome
      simp only [hperm.mem_iff, List.forall_mem_cons] at hlength hsolved hne ⊢
      obtain ⟨hp, hrest⟩ := hlength
      have hreduced := ih (rest.map (eliminate p))
        (List.forall_mem_map.mpr fun e he => length_eliminate hp (hrest e he))
        ⟨xs, Nat.succ.inj hx, List.forall_mem_map.mpr fun e he =>
          (solvedBy_eliminate hlead hp (hrest e he) hsolved.1).mpr (hsolved.2 e he)⟩
      have hpivot := pivot_solvedBy hlead hne.1 (solveLinear n (rest.map (eliminate p)))
      exact ⟨hpivot, fun e he =>
        (solvedBy_eliminate hlead hp (hrest e he) hpivot).mp (List.forall_mem_map.mp hreduced e he)⟩

end Sys2Proof.Machine
end

section
/-!
The matrices and vectors that the lists of `LSQ.SOLVE` stand for (spec/43 R176).
-/

namespace Sys2Proof.Machine

open Matrix

/-! ## Lists and vectors -/

section

variable {α β γ δ : Type} {R : α → β → Prop} {S : γ → δ → Prop} {n : Nat}

/-- The elements of `xs` are, one by one, in relation `R` to the entries of `v`. -/
structure Lists (R : α → β → Prop) (xs : List α) (v : Fin n → β) : Prop where
  length : xs.length = n
  entry : ∀ i : Fin n, R (xs[(i : Nat)]'(length.symm ▸ i.isLt)) (v i)

theorem Lists.map {xs : List α} {v : Fin n → β} (h : Lists R xs v) {f : α → γ} {g : β → δ}
    (hfg : ∀ x b, R x b → S (f x) (g b)) : Lists S (xs.map f) fun i => g (v i) :=
  ⟨by rw [List.length_map, h.length], fun i => by simpa using hfg _ _ (h.entry i)⟩

theorem Lists.map_range {f : Nat → α} {v : Fin n → β} (h : ∀ i : Fin n, R (f i) (v i)) :
    Lists R ((List.range n).map f) v :=
  ⟨by simp, fun i => by simpa using h i⟩

theorem Lists.reverse {xs : List α} {v : Fin n → β} (h : Lists R xs v) : Lists R xs.reverse (v ∘ Fin.rev) :=
  ⟨by rw [List.length_reverse, h.length], fun i => by
    simpa [List.getElem_reverse, h.length, Fin.rev, Nat.sub_sub, Nat.add_comm 1] using h.entry i.rev⟩

end

/-! ## Numbers, vectors and matrices -/

/-- `x` stands for the real number `r`. -/
def Stands (x : ExactReal) (r : ℝ) : Prop := x.val = r

/-- The list `xs` stands for the vector `v`. -/
abbrev StandsVec {n : Nat} (xs : List ExactReal) (v : Fin n → ℝ) : Prop := Lists Stands xs v

/-- The list of rows `a` stands for the matrix `A`. -/
abbrev StandsMat {m n : Nat} (a : List (List ExactReal)) (A : Matrix (Fin m) (Fin n) ℝ) : Prop := Lists StandsVec a A

section

variable {m n k : Nat} {xs : List ExactReal} {v : Fin n → ℝ} {a : List (List ExactReal)} {A : Matrix (Fin m) (Fin n) ℝ}

theorem StandsVec.vals_eq (h : StandsVec xs v) : vals xs = List.ofFn v :=
  List.ext_getElem (by simp [vals, h.length]) fun i hi _ => by
    rw [List.getElem_ofFn]
    simpa [vals, Stands] using h.entry ⟨i, by simpa [vals, h.length] using hi⟩

theorem val_getElem {i : Nat} (hi : i < xs.length) : xs[i].val = (vals xs).getD i 0 := by
  rw [vals_getD, List.getD_eq_getElem _ _ hi]

theorem standsVec_vals (h : xs.length = n) : StandsVec xs fun i : Fin n => (vals xs).getD i 0 :=
  ⟨h, fun _ => val_getElem _⟩

theorem StandsVec.getD (h : StandsVec xs v) (i : Fin n) : Stands (xs.getD i (.rat 0)) (v i) := by
  simpa [h.length] using h.entry i

theorem sum_zipWith_ofFn (u v : Fin n → ℝ) : (List.zipWith (· * ·) (List.ofFn u) (List.ofFn v)).sum = u ⬝ᵥ v := by
  rw [sum_zipWith_mul, List.length_ofFn, Finset.sum_range]
  simp [dotProduct]

theorem StandsVec.dot {ys : List ExactReal} {w : Fin n → ℝ} (hx : StandsVec xs v) (hy : StandsVec ys w) :
    Stands (dot xs ys) (v ⬝ᵥ w) := by
  rw [Stands, val_dot_eq_sum, ← sum_zipWith_ofFn, ← hx.vals_eq, ← hy.vals_eq, sum_zipWith_mul, vals, List.length_map]

theorem StandsMat.mulVec (hA : StandsMat a A) (hx : StandsVec xs v) : StandsVec (mulVec a xs) (A *ᵥ v) :=
  hA.map fun _ _ hrow => StandsVec.dot hrow hx

theorem StandsMat.transpose (hA : StandsMat a A) : StandsMat (transposeOf n a) Aᵀ :=
  Lists.map_range fun c => hA.map fun _ _ hrow => StandsVec.getD hrow c

theorem StandsMat.mulCols {b : List (List ExactReal)} {B : Matrix (Fin k) (Fin n) ℝ} (hA : StandsMat a A)
    (hB : StandsMat b B) : StandsMat (mulCols a b) (A * Bᵀ) :=
  hA.map fun _ _ hrow => hB.map fun _ _ hcol => StandsVec.dot hrow hcol

/-! ## The solution -/

/-- The equations of a system `A y = v` are solved by the lists that stand for its solutions. -/
theorem forall_zip_solvedBy_iff {c : Fin m → ℝ} {r : List ExactReal} (hA : StandsMat a A) (hr : StandsVec r c)
    (y : Fin n → ℝ) : (∀ e ∈ a.zip r, Equation.SolvedBy e (List.ofFn y)) ↔ A *ᵥ y = c := by
  have hrow (i : Fin m) (hi : i < (a.zip r).length) :
      Equation.SolvedBy (a.zip r)[(i : Nat)] (List.ofFn y) ↔ (A *ᵥ y) i = c i := by
    rw [List.getElem_zip, Equation.SolvedBy]
    dsimp only
    rw [StandsVec.vals_eq (hA.entry i), sum_zipWith_ofFn, hr.entry i]
    rfl
  have hlength : (a.zip r).length = m := by rw [List.length_zip, hA.length, hr.length, min_self]
  rw [List.forall_mem_iff_getElem, funext_iff]
  exact ⟨fun h i => (hrow i _).mp (h i (hlength ▸ i.isLt)), fun h i hi => (hrow ⟨i, hlength ▸ hi⟩ hi).mpr (h _)⟩

theorem standsVec_solveLinear {c : Fin m → ℝ} {r : List ExactReal} (hA : StandsMat a A) (hr : StandsVec r c)
    (hy : ∃ y, A *ᵥ y = c) : ∃ y, A *ᵥ y = c ∧ StandsVec (solveLinear n (a.zip r)) y := by
  have hlength : ∀ e ∈ a.zip r, e.1.length = n := by
    intro e he
    obtain ⟨i, hi, hrow⟩ := List.getElem_of_mem (List.of_mem_zip (a := e.1) (b := e.2) he).1
    rw [← hrow]
    exact (hA.entry ⟨i, hA.length ▸ hi⟩).length
  obtain ⟨y, hy⟩ := hy
  have hsolved := solvedBy_solveLinear n (a.zip r) hlength
    ⟨List.ofFn y, List.length_ofFn, (forall_zip_solvedBy_iff hA hr y).mpr hy⟩
  have hx := standsVec_vals (length_solveLinear n (a.zip r))
  rw [hx.vals_eq] at hsolved
  exact ⟨_, (forall_zip_solvedBy_iff hA hr _).mp hsolved, hx⟩

/-- The procedure finds the least-squares solution of least norm. -/
theorem standsVec_leastSquares {c : Fin m → ℝ} {b : List ExactReal} (hA : StandsMat a A) (hb : StandsVec b c) :
    ∃ v, IsLeastSquares A c v ∧ StandsVec (leastSquares n a b) v := by
  have hG : StandsMat (Machine.mulCols (transposeOf n a) (transposeOf n a)) (Aᵀ * A) := by
    simpa using hA.transpose.mulCols hA.transpose
  obtain ⟨y, hy, hx⟩ := standsVec_solveLinear (hG.mulCols hG) (hA.transpose.mulVec hb) (exists_normalSquared A c)
  exact ⟨_, isLeastSquares_of_normalSquared hy, hG.mulVec hx⟩

end

end Sys2Proof.Machine
end

section
/-!
The contract of `LSQ.SOLVE` (spec/43 R176): its taps, reversed, are the least-squares solution of least norm for the
matrix of the consecutive samples.
-/

namespace Sys2Proof.Machine

open Matrix

section

variable (order lookahead : Nat) (signal expected : List ExactReal)

/-- The matrix `A` of R176. -/
noncomputable def sampleMatrix : Matrix (Fin (expected.length - lookahead)) (Fin (order + lookahead)) ℝ :=
  fun i c => (extended signal order (i + c)).val

/-- The right side `b` of R176. -/
noncomputable def expectedVec (i : Fin (expected.length - lookahead)) : ℝ := (vals expected).getD i 0

theorem standsMat_lsqMatrix : StandsMat
    (lsqMatrix signal order (order + lookahead) (expected.length - lookahead))
    (sampleMatrix order lookahead signal expected) :=
  Lists.map_range fun _ => Lists.map_range fun _ => rfl

theorem standsVec_expected : StandsVec (expected.take (expected.length - lookahead)) (expectedVec lookahead expected) :=
  ⟨by simp, fun i => by
    rw [List.getElem_take]
    exact val_getElem _⟩

end

section

variable {order lookahead : Nat} {signal expected : List ExactReal}

/-- "`h[m] = g[T-1-m]`" (R176). -/
def reversed {n : Nat} (u : Fin n → ℝ) : List ℝ := List.ofFn (u ∘ Fin.rev)

theorem reversed_getD_rev {n : Nat} (u : Fin n → ℝ) (c : Fin n) : (reversed u).getD c.rev 0 = u c := by
  rw [reversed, List.getD_eq_getElem _ _ (by rw [List.length_ofFn]; exact c.rev.isLt), List.getElem_ofFn]
  exact congrArg u c.rev_rev

theorem exists_reversed {n : Nat} {g : List ℝ} (h : g.length = n) : ∃ u : Fin n → ℝ, g = reversed u := by
  subst h
  exact ⟨g.get ∘ Fin.rev, by
    rw [reversed, Function.comp_assoc, Fin.rev_involutive.comp_self, Function.comp_id, List.ofFn_get]⟩

theorem sumSquares_reversed {n : Nat} (u : Fin n → ℝ) : sumSquares (reversed u) = u ⬝ᵥ u := by
  rw [sumSquares, reversed, List.map_ofFn, List.sum_ofFn, dotProduct, ← Equiv.sum_comp Fin.revPerm]
  simp [sq]

/-- The sample in column `c` of row `i` is the one that tap `T-1-c` meets there (R176). -/
theorem val_extended (i : Nat) (c : Fin (order + lookahead)) : (extended signal order (i + c)).val =
    if (c.rev : Nat) ≤ i + lookahead then (vals signal).getD (i + lookahead - c.rev) 0 else 0 := by
  have hc := c.isLt
  rw [extended, Fin.val_rev]
  split_ifs with h1 h2 h2
  · omega
  · exact Rat.cast_zero
  · rw [vals_getD]
    congr 2
    omega
  · omega

theorem lsqError_reversed (u : Fin (order + lookahead) → ℝ) :
    lsqError order lookahead (vals signal) (vals expected) (reversed u) =
      squaredError (sampleMatrix order lookahead signal expected) (expectedVec lookahead expected) u := by
  rw [lsqError, squaredError, dotProduct, vals, List.length_map, Finset.sum_range]
  refine Finset.sum_congr rfl fun i _ => ?_
  rw [← sq, Pi.sub_apply, Matrix.mulVec, dotProduct, Finset.sum_range, ← Equiv.sum_comp Fin.revPerm]
  congr 2
  refine Finset.sum_congr rfl fun c _ => ?_
  rw [Fin.revPerm_apply, sampleMatrix, val_extended, reversed_getD_rev, mul_comm]

end

/-- The taps in the reference semantics (R176). -/
theorem vals_lsqTaps {run : Calc} (order lookahead : Nat) (signal expected : List ExactReal) (hnum : run.num = .reference) :
    ∃ v, IsLeastSquares (sampleMatrix order lookahead signal expected) (expectedVec lookahead expected) v ∧
      vals (lsqTaps run order lookahead signal expected) = reversed v := by
  obtain ⟨v, hv, hg⟩ := standsVec_leastSquares (standsMat_lsqMatrix order lookahead signal expected)
    (standsVec_expected lookahead expected)
  refine ⟨v, hv, StandsVec.vals_eq (Lists.map_range fun m => ?_)⟩
  rw [numValue_reference _ _ _ _ hnum]
  exact StandsVec.getD hg.reverse m

/-- Settles O35: reversed, the taps solve the normal equations and lie in the row space of the matrix of R176, which
makes them the one minimiser of least norm. -/
theorem lsqContract : Obligations.LsqContract := by
  unfold Obligations.LsqContract
  intro run order lookahead signal expected hnum _ _
  obtain ⟨v, hv, hh⟩ := vals_lsqTaps order lookahead signal expected hnum
  dsimp only
  rw [hh]
  refine ⟨List.length_ofFn, fun g hg => ?_⟩
  obtain ⟨u, rfl⟩ := exists_reversed hg
  rw [lsqError_reversed, lsqError_reversed, sumSquares_reversed, sumSquares_reversed]
  refine ⟨squaredError_le hv u, fun heq => ?_⟩
  rw [dotProduct_self_of_squaredError_eq hv heq]
  refine ⟨le_add_of_nonneg_right (dotProduct_self_star_nonneg _), fun hnorm => ?_⟩
  rw [sub_eq_zero.mp (dotProduct_self_eq_zero.mp (add_eq_left.mp hnorm))]

end Sys2Proof.Machine
end

section
/-!
`DEMOD.BLOCK` on a block of operands (spec/44 R192), its projection over the complex numbers (R191), and that it inverts
the modulator (R193): a block is a sum of real parts of carriers, and the projection onto a carrier keeps its own and
drops the others.
-/

namespace Sys2Proof.Machine

/-! ## The orthogonality of the carriers -/

/-- The complex exponential with `p` periods in `n` samples, at sample `k` (10 R25). -/
noncomputable def carrierWave (n : Nat) (p : Int) (k : Nat) : ℂ :=
  Complex.exp ((2 * Real.pi * p * k / n : ℝ) * Complex.I)

theorem carrierWave_mul (n : Nat) (p q : Int) (k : Nat) :
    carrierWave n p k * carrierWave n q k = carrierWave n (p + q) k := by
  rw [carrierWave, carrierWave, carrierWave, ← Complex.exp_add]
  push_cast
  ring_nf

theorem conj_carrierWave (n : Nat) (p : Int) (k : Nat) :
    (starRingEnd ℂ) (carrierWave n p k) = carrierWave n (-p) k := by
  rw [carrierWave, carrierWave, ← Complex.exp_conj, map_mul, Complex.conj_ofReal, Complex.conj_I]
  push_cast
  ring_nf

theorem sum_carrierWave_zero (n : Nat) : ∑ k ∈ Finset.range n, carrierWave n 0 k = n := by
  simp [carrierWave]

/-- The projection of a real carrier onto a carrier: its own amplitude, and nothing of another's (R193). -/
theorem project_carrierWave {n p q : Nat} (hp : 1 ≤ p ∧ 2 * p < n) (hq : 1 ≤ q ∧ 2 * q < n) (a : ℂ) :
    2 / (n : ℂ) * ∑ k ∈ Finset.range n, ((a * carrierWave n p k).re : ℂ) * (starRingEnd ℂ) (carrierWave n q k) =
      if p = q then a else 0 := by
  have hterm (k : Nat) : ((a * carrierWave n p k).re : ℂ) * (starRingEnd ℂ) (carrierWave n q k) =
      a / 2 * carrierWave n (p - q) k + (starRingEnd ℂ) a / 2 * carrierWave n (-(p + q : Nat)) k := by
    have hdiff := carrierWave_mul n p (-q) k
    have hsum := carrierWave_mul n (-p) (-q) k
    rw [← sub_eq_add_neg] at hdiff
    rw [Complex.re_eq_add_conj, map_mul, conj_carrierWave, conj_carrierWave, ← hdiff, Nat.cast_add, neg_add, ← hsum]
    ring
  have hmirror : ∑ k ∈ Finset.range n, carrierWave n (-(p + q : Nat)) k = 0 := by
    refine sum_exp_turns ?_
    rw [dvd_neg, Int.natCast_dvd_natCast]
    exact Nat.not_dvd_of_pos_of_lt (by omega) (by omega)
  simp only [hterm, Finset.sum_add_distrib, ← Finset.mul_sum, hmirror]
  by_cases hpq : p = q
  · have hn : (n : ℂ) ≠ 0 := by exact_mod_cast (by omega : n ≠ 0)
    rw [if_pos hpq, hpq, sub_self, sum_carrierWave_zero]
    field_simp
    ring
  · have hother : ∑ k ∈ Finset.range n, carrierWave n (p - q) k = 0 := by
      refine sum_exp_turns fun hdvd => ?_
      have hzero := Int.eq_zero_of_abs_lt_dvd hdvd (abs_lt.mpr (by omega))
      omega
    rw [if_neg hpq, hother]
    simp

/-! ## The sums of the rules -/

/-- The sum of the products of two lists of one length, index by index. -/
theorem sum_zipWith_getD {α β : Type} (f : α → β → ℂ) (a : α) (b : β) : ∀ {u : List α} {v : List β},
    u.length = v.length → (List.zipWith f u v).sum = ∑ i ∈ Finset.range u.length, f (u.getD i a) (v.getD i b)
  | [], [], _ => rfl
  | x :: u, y :: v, h => by
    rw [List.zipWith_cons_cons, List.sum_cons, List.length_cons, Finset.sum_range_succ',
      sum_zipWith_getD f a b (Nat.succ.inj h), add_comm]
    simp

/-- `z_m` in the reference semantics (R191). -/
theorem val_projectBlock {run : Calc} (hnum : run.num = .reference) (m : Nat) {nSym : Nat} {x : List ExactReal}
    {carrier : List Cplx} (hx : x.length = nSym) (hc : carrier.length = nSym) :
    (projectBlock run m nSym x carrier).val = 2 / (nSym : ℂ) * ∑ k ∈ Finset.range nSym,
      ((vals x).getD k 0 : ℂ) * (starRingEnd ℂ) (carrier.getD k Cplx.zero).val := by
  have hsum : (Cplx.sum (List.zipWith (fun v w => Cplx.scale v w.conj) x carrier)).val =
      ∑ k ∈ Finset.range nSym, ((vals x).getD k 0 : ℂ) * (starRingEnd ℂ) (carrier.getD k Cplx.zero).val := by
    rw [Cplx.val_sum, List.map_zipWith, sum_zipWith_getD _ (.rat 0) Cplx.zero (hx.trans hc.symm), hx]
    simp only [Cplx.val_scale, Cplx.val_conj, vals_getD]
  simp only [projectBlock, numValue_reference _ _ _ _ hnum]
  refine (Cplx.val_scale _ _).trans ?_
  rw [hsum]
  simp

/-- A sample of `MOD.BLOCK` in the reference semantics (46 R242). -/
theorem val_modSample {run : Calc} (hnum : run.num = .reference) (k : Nat) {nFreq : Nat} {syms column : List Cplx}
    (hs : syms.length = nFreq) (hc : column.length = nFreq) :
    (modSample run k nFreq syms column).val = (1 / (nFreq : ℂ) * ∑ m ∈ Finset.range nFreq,
      (syms.getD m Cplx.zero).val * (column.getD m Cplx.zero).val).re := by
  have hsum : (Cplx.sum (List.zipWith Cplx.mul syms column)).val =
      ∑ m ∈ Finset.range nFreq, (syms.getD m Cplx.zero).val * (column.getD m Cplx.zero).val := by
    rw [Cplx.val_sum, List.map_zipWith, sum_zipWith_getD _ Cplx.zero Cplx.zero (hs.trans hc.symm), hs]
    simp only [Cplx.val_mul]
  rw [modSample, numValue_reference _ _ _ _ hnum, ← hsum]
  refine (congrArg Complex.re (Cplx.val_scale (.rat (1 / nFreq)) _)).trans ?_
  simp

/-- A sample of `MOD.PILOT` in the reference semantics (46 R243). -/
theorem val_pilotSample {run : Calc} (hnum : run.num = .reference) (k : Nat) (b w : Cplx) :
    (pilotSample run k b w).val = (b.val * w.val).re := by
  rw [pilotSample, numValue_reference _ _ _ _ hnum, ← Cplx.val_mul]
  rfl

/-! ## The table `CARRIER` -/

section

variable {b : Build} {c : Cfg} {m k : Nat}

theorem val_carrierTable (hb : b.num = .reference) (hm : m < c.mult.length) (hk : k < c.nSym) :
    (((carrierTable b c).getD m []).getD k Cplx.zero).val = carrierWave c.nSym (c.mult.getD m 0 : Nat) k := by
  rw [carrierTable_getD hm hk, carrierEntry_reference (run := c.calc b) hb, val_expTurn, carrierWave]
  push_cast
  ring_nf

theorem length_carrierTable_getD (hm : m < c.mult.length) : ((carrierTable b c).getD m []).length = c.nSym := by
  simp [carrierTable, List.getD_eq_getElem?_getD, hm]

/-- An entry of a column of `CARRIER` is that of its row. -/
theorem carrierColumn_getD (k : Nat) (hm : m < c.mult.length) :
    (carrierColumn (carrierTable b c) k).getD m Cplx.zero = ((carrierTable b c).getD m []).getD k Cplx.zero := by
  simp [carrierColumn, carrierTable, List.getD_eq_getElem?_getD, hm]

theorem length_carrierColumn (k : Nat) : (carrierColumn (carrierTable b c) k).length = c.mult.length := by
  simp [carrierColumn, carrierTable]

end

/-! ## The blocks of the modulator -/

/-- The projection of a block whose samples are sums of real carriers is the amplitude of the carrier (R193). -/
theorem project_sum_carriers {b : Build} {demod : Calc} {c : Cfg} {m : Nat} (hb : b.num = .reference)
    (hdemod : demod.num = .reference) (hmult : ∀ p ∈ c.mult, 1 ≤ p ∧ 2 * p < c.nSym) (hnodup : c.mult.Nodup)
    (hm : m < c.mult.length) (amplitude : Nat → ℂ) {sample : Nat → ExactReal}
    (hsample : ∀ k < c.nSym, (sample k).val = ∑ p ∈ Finset.range c.mult.length,
      (amplitude p * carrierWave c.nSym (c.mult.getD p 0 : Nat) k).re) :
    (projectBlock demod m c.nSym ((List.range c.nSym).map sample) ((carrierTable b c).getD m [])).val =
      amplitude m := by
  have hlegal {p : Nat} (hp : p < c.mult.length) : 1 ≤ c.mult.getD p 0 ∧ 2 * c.mult.getD p 0 < c.nSym := by
    rw [List.getD_eq_getElem _ _ hp]
    exact hmult _ (List.getElem_mem hp)
  have hdistinct {p : Nat} (hp : p < c.mult.length) : c.mult.getD p 0 = c.mult.getD m 0 ↔ p = m := by
    rw [List.getD_eq_getElem _ _ hp, List.getD_eq_getElem _ _ hm, hnodup.getElem_inj_iff]
  calc (projectBlock demod m c.nSym ((List.range c.nSym).map sample) ((carrierTable b c).getD m [])).val
    _ = 2 / (c.nSym : ℂ) * ∑ k ∈ Finset.range c.nSym, ∑ p ∈ Finset.range c.mult.length,
          ((amplitude p * carrierWave c.nSym (c.mult.getD p 0 : Nat) k).re : ℂ) *
            (starRingEnd ℂ) (carrierWave c.nSym (c.mult.getD m 0 : Nat) k) := by
      rw [val_projectBlock hdemod m (by simp) (length_carrierTable_getD hm)]
      refine congrArg _ (Finset.sum_congr rfl fun k hk => ?_)
      have hk := Finset.mem_range.mp hk
      rw [vals_map_range_getD sample hk, hsample k hk, val_carrierTable hb hm hk, Complex.ofReal_sum, Finset.sum_mul]
    _ = ∑ p ∈ Finset.range c.mult.length, if p = m then amplitude p else 0 := by
      rw [Finset.sum_comm, Finset.mul_sum]
      refine Finset.sum_congr rfl fun p hp => ?_
      have hp := Finset.mem_range.mp hp
      rw [project_carrierWave (hlegal hp) (hlegal hm)]
      simp only [hdistinct hp]
    _ = amplitude m := by
      rw [Finset.sum_ite_eq', if_pos (Finset.mem_range.mpr hm)]

/-! ## The command -/

/-- `DEMOD.BLOCK direct` in `READY` on `Nsym` reals alone (R192). -/
theorem exec_demodDirect {s : State} {x : List ExactReal} (hm : s.mode = .ready) (hlen : x.length = s.cfg.nSym)
    (hops : s.opq = x.map Elem.real) (hr : leavesNumRange (.demodBlock true) s = false) :
    exec (.demodBlock true) s = .next (s.succeed (demodBlock s x) false s.cfg.nFreq) := by
  have hpop : popMany Elem.asReal s.cfg.nSym (Cursor.start s.opq) = .ok (x, ⟨x.length, []⟩) :=
    hops ▸ hlen ▸ popMany_all asReal_real x
  rw [leavesNumRange, realCalcs, State.popped_eq hpop] at hr
  refine runCommand_of_body_reals (.demodBlock true) rfl (by rw [hm]; rfl) (by simp [hm]) hr ?_
  rw [if_pos rfl, demodDirect, hpop]
  rfl

/-- Settles O36: the command projects its operands; the carriers are orthogonal over a block, so a projection has the
amplitude with which the modulator has put its carrier into the block. -/
theorem demodDirect_invertsModulator : Obligations.DemodDirect := by
  unfold Obligations.DemodDirect
  refine ⟨fun s x hm hlen hops hr => ?command, fun run m nSym x carrier hnum hx hc => ?projection,
    fun b modulate demod c syms m hb hmod hdemod hmult hnodup hs hm => ?block,
    fun b modulate demod c z m pilot hb hmod hdemod hmult hnodup hm hpilot => ?pilot⟩
  case command => exact exec_demodDirect hm hlen hops hr
  case projection => exact val_projectBlock hnum m hx hc
  case block =>
    refine project_sum_carriers hb hdemod hmult hnodup hm
      (fun p => (syms.getD p Cplx.zero).val / c.mult.length) fun k hk => ?_
    refine (val_modSample (column := carrierColumn (carrierTable b c) k) hmod k hs (length_carrierColumn k)).trans ?_
    rw [Finset.mul_sum, Complex.re_sum]
    refine Finset.sum_congr rfl fun p hp => ?_
    have hp := Finset.mem_range.mp hp
    rw [carrierColumn_getD k hp, val_carrierTable hb hp hk]
    ring_nf
  case pilot =>
    refine project_sum_carriers hb hdemod hmult hnodup hm (fun p => if p = pilot then z.val else 0) fun k hk => ?_
    rw [val_pilotSample hmod, val_carrierTable hb hpilot hk]
    simp [apply_ite, hpilot]

end Sys2Proof.Machine
end

section
/-!
`DEMOD.BLOCK` on the block that the sampler gives (spec/44 R192).
-/

namespace Sys2Proof.Machine

/-! ## A body that has succeeded -/

/-- A command that may run and whose body succeeds answers a next state where it stays in the range of `NUM`, and only
there (93 U2 (b)). -/
theorem runCommand_ok_next_iff {i : Instr} {s u : State} {d : Done} (hwf : i.wellFormed s.build.nfir = true)
    (hm : modeAllows i s.mode = true) :
    runCommand i s (.ok d) = .next u ↔ d.calcs.any Calc.leavesRange = false ∧ u = d.commit := by
  cases hr : d.calcs.any Calc.leavesRange with
  | false => simp [runCommand_ok i s d hwf hm hr, eq_comm]
  | true => simp [runCommand_refused hwf hm hr]

/-! ## The take -/

/-- `take` leaves what a block is projected with (R213; 10 R20). -/
theorem Moves.demodBlock_eq {s t : State} (h : Moves s t) (x : List ExactReal) : demodBlock t x = demodBlock s x := by
  rw [h.same]
  rfl

theorem Moves.mode_eq {s t : State} (h : Moves s t) : t.mode = s.mode := by
  rw [h.same]

/-- `RSMP.TAKE` in `READY` on a sampler, where its outputs stay in the range of `NUM` (R213). -/
theorem exec_rsmpTake {s t : State} {n : Count} {out : List ExactReal} (hm : s.mode = .ready)
    (hc : s.rs.created = true) (hops : s.opq = []) (htake : takeSamples n.toNat s = (out, t))
    (hr : (takeCalcs n.toNat s).any Calc.leavesRange = false) :
    exec (.rsmpTake n) s = .next (t.succeed (out.map Elem.real) t.rs.eof out.length) := by
  have hmode : t.mode = .ready := by simpa only [htake, hm] using (takeSamples_moves n.toNat s).mode_eq
  have hbody : exec (.rsmpTake n) s = runCommand (.rsmpTake n) s (.ok
      { state := t, results := out.map Elem.real, eos := t.rs.eof, count := out.length,
        calcs := takeCalcs n.toNat s }) := by
    refine congrArg (runCommand _ s) ((noOperands_bind_of_nil hops).trans
      ((raiseIf_bind_of_not (ne_false_of_eq_true hc)).trans ?_))
    rw [htake]
  rw [hbody, runCommand_ok _ s _ rfl (by rw [hm]; rfl) hr, Done.commit_eq _ (by simp [hmode])]

/-! ## The command -/

section

variable {s t : State} {x : List ExactReal} (hm : s.mode = .ready) (hc : s.rs.created = true) (hops : s.opq = [])
  (hx : takeSamples s.cfg.nSym s = (x, t))

include hc hops hx

/-- On a sampler the body of `DEMOD.BLOCK` succeeds, with no results where the block is short (R192). -/
theorem demodStream_eq : demodStream s = .ok
    { state := t, results := if x.length < s.cfg.nSym then [] else demodBlock t x, eos := t.rs.eof,
      count := if x.length < s.cfg.nSym then 0 else s.cfg.nFreq, calcs := realCalcs s (.demodBlock false) } := by
  refine (noOperands_bind_of_nil hops).trans ((raiseIf_bind_of_not (ne_false_of_eq_true hc)).trans ?_)
  rw [realCalcs, hx]
  by_cases hshort : x.length < s.cfg.nSym
  · simp only [if_pos hshort, List.append_nil]
  · simp only [if_neg hshort]

include hm

/-- `DEMOD.BLOCK` on a sampler completes where what it computes stays in the range of `NUM`, and only there (R192). -/
theorem exec_demodStream_next_iff {u : State} : exec (.demodBlock false) s = .next u ↔
    leavesNumRange (.demodBlock false) s = false ∧
    u = t.succeed (if x.length < s.cfg.nSym then [] else demodBlock s x) t.rs.eof
      (if x.length < s.cfg.nSym then 0 else s.cfg.nFreq) := by
  have hmoves : Moves s t := by simpa only [hx] using takeSamples_moves s.cfg.nSym s
  have hbody : exec (.demodBlock false) s = runCommand (.demodBlock false) s (demodStream s) := rfl
  rw [hbody, demodStream_eq hc hops hx, runCommand_ok_next_iff rfl (by rw [hm]; rfl),
    Done.commit_eq _ (by simp [hmoves.mode_eq, hm]), hmoves.demodBlock_eq]
  rfl

end

/-- Settles O37: the body is one take of `Nsym` samples, which leaves what a block is projected with; what the take is
computed from is part of what the block is. -/
theorem demodStream_projectsTakenBlock : Obligations.DemodStream := by
  unfold Obligations.DemodStream
  refine ⟨fun s hm hc hops hr => ?block, fun s t n hm hc hn hops h => ?take⟩
  case block =>
    obtain ⟨hle, heof⟩ := takeSamples_length s.cfg.nSym s
    refine ⟨(takeSamples s.cfg.nSym s).1, (takeSamples s.cfg.nSym s).2, rfl, hle, fun hfull => ?full,
      fun hshort => ⟨heof hshort, ?short⟩⟩
    case full =>
      refine (exec_demodStream_next_iff hm hc hops rfl).mpr ⟨hr, ?_⟩
      rw [if_neg hfull.not_lt, if_neg hfull.not_lt]
      rfl
    case short =>
      refine (exec_demodStream_next_iff hm hc hops rfl).mpr ⟨hr, ?_⟩
      rw [if_pos hshort, if_pos hshort, heof hshort]
  case take =>
    obtain ⟨hr, rfl⟩ := (exec_demodStream_next_iff hm hc hops rfl).mp h
    rw [leavesNumRange, realCalcs, List.any_append, Bool.or_eq_false_iff, ← hn] at hr
    refine ⟨_, exec_rsmpTake hm hc hops rfl hr.1, ?_⟩
    rw [hn]
    exact ⟨rfl, rfl⟩

end Sys2Proof.Machine
end

section
/-!
The commands that write or read the sampler's registers (spec/45 R212, R216 to R219): the words that decode to them,
what they do in `READY`, and their faults.
-/

namespace Sys2Proof

/-! ## The words that decode to them -/

theorem whenBothZero_ok {sel : BitVec 4} {n : Count} {i j : Instr} (h : whenBothZero sel n i = .ok j) : j = i := by
  unfold whenBothZero whenCountZero at h
  split_ifs at h
  cases h
  rfl

theorem whenCountZero_ok {n : Count} {i j : Instr} (h : whenCountZero n i = .ok j) : n = 0 ∧ j = i := by
  unfold whenCountZero at h
  split_ifs at h with hn
  cases h
  exact ⟨hn, rfl⟩

theorem decode_rsmpInit {w : CmdWord} (hu : unitOf w = 7) (ho : opOf w = 0) :
    decode w = whenBothZero (selOf w) (countOf w) .rsmpInit := by
  unfold decode
  rw [hu, ho]
  rfl

theorem decode_rsmpRd {w : CmdWord} (hu : unitOf w = 7) (ho : opOf w = 3) :
    decode w = withReg (rdRegOf (selOf w)) fun reg => whenCountZero (countOf w) (.rsmpRd reg) := by
  unfold decode
  rw [hu, ho]
  rfl

theorem RdReg.sel_le (reg : RdReg) : reg.sel.toNat ≤ 3 := by
  cases reg <;> decide

/-- The words of `RSMP.RD` (R95: "register 0 to 3"). -/
theorem decode_rsmpRd_ok_iff {w : CmdWord} {i : Instr} (hu : unitOf w = 7) (ho : opOf w = 3) :
    decode w = .ok i ↔
      (selOf w).toNat ≤ 3 ∧ countOf w = 0 ∧ ∃ reg, i = .rsmpRd reg ∧ selOf w = RdReg.sel reg := by
  constructor
  · intro h
    rw [decode_rsmpRd hu ho] at h
    cases hr : rdRegOf (selOf w) with
    | none => rw [hr] at h; cases h
    | some reg =>
      rw [hr, withReg_some] at h
      obtain ⟨hn, rfl⟩ := whenCountZero_ok h
      have hsel := sel_of_rdRegOf hr
      exact ⟨hsel ▸ reg.sel_le, hn, reg, rfl, hsel⟩
  · rintro ⟨_, hn, reg, rfl, hsel⟩
    exact decode_eq_ok_iff.mpr (formatN_eq_of_fields (congrArg BitVec.toNat hu) (congrArg BitVec.toNat ho) hsel hn)

end Sys2Proof

namespace Sys2Proof.Machine

/-! ## The faults that they share -/

section

variable {s : State} {i : Instr}

/-- A command without operands raises `BadOperands(0)` for a non-empty list (R366 (4)). -/
theorem exec_surplus_of_ready (hi : takesNone i = true) (hc : i ≠ .sysConfig) (hwf : i.wellFormed s.build.nfir = true)
    (hm : s.mode = .ready) (hops : s.opq ≠ []) : exec i s = .next (s.failed 2 0) :=
  exec_surplus hi ⟨hwf, .inl ⟨hm, hc⟩⟩ hops

/-- A command of the sampler raises `ModeError` in `UNCONFIGURED` (30 R99). -/
theorem exec_modeError_of_unconfigured (hi : runsUnconfigured i = false) (hwf : i.wellFormed s.build.nfir = true)
    (hm : s.mode = .unconfigured) : exec i s = .next (s.failed 3 (encode i).toNat) :=
  exec_of_modeError hwf (by rw [hm]; decide) (by rw [hm]; exact hi)

/-- Without a sampler the body of a command that needs one raises `NotCreated(0)`. -/
theorem runCommand_of_body_notCreated {body : Except Raise Done} (hwf : i.wellFormed s.build.nfir = true)
    (hm : modeAllows i s.mode = true) (hb : body = .error ⟨.notCreated, 0⟩) :
    runCommand i s body = .next (s.failed 7 0) :=
  runCommand_of_body_error i ⟨.notCreated, 0⟩ hwf hm hb

end

section

variable {β : Type} {s : State} {f : Unit → Except Raise β}

/-- The check for a sampler passes where there is one. -/
theorem needSampler_bind_of_created (h : s.rs.created = true) : (needSampler s >>= f) = f () :=
  raiseIf_bind_of_not (ne_false_of_eq_true h)

theorem needSampler_bind_of_not_created (h : s.rs.created = false) :
    (needSampler s >>= f) = .error ⟨.notCreated, 0⟩ :=
  raiseIf_bind_of h

end

/-! ## `RSMP.INIT` -/

/-- Settles O39: the command completes with the initial sampler; the words are one, because the decoder wants `sel` and
`n` to be zero. -/
theorem rsmpInit : Obligations.RsmpInit := by
  unfold Obligations.RsmpInit
  refine ⟨fun s hm hops => ?completes, fun s hm => exec_modeError_of_unconfigured rfl rfl hm,
    fun s hm hops => exec_surplus_of_ready rfl nofun rfl hm hops, fun w i hu ho => ⟨fun h => ?word, ?decodes⟩⟩
  case completes =>
    exact runCommand_of_body_pure .rsmpInit rfl (by rw [hm]; rfl) (by simp [hm]) (noOperands_bind_of_nil hops)
  case word =>
    have hi := whenBothZero_ok ((decode_rsmpInit hu ho).symm.trans h)
    exact ⟨(decode_eq_ok_iff.mp (hi ▸ h)).symm, hi⟩
  case decodes =>
    rintro ⟨rfl, rfl⟩
    exact decodeOfEncode .rsmpInit

/-! ## `RSMP.WR` -/

/-- On one real `RSMP.WR` does what its range check answers (R216). -/
theorem exec_rsmpWr_eq {s : State} {reg : WrReg} {v : ExactReal} (hc : s.rs.created = true)
    (hops : s.opq = [Elem.real v]) : exec (.rsmpWr reg) s = runCommand (.rsmpWr reg) s
      (writeReg reg v s.rs >>= fun r => .ok (Done.pure { s with rs := r } [] 0)) := by
  refine congrArg (runCommand _ s) ((needSampler_bind_of_created hc).trans ?_)
  rw [hops]
  rfl

section

variable {s : State} {reg : WrReg} (hm : s.mode = .ready)

include hm

theorem exec_rsmpWr_notCreated (hc : s.rs.created = false) : exec (.rsmpWr reg) s = .next (s.failed 7 0) :=
  runCommand_of_body_notCreated rfl (by rw [hm]; rfl) (needSampler_bind_of_not_created hc)

variable (hc : s.rs.created = true)

include hc

/-- The pop comes before the range check, so a missing or wrong element is reported as element 0. -/
theorem exec_rsmpWr_unreadable
    (hops : s.opq = [] ∨ ∃ e rest, s.opq = e :: rest ∧ ElemType.accepts .r e = false) :
    exec (.rsmpWr reg) s = .next (s.failed 2 0) := by
  have hpop : popAs Elem.asReal (Cursor.start s.opq) = .error (badOperands 0) := by
    rcases hops with hnil | ⟨e, rest, hcons, he⟩
    · rw [hnil]
      exact popAs_nil _ _
    · rw [hcons]
      exact popAs_none _ _ _ _ (by simpa [accepts_r] using he)
  exact runCommand_of_body_error (.rsmpWr reg) (badOperands 0) rfl (by rw [hm]; rfl)
    ((needSampler_bind_of_created hc).trans (by rw [hpop]; rfl))

variable {v : ExactReal} (hops : s.opq = [Elem.real v])

include hops

theorem exec_rsmpWr_writes {r : Sampler} (hw : writeReg reg v s.rs = .ok r) :
    exec (.rsmpWr reg) s = .next (({ s with rs := r } : State).succeed [] false 0) := by
  rw [exec_rsmpWr_eq hc hops, hw]
  exact runCommand_of_body_pure (.rsmpWr reg) rfl (by rw [hm]; rfl) (by simp [hm]) rfl

theorem exec_rsmpWr_badValue {info : Nat} (hw : writeReg reg v s.rs = .error (badOperands info)) :
    exec (.rsmpWr reg) s = .next (s.failed 2 info) := by
  rw [exec_rsmpWr_eq hc hops, hw]
  exact runCommand_of_body_error (.rsmpWr reg) (badOperands info) rfl (by rw [hm]; rfl) rfl

end

/-- Settles O44: the range check of each register is the sign test of the number. -/
theorem rsmpWr : Obligations.RsmpWr := by
  unfold Obligations.RsmpWr
  refine ⟨fun s v hm hc hops => ⟨fun hv => ?freq, fun hv => ?badFreq, fun hv => ?offset, fun hv => ?badOffset⟩,
    fun s reg hm hc hops => exec_rsmpWr_unreadable hm hc hops, fun s reg hm hc => exec_rsmpWr_notCreated hm hc⟩
  case freq => exact exec_rsmpWr_writes hm hc hops (if_pos (v.positive_iff.mpr hv))
  case badFreq => exact exec_rsmpWr_badValue hm hc hops (if_neg (mt v.positive_iff.mp hv.not_gt))
  case offset => exact exec_rsmpWr_writes hm hc hops (if_neg (mt v.negative_iff.mp hv.not_gt))
  case badOffset => exact exec_rsmpWr_badValue hm hc hops (if_pos (v.negative_iff.mpr hv))

/-! ## `RSMP.RD` -/

/-- Settles O45: reading writes nothing, and a register number is a `sel` of 0 to 3. -/
theorem rsmpRd : Obligations.RsmpRd := by
  unfold Obligations.RsmpRd
  refine ⟨fun s reg hm hc hops => ?reads, fun s reg hm hops => exec_surplus_of_ready rfl nofun rfl hm hops,
    fun s reg hm hc hops => ?notCreated, fun s reg hm => exec_modeError_of_unconfigured rfl rfl hm,
    fun w i hu ho => decode_rsmpRd_ok_iff hu ho⟩
  case reads =>
    have hread : exec (.rsmpRd reg) s = .next (s.succeed [readReg reg s.rs] false 1) :=
      runCommand_of_body_pure (.rsmpRd reg) rfl (by rw [hm]; rfl) (by simp [hm])
        ((noOperands_bind_of_nil hops).trans (needSampler_bind_of_created hc))
    rw [hread]
    cases reg with
    | eqsel => cases hsel : s.rs.eqsel <;> simp only [readReg, hsel]
    | _ => rfl
  case notCreated =>
    exact runCommand_of_body_notCreated rfl (by rw [hm]; rfl)
      ((noOperands_bind_of_nil hops).trans (needSampler_bind_of_not_created hc))

/-! ## `RSMP.ATTACH` and `RSMP.DETACH` -/

section

variable {s : State} {c : Ctx} (hm : s.mode = .ready) (hops : s.opq = [])

include hm hops

theorem exec_rsmpAttach_notCreated (hb : c.toNat < s.build.nfir) (hc : s.rs.created = false) :
    exec (.rsmpAttach c) s = .next (s.failed 7 0) :=
  runCommand_of_body_notCreated (decide_eq_true hb) (by rw [hm]; rfl)
    ((noOperands_bind_of_nil hops).trans (needSampler_bind_of_not_created hc))

/-- A context must be loaded to be attached (R218). -/
theorem exec_rsmpAttach_notLoaded (hb : c.toNat < s.build.nfir) (hc : s.rs.created = true)
    (hn : (s.firCtx c).ntaps = 0) : exec (.rsmpAttach c) s = .next (s.failed 6 c.toNat) :=
  runCommand_of_body_error (.rsmpAttach c) ⟨.notLoaded, c.toNat⟩ (decide_eq_true hb) (by rw [hm]; rfl)
    ((noOperands_bind_of_nil hops).trans ((needSampler_bind_of_created hc).trans (raiseIf_bind_of hn)))

theorem exec_rsmpAttach (hb : c.toNat < s.build.nfir) (hc : s.rs.created = true) (hn : (s.firCtx c).ntaps ≠ 0) :
    exec (.rsmpAttach c) s = .next (({ s with rs := { s.rs with eqsel := some c } } : State).succeed [] false 0) :=
  runCommand_of_body_pure (.rsmpAttach c) (decide_eq_true hb) (by rw [hm]; rfl) (by simp [hm])
    ((noOperands_bind_of_nil hops).trans ((needSampler_bind_of_created hc).trans (raiseIf_bind_of_not hn)))

theorem exec_rsmpDetach_notCreated (hc : s.rs.created = false) : exec .rsmpDetach s = .next (s.failed 7 0) :=
  runCommand_of_body_notCreated rfl (by rw [hm]; rfl)
    ((noOperands_bind_of_nil hops).trans (needSampler_bind_of_not_created hc))

theorem exec_rsmpDetach (hc : s.rs.created = true) :
    exec .rsmpDetach s = .next (({ s with rs := { s.rs with eqsel := none } } : State).succeed [] false 0) :=
  runCommand_of_body_pure .rsmpDetach rfl (by rw [hm]; rfl) (by simp [hm])
    ((noOperands_bind_of_nil hops).trans (needSampler_bind_of_created hc))

end

/-- Settles O46: the checks of the bodies in their order, and before them those of R366. -/
theorem attachAndDetach : Obligations.AttachAndDetach := by
  unfold Obligations.AttachAndDetach
  refine ⟨fun s c hm hb hops => ⟨exec_rsmpAttach_notCreated hm hops hb, exec_rsmpAttach_notLoaded hm hops hb,
      exec_rsmpAttach hm hops hb⟩,
    fun s hm hops => ⟨exec_rsmpDetach_notCreated hm hops, exec_rsmpDetach hm hops⟩,
    fun s c hf => ⟨fun hb => ?illegal, fun hb hm => exec_modeError_of_unconfigured rfl (decide_eq_true hb) hm,
      fun hm => exec_modeError_of_unconfigured rfl rfl hm,
      fun hb hm hops => exec_surplus_of_ready rfl nofun (decide_eq_true hb) hm hops,
      fun hm hops => exec_surplus_of_ready rfl nofun rfl hm hops⟩⟩
  case illegal => exact exec_of_not_wellFormed hf (decide_eq_false hb.not_gt)

end Sys2Proof.Machine
end

section
/-!
What the commands of the sampler and `DEMOD.BLOCK` leave unchanged (spec/44 R192; spec/45 R212, R213, R215, R216, R218,
R219).
-/

namespace Sys2Proof.Machine

/-! ## The sampler's registers -/

/-- A successful `RSMP.WR` changes the one register it names (R216). -/
theorem writeReg_frame {reg : WrReg} {v : ExactReal} {r r' : Sampler} (h : writeReg reg v r = .ok r') :
    (reg = .freq → r' = { r with freq := r'.freq }) ∧ (reg = .offset → r' = { r with offset := r'.offset }) := by
  cases reg with
  | freq =>
    simp only [writeReg] at h
    split at h <;> cases h
    exact ⟨fun _ => rfl, nofun⟩
  | offset =>
    simp only [writeReg] at h
    split at h <;> cases h
    exact ⟨nofun, fun _ => rfl⟩

section

variable {i : Instr} {s t : State} (h : exec i s = .next t)

include h

/-- `RSMP.INIT` writes `RS_*` only (R212). -/
theorem exec_rsmpInit_registers (hi : i = .rsmpInit) : ∃ r, t.registers = { s.registers with rs := r } := by
  subst hi
  rcases exec_next_registers h with ⟨_, ht⟩ | ⟨d, rfl, ht, _⟩
  · exact ⟨s.rs, ht⟩
  · exact ⟨_, ht⟩

/-- `RSMP.WR` writes the register it names (R216). -/
theorem exec_rsmpWr_registers {reg : WrReg} (hi : i = .rsmpWr reg) : ∃ r, t.registers = { s.registers with rs := r } ∧
    (reg = .freq → r = { s.rs with freq := r.freq }) ∧ (reg = .offset → r = { s.rs with offset := r.offset }) := by
  subst hi
  rcases exec_next_registers h with ⟨_, ht⟩ | ⟨d, ⟨v, r, _, hw, rfl⟩, ht, _⟩
  · exact ⟨s.rs, ht, fun _ => rfl, fun _ => rfl⟩
  · exact ⟨r, ht, writeReg_frame hw⟩

/-- `RSMP.ATTACH` and `RSMP.DETACH` write `RS_EQSEL` (R218, R219). -/
theorem exec_rsmpAttachOrDetach_registers (hi : (∃ c, i = .rsmpAttach c) ∨ i = .rsmpDetach) :
    ∃ sel, t.registers = { s.registers with rs := { s.rs with eqsel := sel } } := by
  rcases exec_next_registers h with ⟨_, ht⟩ | ⟨d, hd, ht, _⟩
  · exact ⟨s.rs.eqsel, ht⟩
  · rcases hi with ⟨c, rfl⟩ | rfl
    · obtain ⟨_, _, rfl⟩ := hd
      exact ⟨some c, ht⟩
    · obtain ⟨_, rfl⟩ := hd
      exact ⟨none, ht⟩

/-! ## The take -/

/-- Every completed take, and every `DEMOD.BLOCK`, moves as `take` does (R192, R213). -/
theorem exec_take_moves (hi : (∃ n, i = .rsmpTake n) ∨ ∃ d, i = .demodBlock d) :
    ∃ u, Moves s u ∧ t.registers = u.registers := by
  rcases exec_next_registers h with ⟨_, ht⟩ | ⟨d, hd, ht, _⟩
  · exact ⟨s, .refl s, ht⟩
  · rcases hi with ⟨n, rfl⟩ | ⟨_ | _, rfl⟩
    · obtain ⟨_, rfl⟩ := hd
      exact ⟨_, takeSamples_moves n.toNat s, ht⟩
    · obtain ⟨_, _, _, rfl⟩ := hd
      exact ⟨_, takeSamples_moves s.cfg.nSym s, ht⟩
    · obtain ⟨_, _, rfl⟩ := hd
      exact ⟨s, .refl s, ht⟩

end

section

variable {s t u : State} (h : Moves s u)

include h

/-- `take` keeps the step, the attached context and the sampler itself. -/
theorem Moves.rs_eq : u.rs = { s.rs with
    buff := u.rs.buff, pad := u.rs.pad, index := u.rs.index, offset := u.rs.offset, eof := u.rs.eof } :=
  (congrArg State.rs h.same :)

theorem Moves.registers_eq :
    u.registers = { s.registers with rs := u.rs, fir := u.fir, src := u.src, srcEof := u.srcEof } := by
  refine (congrArg State.registers h.same).trans ?_
  conv_rhs => rw [h.rs_eq]
  rfl

/-- What `take` may change, in the terms in which a frame compares. -/
theorem Moves.frame (ht : t.registers = u.registers) :
    t.registers = { s.registers with rs := t.rs, fir := t.fir, src := t.src, srcEof := t.srcEof } ∧
    t.rs = { s.rs with
      buff := t.rs.buff, pad := t.rs.pad, index := t.rs.index, offset := t.rs.offset, eof := t.rs.eof } ∧
    s.rs.index ≤ t.rs.index ∧ (∃ front, s.src = front ++ t.src) ∧
    (∀ c, s.rs.eqsel ≠ some c → t.firCtx c = s.firCtx c) ∧
    ∀ c, (t.firCtx c).ntaps = (s.firCtx c).ntaps ∧ (t.firCtx c).h = (s.firCtx c).h := by
  have hrs : t.rs = u.rs := (congrArg State.rs ht :)
  have hsrc : t.src = u.src := (congrArg State.src ht :)
  have heof : t.srcEof = u.srcEof := (congrArg State.srcEof ht :)
  have hfir : t.fir = u.fir := fir_of_registers ht
  rw [ht, hrs, hsrc, heof, hfir]
  simp only [State.firCtx_congr hfir]
  exact ⟨h.registers_eq, h.rs_eq, h.forward, h.pulled, h.others, h.taps⟩

end

/-- Settles O58: the registers after a command are those before with a write to the sampler. -/
theorem frameOfSamplerRegisters : Obligations.FrameOfSamplerRegisters := by
  unfold Obligations.FrameOfSamplerRegisters
  refine fun i s t h => ⟨fun hi => ⟨?registers, ?status⟩, fun hi => ?freq, fun hi => ?offset, fun hi => ?eqsel⟩
  case registers =>
    have writes : ∃ r, t.registers = { s.registers with rs := r } := by
      rcases hi with hi | ⟨reg, hi⟩ | hi
      · exact exec_rsmpInit_registers h hi
      · obtain ⟨r, ht, _⟩ := exec_rsmpWr_registers h hi
        exact ⟨r, ht⟩
      · obtain ⟨sel, ht⟩ := exec_rsmpAttachOrDetach_registers h hi
        exact ⟨_, ht⟩
    obtain ⟨r, ht⟩ := writes
    obtain rfl : t.rs = r := congrArg State.rs ht
    exact ht
  case status =>
    rcases hi with rfl | ⟨_, rfl⟩ | ⟨_, rfl⟩ | rfl <;> exact exec_sameStatusOrFault h nofun nofun
  case freq =>
    obtain ⟨r, ht, hfreq, _⟩ := exec_rsmpWr_registers h hi
    obtain rfl : t.rs = r := congrArg State.rs ht
    exact hfreq rfl
  case offset =>
    obtain ⟨r, ht, _, hoffset⟩ := exec_rsmpWr_registers h hi
    obtain rfl : t.rs = r := congrArg State.rs ht
    exact hoffset rfl
  case eqsel =>
    obtain ⟨sel, ht⟩ := exec_rsmpAttachOrDetach_registers h hi
    have hrs : t.rs = { s.rs with eqsel := sel } := congrArg State.rs ht
    rw [hrs]

/-- Settles O59: what the two commands leave is what `take` leaves, or the state itself. -/
theorem frameOfTake : Obligations.FrameOfTake := by
  unfold Obligations.FrameOfTake
  intro i s t h hi
  obtain ⟨u, hmoves, ht⟩ := exec_take_moves h hi
  obtain ⟨hregisters, hframe⟩ := hmoves.frame ht
  refine ⟨hregisters, ?status, hframe⟩
  case status => rcases hi with ⟨_, rfl⟩ | ⟨_, rfl⟩ <;> exact exec_sameStatusOrFault h nofun nofun

end Sys2Proof.Machine
end

section
/-!
The split of the offset into whole samples and a phase (spec/45 R207).
-/

namespace Sys2Proof.Machine

/-- The phase stays inside the table, in every build (R207). -/
theorem Sampler.phase_lt (run : Calc) (r : Sampler) {resolution : Nat} (h : 1 ≤ resolution) :
    r.phase run resolution < resolution :=
  Nat.lt_of_le_of_lt (Nat.min_le_left ..) (Nat.sub_one_lt_of_lt h)

/-- `k` is the integer part of an offset that is not negative. -/
theorem Sampler.whole_eq {r : Sampler} (h : 0 ≤ r.offset.val) : (r.whole : Int) = ⌊r.offset.val⌋ := by
  rw [Sampler.whole, r.offset.floor_eq, Int.toNat_of_nonneg (Int.floor_nonneg.mpr h)]

section

variable {run : Calc} (hrun : run.num = .reference) (r : Sampler) (resolution : Nat)

include hrun

/-- In the reference semantics the phase is that of R207 over the reals. -/
theorem Sampler.phase_eq : r.phase run resolution =
    min (resolution - 1) ⌊(r.offset.val - r.whole) * resolution⌋.toNat := by
  rw [Sampler.phase, numValue_reference _ _ _ _ hrun, ExactReal.floor_eq, ExactReal.val_times, ExactReal.val_minus,
    ExactReal.val_nat, ExactReal.val_nat]

/-- In exact arithmetic the `min` of R207 never acts. -/
theorem Sampler.phase_eq_floor (hr : 1 ≤ resolution) (h : 0 ≤ r.offset.val) :
    (r.phase run resolution : Int) = ⌊(r.offset.val - r.whole) * resolution⌋ := by
  have hres : (0 : ℝ) < resolution := by exact_mod_cast hr
  have hfract : r.offset.val - r.whole = Int.fract r.offset.val := by
    rw [Int.fract, ← r.whole_eq h, Int.cast_natCast]
  have hnonneg : 0 ≤ ⌊(r.offset.val - r.whole) * resolution⌋ := by
    rw [hfract]
    exact Int.floor_nonneg.mpr (mul_nonneg (Int.fract_nonneg _) hres.le)
  have hlt : ⌊(r.offset.val - r.whole) * resolution⌋ < resolution := by
    rw [hfract, Int.floor_lt, Int.cast_natCast]
    exact mul_lt_of_lt_one_left hres (Int.fract_lt_one _)
  rw [r.phase_eq hrun]
  omega

end

/-- Settles O40: with `o - k` the fractional part of the offset, `(o - k) resolution` lies in `[0, resolution)`, and the
phase is its integer part. -/
theorem offsetSplit : Obligations.OffsetSplit := by
  unfold Obligations.OffsetSplit
  refine ⟨fun run r resolution hr => r.phase_lt run hr, fun run r resolution hrun h hr => ?_⟩
  have hres : (0 : ℝ) < resolution := by exact_mod_cast hr
  have hj := r.phase_eq_floor hrun resolution hr h
  obtain ⟨hle, hlt⟩ := Int.floor_eq_iff.mp hj.symm
  rw [Int.cast_natCast] at hle hlt
  refine ⟨r.whole_eq h, r.phase_eq hrun resolution, r.phase_lt run hr, ?lower, ?upper⟩
  case lower =>
    have := (div_le_iff₀ hres).mpr hle
    linarith
  case upper =>
    have := (lt_div_iff₀ hres).mpr hlt
    linarith

end Sys2Proof.Machine
end

section
/-!
`RSMP.TAKE`: one take after another, as procedures and as commands, and one output of it (spec/45 R213; spec/60 R372).
-/

namespace Sys2Proof.Machine

/-! ## Two takes and one -/

/-- A take in two parts, of which the second comes only where the first was not cut short (R213). -/
theorem takeSamples_add (a b : Nat) (s : State) : takeSamples (a + b) s =
    if (takeSamples a s).1.length = a then
      ((takeSamples a s).1 ++ (takeSamples b (takeSamples a s).2).1, (takeSamples b (takeSamples a s).2).2)
    else takeSamples a s := by
  induction a generalizing s with
  | zero => simp [takeSamples]
  | succ a ih =>
    rw [Nat.add_right_comm]
    cases hone : takeOne s with
    | mk y s' =>
      cases y with
      | none => rw [takeSamples_none _ s s' hone, takeSamples_none _ s s' hone]; rfl
      | some y =>
        rw [takeSamples_some _ s s' y hone, takeSamples_some _ s s' y hone, ih s']
        simp only [List.length_cons, Nat.add_right_cancel_iff, apply_ite]
        split <;> rfl

/-! ## The next sample and the post-equalizer, case by case -/

section

variable {s : State}

theorem State.nextPadded_of_padding (h : 0 < s.rs.pad) :
    s.nextPadded = (some (.rat 0), { s with rs := { s.rs with pad := s.rs.pad - 1 } }) := if_pos h

theorem State.nextPadded_of_no_padding (h : ¬ 0 < s.rs.pad) : s.nextPadded = s.pull := if_neg h

theorem State.pull_of_eof (h : s.srcEof = true) : s.pull = (none, s) := if_pos h

theorem State.pull_of_nil (h : s.srcEof = false) (hs : s.src = []) : s.pull = (none, { s with srcEof := true }) := by
  simp [State.pull, h, hs]

theorem State.pull_of_cons {v : ExactReal} {rest : List ExactReal} (h : s.srcEof = false) (hs : s.src = v :: rest) :
    s.pull = (some v, { s with src := rest }) := by
  simp [State.pull, h, hs]

theorem State.equalize_of_none (h : s.rs.eqsel = none) (y : ExactReal) : s.equalize y = (y, s) := by
  simp only [State.equalize, h]

theorem State.equalize_of_some {c : Ctx} (h : s.rs.eqsel = some c) (y : ExactReal) :
    s.equalize y = firStep c y s := by
  simp only [State.equalize, h]

end

/-! ## Operands, results and records are nothing to a take -/

section

variable (s : State) (opq resq : List Elem) (completions : List Completion)

@[simp] theorem State.withQueues_rs : (s.withQueues opq resq completions).rs = s.rs := rfl
@[simp] theorem State.withQueues_cfg : (s.withQueues opq resq completions).cfg = s.cfg := rfl
@[simp] theorem State.withQueues_src : (s.withQueues opq resq completions).src = s.src := rfl
@[simp] theorem State.withQueues_srcEof : (s.withQueues opq resq completions).srcEof = s.srcEof := rfl
@[simp] theorem State.withQueues_missing : (s.withQueues opq resq completions).missing = s.missing := rfl
@[simp] theorem takeCalc_withQueues : takeCalc (s.withQueues opq resq completions) = takeCalc s := rfl

theorem State.pull_withQueues : (s.withQueues opq resq completions).pull =
    (s.pull.1, s.pull.2.withQueues opq resq completions) := by
  cases he : s.srcEof with
  | true => rw [State.pull_of_eof he, State.pull_of_eof (s := s.withQueues opq resq completions) he]
  | false =>
    cases hs : s.src with
    | nil =>
      rw [State.pull_of_nil he hs, State.pull_of_nil (s := s.withQueues opq resq completions) he hs]
      rfl
    | cons v rest =>
      rw [State.pull_of_cons he hs, State.pull_of_cons (s := s.withQueues opq resq completions) he hs]
      rfl

theorem State.nextPadded_withQueues : (s.withQueues opq resq completions).nextPadded =
    (s.nextPadded.1, s.nextPadded.2.withQueues opq resq completions) := by
  by_cases hpad : 0 < s.rs.pad
  · rw [State.nextPadded_of_padding hpad, State.nextPadded_of_padding (s := s.withQueues opq resq completions) hpad]
    rfl
  · rw [State.nextPadded_of_no_padding hpad,
      State.nextPadded_of_no_padding (s := s.withQueues opq resq completions) hpad, State.pull_withQueues]

theorem fillWindow_withQueues (k : Nat) : fillWindow k (s.withQueues opq resq completions) =
    ((fillWindow k s).1, (fillWindow k s).2.withQueues opq resq completions) := by
  induction k generalizing s with
  | zero => rfl
  | succ k ih =>
    simp only [fillWindow, State.nextPadded_withQueues]
    cases s.nextPadded with
    | mk v s' =>
      cases v with
      | none => rfl
      | some v => exact ih (s'.shiftIn v)

theorem State.equalize_withQueues (y : ExactReal) : (s.withQueues opq resq completions).equalize y =
    ((s.equalize y).1, (s.equalize y).2.withQueues opq resq completions) := by
  cases hsel : s.rs.eqsel with
  | none => rw [State.equalize_of_none hsel, State.equalize_of_none (s := s.withQueues opq resq completions) hsel]
  | some c =>
    rw [State.equalize_of_some hsel, State.equalize_of_some (s := s.withQueues opq resq completions) hsel]
    exact firStep_ignoresQueues c y s opq resq completions

theorem State.interpolate_withQueues (j : Nat) : (s.withQueues opq resq completions).interpolate j =
    ((s.interpolate j).1, (s.interpolate j).2.withQueues opq resq completions) := rfl

theorem takeOne_withQueues : takeOne (s.withQueues opq resq completions) =
    ((takeOne s).1, (takeOne s).2.withQueues opq resq completions) := by
  simp only [takeOne, State.withQueues_missing, fillWindow_withQueues, State.withQueues_rs, State.withQueues_cfg,
    takeCalc_withQueues]
  cases fillWindow s.missing s with
  | mk full s' =>
    cases full with
    | false => rfl
    | true => simp only [State.interpolate_withQueues, State.equalize_withQueues]

theorem State.equalizeCalcs_withQueues (y : ExactReal) :
    (s.withQueues opq resq completions).equalizeCalcs y = s.equalizeCalcs y := by
  simp only [State.equalizeCalcs, State.withQueues_rs]
  cases s.rs.eqsel <;> rfl

theorem takeOneCalcs_withQueues : takeOneCalcs (s.withQueues opq resq completions) = takeOneCalcs s := by
  simp only [takeOneCalcs, State.withQueues_missing, fillWindow_withQueues, State.withQueues_rs,
    State.withQueues_cfg, takeCalc_withQueues]
  cases fillWindow s.missing s with
  | mk full s' =>
    cases full with
    | false => rfl
    | true =>
      simp only [State.interpolate_withQueues, State.equalizeCalcs_withQueues, takeCalc_withQueues]

theorem takeSamples_withQueues (n : Nat) : takeSamples n (s.withQueues opq resq completions) =
    ((takeSamples n s).1, (takeSamples n s).2.withQueues opq resq completions) := by
  induction n generalizing s with
  | zero => rfl
  | succ n ih =>
    simp only [takeSamples, takeOne_withQueues]
    cases takeOne s with
    | mk y s' =>
      cases y with
      | none => rfl
      | some y => simp only [ih]

theorem takeCalcs_withQueues (n : Nat) : takeCalcs n (s.withQueues opq resq completions) = takeCalcs n s := by
  induction n generalizing s with
  | zero => rfl
  | succ n ih =>
    simp only [takeCalcs, takeOneCalcs_withQueues, takeOne_withQueues]
    cases takeOne s with
    | mk y s' =>
      cases y with
      | none => rfl
      | some y => simp only [ih]

end

/-! ## `RSMP.TAKE` -/

/-- `RSMP.TAKE` on a sampler completes where its outputs stay in the range of `NUM`, and only there (R213; 93 U2
(b)). -/
theorem exec_rsmpTake_next_iff {s t : State} {n : Count} (hm : s.mode = .ready) (hc : s.rs.created = true)
    (hops : s.opq = []) :
    exec (.rsmpTake n) s = .next t ↔ (takeCalcs n.toNat s).any Calc.leavesRange = false ∧
      t = (takeSamples n.toNat s).2.succeed ((takeSamples n.toNat s).1.map Elem.real)
        (takeSamples n.toNat s).2.rs.eof (takeSamples n.toNat s).1.length := by
  have hbody : exec (.rsmpTake n) s = runCommand (.rsmpTake n) s (.ok
      { state := (takeSamples n.toNat s).2, results := (takeSamples n.toNat s).1.map Elem.real,
        eos := (takeSamples n.toNat s).2.rs.eof, count := (takeSamples n.toNat s).1.length,
        calcs := takeCalcs n.toNat s }) :=
    congrArg (runCommand _ s) ((noOperands_bind_of_nil hops).trans (needSampler_bind_of_created hc))
  rw [hbody, runCommand_ok_next_iff rfl (by rw [hm]; rfl),
    Done.commit_eq _ (by simp [(takeSamples_moves n.toNat s).mode_eq, hm])]

/-- The end of a command writes operands, results and records alone. -/
theorem State.succeed_eq_withQueues (s : State) (results : List Elem) (eos : Bool) (count : Nat) :
    s.succeed results eos count =
      s.withQueues [] (s.resq ++ results) (s.completions ++ [⟨0, eos, count⟩]) := rfl

theorem Moves.created_eq {s t : State} (h : Moves s t) : t.rs.created = s.rs.created := by
  rw [h.rs_eq]

theorem Moves.resq_eq {s t : State} (h : Moves s t) : t.resq = s.resq := by
  rw [h.same]

/-- Where two takes complete one after the other and the first is not cut short, the two as one take complete, with
the same registers and results (41 R144). -/
theorem exec_rsmpTake_add {s t u : State} {a b n : Count} (hm : s.mode = .ready) (hc : s.rs.created = true)
    (hops : s.opq = []) (hn : n.toNat = a.toNat + b.toNat) (hfirst : exec (.rsmpTake a) s = .next t)
    (heof : t.rs.eof = false) (hsecond : exec (.rsmpTake b) t = .next u) :
    ∃ v, exec (.rsmpTake n) s = .next v ∧ u.registers = v.registers ∧ u.resq = v.resq := by
  have hmoves := takeSamples_moves a.toNat s
  obtain ⟨ha, ht⟩ := (exec_rsmpTake_next_iff hm hc hops).mp hfirst
  have htm : t.mode = .ready := ht ▸ hmoves.mode_eq.trans hm
  have htc : t.rs.created = true := ht ▸ hmoves.created_eq.trans hc
  obtain ⟨hb, rfl⟩ := (exec_rsmpTake_next_iff htm htc (ht ▸ rfl)).mp hsecond
  subst ht
  obtain ⟨hle, hshort⟩ := takeSamples_length a.toNat s
  have hfull : (takeSamples a.toNat s).1.length = a.toNat := by
    refine hle.antisymm (not_lt.mp fun hlt => ?_)
    exact absurd ((hshort hlt).symm.trans heof) nofun
  rw [State.succeed_eq_withQueues, takeCalcs_withQueues] at hb
  refine ⟨_, (exec_rsmpTake_next_iff hm hc hops).mpr ⟨?range, rfl⟩, ?_⟩
  case range => rw [hn, takeCalcs_add b.toNat a.toNat s hfull, List.any_append, ha, hb]; rfl
  rw [State.succeed_eq_withQueues (takeSamples a.toNat s).2, takeSamples_withQueues, hn, takeSamples_add, if_pos hfull]
  refine ⟨rfl, ?_⟩
  simp only [State.succeed, State.withQueues, (takeSamples_moves b.toNat _).resq_eq, List.map_append,
    List.append_assoc]

/-- Settles O41: a take has at most `n` outputs and is a take of the sum of its parts, and it neither reads nor writes
the operands, results and records that the end of its first part writes. -/
theorem rsmpTake : Obligations.RsmpTake := by
  unfold Obligations.RsmpTake
  refine ⟨fun s n hm hc hops hr => ?completes, fun a b s => takeSamples_add a b s,
    fun s t u a b n hm hc hops hn hfirst heof hsecond => exec_rsmpTake_add hm hc hops hn hfirst heof hsecond⟩
  case completes =>
    obtain ⟨hle, hshort⟩ := takeSamples_length n.toNat s
    exact ⟨_, _, rfl, hle, hshort, exec_rsmpTake hm hc hops rfl hr⟩

/-! ## One output -/

/-- The state in which the padding and the source have filled the window for the next output (R213). -/
def State.filled (s : State) : State :=
  { s with
    src := s.src.drop (s.missing - s.rs.pad)
    rs := { s.rs with
      buff := (s.rs.buff ++ s.feed.take s.missing).drop s.missing, pad := s.rs.pad - s.missing,
      index := s.rs.index + s.missing } }

section

variable {s : State} (hsrc : s.srcEof = true → s.src = []) (hbuff : s.rs.buff ≠ [])

include hsrc hbuff

/-- An output for which the padding and the source suffice. -/
theorem takeOne_full {y : ExactReal} {t : State} (h : s.missing ≤ s.feed.length)
    (hy : (s.filled.interpolate (s.rs.phase (takeCalc s) s.cfg.resolution)).2.equalize
      (s.filled.interpolate (s.rs.phase (takeCalc s) s.cfg.resolution)).1 = (y, t)) : takeOne s = (some y, t) := by
  have hfill : fillWindow s.missing s = (true, s.filled) := fillWindow_full s.missing s hsrc hbuff h
  simp only [takeOne, hfill, hy]

/-- An output for which they do not: what was pulled stays in the window. -/
theorem takeOne_short (h : s.feed.length < s.missing) : takeOne s = (none, { s with
    src := [], srcEof := true
    rs := { s.rs with
      buff := (s.rs.buff ++ s.feed).drop s.feed.length, pad := 0, index := s.rs.index + s.feed.length,
      eof := true } }) := by
  simp only [takeOne, fillWindow_short s.missing s hsrc hbuff h]

end

/-- Settles O42: the take of one output is the fill of the window, the interpolator and the attached context. -/
theorem rsmpTakeOne : Obligations.RsmpTakeOne := by
  unfold Obligations.RsmpTakeOne
  rintro s hm hc hops ⟨_, _, hsrc⟩ hbuff hr
  intro need feed
  split_ifs with hlen
  · intro window part j filled y moved
    cases hsel : s.rs.eqsel with
    | none =>
      exact exec_rsmpTake (n := 1) (t := moved) (out := [y]) hm hc hops
        (takeSamples_some 0 s moved y (takeOne_full hsrc hbuff hlen (State.equalize_of_none (s := moved) hsel y))) hr
    | some c =>
      exact exec_rsmpTake (n := 1) (t := (firStep c y moved).2) (out := [(firStep c y moved).1]) hm hc hops
        (takeSamples_some 0 s _ _ (takeOne_full hsrc hbuff hlen (State.equalize_of_some (s := moved) hsel y))) hr
  · exact exec_rsmpTake (n := 1) (out := []) hm hc hops
      (takeSamples_none 0 s _ (takeOne_short hsrc hbuff (not_le.mp hlen))) hr

end Sys2Proof.Machine
end

section
/-!
The outputs of a sampler from `RSMP.INIT` on, in the reference semantics: how many there are, and that at a step of 1
they are the samples of the source (spec/45 R211, R214).
-/

namespace Sys2Proof

/-! ## Sums and products with the numbers 0 and 1, as expressions -/

@[simp] theorem ExactReal.zero_times (x : ExactReal) : (ExactReal.rat 0).times x = .rat 0 := by
  cases x <;> simp [ExactReal.times]

@[simp] theorem ExactReal.one_times (x : ExactReal) : (ExactReal.rat 1).times x = x := by
  cases x <;> simp [ExactReal.times]

@[simp] theorem ExactReal.zero_plus (x : ExactReal) : (ExactReal.rat 0).plus x = x := by
  cases x <;> simp [ExactReal.plus]

@[simp] theorem ExactReal.plus_zero (x : ExactReal) : x.plus (.rat 0) = x := by
  cases x <;> simp [ExactReal.plus]

end Sys2Proof

namespace Sys2Proof.Machine

/-! ## The interpolator with the unit impulse -/

theorem dot_cons (x y : ExactReal) (u v : List ExactReal) : dot (x :: u) (y :: v) = (x.times y).plus (dot u v) := rfl

/-- A row of zeros weighs everything to 0. -/
theorem dot_zeros {u : List ExactReal} (h : ∀ x ∈ u, x = .rat 0) (v : List ExactReal) : dot u v = .rat 0 := by
  induction u generalizing v with
  | nil => rfl
  | cons x u ih =>
    cases v with
    | nil => rfl
    | cons y v =>
      obtain ⟨rfl, hu⟩ := List.forall_mem_cons.mp h
      rw [dot_cons, ExactReal.zero_times, ExactReal.zero_plus, ih hu]

/-- The unit impulse at `k`, as `BANK` holds it: a row of `n` numbers (10 R27). -/
def impulse (n k : Nat) : List ExactReal := (List.range n).map fun i => .rat (if i = k then 1 else 0)

theorem impulse_succ_zero (n : Nat) : ∃ u, impulse (n + 1) 0 = .rat 1 :: u ∧ ∀ x ∈ u, x = .rat 0 := by
  refine ⟨_, by rw [impulse, List.range_succ_eq_map, List.map_cons, if_pos rfl], by simp⟩

theorem impulse_succ_succ (n k : Nat) : impulse (n + 1) (k + 1) = .rat 0 :: impulse n k := by
  simp [impulse, List.range_succ_eq_map]

/-- The unit impulse at `k` picks element `k`, as the same expression. -/
theorem dot_impulse (v : List ExactReal) {k : Nat} (hk : k < v.length) :
    dot (impulse v.length k) v = v.getD k (.rat 0) := by
  induction v generalizing k with
  | nil => exact absurd hk (Nat.not_lt_zero k)
  | cons x v ih =>
    cases k with
    | zero =>
      obtain ⟨u, hu, hzeros⟩ := impulse_succ_zero v.length
      rw [List.length_cons, hu, dot_cons, ExactReal.one_times, dot_zeros hzeros, ExactReal.plus_zero]
      rfl
    | succ k =>
      rw [List.length_cons, impulse_succ_succ, dot_cons, ExactReal.zero_times, ExactReal.zero_plus,
        ih (Nat.lt_of_succ_lt_succ hk), List.getD_cons_succ]

/-- Row 0 of `BANK` (10 R27). -/
theorem bankTable_row_zero {b : Build} {c : Cfg} (hb : b.num = .reference) (hr : 1 ≤ c.resolution) (hw : 1 ≤ c.width) :
    (bankTable b c).getD 0 [] = impulse (2 * c.width) (c.width - 1) := by
  obtain ⟨_, hrow⟩ := bankTable_isWindowedSinc
  exact hrow b c hb hr hw

/-- The window holds the last samples shifted in behind its first zeros; element `i` of it. -/
theorem window_getD {p : List ExactReal} {n k i : Nat} (hn : n ≤ k + i) (hi : i < n) :
    ((List.replicate n (ExactReal.rat 0) ++ p.take k).drop k).getD i (.rat 0) = p.getD (k + i - n) (.rat 0) := by
  rw [List.getD_eq_getElem?_getD, List.getElem?_drop, List.getElem?_append_right (by simpa using hn),
    List.length_replicate, List.getElem?_take_of_lt (by omega), List.getD_eq_getElem?_getD]

/-! ## The stream from `RSMP.INIT` on -/

/-- The state after `RSMP.INIT` and perhaps an `RSMP.WR` of the step, with the source still open (R212). -/
structure StartsStream (s : State) : Prop where
  num : s.build.num = .reference
  resolution : 1 ≤ s.cfg.resolution
  width : 1 ≤ s.cfg.width
  bank : s.bank = bankTable s.build s.cfg
  srcOpen : s.srcEof = false
  freq : 0 < s.rs.freq.val
  rs : s.rs = { Sampler.init s.cfg.width with freq := s.rs.freq }

/-- `t` outputs after `s₀`: the sampler has shifted the first `RS_INDEX` samples of the padded stream `s₀.feed` into the
window, no more than its outputs needed (R211). -/
structure AfterOutputs (s₀ : State) (t : Nat) (s : State) : Prop where
  build : s.build = s₀.build
  cfg : s.cfg = s₀.cfg
  bank : s.bank = s₀.bank
  srcOpen : s.srcEof = false
  eqsel : s.rs.eqsel = none
  freq : s.rs.freq = s₀.rs.freq
  offset : s.rs.offset.val = s₀.cfg.width + 1 + t * s₀.rs.freq.val
  feed : s.feed = s₀.feed.drop s.rs.index
  buff : s.rs.buff = (List.replicate (2 * s₀.cfg.width) (ExactReal.rat 0) ++ s₀.feed.take s.rs.index).drop s.rs.index
  index_le_length : s.rs.index ≤ s₀.feed.length
  index_le_needed : s.rs.index ≤ s.rs.whole + s₀.cfg.width

/-- What is left of the padded stream after a fill. -/
theorem State.filled_feed (s : State) : s.filled.feed = s.feed.drop s.missing := by
  simp only [State.feed, State.filled, List.drop_append, List.drop_replicate, List.length_replicate]

section

variable {s₀ s : State} {t : Nat} (h : AfterOutputs s₀ t s)

include h

/-- After the fill for the next output `RS_INDEX` is as much as that output needs. -/
theorem AfterOutputs.filled_index : s.filled.rs.index = s.rs.whole + s₀.cfg.width := by
  have hneeded := h.index_le_needed
  show s.rs.index + s.missing = _
  rw [State.missing, h.cfg]
  omega

/-- The source is open, so a take finds the flags in agreement (20 R64). -/
theorem AfterOutputs.src_of_eof (he : s.srcEof = true) : s.src = [] := absurd (h.srcOpen.symm.trans he) nofun

theorem AfterOutputs.length_buff : s.rs.buff.length = 2 * s₀.cfg.width := by
  have := h.index_le_length
  rw [h.buff, List.length_drop, List.length_append, List.length_replicate, List.length_take]
  omega

theorem AfterOutputs.offset_of_freq_one (hfreq : s₀.rs.freq = .rat 1) :
    s.rs.offset.val = (s₀.cfg.width + 1 + t : Nat) := by
  rw [h.offset, hfreq, ExactReal.val_rat]
  push_cast
  ring

end

section

variable {s₀ : State} (h₀ : StartsStream s₀)

include h₀

/-- The padded stream of R211. -/
theorem StartsStream.feed_eq : s₀.feed = List.replicate s₀.cfg.width (.rat 0) ++ s₀.src := by
  rw [State.feed, h₀.rs]
  rfl

theorem StartsStream.length_feed : s₀.feed.length = s₀.cfg.width + s₀.src.length := by
  rw [h₀.feed_eq, List.length_append, List.length_replicate]

theorem StartsStream.afterOutputs : AfterOutputs s₀ 0 s₀ := by
  have hindex : s₀.rs.index = 0 := by rw [h₀.rs]; rfl
  have hoffset : s₀.rs.offset = .rat ((s₀.cfg.width : Rat) + 1) := by rw [h₀.rs]; rfl
  refine { build := rfl, cfg := rfl, bank := rfl, srcOpen := h₀.srcOpen, eqsel := ?eqsel, freq := rfl,
           offset := ?offset, feed := ?feed, buff := ?buff, index_le_length := hindex ▸ Nat.zero_le _,
           index_le_needed := hindex ▸ Nat.zero_le _ }
  case eqsel => rw [h₀.rs]; rfl
  case offset =>
    rw [hoffset, ExactReal.val_rat]
    push_cast
    ring
  case feed => rw [hindex, List.drop_zero]
  case buff => rw [hindex, h₀.rs, List.take_zero, List.append_nil, List.drop_zero]; rfl

/-- The integer part of the offset does not fall from one output to the next. -/
theorem StartsStream.floor_le_floor {t u : Nat} (htu : t ≤ u) :
    ⌊(s₀.cfg.width : ℝ) + 1 + t * s₀.rs.freq.val⌋ ≤ ⌊(s₀.cfg.width : ℝ) + 1 + u * s₀.rs.freq.val⌋ := by
  refine Int.floor_le_floor ?_
  have hcast : (t : ℝ) ≤ u := by exact_mod_cast htu
  have := mul_le_mul_of_nonneg_right hcast h₀.freq.le
  linarith

variable {t : Nat} {s : State} (h : AfterOutputs s₀ t s)

include h

theorem AfterOutputs.takeCalc_num : (takeCalc s).num = .reference := (congrArg Build.num h.build).trans h₀.num

theorem AfterOutputs.offset_nonneg : 0 ≤ s.rs.offset.val := by
  rw [h.offset]
  have := mul_nonneg (Nat.cast_nonneg (α := ℝ) t) h₀.freq.le
  positivity

/-- The integer part of the offset for output `t`. -/
theorem AfterOutputs.whole_eq : (s.rs.whole : Int) = ⌊(s₀.cfg.width : ℝ) + 1 + t * s₀.rs.freq.val⌋ := by
  rw [s.rs.whole_eq (h.offset_nonneg h₀), h.offset]

theorem AfterOutputs.buff_ne_nil : s.rs.buff ≠ [] := by
  have := h₀.width
  refine List.ne_nil_of_length_pos ?_
  rw [h.length_buff]
  omega

/-- The source suffices for the next output exactly when its length is at least the integer part of the offset. -/
theorem AfterOutputs.missing_le_iff : s.missing ≤ s.feed.length ↔ s.rs.whole ≤ s₀.src.length := by
  have hle := h.index_le_length
  rw [h₀.length_feed] at hle
  rw [State.missing, h.cfg, h.feed, List.length_drop, h₀.length_feed]
  omega

/-- An output for which the source does not suffice. -/
theorem AfterOutputs.takeOne_none (hw : ¬ s.rs.whole ≤ s₀.src.length) : ∃ s', takeOne s = (none, s') := by
  have hshort := mt (h.missing_le_iff h₀).mp hw
  exact ⟨_, takeOne_short h.src_of_eof (h.buff_ne_nil h₀) (not_le.mp hshort)⟩

theorem AfterOutputs.filled (hw : s.rs.whole ≤ s₀.src.length) : AfterOutputs s₀ t s.filled := by
  have hindex : s.filled.rs.index = s.rs.index + s.missing := rfl
  have hneeded := h.filled_index
  refine { h with feed := ?feed, buff := ?buff, index_le_length := ?length, index_le_needed := hneeded.le }
  case feed => rw [s.filled_feed, h.feed, List.drop_drop, hindex]
  case buff =>
    show (s.rs.buff ++ s.feed.take s.missing).drop s.missing = _
    have hle := h.index_le_length
    rw [hindex, h.buff, h.feed, ← List.drop_append_of_le_length ?_, List.append_assoc, ← List.take_add, List.drop_drop]
    rw [List.length_append, List.length_take]
    omega
  case length =>
    rw [hneeded, h₀.length_feed]
    omega

/-- The interpolator moves the offset on by the step. -/
theorem AfterOutputs.interpolate (j : Nat) : AfterOutputs s₀ (t + 1) (s.interpolate j).2 := by
  have hoffset : (s.interpolate j).2.rs.offset.val = s₀.cfg.width + 1 + (t + 1 : Nat) * s₀.rs.freq.val := by
    simp only [State.interpolate, numValue_reference _ _ _ _ (h.takeCalc_num h₀), ExactReal.val_plus, h.offset, h.freq]
    push_cast
    ring
  have hwhole : s.rs.whole ≤ (s.interpolate j).2.rs.whole := by
    have hle : s.rs.offset.val ≤ (s.interpolate j).2.rs.offset.val := by
      rw [h.offset, hoffset]
      push_cast
      linarith [h₀.freq]
    have hnonneg := h.offset_nonneg h₀
    have hfloor := Int.floor_le_floor hle
    rw [← Sampler.whole_eq hnonneg, ← Sampler.whole_eq (hnonneg.trans hle)] at hfloor
    exact_mod_cast hfloor
  exact { h with offset := hoffset, index_le_needed := h.index_le_needed.trans (Nat.add_le_add_right hwhole _) }

/-- The next output, and the state after it. -/
theorem AfterOutputs.takeOne_some (hw : s.rs.whole ≤ s₀.src.length) : ∃ s',
    takeOne s = (some (dot (s₀.bank.getD (s.rs.phase (takeCalc s) s.cfg.resolution) []) s.filled.rs.buff), s') ∧
      AfterOutputs s₀ (t + 1) s' := by
  have hfilled := h.filled h₀ hw
  have hnext := hfilled.interpolate h₀ (s.rs.phase (takeCalc s) s.cfg.resolution)
  refine ⟨_, takeOne_full h.src_of_eof (h.buff_ne_nil h₀) ((h.missing_le_iff h₀).mpr hw)
    ((State.equalize_of_none hnext.eqsel _).trans ?_), hnext⟩
  simp only [State.interpolate, numValue_reference _ _ _ _ (hfilled.takeCalc_num h₀), hfilled.bank]

/-! ## The number of outputs -/

/-- Of `n` further outputs those exist for which the source is long enough (R214). -/
theorem AfterOutputs.lt_length_takeSamples_iff {n k : Nat} (hk : k < n) : k < (takeSamples n s).1.length ↔
    ⌊(s₀.cfg.width : ℝ) + 1 + (t + k : Nat) * s₀.rs.freq.val⌋ ≤ (s₀.src.length : Int) := by
  induction n generalizing t s k with
  | zero => exact absurd hk (Nat.not_lt_zero k)
  | succ n ih =>
    have hwhole := h.whole_eq h₀
    by_cases hw : s.rs.whole ≤ s₀.src.length
    · obtain ⟨s', hone, hnext⟩ := h.takeOne_some h₀ hw
      rw [takeSamples_some n s s' _ hone]
      cases k with
      | zero =>
        rw [Nat.add_zero, ← hwhole]
        simpa using hw
      | succ k =>
        rw [List.length_cons, Nat.add_lt_add_iff_right, ih hnext (Nat.lt_of_succ_lt_succ hk), Nat.add_right_comm]
        rfl
    · obtain ⟨s', hone⟩ := h.takeOne_none h₀ hw
      rw [takeSamples_none n s s' hone]
      have hle := h₀.floor_le_floor (Nat.le_add_right t k)
      rw [← hwhole] at hle
      exact iff_of_false (Nat.not_lt_zero k) (by omega)

/-! ## The identity at a step of 1 -/

section

variable (hfreq : s₀.rs.freq = .rat 1)

include hfreq

theorem AfterOutputs.whole_of_freq_one : s.rs.whole = s₀.cfg.width + 1 + t := by
  have hwhole := s.rs.whole_eq (h.offset_nonneg h₀)
  rw [h.offset_of_freq_one hfreq, Int.floor_natCast] at hwhole
  exact_mod_cast hwhole

theorem AfterOutputs.phase_of_freq_one : s.rs.phase (takeCalc s) s.cfg.resolution = 0 := by
  rw [s.rs.phase_eq (h.takeCalc_num h₀), h.offset_of_freq_one hfreq, h.whole_of_freq_one h₀ hfreq]
  simp

/-- At a step of 1 the impulse stands on sample `t` of the source. -/
theorem AfterOutputs.takeOne_of_freq_one (ht : s₀.cfg.width + t < s₀.src.length) :
    ∃ s', takeOne s = (some (s₀.src.getD t (.rat 0)), s') ∧ AfterOutputs s₀ (t + 1) s' := by
  have hwhole := h.whole_of_freq_one h₀ hfreq
  have hw : s.rs.whole ≤ s₀.src.length := by omega
  obtain ⟨s', hone, hnext⟩ := h.takeOne_some h₀ hw
  refine ⟨s', ?_, hnext⟩
  have hfilled := h.filled h₀ hw
  have hlen := hfilled.length_buff
  have hwidth := h₀.width
  have hindex : s.filled.rs.index + (s₀.cfg.width - 1) - 2 * s₀.cfg.width = s₀.cfg.width + t := by
    rw [h.filled_index, hwhole]
    omega
  rw [hone, h.phase_of_freq_one h₀ hfreq, h₀.bank, bankTable_row_zero h₀.num h₀.resolution hwidth, ← hlen,
    dot_impulse _ (by omega), hfilled.buff, window_getD (by omega) (by omega), hindex, h₀.feed_eq,
    List.getD_append_right _ _ _ _ (by simp), List.length_replicate, Nat.add_sub_cancel_left]

/-- At a step of 1 the outputs are the samples of the source, but for its last `width` (R214). -/
theorem AfterOutputs.takeSamples_of_freq_one (n : Nat) :
    (takeSamples n s).1 = (s₀.src.drop t).take (min n (s₀.src.length - s₀.cfg.width - t)) := by
  induction n generalizing t s with
  | zero => rw [Nat.zero_min, List.take_zero]; rfl
  | succ n ih =>
    by_cases ht : s₀.cfg.width + t < s₀.src.length
    · obtain ⟨s', hone, hnext⟩ := h.takeOne_of_freq_one h₀ hfreq ht
      have htlt : t < s₀.src.length := by omega
      have hmin : min (n + 1) (s₀.src.length - s₀.cfg.width - t)
          = min n (s₀.src.length - s₀.cfg.width - (t + 1)) + 1 := by omega
      rw [takeSamples_some n s s' _ hone, ih hnext, hmin, List.drop_eq_getElem_cons htlt, List.take_succ_cons,
        List.getD_eq_getElem _ _ htlt]
    · have hwhole := h.whole_of_freq_one h₀ hfreq
      obtain ⟨s', hone⟩ := h.takeOne_none h₀ (by omega)
      have hmin : min (n + 1) (s₀.src.length - s₀.cfg.width - t) = 0 := by omega
      rw [takeSamples_none n s s' hone, hmin, List.take_zero]

end

end

theorem Cfg.Legal.one_le_resolution {b : Build} {c : Cfg} (h : c.Legal b) : 1 ≤ c.resolution := by
  obtain ⟨_, _, _, _, _, _, _, _, _, _, _, _, _, _, _, hresolution, _⟩ := h
  exact hresolution

/-- Settles O43: the outputs one by one, each of which needs `floor(RS_OFFSET) + width` samples of the padded stream; at
a step of 1 the phase is 0, whose row is the unit impulse. -/
theorem takeFromInit : Obligations.TakeFromInit := by
  unfold Obligations.TakeFromInit
  intro s n hnum hcfg hm hopen hfreq hrs
  obtain ⟨hlegal, _, _, hbank, _⟩ := hcfg hm
  have h₀ : StartsStream s := ⟨hnum, hlegal.one_le_resolution, hlegal.one_le_width, hbank, hopen, hfreq, hrs⟩
  refine ⟨fun t ht => ?count, fun hone => ?identity⟩
  case count =>
    have hcount := h₀.afterOutputs.lt_length_takeSamples_iff h₀ ht
    rwa [Nat.zero_add] at hcount
  case identity => exact h₀.afterOutputs.takeSamples_of_freq_one h₀ hone n

end Sys2Proof.Machine
end

section
/-!
The modulator (spec/46): its two commands on their operands, and that no sample of `MOD.BLOCK` is larger than 1 in size
when no symbol is.
-/

namespace Sys2Proof.Machine

/-! ## The commands -/

section

variable {s : State} (hm : s.mode = .ready)

include hm

/-- `MOD.BLOCK` in `READY` on `Nfreq` complex numbers alone (R242). -/
theorem exec_modBlock {syms : List Cplx} (hlen : syms.length = s.cfg.nFreq) (hops : s.opq = syms.map Elem.cplx)
    (hr : leavesNumRange .modBlock s = false) :
    exec .modBlock s = .next (s.succeed (((List.range s.cfg.nSym).map fun k =>
      modSample (tablesCalc .modBlock s) k s.cfg.nFreq syms (carrierColumn s.carrier k)).map Elem.real)
      false s.cfg.nSym) := by
  have hpop : popMany Elem.asCplx s.cfg.nFreq (Cursor.start s.opq) = .ok (syms, ⟨syms.length, []⟩) :=
    hops ▸ hlen ▸ popMany_all asCplx_cplx syms
  refine runCommand_of_body_reals .modBlock rfl (by rw [hm]; rfl) (by simp [hm]) hr ?_
  rw [hpop]
  rfl

/-- `MOD.PILOT` in `READY` on one complex number alone (R243). -/
theorem exec_modPilot {b : Cplx} (hops : s.opq = [.cplx b]) (hr : leavesNumRange .modPilot s = false) :
    exec .modPilot s = .next (s.succeed (((List.range s.cfg.nSym).map fun k =>
      pilotSample (tablesCalc .modPilot s) k b ((s.carrier.getD s.cfg.carrierIndex []).getD k Cplx.zero)).map Elem.real)
      false s.cfg.nSym) := by
  have hpop : popAs Elem.asCplx (Cursor.start s.opq) = .ok (b, ⟨1, []⟩) :=
    hops ▸ popAs_some Elem.asCplx 0 (.cplx b) [] b (asCplx_cplx b)
  refine runCommand_of_body_reals .modPilot rfl (by rw [hm]; rfl) (by simp [hm]) hr ?_
  rw [hpop]
  rfl

end

/-! ## The size of a sample -/

/-- A carrier runs on the unit circle (10 R25). -/
theorem norm_carrierWave (n : Nat) (p : Int) (k : Nat) : ‖carrierWave n p k‖ = 1 :=
  Complex.norm_exp_ofReal_mul_I _

/-- The mean of `n` numbers of the unit disc lies in the unit disc. -/
theorem norm_mean_le_one {n : Nat} {f : Nat → ℂ} (hf : ∀ m < n, ‖f m‖ ≤ 1) :
    ‖1 / (n : ℂ) * ∑ m ∈ Finset.range n, f m‖ ≤ 1 := by
  have hsum : ‖∑ m ∈ Finset.range n, f m‖ ≤ n :=
    calc ‖∑ m ∈ Finset.range n, f m‖
      _ ≤ ∑ m ∈ Finset.range n, ‖f m‖ := norm_sum_le _ _
      _ ≤ ∑ _m ∈ Finset.range n, 1 := Finset.sum_le_sum fun m hmem => hf m (Finset.mem_range.mp hmem)
      _ = n := by simp
  rw [one_div_mul_eq_div, norm_div, Complex.norm_natCast]
  exact div_le_one_of_le₀ hsum n.cast_nonneg

/-- A sample of symbols in the unit disc on the carriers of the table is at most 1 in size: each term of its mean is a
symbol turned by a carrier (R242). -/
theorem abs_modSample_carrierTable_le_one {b : Build} {run : Calc} {c : Cfg} {k : Nat} {syms : List Cplx}
    (hb : b.num = .reference) (hnum : run.num = .reference) (hk : k < c.nSym) (hlen : syms.length = c.mult.length)
    (hdisc : ∀ z ∈ syms, ‖z.val‖ ≤ 1) :
    |(modSample run k c.mult.length syms (carrierColumn (carrierTable b c) k)).val| ≤ 1 := by
  rw [val_modSample hnum k hlen (length_carrierColumn k)]
  refine (Complex.abs_re_le_norm _).trans (norm_mean_le_one fun m hm => ?_)
  rw [norm_mul, carrierColumn_getD k hm, val_carrierTable hb hm hk, norm_carrierWave, mul_one,
    List.getD_eq_getElem _ _ (hlen ▸ hm)]
  exact hdisc _ (List.getElem_mem _)

/-- Settles O38: the commands pop their operands and push a block; the samples are the carrier sums over the complex
numbers, and a mean of numbers in the unit disc lies in it. -/
theorem modulator : Obligations.Modulator := by
  unfold Obligations.Modulator
  refine ⟨fun s syms hm hlen hops hr => ?block, fun run k nFreq syms column hnum hs hc => ?blockSample,
    fun b run c k syms hb hnum hk hlen hdisc => ?bound, fun s b hm hops hr => ?pilot,
    fun run k b w hnum => ?pilotSample⟩
  case block =>
    rw [exec_modBlock hm hlen hops hr, List.map_map]
    rfl
  case blockSample => exact val_modSample hnum k hs hc
  case bound => exact abs_modSample_carrierTable_le_one hb hnum hk hlen hdisc
  case pilot =>
    rw [exec_modPilot hm hops hr, List.map_map]
    rfl
  case pilotSample => exact val_pilotSample hnum k b w

end Sys2Proof.Machine
end

section
/-!
The system commands (spec/49 R300, R302, R303): the words that decode to them and what they do in each mode.
-/

namespace Sys2Proof

/-! ## The words that decode to them -/

/-- Where the decoder wants `sel` and `n` to be zero, one word decodes, to one command. -/
theorem decode_ok_iff_of_whenBothZero {w : CmdWord} {i j : Instr}
    (h : decode w = whenBothZero (selOf w) (countOf w) i) : decode w = .ok j ↔ w = encode i ∧ j = i := by
  constructor
  · intro hj
    have hi := whenBothZero_ok (h.symm.trans hj)
    exact ⟨(decode_eq_ok_iff.mp (hi ▸ hj)).symm, hi⟩
  · rintro ⟨rfl, rfl⟩
    exact decodeOfEncode j

section

variable {w : CmdWord} (hu : unitOf w = 0)

include hu

theorem decode_sysNop (ho : opOf w = 0) : decode w = whenBothZero (selOf w) (countOf w) .sysNop := by
  unfold decode
  rw [hu, ho]
  rfl

theorem decode_sysReset (ho : opOf w = 2) : decode w = whenBothZero (selOf w) (countOf w) .sysReset := by
  unfold decode
  rw [hu, ho]
  rfl

theorem decode_sysStatus (ho : opOf w = 3) : decode w = whenBothZero (selOf w) (countOf w) .sysStatus := by
  unfold decode
  rw [hu, ho]
  rfl

end

end Sys2Proof

namespace Sys2Proof.Machine

section

variable {i : Instr} {s : State} (hr : runsUnconfigured i = true) (hc : i ≠ .sysConfig)
  (hwf : i.wellFormed s.build.nfir = true) (hm : s.mode ≠ .faulted)

include hr hc hwf hm

/-- A command that needs no configuration runs in both modes outside `FAULTED` (30 R99). -/
theorem accepted_of_runsUnconfigured : Accepted s i := by
  refine ⟨hwf, ?_⟩
  cases hmode : s.mode with
  | unconfigured => exact .inr ⟨rfl, by rw [needsConfig_eq, hr]; rfl⟩
  | ready => exact .inl ⟨rfl, hc⟩
  | faulted => exact absurd hmode hm

/-- Where it takes no operands, it raises `BadOperands(0)` for any (R366 (4)). -/
theorem exec_surplus_of_runsUnconfigured (hi : takesNone i = true) (hops : s.opq ≠ []) :
    exec i s = .next (s.failed 2 0) :=
  exec_surplus hi (accepted_of_runsUnconfigured hr hc hwf hm) hops

end

/-! ## `SYS.NOP` -/

/-- Settles O17: the body checks that there are no operands and leaves the state. -/
theorem sysNop : Obligations.SysNop := by
  unfold Obligations.SysNop
  refine ⟨fun s hm hops => ?completes,
    fun s hm hops => exec_surplus_of_runsUnconfigured rfl nofun rfl hm rfl hops,
    fun s hm => exec_of_faulted hm rfl, fun w i hu ho => decode_ok_iff_of_whenBothZero (decode_sysNop hu ho)⟩
  case completes =>
    have hnop : exec .sysNop s = .next (s.succeed [] false 0) :=
      runCommand_of_body_pure .sysNop rfl (modeAllows_of_runsUnconfigured rfl nofun hm) hm (noOperands_bind_of_nil hops)
    rw [hnop, State.succeed, List.append_nil, ← hops]

/-! ## `SYS.RESET` -/

/-- Settles O18: the command completes in every mode and pushes nothing. -/
theorem sysReset : Obligations.SysReset := by
  unfold Obligations.SysReset
  refine ⟨fun s => ?resets, fun w i hu ho => decode_ok_iff_of_whenBothZero (decode_sysReset hu ho)⟩
  case resets =>
    rw [exec_sysReset, Done.commit_eq _ (by decide : Mode.unconfigured ≠ .faulted), State.succeed, Done.pure_results, Done.pure_state,
      State.resetRegisters_resq, List.append_nil]
    rfl

/-! ## `SYS.STATUS` -/

/-- `SYS.STATUS` completes in `FAULTED`, and outside it without operands, and leaves `OPQ` as it is (R303). -/
theorem exec_sysStatus {s : State} (h : s.mode = .faulted ∨ s.opq = []) : exec .sysStatus s =
    .next { s with
      resq := s.resq ++ [.nat (statusWord s), .nat s.faultInfo], completions := s.completions ++ [⟨0, false, 2⟩] } := by
  have hbody : exec .sysStatus s =
      runCommand .sysStatus s (.ok (Done.pure s [.nat (statusWord s), .nat s.faultInfo] 2)) := by
    refine congrArg (runCommand .sysStatus s) ?_
    by_cases hm : s.mode = .faulted
    · rw [if_pos hm]
      rfl
    · rw [if_neg hm]
      exact noOperands_bind_of_nil (h.resolve_left hm)
  rw [hbody, runCommand_ok _ _ _ rfl (by cases s.mode <;> rfl) rfl]
  by_cases hm : s.mode = .faulted
  · rw [Done.commit_faulted _ hm]
    rfl
  · rw [Done.commit_eq _ hm, State.succeed, Done.pure_state, ← h.resolve_left hm]
    rfl

/-- Settles O19: the status word is that of R39, with the code of the mode. -/
theorem sysStatus : Obligations.SysStatus := by
  unfold Obligations.SysStatus
  refine ⟨fun s hm hops => exec_surplus_of_runsUnconfigured rfl nofun rfl hm rfl hops,
    fun s h => ⟨s.mode.code, statusWord s, rfl, fun hm => by rw [hm]; rfl, fun hm => by rw [hm]; rfl,
      fun hm => by rw [hm]; rfl, exec_sysStatus h⟩,
    fun w i hu ho => decode_ok_iff_of_whenBothZero (decode_sysStatus hu ho)⟩

end Sys2Proof.Machine
end

section
/-!
Faults and `FAULTED` (spec/60 R365, R368, R369), and that every command answers (spec/70 R407).
-/

namespace Sys2Proof.Machine

/-! ## In `FAULTED` -/

section

variable {s : State} {cmd : Command} {rest : List Command} (hq : s.cmdq = cmd :: rest) (hm : s.mode = .faulted)

include hq hm

/-- Every word but those of `SYS.STATUS` and `SYS.RESET` is turned away in `FAULTED` (R368). -/
theorem step_of_faulted (hstatus : cmd.word ≠ encode .sysStatus) (hreset : cmd.word ≠ encode .sysReset) :
    step s = .next (s.accept cmd rest).turnedAway := by
  cases hd : decode cmd.word with
  | error e => exact (step_of_decode_error hq hd).trans (illegalWord_of_faulted cmd.word hm)
  | ok i =>
    have hi := decode_eq_ok_iff.mp hd
    have haway : modeAllows i .faulted = false := by
      simp only [modeAllows, Bool.or_eq_false_iff, decide_eq_false_iff_not]
      exact ⟨fun h => hstatus (h ▸ hi.symm), fun h => hreset (h ▸ hi.symm)⟩
    exact (step_of_decode_ok hq hd).trans (exec_of_faulted hm haway)

end

/-- Settles O7: the two words decode to the two commands that run in `FAULTED`, and any other is turned away. -/
theorem faultedTurnsEverythingAway : Obligations.FaultedTurnsEverythingAway := by
  unfold Obligations.FaultedTurnsEverythingAway
  intro s cmd rest hq hm
  refine ⟨fun hw => ?status, fun hw => ?reset, fun hstatus hreset => step_of_faulted hq hm hstatus hreset⟩
  case status =>
    rw [step_of_decode_ok hq (decode_eq_ok_iff.mpr hw.symm : decode cmd.word = .ok .sysStatus),
      exec_sysStatus (s := s.accept cmd rest) (.inl hm), statusWord, State.accept_mode, hm]
    rfl
  case reset =>
    rw [step_of_decode_ok hq (decode_eq_ok_iff.mpr hw.symm : decode cmd.word = .ok .sysReset), sysReset.1]
    rfl

/-- Settles O9: a step from `FAULTED` on any other word than that of `SYS.RESET` answers a state in `FAULTED`. -/
theorem onlyResetLeavesFaulted : Obligations.OnlyResetLeavesFaulted := by
  unfold Obligations.OnlyResetLeavesFaulted
  intro s t hm h ht
  cases hq : s.cmdq with
  | nil =>
    rw [stepRunsTheDecodedCommand s |>.1 hq] at h
    cases h
    exact absurd hm ht
  | cons cmd rest =>
    obtain ⟨hstatus, hreset, haway⟩ := faultedTurnsEverythingAway s cmd rest hq hm
    by_cases hr : cmd.word = 0x02000000
    · rw [hreset hr] at h
      cases h
      obtain ⟨w, ops⟩ := cmd
      obtain rfl : w = 0x02000000 := hr
      exact ⟨⟨ops, rest, rfl⟩, rfl, rfl, rfl, fun c => congrArg FirCtx.ntaps (State.reset_firCtx c), rfl, rfl⟩
    · by_cases hs : cmd.word = 0x03000000
      · rw [hstatus hs] at h
        cases h
        exact absurd hm ht
      · rw [haway hs hr] at h
        cases h
        exact absurd hm ht

/-! ## Outside `FAULTED` -/

/-- Settles O8: a command that completes outside `FAULTED` does not enter it, so the command faulted. -/
theorem faultsArePrecise : Obligations.FaultsArePrecise := by
  unfold Obligations.FaultsArePrecise
  intro i s t hm h ht
  rcases exec_next i s t h with ⟨hf, _⟩ | ⟨_, code, info, hcode, rfl⟩ | ⟨d, hd, _, _, rfl⟩
  · exact absurd hf hm
  · exact ⟨code, hcode, info, rfl⟩
  · exact absurd ht (hd.not_faulted hm)

/-! ## Every command answers -/

/-- A command answers a next state, or would complete with a value out of the range of `NUM` and is refused
(93 U2 (b)). -/
theorem exec_next_or_refused (i : Instr) (s : State) : (∃ t, exec i s = .next t) ∨
    ∃ d, Ends i s d ∧ d.calcs.any Calc.leavesRange = true ∧ exec i s = .refused .outOfNumRange := by
  obtain ⟨body, hbody, hends, _⟩ := exec_eq_runCommand i s
  rw [hbody]
  rcases runCommand_cases i s body with ⟨_, _, h⟩ | ⟨_, _, h⟩ | ⟨_, _, _, h⟩ | ⟨_, _, _, h⟩ | ⟨_, _, _, _, _, h⟩ |
    ⟨d, hd, hr, h⟩ | ⟨_, hwf, hallows⟩
  case inr.inr.inr.inr.inr.inl => exact .inr ⟨d, hends d hd, hr, h⟩
  case inr.inr.inr.inr.inr.inr =>
    rw [wellFormed_of_modeAllows_faulted i _ hallows] at hwf
    cases hwf
  all_goals exact .inl ⟨_, h⟩

/-- A command answers a next state where what it would complete with is computed from nothing. -/
theorem exec_next_of_calcs_nil {i : Instr} {s : State} (h : ∀ d, Ends i s d → d.calcs = []) : ∃ t, exec i s = .next t := by
  rcases exec_next_or_refused i s with hnext | ⟨d, hd, hr, _⟩
  · exact hnext
  · rw [h d hd] at hr
    cases hr

/-- A command that computes no real value completes with none (spec/30 R98). -/
theorem Ends.calcs_nil {i : Instr} {s : State} {d : Done} (h : Ends i s d) (hi : computesReals i = false) :
    d.calcs = [] := by
  rw [h.calcs]
  cases i with
  | toneCoh pilot n => exact absurd (by simpa [computesReals] using hi) h.1
  | qamDemap report n | firRun c n | iirRun n | rsmpTake n =>
    obtain rfl : n = 0 := by simpa [computesReals] using hi
    rfl
  | sysConfig | iirLoad | lsqSolve | demodBlock | modBlock | modPilot => cases hi
  | _ => rfl

/-- Settles O11: the one way not to answer is the refusal, which needs a value that was computed. -/
theorem everyStepAnswers : Obligations.EveryStepAnswers := by
  unfold Obligations.EveryStepAnswers
  have hrange (i : Instr) (s : State) :
      (∃ t, exec i s = .next t) ∨ (leavesNumRange i s = true ∧ exec i s = .refused .outOfNumRange) :=
    (exec_next_or_refused i s).imp_right fun ⟨d, hd, hr, h⟩ => ⟨by rwa [hd.calcs] at hr, h⟩
  have hinRange (i : Instr) (s : State) (h : leavesNumRange i s = false) : ∃ t, exec i s = .next t :=
    (hrange i s).resolve_right fun ⟨hr, _⟩ => absurd (h.symm.trans hr) (by decide)
  refine ⟨hinRange, hrange, fun s hnum => ?reference, fun i s hi => exec_next_of_calcs_nil fun d hd => hd.calcs_nil hi,
    fun s n hnone => ?take, fun s hpos hnone => ?demod⟩
  case reference =>
    cases hq : s.cmdq with
    | nil => exact ⟨s, (stepRunsTheDecodedCommand s).1 hq⟩
    | cons cmd rest =>
      cases hd : decode cmd.word with
      | error e =>
        rw [step_of_decode_error hq hd]
        by_cases hm : s.mode = .faulted
        · exact ⟨_, illegalWord_of_faulted _ hm⟩
        · exact ⟨_, illegalWord_of_not_faulted _ hm⟩
      | ok i =>
        rw [step_of_decode_ok hq hd]
        exact hinRange i _ (leavesNumRange_reference i _ hnum)
  case take => exact exec_next_of_calcs_nil fun d hd => hd.calcs.trans (takeCalcs_nil _ s hnone)
  case demod =>
    refine exec_next_of_calcs_nil fun d hd => hd.calcs.trans ?_
    have hshort : (takeSamples s.cfg.nSym s).1.length < s.cfg.nSym := by
      rw [hnone]
      exact hpos
    simp only [realCalcs, takeCalcs_nil _ s hnone, if_pos hshort, List.append_nil]

/-! ## The commands with no register to write -/

/-- The commands that compute a function of their operands and the configuration, or read a register, end in the state
they started from. -/
theorem Ends.state_eq {i : Instr} {s : State} {d : Done} (h : Ends i s d)
    (hi : i = .sysNop ∨ i = .sysStatus ∨ (∃ n, i = .qamMap n) ∨ (∃ r n, i = .qamDemap r n) ∨ (∃ p n, i = .toneCoh p n) ∨
      (∃ o l, i = .lsqSolve o l) ∨ i = .demodBlock true ∨ (∃ r, i = .rsmpRd r) ∨ i = .modBlock ∨ i = .modPilot ∨
      i = .rseEnc ∨ (∃ n, i = .rsdDec n) ∨ i = .crcRead) : d.state = s := by
  rcases hi with rfl | rfl | ⟨n, rfl⟩ | ⟨r, n, rfl⟩ | ⟨p, n, rfl⟩ | ⟨o, l, rfl⟩ | rfl | ⟨r, rfl⟩ | rfl | rfl | rfl |
    ⟨n, rfl⟩ | rfl
  case inl | inr.inl | inr.inr.inr.inr.inr.inr.inr.inl => obtain rfl := h; rfl
  case inr.inr.inr.inr.inl => obtain ⟨_, _, _, rfl⟩ := h; rfl
  all_goals obtain ⟨_, _, rfl⟩ := h; rfl

/-- Settles O56: the registers are those of the `Done`, which are those before; only `SYS.CONFIG` and `SYS.RESET` change
the status without a fault. -/
theorem frameOfStatelessCommands : Obligations.FrameOfStatelessCommands := by
  unfold Obligations.FrameOfStatelessCommands
  intro i s t h hi
  have hstatus : SameStatusOrFault s t :=
    exec_sameStatusOrFault h (by rintro rfl; simp at hi) (by rintro rfl; simp at hi)
  rcases exec_next_registers h with ⟨_, ht⟩ | ⟨d, hd, ht, _⟩
  · exact ⟨ht, hstatus⟩
  · exact ⟨ht.trans (congrArg State.registers (hd.state_eq hi)), hstatus⟩

end Sys2Proof.Machine
end

section
/-!
`SYS.CONFIG` on a whole configuration record (spec/49 R301): the pops take the record's fields, and the first check that
fails is raised.
-/

namespace Sys2Proof.Machine

/-- Checks in order, and what follows where none of them fails. -/
def checksThen {α : Type} (checks : List (Nat × Bool)) (last : Except Raise α) : Except Raise α :=
  match checks.find? fun k => k.2 with
  | some k => .error ⟨.configError, k.1⟩
  | none => last

section

variable {α β : Type} {f : Unit → Except Raise α} {checks : List (Nat × Bool)} {last : Except Raise α}

/-- The checks of a record one after another. -/
theorem configCheck_bind {bad : Prop} [Decidable bad] {number : Nat} {fails : Bool} (hfails : fails = true ↔ bad)
    (hf : f () = checksThen checks last) :
    (configCheck bad number >>= f) = checksThen ((number, fails) :: checks) last := by
  by_cases hb : bad
  · rw [checksThen, List.find?_cons_of_pos (by exact hfails.mpr hb)]
    exact raiseIf_bind_of hb
  · rw [checksThen, List.find?_cons_of_neg (by simpa using mt hfails.mp hb)]
    exact (raiseIf_bind_of_not hb).trans hf

theorem popNat_bind (p v : Nat) (rest : List Elem) (f : Nat × Cursor → Except Raise α) :
    (popAs Elem.asNat ⟨p, .nat v :: rest⟩ >>= f) = f (v, ⟨p + 1, rest⟩) := rfl

end

theorem length_configRecord {c : Cfg} (hmult : c.mult.length = c.nFreq)
    (hsymbols : c.symbols.length = 2 ^ c.bitsPerSymbol) :
    (configRecord c).length = 8 + c.nFreq + 2 ^ c.bitsPerSymbol := by
  simp only [configRecord, List.length_append, List.length_map, List.length_cons, List.length_nil, hmult, hsymbols]
  omega

/-- On a whole record the checks come in the order of R301, and that nothing is left over comes last. -/
theorem parseConfig_record {b : Build} {c : Cfg} {surplus : List Elem} (hmult : c.mult.length = c.nFreq)
    (hsymbols : c.symbols.length = 2 ^ c.bitsPerSymbol) : parseConfig b (configRecord c ++ surplus) =
      checksThen (configChecks b c) (noneLeft ⟨(configRecord c).length, surplus⟩ >>= fun _ => .ok c) := by
  rw [length_configRecord hmult hsymbols, parseConfig, Cursor.start, configChecks]
  simp only [configRecord, List.append_assoc, List.cons_append, List.nil_append]
  refine (popNat_bind ..).trans (configCheck_bind decide_eq_true_iff ?_)
  refine (popNat_bind ..).trans (configCheck_bind decide_eq_true_iff ?_)
  refine (popNat_bind ..).trans (configCheck_bind decide_eq_true_iff ?_)
  dsimp only
  rw [← hmult, popMany_map_bind asNat_nat]
  refine configCheck_bind (by simp) ?_
  refine configCheck_bind decide_eq_true_iff ?_
  refine (popNat_bind ..).trans (configCheck_bind decide_eq_true_iff ?_)
  refine (popNat_bind ..).trans (configCheck_bind decide_eq_true_iff ?_)
  dsimp only
  rw [← hsymbols, popMany_map_bind asCplx_cplx]
  refine configCheck_bind (by simp) ?_
  refine (popNat_bind ..).trans (configCheck_bind decide_eq_true_iff ?_)
  refine (popNat_bind ..).trans (configCheck_bind decide_eq_true_iff ?_)
  refine (popNat_bind ..).trans (configCheck_bind decide_eq_true_iff ?_)
  dsimp only
  rw [show 0 + 1 + 1 + 1 + c.mult.length + 1 + 1 + c.symbols.length + 1 + 1 + 1 =
    8 + c.mult.length + c.symbols.length by omega, hmult]
  rfl

/-- Settles O20: the checks of the record decide, and where all hold, whether an element is left over. -/
theorem sysConfig : Obligations.SysConfig := by
  unfold Obligations.SysConfig
  intro s c surplus hm hmult hsymbols hops hr
  have hallows : modeAllows .sysConfig s.mode = true := by rw [hm]; rfl
  have hparse := parseConfig_record (b := s.build) (surplus := surplus) hmult hsymbols
  rw [← hops] at hparse
  rw [firstFailing]
  cases hfind : (configChecks s.build c).find? fun k => k.2 with
  | some k =>
    rw [checksThen, hfind] at hparse
    exact runCommand_of_body_error .sysConfig ⟨.configError, k.1⟩ rfl hallows (by rw [hparse]; rfl)
  | none =>
    rw [checksThen, hfind] at hparse
    cases surplus with
    | nil =>
      replace hparse : parseConfig s.build s.opq = .ok c := hparse
      have hcalcs : [c.calc s.build].any Calc.leavesRange = false := by
        simpa only [leavesNumRange, realCalcs, hparse] using hr
      exact runCommand_of_body_reals .sysConfig (t := s.configure c) rfl hallows nofun hcalcs (by rw [hparse]; rfl)
    | cons e rest =>
      exact runCommand_of_body_error .sysConfig (badOperands (configRecord c).length) rfl hallows (by rw [hparse]; rfl)

end Sys2Proof.Machine
end

section
/-!
The CRC unit (spec/48): its three commands, and that a frame with one bit flipped is detected.
-/

namespace Sys2Proof

theorem decode_crcReset {w : CmdWord} (hu : unitOf w = 11) (ho : opOf w = 0) :
    decode w = whenBothZero (selOf w) (countOf w) .crcReset := by
  unfold decode
  rw [hu, ho]
  rfl

theorem decode_crcUpdate {w : CmdWord} (hu : unitOf w = 11) (ho : opOf w = 1) :
    decode w = whenSelZero (selOf w) (.crcUpdate (countOf w)) := by
  unfold decode
  rw [hu, ho]
  rfl

theorem decode_crcRead {w : CmdWord} (hu : unitOf w = 11) (ho : opOf w = 2) :
    decode w = whenBothZero (selOf w) (countOf w) .crcRead := by
  unfold decode
  rw [hu, ho]
  rfl

theorem whenSelZero_ok_iff {sel : BitVec 4} {i j : Instr} : whenSelZero sel i = .ok j ↔ sel = 0 ∧ j = i := by
  unfold whenSelZero
  split_ifs with h
  · simp [h, eq_comm]
  · exact ⟨nofun, fun hj => absurd hj.1 h⟩

end Sys2Proof

namespace Sys2Proof.Machine

/-! ## The register, bit by bit -/

/-- The step of a bit as R292 writes it: `reg & 1` is the bit that leaves the register. -/
theorem crcBit_eq (q : BitVec 32) : crcBit q = if q &&& 1 = 1 then (q >>> 1) ^^^ 0xEDB88320 else q >>> 1 := by
  have hlow : q &&& 1 = 1 ↔ q.getLsbD 0 = true := by
    rw [show (1 : BitVec 32) = 1#32 from rfl, BitVec.and_one_eq_setWidth_ofBool_getLsbD]
    cases q.getLsbD 0 <;> decide
  rw [crcBit, if_congr hlow rfl rfl]

/-- The first byte of a message. -/
theorem crcFrom_cons (reg : BitVec 32) (byte : Byte) (d : List Byte) :
    crcFrom reg (byte :: d) = crcFrom (crcByte reg byte) d := by
  have hbyte : crcByte reg byte = crcFrom reg [byte] := by
    simp only [crcFrom, ← crcBit_eq, crcByte, crcBits, strictly_eq]
    rfl
  rw [hbyte]
  rfl

theorem crcFrom_append (reg : BitVec 32) (a b : List Byte) : crcFrom reg (a ++ b) = crcFrom (crcFrom reg a) b :=
  List.foldl_append

/-- The model's CRC is that of R292. -/
theorem crcBytes_eq_crcFrom (reg : BitVec 32) (d : List Byte) : crcBytes reg d = crcFrom reg d := by
  induction d generalizing reg with
  | nil => rfl
  | cons byte d ih => rw [crcBytes, strictly_eq, ih, crcFrom_cons]

/-! ## The commands -/

/-- The byte of a word from bit `k` on, as shifts and masks write it. -/
theorem extractByte_eq (v : BitVec 32) (k : Nat) : v.extractLsb' k 8 = ((v >>> k) &&& 0xFF).setWidth 8 := by
  ext i hi
  have hmask : ∀ j < 8, (0xFF : BitVec 32).getLsbD j = true := by decide
  rw [BitVec.getElem_extractLsb', BitVec.getElem_setWidth, BitVec.getLsbD_and, BitVec.getLsbD_ushiftRight, hmask i hi,
    Bool.and_true]

/-- `CRC.READ` pushes `be32` of the inverted register, which the statement writes as shifts and masks (R295). -/
theorem map_u8_be32 (v : BitVec 32) : (be32 v).map Elem.u8 =
    [.u8 (((v >>> 24) &&& 0xFF).setWidth 8), .u8 (((v >>> 16) &&& 0xFF).setWidth 8),
      .u8 (((v >>> 8) &&& 0xFF).setWidth 8), .u8 ((v &&& 0xFF).setWidth 8)] := by
  simp only [be32, extractByte_eq, BitVec.ushiftRight_zero, List.map_cons, List.map_nil]

/-- Settles O50: outside `FAULTED` both commands check that there are no operands; one word decodes to each. -/
theorem crcResetAndRead : Obligations.CrcResetAndRead := by
  unfold Obligations.CrcResetAndRead
  refine ⟨fun s hm hops => ⟨?reset, ?read⟩, fun s hm hops => ⟨exec_surplus_of_runsUnconfigured rfl nofun rfl hm rfl hops,
    exec_surplus_of_runsUnconfigured rfl nofun rfl hm rfl hops⟩, fun w i hu =>
    ⟨fun ho => decode_ok_iff_of_whenBothZero (decode_crcReset hu ho),
      fun ho => decode_ok_iff_of_whenBothZero (decode_crcRead hu ho)⟩⟩
  case reset =>
    exact runCommand_of_body_pure .crcReset rfl (modeAllows_of_runsUnconfigured rfl nofun hm) hm
      (noOperands_bind_of_nil hops)
  case read =>
    intro v
    rw [← map_u8_be32]
    exact runCommand_of_body_pure .crcRead rfl (modeAllows_of_runsUnconfigured rfl nofun hm) hm
      (noOperands_bind_of_nil hops)

/-- Settles O51: the pops take the bytes, or stop at the first element that is no byte; the fold over the bytes is the
same in pieces. -/
theorem crcUpdate : Obligations.CrcUpdate := by
  unfold Obligations.CrcUpdate
  refine ⟨fun s n bytes hm hn hops => ?completes, fun s n hm hfits => ?misfit, fun w i hu ho => ?word, crcFrom_append⟩
  case completes =>
    refine runCommand_of_body_pure (.crcUpdate n) rfl (modeAllows_of_runsUnconfigured rfl nofun hm) hm ?_
    rw [hops, hn, popMany_all asByte_u8, ← crcBytes_eq_crcFrom]
    rfl
  case misfit =>
    exact exec_misfit (i := .crcUpdate n) rfl (accepted_of_runsUnconfigured rfl nofun rfl hm) trivial hfits
  case word => rw [decode_crcUpdate hu ho, whenSelZero_ok_iff]

/-! ## One bit flipped -/

/-- The bit that leaves the register is the top bit of the next one, because the constant's top bit is set. -/
theorem getLsbD_crcBit_top (q : BitVec 32) : (crcBit q).getLsbD 31 = q.getLsbD 0 := by
  unfold crcBit
  split <;> simp_all

/-- The other bits can be recovered too. -/
theorem ushiftRight_of_crcBit (q : BitVec 32) :
    q >>> 1 = if (crcBit q).getLsbD 31 then crcBit q ^^^ 0xEDB88320 else crcBit q := by
  rw [getLsbD_crcBit_top, crcBit]
  split
  · rw [BitVec.xor_assoc, BitVec.xor_self, BitVec.xor_zero]
  · rfl

theorem crcBit_injective : Function.Injective crcBit := by
  intro q r h
  have hlow : q.getLsbD 0 = r.getLsbD 0 := by rw [← getLsbD_crcBit_top, h, getLsbD_crcBit_top]
  have hhigh : q >>> 1 = r >>> 1 := by rw [ushiftRight_of_crcBit, h, ← ushiftRight_of_crcBit]
  refine BitVec.eq_of_getLsbD_eq fun i _ => ?_
  cases i with
  | zero => exact hlow
  | succ i => simpa [Nat.add_comm] using congrArg (BitVec.getLsbD · i) hhigh

theorem crcBits_injective (k : Nat) : Function.Injective (crcBits k) := by
  induction k with
  | zero => exact Function.injective_id
  | succ k ih =>
    intro q r h
    simp only [crcBits, strictly_eq] at h
    exact crcBit_injective (ih h)

/-- A byte enters by an exclusive or, so the register after it tells any two registers before it apart. -/
theorem crcByte_injective (d : Byte) : Function.Injective (crcByte · d) := fun _ _ h =>
  (BitVec.xor_left_inj _).mp (crcBits_injective 8 h)

theorem crcByte_right_injective (reg : BitVec 32) : Function.Injective (crcByte reg) := by
  intro d e h
  have hword := (BitVec.xor_right_inj _).mp (crcBits_injective 8 h)
  simpa using congrArg (BitVec.setWidth 8) hword

theorem crcFrom_injective (d : List Byte) : Function.Injective (crcFrom · d) := by
  induction d with
  | nil => exact Function.injective_id
  | cons byte d ih =>
    intro q r h
    simp only [crcFrom_cons] at h
    exact crcByte_injective byte (ih h)

/-- A message with another byte in one place has another CRC. -/
theorem crcFrom_set_ne {reg : BitVec 32} {d : List Byte} {p : Nat} {byte : Byte} (hp : p < d.length)
    (hne : byte ≠ d[p]) : crcFrom reg (d.set p byte) ≠ crcFrom reg d := by
  intro h
  have hd : d.take p ++ d[p] :: d.drop (p + 1) = d := by simp
  rw [List.set_eq_take_append_cons_drop, if_pos hp, ← congrArg (crcFrom reg) hd, crcFrom_append, crcFrom_append,
    crcFrom_cons, crcFrom_cons] at h
  exact hne (crcByte_right_injective _ (crcFrom_injective _ h))

/-- A byte of a word holds the eight bits of the word from its place on. -/
theorem getLsbD_eq_of_extractByte {v w : BitVec 32} {k i : Nat} (h : v.extractLsb' k 8 = w.extractLsb' k 8)
    (hk : k ≤ i) (hi : i < k + 8) : v.getLsbD i = w.getLsbD i := by
  have hbit := congrArg (BitVec.getLsbD · (i - k)) h
  simpa [show i - k < 8 by omega, Nat.add_sub_cancel' hk] using hbit

theorem be32_injective : Function.Injective be32 := by
  intro v w h
  simp only [be32, List.cons.injEq, and_true] at h
  obtain ⟨h24, h16, h8, h0⟩ := h
  refine BitVec.eq_of_getLsbD_eq fun i hi => ?_
  rcases (by omega : 24 ≤ i ∨ 16 ≤ i ∧ i < 24 ∨ 8 ≤ i ∧ i < 16 ∨ i < 8) with h | ⟨h, h'⟩ | ⟨h, h'⟩ | h
  · exact getLsbD_eq_of_extractByte h24 h hi
  · exact getLsbD_eq_of_extractByte h16 h h'
  · exact getLsbD_eq_of_extractByte h8 h h'
  · exact getLsbD_eq_of_extractByte h0 i.zero_le (by omega)

/-- Flipping a bit changes a byte. -/
theorem xor_bit_ne (b : Byte) (i : Fin 8) : b ^^^ (1 <<< i.val) ≠ b := by
  have hbit : ∀ i : Fin 8, (1 <<< i.val : Byte) ≠ 0 := by decide
  intro h
  refine hbit i ((BitVec.xor_right_inj b).mp ?_)
  rw [h]
  exact BitVec.xor_zero.symm

/-- Settles O52: a bit flipped in the four bytes leaves the payload and its CRC; one flipped in the payload leaves the
four bytes and changes the CRC, because a step over a byte is injective in the register and in the byte. -/
theorem crcDetectsEverySingleBit : Obligations.CrcDetectsEverySingleBit := by
  unfold Obligations.CrcDetectsEverySingleBit
  rintro payload crc payload' crc' p i hcrc hp hlen hflip
  have hcrcLen : crc.length = 4 := by rw [hcrc]; rfl
  rw [List.getD_eq_getElem _ _ hp] at hflip
  by_cases hp4 : p < 4
  case pos =>
    have hp' : p < crc.length := hcrcLen ▸ hp4
    rw [List.set_append_left _ _ hp', List.getElem_append_left hp'] at hflip
    obtain ⟨rfl, rfl⟩ := List.append_inj hflip (by simp [hlen, hcrcLen])
    rw [← hcrc]
    intro h
    have hbyte := List.getElem_of_eq h hp'
    rw [List.getElem_set_self] at hbyte
    exact xor_bit_ne _ i hbyte.symm
  case neg =>
    have hp' : crc.length ≤ p := by omega
    rw [List.set_append_right _ _ hp', List.getElem_append_right hp'] at hflip
    obtain ⟨rfl, rfl⟩ := List.append_inj hflip (by simp [hlen, hcrcLen])
    intro h
    have hreg := (BitVec.xor_left_inj _).mp (be32_injective (h.trans hcrc))
    exact crcFrom_set_ne (by rw [List.length_append] at hp; omega) (xor_bit_ne _ i) hreg

end Sys2Proof.Machine
end

section
/-!
The field GF(256) (spec/47 R256, R257): the laws of the product of bytes, the powers of `alpha`, and a field in which
bytes stand for its elements.
-/

namespace Sys2Proof.Machine

/-! ## The product of bytes -/

theorem gfMul2_xor (a b : Byte) : gfMul2 (a ^^^ b) = gfMul2 a ^^^ gfMul2 b := by
  have hshift : (a ^^^ b) <<< 1 = a <<< 1 ^^^ b <<< 1 := BitVec.shiftLeft_xor_distrib ..
  unfold gfMul2
  rw [BitVec.msb_xor, hshift]
  cases a.msb <;> cases b.msb
  case false.false => rfl
  case false.true => exact BitVec.xor_assoc ..
  case true.false => simp only [Bool.xor_false, if_true, Bool.false_eq_true, if_false]; ac_rfl
  case true.true => simp [BitVec.xor_assoc]

theorem gfMulFrom_mul2 (k : Nat) : ∀ (i : Nat) (a b : Byte), gfMulFrom k i (gfMul2 a) b = gfMul2 (gfMulFrom k i a b) := by
  induction k with
  | zero => exact fun _ _ _ => (by decide : (0 : Byte) = gfMul2 0)
  | succ k ih =>
    intro i a b
    simp only [gfMulFrom, ih, gfMul2_xor]
    split <;> rfl

theorem gfMulFrom_xor (k : Nat) : ∀ (i : Nat) (a c b : Byte),
    gfMulFrom k i (a ^^^ c) b = gfMulFrom k i a b ^^^ gfMulFrom k i c b := by
  induction k with
  | zero => exact fun _ _ _ _ => (by decide : (0 : Byte) = 0 ^^^ 0)
  | succ k ih =>
    intro i a c b
    simp only [gfMulFrom, gfMul2_xor, ih]
    split
    · ac_rfl
    · simp

theorem xor_gfMul (a b c : Byte) : gfMul (a ^^^ b) c = gfMul a c ^^^ gfMul b c := gfMulFrom_xor 8 0 a b c

theorem gfMul_gfMul2 (a b : Byte) : gfMul (gfMul2 a) b = gfMul2 (gfMul a b) := gfMulFrom_mul2 8 0 a b

theorem zero_gfMul (b : Byte) : gfMul 0 b = 0 := by
  have h := xor_gfMul 0 0 b
  rwa [BitVec.xor_self, BitVec.xor_self] at h

/-- The product is a sum of repeated doublings of its first factor, which commute with any product. -/
theorem gfMulFrom_gfMul (k : Nat) : ∀ (i : Nat) (a b c : Byte),
    gfMulFrom k i (gfMul a c) b = gfMul (gfMulFrom k i a b) c := by
  induction k with
  | zero => exact fun _ _ _ c => (zero_gfMul c).symm
  | succ k ih =>
    intro i a b c
    simp only [gfMulFrom, ← gfMul_gfMul2, ih, xor_gfMul]
    split
    · rfl
    · rw [zero_gfMul]

theorem gfMul_right_comm (a b c : Byte) : gfMul (gfMul a c) b = gfMul (gfMul a b) c := gfMulFrom_gfMul 8 0 a b c

theorem one_gfMul : ∀ b : Byte, gfMul 1 b = b := by decide

theorem gfMul_comm (a b : Byte) : gfMul a b = gfMul b a :=
  calc gfMul a b
    _ = gfMul (gfMul 1 a) b := by rw [one_gfMul]
    _ = gfMul (gfMul 1 b) a := gfMul_right_comm 1 b a
    _ = gfMul b a := by rw [one_gfMul]

theorem gfMul_assoc (a b c : Byte) : gfMul (gfMul a b) c = gfMul a (gfMul b c) := by
  rw [gfMul_comm a b, gfMul_right_comm, gfMul_comm]

theorem gfMul_xor (a b c : Byte) : gfMul a (b ^^^ c) = gfMul a b ^^^ gfMul a c := by
  rw [gfMul_comm, xor_gfMul, gfMul_comm b, gfMul_comm c]

/-! ## The powers of `alpha` -/

theorem gfPowersFrom_eq_map (n : Nat) (a : Byte) : gfPowersFrom n a = (List.range n).map fun i => gfMul2^[i] a := by
  induction n generalizing a with
  | zero => rfl
  | succ n ih =>
    rw [gfPowersFrom, ih, List.range_succ_eq_map, List.map_cons, List.map_map]
    rfl

theorem gfMul2_iterate_period : Function.IsPeriodicPt gfMul2 255 1 := by
  show gfMul2^[255] 1 = 1
  decide +kernel

/-- `alpha^i` is `i` doublings of 1, for every `i` (R256). -/
theorem gfExp_eq_iterate (i : Nat) : gfExp i = gfMul2^[i] 1 := by
  have hi : i % 255 < 255 := Nat.mod_lt _ (by decide)
  rw [gfExp, gfExpTable, gfPowersFrom_eq_map, List.getD_eq_getElem _ _ (by rwa [List.length_map, List.length_range]),
    List.getElem_map, List.getElem_range, gfMul2_iterate_period.iterate_mod_apply]

theorem gfExpTable_eq_map : gfExpTable = (List.range 255).map gfExp := by
  rw [gfExpTable, gfPowersFrom_eq_map, funext gfExp_eq_iterate]

theorem gfExp_add (i j : Nat) : gfExp (i + j) = gfMul (gfExp i) (gfExp j) := by
  have hiterate (b : Byte) : gfMul (gfMul2^[i] 1) b = gfMul2^[i] b := by
    induction i with
    | zero => exact one_gfMul b
    | succ i ih => rw [Function.iterate_succ_apply', Function.iterate_succ_apply', gfMul_gfMul2, ih]
  rw [gfExp_eq_iterate, gfExp_eq_iterate i, hiterate, Function.iterate_add_apply, gfExp_eq_iterate]

/-- 1 comes back after 255 doublings and no earlier: `alpha` generates the field (R257). -/
theorem minimalPeriod_gfMul2 : Function.minimalPeriod gfMul2 1 = 255 := by
  have hearlier : ∀ d ∈ [1, 3, 5, 15, 17, 51, 85], gfMul2^[d] 1 ≠ 1 := by decide +kernel
  have hperiod : gfMul2^[Function.minimalPeriod gfMul2 1] 1 = 1 := Function.isPeriodicPt_minimalPeriod gfMul2 1
  have hdivisor : Function.minimalPeriod gfMul2 (1 : Byte) ∈ Nat.divisors 255 :=
    Nat.mem_divisors.mpr ⟨gfMul2_iterate_period.minimalPeriod_dvd, by decide⟩
  by_contra hne
  simp only [Nat.divisors_ofNat, Finset.mem_insert, Finset.mem_singleton, hne, or_false] at hdivisor
  exact hearlier _ (by simpa only [List.mem_cons, List.not_mem_nil, or_false] using hdivisor) hperiod

theorem gfExp_injOn : Set.InjOn gfExp (Set.Iio 255) := by
  rw [funext gfExp_eq_iterate, ← minimalPeriod_gfMul2]
  exact Function.iterate_injOn_Iio_minimalPeriod

theorem gfExp_255 : gfExp 255 = 1 := by decide +kernel

theorem gfMul2_ne_zero : ∀ a : Byte, a ≠ 0 → gfMul2 a ≠ 0 := by decide

theorem gfExp_ne_zero (i : Nat) : gfExp i ≠ 0 := by
  rw [gfExp_eq_iterate]
  induction i with
  | zero => decide
  | succ i ih => rw [Function.iterate_succ_apply']; exact gfMul2_ne_zero _ ih

/-- Every byte but 0 is a power of `alpha`, because 255 different ones are (R257). -/
theorem mem_gfExpTable {a : Byte} (ha : a ≠ 0) : a ∈ gfExpTable := by
  have himage : (Finset.range 255).image gfExp = Finset.univ.erase 0 := by
    refine Finset.eq_of_subset_of_card_le (fun b hb => ?_) ?_
    · obtain ⟨i, _, rfl⟩ := Finset.mem_image.mp hb
      exact Finset.mem_erase.mpr ⟨gfExp_ne_zero i, Finset.mem_univ _⟩
    · rw [Finset.card_image_of_injOn (by simpa using gfExp_injOn), Finset.card_erase_of_mem (Finset.mem_univ _)]
      rw [Finset.card_univ, Finset.card_range, ← FinEnum.card_eq_fintypeCard, FinEnum.card_bitVec]
      decide
  have hmem : a ∈ (Finset.range 255).image gfExp := himage ▸ Finset.mem_erase.mpr ⟨ha, Finset.mem_univ a⟩
  rw [gfExpTable_eq_map]
  simpa using hmem

/-- The inverse of R257. -/
theorem gfMul_gfInv {a : Byte} (ha : a ≠ 0) : gfMul a (gfInv a) = 1 := by
  have hlog : gfLog a < gfExpTable.length := List.idxOf_lt_length_of_mem (mem_gfExpTable ha)
  have hexp : gfExp (gfLog a) = a := by
    have hentry : gfExpTable[gfLog a] = a := List.getElem_idxOf hlog
    simpa [gfExpTable_eq_map] using hentry
  have hlt : gfLog a < 255 := by simpa [gfExpTable_eq_map] using hlog
  calc gfMul a (gfInv a)
    _ = gfMul (gfExp (gfLog a)) (gfExp (255 - gfLog a)) := by rw [hexp, gfInv]
    _ = gfExp 255 := by rw [← gfExp_add, Nat.add_sub_cancel' hlt.le]
    _ = 1 := gfExp_255

end Sys2Proof.Machine

namespace Sys2Proof

open Sys2Proof.Machine (gfMul gfInv)

/-! ## The field -/

/-- An element of GF(256). As plain data a byte has the arithmetic of the integers modulo 256; an element has that of
R256. -/
structure Gf where
  byte : Byte

theorem Gf.byte_injective : Function.Injective Gf.byte := fun ⟨_⟩ ⟨_⟩ h => congrArg Gf.mk h

/-- The field of R256. -/
@[reducible] noncomputable def Gf.field : Field Gf :=
  letI : Add Gf := ⟨fun x y => ⟨x.byte ^^^ y.byte⟩⟩
  letI : Mul Gf := ⟨fun x y => ⟨gfMul x.byte y.byte⟩⟩
  letI : Neg Gf := ⟨fun x => x⟩
  letI : Inv Gf := ⟨fun x => ⟨if x.byte = 0 then 0 else gfInv x.byte⟩⟩
  letI : Zero Gf := ⟨⟨0⟩⟩
  letI : One Gf := ⟨⟨1⟩⟩
  have mul_inv (x : Gf) (hx : x ≠ 0) : x * x⁻¹ = 1 := by
    have hne : x.byte ≠ 0 := fun h => hx (Gf.byte_injective h)
    have hinv : x⁻¹ = ⟨gfInv x.byte⟩ := congrArg Gf.mk (if_neg hne)
    rw [hinv]
    exact congrArg Gf.mk (Machine.gfMul_gfInv hne)
  Field.ofMinimalAxioms Gf (fun _ _ _ => Gf.byte_injective (BitVec.xor_assoc ..))
    (fun _ => Gf.byte_injective BitVec.zero_xor) (fun _ => Gf.byte_injective BitVec.xor_self)
    (fun _ _ _ => Gf.byte_injective (Machine.gfMul_assoc ..)) (fun _ _ => Gf.byte_injective (Machine.gfMul_comm ..))
    (fun _ => Gf.byte_injective (Machine.one_gfMul _)) mul_inv (congrArg Gf.mk (if_pos rfl))
    (fun _ _ _ => Gf.byte_injective (Machine.gfMul_xor ..))
    ⟨⟨0⟩, ⟨1⟩, fun h => absurd (congrArg Gf.byte h) (by decide)⟩

end Sys2Proof

namespace Sys2Proof.Machine

/-- The bytes stand for elements of a field of characteristic 2, their sum and product for the field's (R256). -/
structure StandsFor {F : Type} [Field F] (φ : Byte → F) : Prop where
  xor : ∀ a b, φ (a ^^^ b) = φ a + φ b
  mul : ∀ a b, φ (gfMul a b) = φ a * φ b
  one : φ 1 = 1
  injective : Function.Injective φ

/-- `Gf` is such a field. -/
theorem exists_standsFor : ∃ (F : Type) (_ : Field F) (_ : CharP F 2) (φ : Byte → F), StandsFor φ := by
  let := Gf.field
  refine ⟨Gf, Gf.field, ?_, Gf.mk, fun _ _ => rfl, fun _ _ => rfl, rfl, fun _ _ h => congrArg Gf.byte h⟩
  exact CharTwo.of_one_ne_zero_of_two_eq_zero one_ne_zero (Gf.byte_injective (BitVec.xor_self (x := 1)))

section

variable {F : Type} [Field F] {φ : Byte → F} (hφ : StandsFor φ)

include hφ

theorem StandsFor.zero : φ 0 = 0 := by
  have h := hφ.xor 0 0
  rw [BitVec.xor_self] at h
  exact left_eq_add.mp h

theorem StandsFor.eq_zero_iff {a : Byte} : φ a = 0 ↔ a = 0 := by
  rw [← hφ.zero]
  exact hφ.injective.eq_iff

theorem StandsFor.inv {a : Byte} (ha : a ≠ 0) : φ (gfInv a) = (φ a)⁻¹ := by
  refine eq_inv_of_mul_eq_one_right ?_
  rw [← hφ.mul, gfMul_gfInv ha, hφ.one]

/-- The powers of `alpha` are powers in the field. -/
theorem StandsFor.exp (i : Nat) : φ (gfExp i) = φ (gfExp 1) ^ i := by
  induction i with
  | zero => rw [pow_zero, ← hφ.one]; rfl
  | succ i ih => rw [gfExp_add, hφ.mul, ih, pow_succ]

end

end Sys2Proof.Machine
end

section
/-!
Polynomials over GF(256) as lists of bytes (spec/47 R256, R260 to R262): the polynomial a list stands for in either
order of the powers, the generator polynomial, and the encoder.
-/

namespace Sys2Proof.Machine

open Polynomial

/-! ## Lists that stand for polynomials -/

/-- The polynomial that a list of coefficients stands for, lowest power first. -/
noncomputable def polyOf {F : Type} [Field F] (φ : Byte → F) : List Byte → F[X]
  | [] => 0
  | a :: p => C (φ a) + X * polyOf φ p

/-- The value at `z` of the polynomial that a list of coefficients stands for, highest power first. -/
def valueAt {F : Type} [Field F] (φ : Byte → F) (z : F) : List Byte → F
  | [] => 0
  | a :: v => φ a * z ^ v.length + valueAt φ z v

/-- The product of `1 + a x` over the bytes `a` of a list. -/
def linearProduct (as : List Byte) : List Byte := as.foldl (fun g a => polyMul g [1, a]) [1]

theorem rsGenerator_eq (nsym : Nat) : rsGenerator nsym = linearProduct ((List.range nsym).map gfExp) := by
  rw [linearProduct, List.foldl_map, rsGenerator]

theorem erasureLocator_eq (es : List Nat) : erasureLocator es = linearProduct (es.map locator) := by
  rw [linearProduct, List.foldl_map, erasureLocator]

/-! ## Lengths -/

theorem length_polyAdd (p q : List Byte) : (polyAdd p q).length = max p.length q.length := by
  fun_induction polyAdd p q with
  | case1 q => simp
  | case2 p hp => simp
  | case3 a p b q ih => rw [List.length_cons, ih, List.length_cons, List.length_cons]; omega

theorem length_polyMul_cons (a : Byte) (p q : List Byte) (hq : q ≠ []) :
    (polyMul (a :: p) q).length = p.length + q.length := by
  have hpos := List.length_pos_iff.mpr hq
  induction p generalizing a with
  | nil => simp only [polyMul, length_polyAdd, List.length_map, List.length_cons, List.length_nil]; omega
  | cons b p ih => rw [polyMul, length_polyAdd, List.length_cons, ih, List.length_map, List.length_cons]; omega

theorem length_polyMul {p q : List Byte} (hp : p ≠ []) (hq : q ≠ []) :
    (polyMul p q).length + 1 = p.length + q.length := by
  obtain ⟨a, p, rfl⟩ := List.exists_cons_of_ne_nil hp
  rw [length_polyMul_cons a p q hq, List.length_cons]
  omega

/-- A product of linear factors is a list that begins with 1 and is one longer than the list of factors. -/
theorem linearProduct_eq_cons (as : List Byte) : ∃ tail, linearProduct as = 1 :: tail ∧ tail.length = as.length := by
  induction as using List.reverseRecOn with
  | nil => exact ⟨[], rfl, rfl⟩
  | append_singleton as a ih =>
    obtain ⟨tail, htail, hlen⟩ := ih
    have hfold : linearProduct (as ++ [a]) = polyMul (linearProduct as) [1, a] := by
      rw [linearProduct, List.foldl_append]
      rfl
    refine ⟨(polyMul (linearProduct as) [1, a]).tail, ?_, ?_⟩
    · rw [hfold, htail, polyMul, List.map_cons, polyAdd, one_gfMul]
      rfl
    · rw [List.length_tail, htail, length_polyMul_cons 1 tail [1, a] nofun, hlen, List.length_append]
      rfl

section

variable {F : Type} [Field F] {φ : Byte → F}

/-! ## Values, highest power first -/

theorem valueAt_append (z : F) (v w : List Byte) :
    valueAt φ z (v ++ w) = valueAt φ z v * z ^ w.length + valueAt φ z w := by
  induction v with
  | nil => simp [valueAt]
  | cons a v ih => rw [List.cons_append, valueAt, valueAt, ih, List.length_append, pow_add]; ring

/-- The two orders of the powers are values at inverse places. -/
theorem valueAt_mul_self {z : F} (hz : z ≠ 0) (v : List Byte) :
    valueAt φ z v * z = (polyOf φ v).eval z⁻¹ * z ^ v.length := by
  induction v with
  | nil => simp [valueAt, polyOf]
  | cons a v ih =>
    rw [valueAt, add_mul, ih, polyOf, List.length_cons, eval_add, eval_C, eval_mul, eval_X]
    field_simp
    ring

/-- The value as a sum over the places of the list. -/
theorem valueAt_eq_sum (z : F) (v : List Byte) :
    valueAt φ z v = ∑ p ∈ Finset.range v.length, φ (v.getD p 0) * z ^ (v.length - 1 - p) := by
  induction v with
  | nil => rfl
  | cons a v ih =>
    rw [valueAt, List.length_cons, Finset.sum_range_succ', ih, add_comm]
    refine congrArg₂ _ (Finset.sum_congr rfl fun p hp => ?_) rfl
    rw [List.getD_cons_succ, show v.length + 1 - 1 - (p + 1) = v.length - 1 - p by omega]

variable (hφ : StandsFor φ)

include hφ

theorem hornerFrom_standsFor (z acc : Byte) (v : List Byte) :
    φ (hornerFrom z acc v) = φ acc * φ z ^ v.length + valueAt φ (φ z) v := by
  induction v generalizing acc with
  | nil => simp [hornerFrom, valueAt]
  | cons c v ih =>
    rw [hornerFrom, strictly_eq, ih, hφ.xor, hφ.mul, valueAt, List.length_cons]
    ring

theorem hornerEval_standsFor (v : List Byte) (z : Byte) : φ (hornerEval v z) = valueAt φ (φ z) v := by
  rw [hornerEval, hornerFrom_standsFor hφ, hφ.zero, zero_mul, zero_add]

theorem valueAt_replicate_zero (z : F) (n : Nat) : valueAt φ z (List.replicate n 0) = 0 := by
  induction n with
  | zero => rfl
  | succ n ih => rw [List.replicate_succ, valueAt, ih, hφ.zero, zero_mul, zero_add]

/-! ## Sums and products -/

theorem polyOf_polyAdd (p q : List Byte) : polyOf φ (polyAdd p q) = polyOf φ p + polyOf φ q := by
  fun_induction polyAdd p q with
  | case1 q => rw [polyOf, zero_add]
  | case2 p hp => rw [polyOf, add_zero]
  | case3 a p b q ih => rw [polyOf, ih, hφ.xor, C_add, polyOf, polyOf]; ring

theorem polyOf_map_gfMul (a : Byte) (q : List Byte) : polyOf φ (q.map (gfMul a)) = C (φ a) * polyOf φ q := by
  induction q with
  | nil => rw [List.map_nil, polyOf, mul_zero]
  | cons b q ih => rw [List.map_cons, polyOf, ih, hφ.mul, C_mul, polyOf]; ring

theorem polyOf_polyMul (p q : List Byte) : polyOf φ (polyMul p q) = polyOf φ p * polyOf φ q := by
  induction p with
  | nil => rw [polyMul, polyOf, zero_mul]
  | cons a p ih => rw [polyMul, polyOf_polyAdd hφ, polyOf_map_gfMul hφ, polyOf, ih, hφ.zero, C_0, polyOf]; ring

theorem polyOf_linear (a : Byte) : polyOf φ [1, a] = 1 + C (φ a) * X := by
  rw [polyOf, polyOf, polyOf, hφ.one, C_1]
  ring

theorem polyOf_linearProduct (as : List Byte) :
    polyOf φ (linearProduct as) = (as.map fun a => 1 + C (φ a) * X).prod := by
  have hfold (g : List Byte) : polyOf φ (as.foldl (fun g a => polyMul g [1, a]) g) =
      polyOf φ g * (as.map fun a => 1 + C (φ a) * X).prod := by
    induction as generalizing g with
    | nil => rw [List.foldl_nil, List.map_nil, List.prod_nil, mul_one]
    | cons a as ih =>
      rw [List.foldl_cons, ih, polyOf_polyMul hφ, polyOf_linear hφ, List.map_cons, List.prod_cons, mul_assoc]
  rw [linearProduct, hfold, polyOf, polyOf, hφ.one, C_1, mul_zero, add_zero, one_mul]

end

/-! ## The generator polynomial -/

theorem length_rsGenerator (nsym : Nat) : (rsGenerator nsym).length = nsym + 1 := by
  obtain ⟨tail, htail, hlen⟩ := linearProduct_eq_cons ((List.range nsym).map gfExp)
  rw [rsGenerator_eq, htail, List.length_cons, hlen, List.length_map, List.length_range]

/-- In characteristic 2 a factor `1 + a x` vanishes at the inverse of `a`, which is a root of the reversed list. -/
theorem valueAt_rsGenerator {F : Type} [Field F] [CharP F 2] {φ : Byte → F} (hφ : StandsFor φ) {nsym i : Nat}
    (hi : i < nsym) : valueAt φ (φ (gfExp i)) (rsGenerator nsym) = 0 := by
  have hne : φ (gfExp i) ≠ 0 := mt hφ.eq_zero_iff.mp (gfExp_ne_zero i)
  have hfactor : (1 + C (φ (gfExp i)) * X : F[X]).eval (φ (gfExp i))⁻¹ = 0 := by
    rw [eval_add, eval_one, eval_mul, eval_C, eval_X, mul_inv_cancel₀ hne, CharTwo.add_self_eq_zero]
  have hroot : (polyOf φ (rsGenerator nsym)).eval (φ (gfExp i))⁻¹ = 0 := by
    rw [rsGenerator_eq, polyOf_linearProduct hφ, List.map_map]
    refine eval_eq_zero_of_dvd_of_eval_eq_zero (List.dvd_prod (List.mem_map.mpr ⟨i, List.mem_range.mpr hi, rfl⟩)) hfactor
  have hvalue := valueAt_mul_self (φ := φ) hne (rsGenerator nsym)
  rw [hroot, zero_mul] at hvalue
  exact (mul_eq_zero.mp hvalue).resolve_right hne

/-- Settles O24: the generator is a product of linear factors, and each of its roots that of one factor; the printed
values are the function's. -/
theorem generatorPolynomial : Obligations.GeneratorPolynomial := by
  unfold Obligations.GeneratorPolynomial
  refine ⟨fun nsym => ⟨length_rsGenerator nsym, ?monic, fun i hi => ?root⟩, ?printed⟩
  case monic =>
    obtain ⟨tail, htail, _⟩ := linearProduct_eq_cons ((List.range nsym).map gfExp)
    rw [rsGenerator_eq, htail]
    rfl
  case root =>
    obtain ⟨F, _, _, φ, hφ⟩ := exists_standsFor
    rw [← hφ.eq_zero_iff, hornerEval_standsFor hφ]
    exact valueAt_rsGenerator hφ hi
  case printed => decide +kernel

/-! ## The encoder -/

theorem length_addPrefix (as r : List Byte) : (addPrefix as r).length = r.length := by
  fun_induction addPrefix as r with
  | case1 => rfl
  | case2 => rfl
  | case3 a as b r ih => rw [List.length_cons, ih, List.length_cons]

theorem length_rsDivide (tail : List Byte) (steps : Nat) :
    ∀ rem : List Byte, rem.length = steps + tail.length → (rsDivide tail steps rem).length = tail.length := by
  induction steps with
  | zero => exact fun _ hlen => hlen.trans (Nat.zero_add _)
  | succ steps ih =>
    rintro (_ | ⟨f, rem⟩) hlen
    · rw [List.length_nil] at hlen; omega
    · have hlen' : rem.length = steps + tail.length := by rw [List.length_cons] at hlen; omega
      rw [rsDivide]
      split
      · exact ih rem hlen'
      · exact ih _ (by rw [length_addPrefix, hlen'])

section

variable {F : Type} [Field F] {φ : Byte → F} (hφ : StandsFor φ)

include hφ

theorem valueAt_addPrefix (z : F) {as r : List Byte} (hlen : as.length ≤ r.length) :
    valueAt φ z (addPrefix as r) = valueAt φ z as * z ^ (r.length - as.length) + valueAt φ z r := by
  fun_induction addPrefix as r with
  | case1 as =>
    obtain rfl := List.length_eq_zero_iff.mp (Nat.le_zero.mp hlen)
    simp [valueAt]
  | case2 r hr => rw [valueAt, zero_mul, zero_add]
  | case3 a as b r ih =>
    have hlen' : as.length ≤ r.length := Nat.le_of_succ_le_succ hlen
    rw [valueAt, ih hlen', length_addPrefix, hφ.xor, valueAt, valueAt, List.length_cons, List.length_cons,
      Nat.add_sub_add_right]
    have hpow : z ^ r.length = z ^ as.length * z ^ (r.length - as.length) := by
      rw [← pow_add, Nat.add_sub_cancel' hlen']
    rw [hpow]
    ring

theorem valueAt_map_gfMul (z : F) (f : Byte) (v : List Byte) :
    valueAt φ z (v.map (gfMul f)) = φ f * valueAt φ z v := by
  induction v with
  | nil => rw [List.map_nil, valueAt, mul_zero]
  | cons a v ih => rw [List.map_cons, valueAt, ih, hφ.mul, List.length_map, valueAt]; ring

/-- A step of the long division adds a multiple of the divisor, so the value at a root of the divisor stays (R262). -/
theorem valueAt_rsDivide [CharP F 2] {tail : List Byte} {z : F} (hroot : valueAt φ z (1 :: tail) = 0) (steps : Nat) :
    ∀ rem : List Byte, rem.length = steps + tail.length → valueAt φ z (rsDivide tail steps rem) = valueAt φ z rem := by
  have htail : z ^ tail.length = valueAt φ z tail := by
    rw [valueAt, hφ.one, one_mul] at hroot
    exact CharTwo.add_eq_zero.mp hroot
  induction steps with
  | zero => exact fun _ _ => rfl
  | succ steps ih =>
    rintro (_ | ⟨f, rem⟩) hlen
    · rw [List.length_nil] at hlen; omega
    · have hlen' : rem.length = steps + tail.length := by rw [List.length_cons] at hlen; omega
      rw [rsDivide]
      split
      · rename_i hf
        rw [ih rem hlen', valueAt, hf, hφ.zero, zero_mul, zero_add]
      · rw [ih _ (by rw [length_addPrefix, hlen']), valueAt_addPrefix hφ z (by rw [List.length_map]; omega),
          valueAt_map_gfMul hφ, valueAt, List.length_map, ← htail, mul_assoc, ← pow_add,
          show tail.length + (rem.length - tail.length) = rem.length by omega]

end

/-- The encoder appends the parity bytes that make the word a codeword: at a root of the generator the message times
`x^nsym` and its remainder have one value, and their sum is 0 (R261, R262). -/
theorem rsEncode_isCodeword {nsym : Nat} {msg : List Byte} (hmsg : msg.length + nsym = 255) :
    ∃ parity, rsEncode (rsGenerator nsym) nsym msg = msg ++ parity ∧ parity.length = nsym ∧
      IsCodeword nsym (msg ++ parity) := by
  obtain ⟨tail, htail, hlen⟩ := linearProduct_eq_cons ((List.range nsym).map gfExp)
  rw [← rsGenerator_eq] at htail
  rw [List.length_map, List.length_range] at hlen
  have hrem : (msg ++ List.replicate nsym 0).length = msg.length + tail.length := by
    rw [List.length_append, List.length_replicate, hlen]
  have hparity := length_rsDivide tail msg.length _ hrem
  refine ⟨rsDivide tail msg.length (msg ++ List.replicate nsym 0), by rw [rsEncode, htail, List.tail_cons],
    hparity.trans hlen, by rw [List.length_append, hparity, hlen, hmsg], fun i hi => ?_⟩
  obtain ⟨F, _, _, φ, hφ⟩ := exists_standsFor
  have hroot := valueAt_rsGenerator hφ hi
  rw [htail] at hroot
  rw [← hφ.eq_zero_iff, hornerEval_standsFor hφ, valueAt_append, valueAt_rsDivide hφ hroot msg.length _ hrem,
    valueAt_append, valueAt_replicate_zero hφ, add_zero, hparity, hlen, List.length_replicate,
    CharTwo.add_self_eq_zero]

/-- Settles O47: the pops take the message, and the encoder makes it a codeword. -/
theorem rseEncMakesACodeword : Obligations.RseEncMakesACodeword := by
  unfold Obligations.RseEncMakesACodeword
  intro s msg hm hparity hgen hlen hops
  obtain ⟨parity, hencode, hplen, hword⟩ := rsEncode_isCodeword (nsym := s.cfg.parity) (msg := msg) (by omega)
  refine ⟨parity, hplen, hword, runCommand_of_body_pure .rseEnc rfl (by rw [hm]; rfl) (by simp [hm]) ?_⟩
  rw [hops, ← hlen, popMany_all asByte_u8, hgen, ← hencode]
  rfl

end Sys2Proof.Machine
end

section
/-!
`RSD.DEC` (spec/47 R265, R266): how the command answers what the decoder finds, and that the decoder's answer is a
codeword within the bound, which its last step checks.
-/

namespace Sys2Proof.Machine

/-! ## Counting errors -/

theorem errorsFrom_eq_countP (es : List Nat) (p : Nat) (r c : List Byte) (hlen : c.length = r.length) :
    errorsFrom es p r c =
      (List.range r.length).countP fun i => decide (p + i ∉ es) && decide (c.getD i 0 ≠ r.getD i 0) := by
  induction r generalizing p c with
  | nil => rw [List.length_eq_zero_iff.mp hlen]; rfl
  | cons a r ih =>
    obtain ⟨b, c, rfl⟩ := List.exists_cons_of_ne_nil (List.ne_nil_of_length_eq_add_one hlen)
    rw [errorsFrom, ih (p + 1) c (Nat.succ.inj hlen), List.length_cons, List.range_succ_eq_map, List.countP_cons,
      List.countP_map, add_comm]
    simp [Function.comp_def, Nat.add_assoc, Nat.add_comm 1]

/-- The model's count is that of R263. -/
theorem errorsOutside_eq {es : List Nat} {r c : List Byte} (hr : r.length = 255) (hc : c.length = 255) :
    errorsOutside es r c = errorCount es r c := by
  rw [errorsOutside, errorsFrom_eq_countP es 0 r c (hc.trans hr.symm), errorCount, List.countP_eq_length_filter, hr]
  simp only [Nat.zero_add]

theorem errorCount_self (es : List Nat) (r : List Byte) : errorCount es r r = 0 := by
  simp [errorCount]

/-! ## The checks of the decoder -/

theorem syndromes_all_zero_iff {nsym : Nat} {r : List Byte} :
    (syndromes nsym r).all (· = 0) = true ↔ ∀ i < nsym, hornerEval r (gfExp i) = 0 := by
  simp [syndromes]

/-- Step 8 of R265. -/
theorem withinBound_iff {nsym : Nat} {es : List Nat} {r c : List Byte} (hr : r.length = 255) (hc : c.length = 255) :
    withinBound nsym es r c = true ↔ IsCodeword nsym c ∧ 2 * errorCount es r c + es.length ≤ nsym := by
  rw [withinBound, Bool.and_eq_true, syndromes_all_zero_iff, decide_eq_true_iff, errorsOutside_eq hr hc, IsCodeword]
  simp only [hc, true_and]

theorem length_forneyCorrect {psi omega : List Byte} {ps : List Nat} :
    ∀ {w c : List Byte}, forneyCorrect psi omega ps w = some c → c.length = w.length := by
  induction ps with
  | nil => rintro w c ⟨⟩; rfl
  | cons p ps ih =>
    intro w c h
    simp only [forneyCorrect] at h
    split at h
    · cases h
    · rw [ih h, List.length_set]

/-- What the algorithm answers has passed its last step. -/
theorem rsCorrect_some {nsym : Nat} {r c : List Byte} {es : List Nat} (h : rsCorrect nsym r es = some c) :
    c.length = r.length ∧ withinBound nsym es r c = true := by
  simp only [rsCorrect] at h
  split_ifs at h
  split at h
  · cases h
  · rename_i hforney
    split_ifs at h with hbound
    cases h
    exact ⟨length_forneyCorrect hforney, hbound⟩

/-- What the decoder answers is a codeword within the bound (R263). -/
theorem rsDecode_some {nsym : Nat} {r c : List Byte} {es : List Nat} (hr : r.length = 255)
    (h : rsDecode nsym r es = some c) :
    c.length = 255 ∧ IsCodeword nsym c ∧ 2 * errorCount es r c + es.length ≤ nsym := by
  rw [rsDecode] at h
  split_ifs at h with hcap hsyn
  · cases h
    refine ⟨hr, ⟨hr, syndromes_all_zero_iff.mp hsyn⟩, ?_⟩
    rw [errorCount_self]
    omega
  · obtain ⟨hlen, hbound⟩ := rsCorrect_some h
    have hc := hlen.trans hr
    exact ⟨hc, (withinBound_iff hr hc).mp hbound⟩

/-! ## The command -/

section

variable {s : State} {ne : Count} {r : List Byte} {es : List Nat} (hm : s.mode = .ready) (hr : r.length = 255)
  (hne : ne.toNat = es.length) (hes : ErasureList es) (hops : s.opq = r.map Elem.u8 ++ es.map Elem.nat)

include hr hne hes hops

/-- With a legal erasure list the command answers what the decoder does (R266). -/
theorem exec_rsdDec_eq : exec (.rsdDec ne) s = runCommand (.rsdDec ne) s
    (decodeOrFail s.cfg.parity r es >>= fun c =>
      .ok (Done.pure s ((c.take (255 - s.cfg.parity)).map Elem.u8) (positionsChanged r c))) := by
  refine congrArg (runCommand (.rsdDec ne) s) ?_
  rw [hops, Cursor.start, ← hr, popMany_map_bind asByte_u8, hne, ← List.append_nil (es.map Elem.nat)]
  dsimp only
  rw [popMany_map_bind asNat_nat]
  dsimp only
  rw [checkPositions_ok hes]
  rfl

include hm

theorem exec_rsdDec_fails (h : rsDecode s.cfg.parity r es = none) :
    exec (.rsdDec ne) s = .next (s.failed 10 es.length) := by
  rw [exec_rsdDec_eq hr hne hes hops, decodeOrFail, h]
  exact runCommand_of_body_error (.rsdDec ne) ⟨.eccUnrecoverable, es.length⟩ rfl (by rw [hm]; rfl) rfl

theorem exec_rsdDec_corrects {c : List Byte} (h : rsDecode s.cfg.parity r es = some c) : exec (.rsdDec ne) s =
    .next (s.succeed ((c.take (255 - s.cfg.parity)).map Elem.u8) false (errorCount [] r c)) := by
  obtain ⟨hc, _⟩ := rsDecode_some hr h
  rw [exec_rsdDec_eq hr hne hes hops, decodeOrFail, h, ← errorsOutside_eq hr hc]
  exact runCommand_of_body_pure (.rsdDec ne) rfl (by rw [hm]; rfl) (by simp [hm]) rfl

end

/-- Settles O48: too many erasures are refused first, a word without syndromes is answered as it is, and what the
algorithm answers has passed the check of step 8. -/
theorem rsdDecIsSound : Obligations.RsdDecIsSound := by
  unfold Obligations.RsdDecIsSound
  intro s ne r es hm hr hne hes hops
  refine ⟨fun hcap => ?erasures, fun hcap hword => ?codeword, ?bound⟩
  case erasures => exact exec_rsdDec_fails hm hr hne hes hops (if_pos hcap)
  case codeword =>
    have hdecode : rsDecode s.cfg.parity r es = some r := by
      rw [rsDecode, if_neg hcap.not_gt, if_pos (syndromes_all_zero_iff.mpr hword.2)]
    rw [exec_rsdDec_corrects hm hr hne hes hops hdecode, errorCount_self]
  case bound =>
    cases hdecode : rsDecode s.cfg.parity r es with
    | none => exact .inl (exec_rsdDec_fails hm hr hne hes hops hdecode)
    | some c =>
      obtain ⟨_, hword, hbound⟩ := rsDecode_some hr hdecode
      exact .inr ⟨c, hword, hbound, exec_rsdDec_corrects hm hr hne hes hops hdecode⟩

end Sys2Proof.Machine
end

section
/-!
The mathematics of decoding (spec/47 R263, R265), over any field: sums of powers of locators, the polynomial whose roots
are the inverse locators, and what a linear recurrence of such a sum says of it.
-/

namespace Sys2Proof.Decoding

open Polynomial

variable {F : Type} [Field F] {x y : Nat → F} {A : Finset Nat}

/-! ## Sums of powers -/

/-- Weights whose power sums vanish, as many as there are places, are 0 (Vandermonde). -/
theorem weights_eq_zero (hx : Set.InjOn x A) (h : ∀ i < A.card, ∑ p ∈ A, y p * x p ^ i = 0) : ∀ p ∈ A, y p = 0 := by
  let e := A.equivFin.symm
  have hinj : Function.Injective fun j => x (e j) := fun j k hjk =>
    e.injective (Subtype.ext (hx (e j).2 (e k).2 hjk))
  have hsum (i : Fin A.card) : ∑ j, y (e j) * x (e j) ^ (i : Nat) = 0 := by
    rw [← h i i.isLt, ← Finset.sum_coe_sort A]
    exact e.sum_comp fun p : A => y p * x p ^ (i : Nat)
  have hzero := Matrix.eq_zero_of_forall_pow_sum_mul_pow_eq_zero hinj hsum
  intro p hp
  simpa [e] using congrFun hzero (A.equivFin ⟨p, hp⟩)

/-- A polynomial times a series of power sums: each weight is multiplied by the value at the inverse of its locator. -/
theorem coeff_mul_powerSums {P Q : F[X]} {j : Nat} (hx : ∀ p ∈ A, x p ≠ 0)
    (hQ : ∀ k ≤ j, Q.coeff k = ∑ p ∈ A, y p * x p ^ k) (hP : P.natDegree ≤ j) :
    (P * Q).coeff j = ∑ p ∈ A, y p * P.eval (x p)⁻¹ * x p ^ j := by
  rw [coeff_mul, Finset.Nat.sum_antidiagonal_eq_sum_range_succ fun i k => P.coeff i * Q.coeff k]
  have hterm : ∀ i ∈ Finset.range (j + 1), P.coeff i * Q.coeff (j - i) =
      ∑ p ∈ A, y p * (P.coeff i * (x p)⁻¹ ^ i) * x p ^ j := by
    intro i hi
    rw [hQ _ (Nat.sub_le j i), Finset.mul_sum]
    refine Finset.sum_congr rfl fun p hp => ?_
    have hpow : x p ^ (j - i) = (x p)⁻¹ ^ i * x p ^ j := by
      rw [inv_pow, pow_sub₀ _ (hx p hp) (Nat.le_of_lt_succ (Finset.mem_range.mp hi)), mul_comm]
    rw [hpow]
    ring
  rw [Finset.sum_congr rfl hterm, Finset.sum_comm]
  refine Finset.sum_congr rfl fun p _ => ?_
  rw [eval_eq_sum_range' (Nat.lt_succ_of_le hP), Finset.mul_sum, Finset.sum_mul]

/-! ## The polynomial of inverse locators -/

/-- The product of `1 - x_p X`, whose roots are the inverses of the locators. -/
noncomputable def locatorPoly (x : Nat → F) (A : Finset Nat) : F[X] := ∏ p ∈ A, (1 - C (x p) * X)

theorem coeff_zero_locatorPoly : (locatorPoly x A).coeff 0 = 1 := by
  rw [coeff_zero_eq_eval_zero, locatorPoly, eval_prod]
  simp

theorem natDegree_one_sub_C_mul_X {a : F} (ha : a ≠ 0) : (1 - C a * X).natDegree = 1 := by
  rw [← natDegree_neg, neg_sub, ← C_1, natDegree_sub_C, natDegree_C_mul_X a ha]

theorem natDegree_locatorPoly (hx : ∀ p ∈ A, x p ≠ 0) : (locatorPoly x A).natDegree = A.card := by
  have hdegree : ∀ p ∈ A, (1 - C (x p) * X).natDegree = 1 := fun p hp => natDegree_one_sub_C_mul_X (hx p hp)
  have hne : ∀ p ∈ A, 1 - C (x p) * X ≠ 0 := fun p hp h => by simpa [h] using hdegree p hp
  rw [locatorPoly, natDegree_prod _ _ hne, Finset.sum_congr rfl hdegree, Finset.card_eq_sum_ones]

/-- The polynomial vanishes at the inverse of a locator exactly when it has that locator's factor. -/
theorem eval_locatorPoly_eq_zero_iff {a : F} (ha : a ≠ 0) :
    (locatorPoly x A).eval a⁻¹ = 0 ↔ ∃ p ∈ A, x p = a := by
  rw [locatorPoly, eval_prod, Finset.prod_eq_zero_iff]
  refine exists_congr fun p => and_congr_right fun _ => ?_
  rw [eval_sub, eval_one, eval_mul, eval_C, eval_X, sub_eq_zero, eq_comm, mul_inv_eq_one₀ ha]

theorem eval_locatorPoly_of_mem {p : Nat} (hp : p ∈ A) (hx : x p ≠ 0) : (locatorPoly x A).eval (x p)⁻¹ = 0 :=
  (eval_locatorPoly_eq_zero_iff hx).mpr ⟨p, hp, rfl⟩

theorem locatorPoly_eq_mul_erase {p : Nat} (hp : p ∈ A) :
    locatorPoly x A = (1 - C (x p) * X) * locatorPoly x (A.erase p) :=
  (Finset.mul_prod_erase A _ hp).symm

/-- A polynomial of the degree of the locators that vanishes at their inverses and is 1 at 0 is theirs. -/
theorem eq_locatorPoly {P : F[X]} (hx : ∀ p ∈ A, x p ≠ 0) (hinj : Set.InjOn x A) (hdegree : P.natDegree ≤ A.card)
    (hone : P.coeff 0 = 1) (hroots : ∀ p ∈ A, P.eval (x p)⁻¹ = 0) : P = locatorPoly x A := by
  classical
  have hcard : (insert 0 (A.image fun p => (x p)⁻¹)).card = A.card + 1 := by
    rw [Finset.card_insert_of_notMem, Finset.card_image_of_injOn fun p hp q hq h => hinj hp hq (inv_injective h)]
    rw [Finset.mem_image]
    rintro ⟨p, hp, h⟩
    exact hx p hp (inv_eq_zero.mp h)
  have hlt {Q : F[X]} (hQ : Q.natDegree ≤ A.card) : Q.degree < ((insert 0 (A.image fun p => (x p)⁻¹)).card : Nat) := by
    rw [hcard]
    exact lt_of_le_of_lt degree_le_natDegree (by exact_mod_cast Nat.lt_succ_of_le hQ)
  refine eq_of_degrees_lt_of_eval_finset_eq _ (hlt hdegree) (hlt (natDegree_locatorPoly hx).le) fun z hz => ?_
  rcases Finset.mem_insert.mp hz with rfl | hz
  · rw [← coeff_zero_eq_eval_zero, ← coeff_zero_eq_eval_zero, hone, coeff_zero_locatorPoly]
  · obtain ⟨p, hp, rfl⟩ := Finset.mem_image.mp hz
    rw [hroots p hp, eval_locatorPoly_of_mem hp (hx p hp)]

/-! ## Recurrences of a series of power sums -/

section

variable {P Q : F[X]} {n : Nat} (hx : ∀ p ∈ A, x p ≠ 0) (hQ : ∀ k < n, Q.coeff k = ∑ p ∈ A, y p * x p ^ k)

include hx hQ

/-- The locators' polynomial is a recurrence of the series. -/
theorem coeff_locatorPoly_mul {j : Nat} (hj : A.card ≤ j) (hn : j < n) : (locatorPoly x A * Q).coeff j = 0 := by
  rw [coeff_mul_powerSums hx (fun k hk => hQ k (by omega)) ((natDegree_locatorPoly hx).le.trans hj)]
  refine Finset.sum_eq_zero fun p hp => ?_
  rw [eval_locatorPoly_of_mem hp (hx p hp), mul_zero, zero_mul]

/-- It is the only one of its length, where no weight is 0 and the series is known twice as far. -/
theorem eq_locatorPoly_of_recurrence (hinj : Set.InjOn x A) (hy : ∀ p ∈ A, y p ≠ 0) (hn : 2 * A.card ≤ n)
    (hdegree : P.natDegree ≤ A.card) (hone : P.coeff 0 = 1)
    (hP : ∀ j, A.card ≤ j → j < n → (P * Q).coeff j = 0) : P = locatorPoly x A := by
  refine eq_locatorPoly hx hinj hdegree hone fun p hp => ?_
  have hsum : ∀ i < A.card, ∑ q ∈ A, (y q * P.eval (x q)⁻¹ * x q ^ A.card) * x q ^ i = 0 := by
    intro i hi
    rw [← hP (A.card + i) (by omega) (by omega),
      coeff_mul_powerSums hx (fun k hk => hQ k (by omega)) (by omega : P.natDegree ≤ A.card + i)]
    simp only [pow_add, mul_assoc]
  have hzero := weights_eq_zero hinj hsum p hp
  simpa [hy p hp, hx p hp] using hzero

end

/-! ## The key equation -/

/-- The evaluator of R265 step 6: the sum of `y_p` times the factors of the other locators. -/
noncomputable def evaluatorPoly (x y : Nat → F) (A : Finset Nat) : F[X] :=
  ∑ p ∈ A, C (y p) * locatorPoly x (A.erase p)

/-- Below `n` the coefficients of the power sums times the locators' polynomial are the evaluator's. -/
theorem coeff_mul_locatorPoly {Q : F[X]} {n : Nat} (hQ : Q = ∑ i ∈ Finset.range n, C (∑ p ∈ A, y p * x p ^ i) * X ^ i)
    {j : Nat} (hj : j < n) : (Q * locatorPoly x A).coeff j = (evaluatorPoly x y A).coeff j := by
  have hQ' : Q = ∑ p ∈ A, C (y p) * ∑ i ∈ Finset.range n, (C (x p) * X) ^ i := by
    rw [hQ]
    simp only [map_sum, Finset.sum_mul, Finset.mul_sum]
    rw [Finset.sum_comm]
    refine Finset.sum_congr rfl fun p _ => Finset.sum_congr rfl fun i _ => ?_
    rw [mul_pow, C_mul, C_pow, mul_assoc]
  have hterm : ∀ p ∈ A, C (y p) * (∑ i ∈ Finset.range n, (C (x p) * X) ^ i) * locatorPoly x A =
      C (y p) * locatorPoly x (A.erase p) - X ^ n * (C (y p) * C (x p) ^ n * locatorPoly x (A.erase p)) := by
    intro p hp
    have hgeom := mul_neg_geom_sum (C (x p) * X) n
    rw [mul_pow] at hgeom
    rw [locatorPoly_eq_mul_erase hp]
    linear_combination C (y p) * locatorPoly x (A.erase p) * hgeom
  rw [hQ', Finset.sum_mul, Finset.sum_congr rfl hterm, Finset.sum_sub_distrib, ← Finset.mul_sum, coeff_sub,
    coeff_X_pow_mul', if_neg hj.not_ge, sub_zero, evaluatorPoly]

theorem coeff_evaluatorPoly_eq_zero {n : Nat} (hx : ∀ p ∈ A, x p ≠ 0) (hn : A.card ≤ n) {j : Nat} (hj : n ≤ j) :
    (evaluatorPoly x y A).coeff j = 0 := by
  rw [evaluatorPoly, finsetSum_coeff]
  refine Finset.sum_eq_zero fun p hp => ?_
  have hcard := Finset.card_erase_lt_of_mem hp
  rw [coeff_C_mul, coeff_eq_zero_of_natDegree_lt, mul_zero]
  rw [natDegree_locatorPoly fun q hq => hx q (Finset.mem_of_mem_erase hq)]
  omega

section

variable {p : Nat} (hp : p ∈ A) (hx : x p ≠ 0)

include hp hx

/-- At an inverse locator one term of the evaluator is left. -/
theorem eval_evaluatorPoly :
    (evaluatorPoly x y A).eval (x p)⁻¹ = y p * (locatorPoly x (A.erase p)).eval (x p)⁻¹ := by
  rw [evaluatorPoly, eval_finsetSum, Finset.sum_eq_single_of_mem p hp, eval_mul, eval_C]
  intro q _ hq
  rw [eval_mul, eval_locatorPoly_of_mem (Finset.mem_erase.mpr ⟨hq.symm, hp⟩) hx, mul_zero]

theorem eval_derivative_locatorPoly :
    (derivative (locatorPoly x A)).eval (x p)⁻¹ = -x p * (locatorPoly x (A.erase p)).eval (x p)⁻¹ := by
  rw [locatorPoly_eq_mul_erase hp]
  simp [hx]

end

end Sys2Proof.Decoding
end

section
/-!
The algorithm of Berlekamp and Massey (spec/47 R265 step 4): each round keeps a recurrence of the series that has been
read and what the last change of its length was made from, and no recurrence of the series is shorter.
-/

namespace Sys2Proof.Decoding

open Polynomial

variable {F : Type} [Field F] {U P B R : F[X]} {b : F} {len len' m n k v : Nat}

/-! ## Recurrences -/

/-- `P` with `P(0) = 1` is a linear recurrence of length `len` of the coefficients of `U` before `k`. -/
structure Recurrence (U P : F[X]) (len k : Nat) : Prop where
  one : P.coeff 0 = 1
  degree : P.natDegree ≤ len
  vanishes : ∀ j, len ≤ j → j < k → (P * U).coeff j = 0

/-- A coefficient of a product as the taps of the first factor, delayed; the taps beyond its degree are 0. -/
theorem coeff_mul_eq_taps (hP : P.natDegree ≤ len) : (P * U).coeff k = P.coeff 0 * U.coeff k +
    ∑ i ∈ Finset.range len, P.coeff (i + 1) * if i + 1 ≤ k then U.coeff (k - (i + 1)) else 0 := by
  have hdelayed : ∀ i ∈ Finset.range k, P.coeff (i + 1) * U.coeff (k - (i + 1)) =
      P.coeff (i + 1) * if i + 1 ≤ k then U.coeff (k - (i + 1)) else 0 := fun i hi =>
    congrArg _ (if_pos (Finset.mem_range.mp hi)).symm
  rw [coeff_mul, Finset.Nat.sum_antidiagonal_eq_sum_range_succ fun i j => P.coeff i * U.coeff j,
    Finset.sum_range_succ', Nat.sub_zero, add_comm, Finset.sum_congr rfl hdelayed]
  refine congrArg _ ((Finset.sum_subset (Finset.range_mono (Nat.le_add_left k len)) fun i _ hi => ?early).trans
    (Finset.sum_subset (Finset.range_mono (Nat.le_add_right len k)) fun i _ hi => ?beyond).symm)
  case early => exact mul_eq_zero_of_right _ (if_neg (mt Finset.mem_range.mpr hi))
  case beyond =>
    rw [Finset.mem_range, not_lt] at hi
    exact mul_eq_zero_of_left (coeff_eq_zero_of_natDegree_lt (by omega)) _

/-- A coefficient of a product, where the lower ones of the second factor that the first one reaches are 0. -/
theorem coeff_mul_of_gap {Q : F[X]} (hP : P.natDegree ≤ len) (hQ : ∀ j, k ≤ j + len → j < k → Q.coeff j = 0) :
    (P * Q).coeff k = P.coeff 0 * Q.coeff k := by
  rw [coeff_mul, Finset.sum_eq_single_of_mem (0, k) (by simp)]
  rintro ⟨i, j⟩ hij hne
  replace hij : i + j = k := Finset.HasAntidiagonal.mem_antidiagonal.mp hij
  by_cases hi : len < i
  · rw [coeff_eq_zero_of_natDegree_lt (hP.trans_lt hi), zero_mul]
  · have hpos : i ≠ 0 := by
      rintro rfl
      exact hne (by rw [← hij, Nat.zero_add])
    rw [hQ j (by omega) (by omega), mul_zero]

/-- A recurrence that goes on past a place where another one of length `len` stops has at least the length that is
missing there (Massey). -/
theorem Recurrence.lt_add_of_discrepancy (hR : Recurrence U R v n) (hP : Recurrence U P len k) (hk : k < n)
    (hd : (P * U).coeff k ≠ 0) : k < v + len := by
  by_contra hlt
  have hleft : (R * (P * U)).coeff k = (P * U).coeff k := by
    rw [coeff_mul_of_gap hR.degree fun j _ hj => hP.vanishes j (by omega) hj, hR.one, one_mul]
  have hright : (P * (R * U)).coeff k = 0 := by
    rw [coeff_mul_of_gap hP.degree fun j _ hj => hR.vanishes j (by omega) (by omega),
      hR.vanishes k (by omega) hk, mul_zero]
  rw [mul_left_comm, hright] at hleft
  exact hd hleft.symm

/-! ## The registers -/

/-- The registers before round `k`: the recurrence `P`, and a former one `B`, by now multiplied by `x^m`, which stopped
with the discrepancy `b` where the length last changed. -/
structure Registers (U P B : F[X]) (b : F) (len m k : Nat) : Prop where
  current : Recurrence U P len k
  shift : 1 ≤ m
  degree : B.natDegree + m + len ≤ k + 1
  vanishes : ∀ j, k + 1 ≤ j + len → j < k → (X ^ m * (B * U)).coeff j = 0
  last : len ≠ 0 → (X ^ m * (B * U)).coeff k = b
  last_ne : b ≠ 0

theorem Registers.init : Registers U 1 1 (1 : F) 0 1 0 where
  current := ⟨coeff_one_zero, natDegree_one.le, fun j _ hj => absurd hj j.not_lt_zero⟩
  shift := le_rfl
  degree := by rw [natDegree_one]
  vanishes j _ hj := absurd hj j.not_lt_zero
  last h := absurd rfl h
  last_ne := one_ne_zero

/-- One more factor `x` moves the coefficients up. -/
theorem coeff_X_pow_succ_mul {Q : F[X]} (j : Nat) : (X ^ (m + 1) * Q).coeff (j + 1) = (X ^ m * Q).coeff j := by
  rw [pow_succ', mul_assoc, coeff_X_mul]

/-- The coefficients of the former recurrence's series, one place further on. -/
theorem Registers.vanishes_succ (h : Registers U P B b len m k) :
    ∀ j, k + 1 + 1 ≤ j + len → j < k + 1 → (X ^ (m + 1) * (B * U)).coeff j = 0 := by
  rintro (_ | j) hlen hj
  · rw [coeff_X_pow_mul', if_neg (by omega)]
  · rw [coeff_X_pow_succ_mul]
    exact h.vanishes j (by omega) (by omega)

/-- A round without discrepancy. -/
theorem Registers.skip (h : Registers U P B b len m k) (hd : (P * U).coeff k = 0) :
    Registers U P B b len (m + 1) (k + 1) where
  current := ⟨h.current.one, h.current.degree, fun j hlen hj => by
    rcases Nat.lt_succ_iff_lt_or_eq.mp hj with hj | rfl
    · exact h.current.vanishes j hlen hj
    · exact hd⟩
  shift := Nat.le_succ_of_le h.shift
  degree := by have := h.degree; omega
  vanishes := h.vanishes_succ
  last hlen := (coeff_X_pow_succ_mul k).trans (h.last hlen)
  last_ne := h.last_ne

section

variable [CharP F 2] {d : F} (h : Registers U P B b len m k) (hd : (P * U).coeff k = d)

include h hd

/-- The recurrence that has the discrepancy removed, of a length that allows for the former one. -/
theorem Registers.update (hlen : len ≤ len') (hk : k + 1 ≤ len' + len) :
    Recurrence U (P + X ^ m * (C (d / b) * B)) len' (k + 1) where
  one := by
    have hshift := h.shift
    rw [coeff_add, h.current.one, coeff_X_pow_mul', if_neg (by omega), add_zero]
  degree := by
    have hB := h.degree
    have hP := h.current.degree
    have hshifted : (X ^ m * (C (d / b) * B)).natDegree ≤ m + B.natDegree :=
      natDegree_mul_le.trans (Nat.add_le_add (natDegree_X_pow_le m) (natDegree_C_mul_le _ _))
    exact natDegree_add_le_of_degree_le (hP.trans hlen) (hshifted.trans (by omega))
  vanishes j hj hjk := by
    have hsplit : ((P + X ^ m * (C (d / b) * B)) * U).coeff j =
        (P * U).coeff j + d / b * (X ^ m * (B * U)).coeff j := by
      rw [← coeff_C_mul, ← coeff_add]
      ring_nf
    rw [hsplit]
    rcases Nat.lt_succ_iff_lt_or_eq.mp hjk with hjk | rfl
    · rw [h.current.vanishes j (hlen.trans hj) hjk, h.vanishes j (by omega) hjk, mul_zero, add_zero]
    · rw [hd, h.last (by omega), div_mul_cancel₀ _ h.last_ne, CharTwo.add_self_eq_zero]

/-- A round with a discrepancy that the length allows for. -/
theorem Registers.adjust (hlen : k < 2 * len) :
    Registers U (P + X ^ m * (C (d / b) * B)) B b len (m + 1) (k + 1) where
  current := h.update hd le_rfl (by omega)
  shift := Nat.le_succ_of_le h.shift
  degree := by have := h.degree; omega
  vanishes := h.vanishes_succ
  last hlen := (coeff_X_pow_succ_mul k).trans (h.last hlen)
  last_ne := h.last_ne

/-- A round with a discrepancy that makes the recurrence longer; the present one is kept. -/
theorem Registers.grow (hd0 : d ≠ 0) (hlen : 2 * len ≤ k) :
    Registers U (P + X ^ m * (C (d / b) * B)) P d (k + 1 - len) 1 (k + 1) where
  current := h.update hd (by omega) (by omega)
  shift := le_rfl
  degree := by have := h.current.degree; omega
  vanishes := by
    rintro (_ | j) hj hjk
    · rw [coeff_X_pow_mul', if_neg (by omega)]
    · rw [coeff_X_pow_succ_mul, pow_zero, one_mul]
      exact h.current.vanishes j (by omega) (by omega)
  last _ := by rw [coeff_X_pow_succ_mul, pow_zero, one_mul, hd]
  last_ne := hd0

end

end Sys2Proof.Decoding

namespace Sys2Proof.Machine

open Polynomial Sys2Proof.Decoding

section

variable {F : Type} [Field F] {φ : Byte → F} (hφ : StandsFor φ)

include hφ

/-! ## The algorithm on bytes -/

theorem coeff_polyOf (p : List Byte) (n : Nat) : (polyOf φ p).coeff n = φ (p.getD n 0) := by
  induction p generalizing n with
  | nil => rw [polyOf, coeff_zero, List.getD_nil, hφ.zero]
  | cons a p ih =>
    rw [polyOf, coeff_add]
    cases n with
    | zero => rw [coeff_C_zero, coeff_X_mul_zero, add_zero, List.getD_cons_zero]
    | succ n => rw [coeff_C_succ, coeff_X_mul, ih, zero_add, List.getD_cons_succ]

theorem polyOf_shifted (m : Nat) (q : List Byte) : polyOf φ (List.replicate m 0 ++ q) = X ^ m * polyOf φ q := by
  induction m with
  | zero => rw [List.replicate_zero, List.nil_append, pow_zero, one_mul]
  | succ m ih => rw [List.replicate_succ, List.cons_append, polyOf, ih, hφ.zero, C_0, pow_succ']; ring

theorem polyOf_one : polyOf φ [1] = 1 := by
  rw [polyOf, polyOf, hφ.one, C_1, mul_zero, add_zero]

theorem foldl_xor_standsFor (f : Nat → Byte) (a : Byte) (n : Nat) :
    φ ((List.range n).foldl (fun acc i => acc ^^^ f i) a) = φ a + ∑ i ∈ Finset.range n, φ (f i) := by
  induction n with
  | zero => rw [List.range_zero, List.foldl_nil, Finset.range_zero, Finset.sum_empty, add_zero]
  | succ n ih =>
    rw [List.range_succ, List.foldl_append, List.foldl_cons, List.foldl_nil, hφ.xor, ih, Finset.sum_range_succ, add_assoc]

/-- The discrepancy of round `k` is a coefficient of the recurrence times the series. -/
theorem bmDiscrepancy_standsFor {u : List Byte} {k : Nat} {t : BmState} (hone : (polyOf φ t.c).coeff 0 = 1)
    (hdegree : (polyOf φ t.c).natDegree ≤ t.len) :
    φ (bmDiscrepancy u k t) = (polyOf φ t.c * polyOf φ u).coeff k := by
  rw [bmDiscrepancy, foldl_xor_standsFor hφ, coeff_mul_eq_taps hdegree, hone, one_mul, coeff_polyOf hφ u]
  refine congrArg _ (Finset.sum_congr rfl fun i _ => ?_)
  rw [hφ.mul, apply_ite φ, hφ.zero, coeff_polyOf hφ, coeff_polyOf hφ]

theorem polyOf_bmUpdate {d : Byte} {t : BmState} (hlast : t.last ≠ 0) :
    polyOf φ (bmUpdate d t) = polyOf φ t.c + X ^ t.m * (C (φ d / φ t.last) * polyOf φ t.b) := by
  rw [bmUpdate, polyOf_polyAdd hφ, polyOf_shifted hφ, polyOf_map_gfMul hφ, hφ.mul, hφ.inv hlast, div_eq_mul_inv]

/-- The registers of the model's algorithm. -/
def BmRegisters (φ : Byte → F) (u : List Byte) (t : BmState) (k : Nat) : Prop :=
  Registers (polyOf φ u) (polyOf φ t.c) (polyOf φ t.b) (φ t.last) t.len t.m k

variable [CharP F 2]

/-- A round keeps the registers, and the length at most that of any recurrence that goes further (R265 step 4). -/
theorem bmStep_keeps {u : List Byte} {t : BmState} {k v n : Nat} {R : F[X]} (ht : BmRegisters φ u t k)
    (hR : Recurrence (polyOf φ u) R v n) (hlen : t.len ≤ v) (hk : k < n) :
    BmRegisters φ u (bmStep u t k) (k + 1) ∧ (bmStep u t k).len ≤ v := by
  have hd := (bmDiscrepancy_standsFor hφ (u := u) (k := k) ht.current.one ht.current.degree).symm
  have hlast : t.last ≠ 0 := mt hφ.eq_zero_iff.mpr ht.last_ne
  have hzero := hφ.eq_zero_iff (a := bmDiscrepancy u k t)
  simp only [bmStep]
  split_ifs with hd0 hgrow
  case pos => exact ⟨ht.skip (hd.trans (hzero.mpr hd0)), hlen⟩
  case pos =>
    have hne : φ (bmDiscrepancy u k t) ≠ 0 := mt hzero.mp hd0
    have hlonger := hR.lt_add_of_discrepancy ht.current hk (hd ▸ hne)
    refine ⟨?_, by simp only; omega⟩
    rw [BmRegisters, polyOf_bmUpdate hφ hlast]
    exact ht.grow hd hne hgrow
  case neg =>
    refine ⟨?_, hlen⟩
    rw [BmRegisters, polyOf_bmUpdate hφ hlast]
    exact ht.adjust hd (by omega)

/-- The algorithm ends with a recurrence of the whole series that is no longer than any other. -/
theorem berlekampMassey_recurrence {u : List Byte} {v : Nat} {R : F[X]} (hR : Recurrence (polyOf φ u) R v u.length) :
    Recurrence (polyOf φ u) (polyOf φ (berlekampMassey u).c) (berlekampMassey u).len u.length ∧
      (berlekampMassey u).len ≤ v := by
  have hrounds : ∀ k ≤ u.length,
      let t := (List.range k).foldl (bmStep u) { c := [1], b := [1], len := 0, m := 1, last := 1 }
      BmRegisters φ u t k ∧ t.len ≤ v := by
    intro k
    induction k with
    | zero =>
      intro _
      refine ⟨?_, v.zero_le⟩
      rw [BmRegisters, List.range_zero, List.foldl_nil, polyOf_one hφ, hφ.one]
      exact .init
    | succ k ih =>
      intro hk
      obtain ⟨ht, hlen⟩ := ih (by omega)
      simp only [List.range_succ, List.foldl_append, List.foldl_cons, List.foldl_nil]
      exact bmStep_keeps hφ ht hR hlen hk
  obtain ⟨ht, hlen⟩ := hrounds u.length le_rfl
  exact ⟨ht.current, hlen⟩

end

end Sys2Proof.Machine
end

section
/-!
What the decoder's lists stand for (spec/47 R258, R265): cutting, trimming and deriving a list of coefficients, the
locators of positions and the erasure locator.
-/

namespace Sys2Proof.Machine

open Polynomial Sys2Proof.Decoding

/-- The locator of a position, in the field (R258). -/
def locatorOf {F : Type} (φ : Byte → F) (p : Nat) : F := φ (locator p)

theorem length_erasureLocator (es : List Nat) : (erasureLocator es).length = es.length + 1 := by
  obtain ⟨tail, htail, hlen⟩ := linearProduct_eq_cons (es.map locator)
  rw [erasureLocator_eq, htail, List.length_cons, hlen, List.length_map]

section

variable {F : Type} [Field F] {φ : Byte → F} (hφ : StandsFor φ)

include hφ

/-! ## Operations on lists that stand for polynomials -/

theorem polyEval_standsFor (p : List Byte) (z : Byte) : φ (polyEval p z) = (polyOf φ p).eval (φ z) := by
  induction p with
  | nil => rw [polyOf, eval_zero, ← hφ.zero]; rfl
  | cons a p ih =>
    have hcons : polyEval (a :: p) z = a ^^^ gfMul z (polyEval p z) := rfl
    rw [hcons, hφ.xor, hφ.mul, ih, polyOf, eval_add, eval_C, eval_mul, eval_X]

theorem coeff_polyOf_take (p : List Byte) (n k : Nat) :
    (polyOf φ (p.take n)).coeff k = if k < n then (polyOf φ p).coeff k else 0 := by
  rw [coeff_polyOf hφ, coeff_polyOf hφ]
  split_ifs with h
  · simp [List.getD_eq_getElem?_getD, h]
  · rw [List.getD_eq_default _ _ (by rw [List.length_take]; omega), hφ.zero]

theorem coeff_polyOf_drop (p : List Byte) (n k : Nat) :
    (polyOf φ (p.drop n)).coeff k = (polyOf φ p).coeff (n + k) := by
  rw [coeff_polyOf hφ, coeff_polyOf hφ]
  simp [List.getD_eq_getElem?_getD, List.getElem?_drop]

theorem polyOf_concat_zero (p : List Byte) : polyOf φ (p ++ [0]) = polyOf φ p := by
  induction p with
  | nil => rw [List.nil_append, polyOf, polyOf, hφ.zero, C_0, polyOf, mul_zero, zero_add]
  | cons a p ih => rw [List.cons_append, polyOf, ih, polyOf]

theorem natDegree_polyOf_concat (p : List Byte) {a : Byte} (ha : a ≠ 0) :
    (polyOf φ (p ++ [a])).natDegree = p.length := by
  refine natDegree_eq_of_le_of_coeff_ne_zero (natDegree_le_iff_coeff_eq_zero.mpr fun k hk => ?_) ?_
  · rw [coeff_polyOf hφ, List.getD_eq_default _ _ (by rwa [List.length_append]), hφ.zero]
  · rw [coeff_polyOf hφ, List.getD_append_right _ _ _ _ le_rfl, Nat.sub_self, List.getD_cons_zero]
    exact mt hφ.eq_zero_iff.mp ha

/-- Trimming drops coefficients that are 0, so what is left is as long as the degree says. -/
theorem polyTrim_standsFor (p : List Byte) : polyOf φ (polyTrim p) = polyOf φ p ∧
    (polyOf φ p ≠ 0 → (polyTrim p).length = (polyOf φ p).natDegree + 1) := by
  induction p using List.reverseRecOn with
  | nil => exact ⟨rfl, fun h => absurd rfl h⟩
  | append_singleton p a ih =>
    have htrim : polyTrim (p ++ [a]) = if a = 0 then polyTrim p else p ++ [a] := by
      rw [polyTrim, List.reverse_append, List.reverse_singleton, List.singleton_append, List.dropWhile_cons]
      simp [polyTrim, apply_ite List.reverse]
    rw [htrim]
    split_ifs with ha
    · rwa [ha, polyOf_concat_zero hφ]
    · exact ⟨rfl, fun _ => by rw [natDegree_polyOf_concat hφ p ha, List.length_append, List.length_singleton]⟩

/-- In characteristic 2 the derivative keeps the coefficients of the odd powers. -/
theorem polyOf_polyDeriv [CharP F 2] (p : List Byte) : polyOf φ (polyDeriv p) = derivative (polyOf φ p) := by
  ext n
  have hterm : φ ((polyDeriv p).getD n 0) = if n % 2 = 0 then φ (p.getD (n + 1) 0) else 0 := by
    rw [polyDeriv]
    by_cases hn : n < p.length - 1
    · rw [List.getD_eq_getElem _ _ (by simpa using hn), List.getElem_map, List.getElem_range, apply_ite φ, hφ.zero]
    · rw [List.getD_eq_default _ _ (by simpa using hn), List.getD_eq_default _ _ (by omega), hφ.zero, ite_self]
  have hodd : ((n : F) + 1) = if n % 2 = 0 then 1 else 0 := by
    rw [CharTwo.natCast_eq_ite]
    simp only [Nat.even_iff]
    split_ifs
    · exact zero_add 1
    · exact CharTwo.add_self_eq_zero 1
  rw [coeff_derivative, coeff_polyOf hφ, coeff_polyOf hφ, hterm, hodd, mul_ite, mul_one, mul_zero]

/-! ## Locators -/

theorem locatorOf_ne_zero (p : Nat) : locatorOf φ p ≠ 0 := mt hφ.eq_zero_iff.mp (gfExp_ne_zero _)

theorem locatorOf_injOn : Set.InjOn (locatorOf φ) (Set.Iio 255) := by
  intro p hp q hq h
  have hexp := gfExp_injOn (Set.mem_Iio.mpr (by omega)) (Set.mem_Iio.mpr (by omega)) (hφ.injective h)
  rw [Set.mem_Iio] at hp hq
  omega

theorem locatorInv_standsFor {p : Nat} (hp : p < 255) : φ (locatorInv p) = (locatorOf φ p)⁻¹ := by
  refine eq_inv_of_mul_eq_one_right ?_
  rw [locatorOf, ← hφ.mul, locator, locatorInv, ← gfExp_add, show 254 - p + (p + 1) = 255 by omega, gfExp_255, hφ.one]

/-- The erasure locator has the factors of the erased positions' locators (R265 step 2). -/
theorem polyOf_erasureLocator [CharP F 2] {es : List Nat} (hes : es.Nodup) :
    polyOf φ (erasureLocator es) = locatorPoly (locatorOf φ) es.toFinset := by
  rw [erasureLocator_eq, polyOf_linearProduct hφ, List.map_map, locatorPoly, List.prod_toFinset _ hes]
  simp only [Function.comp_def, CharTwo.sub_eq_add, locatorOf]

end

end Sys2Proof.Machine
end

section
/-!
The places where a word and a codeword differ (spec/47 R263, R265): the syndromes are power sums of their locators, and
within the bound the algorithm of Berlekamp and Massey finds the locators of the errors.
-/

namespace Sys2Proof.Machine

open Polynomial Sys2Proof.Decoding

/-! ## The places where two words differ -/

/-- The positions outside `E` where two words differ (R263). -/
def errorPositions (es : List Nat) (r c : List Byte) : List Nat :=
  (List.range 255).filter fun p => decide (p ∉ es) && decide (c.getD p 0 ≠ r.getD p 0)

theorem length_errorPositions (es : List Nat) (r c : List Byte) :
    (errorPositions es r c).length = errorCount es r c := rfl

theorem nodup_errorPositions (es : List Nat) (r c : List Byte) : (errorPositions es r c).Nodup :=
  List.nodup_range.filter _

theorem mem_errorPositions {es : List Nat} {r c : List Byte} {p : Nat} :
    p ∈ errorPositions es r c ↔ p < 255 ∧ p ∉ es ∧ c.getD p 0 ≠ r.getD p 0 := by
  simp [errorPositions]

theorem disjoint_errorPositions (es : List Nat) (r c : List Byte) : es.Disjoint (errorPositions es r c) :=
  fun _ hes herr => (mem_errorPositions.mp herr).2.1 hes

/-- The places of all that is to be corrected: erasures and errors. -/
def places (es : List Nat) (r c : List Byte) : Finset Nat := (es ++ errorPositions es r c).toFinset

theorem getD_eq_of_notMem_places {es : List Nat} {r c : List Byte} {p : Nat} (hp : p < 255)
    (hplace : p ∉ places es r c) : c.getD p 0 = r.getD p 0 := by
  rw [places, List.mem_toFinset, List.mem_append, mem_errorPositions] at hplace
  tauto

theorem nodup_places {es : List Nat} {r c : List Byte} (hes : es.Nodup) : (es ++ errorPositions es r c).Nodup :=
  hes.append (nodup_errorPositions es r c) (disjoint_errorPositions es r c)

theorem lt_of_mem_places {es : List Nat} {r c : List Byte} (hes : ErasureList es) {p : Nat}
    (hp : p ∈ places es r c) : p < 255 := by
  rw [places, List.mem_toFinset, List.mem_append, mem_errorPositions] at hp
  exact hp.elim (hes.2 p) And.left

theorem card_places {es : List Nat} {r c : List Byte} (hes : es.Nodup) :
    (places es r c).card = es.length + errorCount es r c := by
  rw [places, List.toFinset_card_of_nodup (nodup_places hes), List.length_append, length_errorPositions]

/-- The syndromes with the erasures taken out (R265 step 3). -/
def modifiedSyndromes (nsym : Nat) (r : List Byte) (es : List Nat) : List Byte :=
  ((polyMul (syndromes nsym r) (erasureLocator es)).take nsym).drop es.length

theorem length_modifiedSyndromes (hn : 1 ≤ nsym) (r : List Byte) (es : List Nat) :
    (modifiedSyndromes nsym r es).length = nsym - es.length := by
  have hsyn : (syndromes nsym r).length = nsym := by simp [syndromes]
  have hgamma := length_erasureLocator es
  have hproduct := length_polyMul (List.ne_nil_of_length_pos (hsyn ▸ hn)) (List.ne_nil_of_length_eq_add_one hgamma)
  rw [modifiedSyndromes, List.length_drop, List.length_take]
  omega

/-- What is added to a codeword's byte to give a word's. -/
def errorAt {F : Type} (φ : Byte → F) (r c : List Byte) (p : Nat) : F := φ (r.getD p 0 ^^^ c.getD p 0)

section

variable {F : Type} [Field F] {φ : Byte → F} {nsym : Nat} {r c : List Byte} {es : List Nat}

/-- The locators of the erasures and of the errors together. -/
theorem locatorPoly_places {x : Nat → F} : locatorPoly x (places es r c) =
    locatorPoly x es.toFinset * locatorPoly x (errorPositions es r c).toFinset := by
  rw [places, List.toFinset_append, locatorPoly, Finset.prod_union, locatorPoly, locatorPoly]
  exact List.disjoint_toFinset_iff_disjoint.mpr (disjoint_errorPositions es r c)

/-- An error as the modified syndromes show it. -/
noncomputable def modifiedError (φ : Byte → F) (es : List Nat) (r c : List Byte) (p : Nat) : F :=
  errorAt φ r c p * (locatorPoly (locatorOf φ) es.toFinset).eval (locatorOf φ p)⁻¹ * locatorOf φ p ^ es.length

variable (hφ : StandsFor φ)

include hφ

theorem errorAt_eq_zero_iff {p : Nat} : errorAt φ r c p = 0 ↔ c.getD p 0 = r.getD p 0 := by
  rw [errorAt, hφ.eq_zero_iff]
  exact BitVec.xor_eq_zero_iff.trans eq_comm

theorem errorAt_ne_zero {p : Nat} (hp : p ∈ errorPositions es r c) : errorAt φ r c p ≠ 0 :=
  mt (errorAt_eq_zero_iff hφ).mp (mem_errorPositions.mp hp).2.2

theorem locatorOf_injOn_places (hes : ErasureList es) : Set.InjOn (locatorOf φ) (places es r c) :=
  (locatorOf_injOn hφ).mono fun _ hp => lt_of_mem_places hes hp

/-! ## The syndromes -/

section

variable (hes : ErasureList es) (hr : r.length = 255) (hc : IsCodeword nsym c)

include hes hr hc

/-- A syndrome is a power sum of the locators of the errors and erasures, because a codeword has none (R261, R263). -/
theorem syndrome_standsFor {i : Nat} (hi : i < nsym) :
    φ (hornerEval r (gfExp i)) = ∑ p ∈ places es r c, errorAt φ r c p * locatorOf φ p ^ i := by
  have hpow (p : Nat) : φ (gfExp i) ^ (255 - 1 - p) = locatorOf φ p ^ i := by
    rw [locatorOf, locator, hφ.exp i, hφ.exp (254 - p), ← pow_mul, ← pow_mul, mul_comm]
  have hcode : φ (hornerEval c (gfExp i)) = 0 := hφ.eq_zero_iff.mpr (hc.2 i hi)
  have hsubset : places es r c ⊆ Finset.range 255 := fun p hp => Finset.mem_range.mpr (lt_of_mem_places hes hp)
  calc φ (hornerEval r (gfExp i))
    _ = φ (hornerEval r (gfExp i)) + φ (hornerEval c (gfExp i)) := by rw [hcode, add_zero]
    _ = ∑ p ∈ Finset.range 255, errorAt φ r c p * locatorOf φ p ^ i := by
      rw [hornerEval_standsFor hφ, hornerEval_standsFor hφ, valueAt_eq_sum, valueAt_eq_sum, hr, hc.1,
        ← Finset.sum_add_distrib]
      refine Finset.sum_congr rfl fun p _ => ?_
      rw [← add_mul, ← hφ.xor, hpow, errorAt]
    _ = ∑ p ∈ places es r c, errorAt φ r c p * locatorOf φ p ^ i := by
      refine (Finset.sum_subset hsubset fun p hp hplace => ?_).symm
      have hsame := getD_eq_of_notMem_places (Finset.mem_range.mp hp) hplace
      rw [(errorAt_eq_zero_iff hφ).mpr hsame, zero_mul]

theorem coeff_syndromes {k : Nat} (hk : k < nsym) : (polyOf φ (syndromes nsym r)).coeff k =
    ∑ p ∈ places es r c, errorAt φ r c p * locatorOf φ p ^ k := by
  rw [← syndrome_standsFor hφ hes hr hc hk, coeff_polyOf hφ, syndromes, List.getD_eq_getElem _ _ (by simpa using hk),
    List.getElem_map, List.getElem_range]

theorem polyOf_syndromes : polyOf φ (syndromes nsym r) =
    ∑ i ∈ Finset.range nsym, C (∑ p ∈ places es r c, errorAt φ r c p * locatorOf φ p ^ i) * X ^ i := by
  ext k
  rw [finsetSum_coeff]
  simp only [coeff_C_mul_X_pow, Finset.sum_ite_eq, Finset.mem_range]
  split_ifs with hk
  · exact coeff_syndromes hφ hes hr hc hk
  · rw [coeff_polyOf hφ, List.getD_eq_default _ _ (by simpa [syndromes] using hk), hφ.zero]

/-- A word without syndromes is the codeword itself: there are not enough places for another one (Vandermonde). -/
theorem eq_of_syndromes_zero (hbound : es.length + errorCount es r c ≤ nsym)
    (hzero : ∀ i < nsym, hornerEval r (gfExp i) = 0) : r = c := by
  have hsums : ∀ i < (places es r c).card, ∑ p ∈ places es r c, errorAt φ r c p * locatorOf φ p ^ i = 0 := by
    intro i hi
    rw [card_places hes.1] at hi
    rw [← syndrome_standsFor hφ hes hr hc (by omega), hzero i (by omega), hφ.zero]
  have hsame := weights_eq_zero (locatorOf_injOn_places hφ hes) hsums
  refine List.ext_getElem (hr.trans hc.1.symm) fun p hp hp' => ?_
  rw [← List.getD_eq_getElem _ 0 hp, ← List.getD_eq_getElem _ 0 hp']
  by_cases hplace : p ∈ places es r c
  · exact ((errorAt_eq_zero_iff hφ).mp (hsame p hplace)).symm
  · exact (getD_eq_of_notMem_places (hr ▸ hp) hplace).symm

end

/-! ## The recurrence of the modified syndromes -/

theorem modifiedError_ne_zero (hes : ErasureList es) {p : Nat} (hp : p ∈ errorPositions es r c) :
    modifiedError φ es r c p ≠ 0 := by
  refine mul_ne_zero (mul_ne_zero (errorAt_ne_zero hφ hp) fun h => ?_) (pow_ne_zero _ (locatorOf_ne_zero hφ p))
  obtain ⟨q, hq, hqp⟩ := (eval_locatorPoly_eq_zero_iff (locatorOf_ne_zero hφ p)).mp h
  have hq' : q ∈ es := List.mem_toFinset.mp hq
  obtain ⟨hlt, hnot, _⟩ := mem_errorPositions.mp hp
  rw [locatorOf_injOn hφ (hes.2 q hq') hlt hqp] at hq'
  exact hnot hq'

section

variable [CharP F 2] (hes : ErasureList es) (hr : r.length = 255) (hc : IsCodeword nsym c)

include hes hr hc

/-- The modified syndromes are power sums of the locators of the errors alone (R265 step 3). -/
theorem coeff_modifiedSyndromes {k : Nat} (hk : k < nsym - es.length) :
    (polyOf φ (modifiedSyndromes nsym r es)).coeff k =
      ∑ p ∈ (errorPositions es r c).toFinset, modifiedError φ es r c p * locatorOf φ p ^ k := by
  have hx : ∀ p, locatorOf φ p ≠ 0 := locatorOf_ne_zero hφ
  have hcard : es.toFinset.card = es.length := List.toFinset_card_of_nodup hes.1
  have hdegree : (locatorPoly (locatorOf φ) es.toFinset).natDegree ≤ es.length + k := by
    rw [natDegree_locatorPoly fun p _ => hx p]
    omega
  rw [modifiedSyndromes, coeff_polyOf_drop hφ, coeff_polyOf_take hφ, if_pos (by omega), polyOf_polyMul hφ,
    polyOf_erasureLocator hφ hes.1, mul_comm,
    coeff_mul_powerSums (fun p _ => hx p) (fun i hi => coeff_syndromes hφ hes hr hc (by omega)) hdegree,
    places, List.toFinset_append,
    Finset.sum_union (List.disjoint_toFinset_iff_disjoint.mpr (disjoint_errorPositions es r c)),
    Finset.sum_eq_zero fun p hp => ?erased, zero_add]
  · refine Finset.sum_congr rfl fun p _ => ?_
    rw [modifiedError, pow_add, mul_assoc _ _ (_ ^ k)]
  case erased => rw [eval_locatorPoly_of_mem hp (hx p), mul_zero, zero_mul]

/-- Within the bound the algorithm of Berlekamp and Massey finds the locators of the errors (R265 step 4). -/
theorem berlekampMassey_locators (hn : 1 ≤ nsym) (hbound : 2 * errorCount es r c + es.length ≤ nsym) :
    polyOf φ (berlekampMassey (modifiedSyndromes nsym r es)).c =
        locatorPoly (locatorOf φ) (errorPositions es r c).toFinset ∧
      (berlekampMassey (modifiedSyndromes nsym r es)).len = errorCount es r c := by
  have hx : ∀ p ∈ (errorPositions es r c).toFinset, locatorOf φ p ≠ 0 := fun p _ => locatorOf_ne_zero hφ p
  have hlen := length_modifiedSyndromes hn r es
  have hcard : (errorPositions es r c).toFinset.card = errorCount es r c :=
    List.toFinset_card_of_nodup (nodup_errorPositions es r c)
  have hsums := fun k hk => coeff_modifiedSyndromes hφ hes hr hc (k := k) hk
  have hlocators : Recurrence (polyOf φ (modifiedSyndromes nsym r es))
      (locatorPoly (locatorOf φ) (errorPositions es r c).toFinset) (errorCount es r c)
      (modifiedSyndromes nsym r es).length :=
    ⟨coeff_zero_locatorPoly, ((natDegree_locatorPoly hx).trans hcard).le, fun j hj hlt =>
      coeff_locatorPoly_mul hx hsums (hcard ▸ hj) (hlen ▸ hlt)⟩
  obtain ⟨hfound, hshort⟩ := berlekampMassey_recurrence hφ hlocators
  have hinj : Set.InjOn (locatorOf φ) (errorPositions es r c).toFinset :=
    (locatorOf_injOn hφ).mono fun p hp => (mem_errorPositions.mp (List.mem_toFinset.mp hp)).1
  have hsame := eq_locatorPoly_of_recurrence hx hsums hinj
    (fun p hp => modifiedError_ne_zero hφ hes (List.mem_toFinset.mp hp)) (by omega)
    (hfound.degree.trans (hshort.trans hcard.ge)) hfound.one
    (fun j hj hlt => hfound.vanishes j (by omega) (by omega))
  refine ⟨hsame, hshort.antisymm ?_⟩
  rw [← hcard, ← natDegree_locatorPoly hx, ← hsame]
  exact hfound.degree

end

end

end Sys2Proof.Machine
end

section
/-!
The decoder finds the codeword within the bound wherever there is one (spec/47 R263, R265): the search finds the errors'
positions, and the key equation gives the value at every place that is to be corrected.
-/

namespace Sys2Proof.Machine

open Polynomial Sys2Proof.Decoding

/-! ## Correcting the places -/

/-- What step 7 of R265 adds at a position. -/
def magnitude (psi omega : List Byte) (p : Nat) : Byte :=
  gfMul (locator p) (gfMul (polyEval omega (locatorInv p)) (gfInv (polyEval (polyDeriv psi) (locatorInv p))))

/-- Where every magnitude is the difference of the words, the correction leads from one word to the other. -/
theorem forneyCorrect_eq {psi omega r c : List Byte} {ps : List Nat} (hnodup : ps.Nodup)
    (hlt : ∀ p ∈ ps, p < c.length) (hden : ∀ p ∈ ps, polyEval (polyDeriv psi) (locatorInv p) ≠ 0)
    (hmagnitude : ∀ p ∈ ps, magnitude psi omega p = r.getD p 0 ^^^ c.getD p 0) :
    ∀ w : List Byte, w.length = c.length → (∀ p ∈ ps, w.getD p 0 = r.getD p 0) →
      (∀ p < c.length, p ∉ ps → w.getD p 0 = c.getD p 0) → forneyCorrect psi omega ps w = some c := by
  induction ps with
  | nil =>
    intro w hlen _ hsame
    refine congrArg some (List.ext_getElem hlen fun p hp hp' => ?_)
    rw [← List.getD_eq_getElem _ 0 hp, ← List.getD_eq_getElem _ 0 hp', hsame p hp' List.not_mem_nil]
  | cons p ps ih =>
    intro w hlen hwrong hsame
    obtain ⟨hp, hnodup⟩ := List.nodup_cons.mp hnodup
    rw [List.forall_mem_cons] at hlt hden hmagnitude hwrong
    have hset : w.getD p 0 ^^^ magnitude psi omega p = c.getD p 0 := by
      rw [hwrong.1, hmagnitude.1, ← BitVec.xor_assoc, BitVec.xor_self]
      exact BitVec.zero_xor
    have hplen : p < w.length := hlen ▸ hlt.1
    have hcorrected (q : Nat) : (w.set p (c.getD p 0)).getD q 0 = if p = q then c.getD p 0 else w.getD q 0 := by
      simp only [List.getD_eq_getElem?_getD, List.getElem?_set, hplen, if_true]
      split_ifs <;> rfl
    have hstep : forneyCorrect psi omega (p :: ps) w = forneyCorrect psi omega ps (w.set p (c.getD p 0)) := by
      rw [← hset]
      exact if_neg hden.1
    rw [hstep]
    refine ih hnodup hlt.2 hden.2 hmagnitude.2 _ (by rw [List.length_set, hlen]) (fun q hq => ?_) fun q hq hqs => ?_
    · rw [hcorrected, if_neg (by rintro rfl; exact hp hq), hwrong.2 q hq]
    · rw [hcorrected]
      split_ifs with hpq
      · rw [hpq]
      · exact hsame q hq (by simp [hqs, Ne.symm hpq])

/-- The errors' locators as the decoder finds them (R265 step 4). -/
def errorLocator (nsym : Nat) (r : List Byte) (es : List Nat) : List Byte :=
  polyTrim (berlekampMassey (modifiedSyndromes nsym r es)).c

/-- The checks of R265 in order: where each finds what belongs to `c`, the algorithm answers `c`. -/
theorem rsCorrect_of_found {nsym : Nat} {r c : List Byte} {es : List Nat}
    (hlen : (berlekampMassey (modifiedSyndromes nsym r es)).len = errorCount es r c)
    (hlength : (errorLocator nsym r es).length = errorCount es r c + 1)
    (hsearch : chienSearch (errorLocator nsym r es) = errorPositions es r c)
    (hbound : 2 * errorCount es r c + es.length ≤ nsym)
    (hforney : forneyCorrect (polyMul (errorLocator nsym r es) (erasureLocator es))
      ((polyMul (syndromes nsym r) (polyMul (errorLocator nsym r es) (erasureLocator es))).take nsym)
      (es ++ errorPositions es r c) r = some c)
    (hwithin : withinBound nsym es r c = true) : rsCorrect nsym r es = some c := by
  have hdisjoint : ¬ (errorPositions es r c).any (· ∈ es) = true := by
    simpa using fun p herr hes => disjoint_errorPositions es r c hes herr
  rw [errorLocator, modifiedSyndromes] at *
  simp only [rsCorrect]
  rw [hlength, hlen, hsearch, hforney, length_errorPositions, if_neg (by omega), if_neg (by omega),
    if_neg (not_not.mpr rfl), if_neg hdisjoint]
  exact if_pos hwithin

section

variable {F : Type} [Field F] {φ : Byte → F} (hφ : StandsFor φ) {nsym : Nat} {r c : List Byte} {es : List Nat}

include hφ

/-- The search for the roots of the errors' locators finds the positions of the errors (R265 step 5). -/
theorem chienSearch_eq {lam : List Byte}
    (hlam : polyOf φ lam = locatorPoly (locatorOf φ) (errorPositions es r c).toFinset) :
    chienSearch lam = errorPositions es r c := by
  refine List.filter_congr fun p hp => ?_
  rw [List.mem_range] at hp
  have hroot : polyEval lam (locatorInv p) = 0 ↔ p ∈ errorPositions es r c := by
    rw [← hφ.eq_zero_iff, polyEval_standsFor hφ, locatorInv_standsFor hφ hp, hlam,
      eval_locatorPoly_eq_zero_iff (locatorOf_ne_zero hφ p)]
    constructor
    · rintro ⟨q, hq, hqp⟩
      have hq' := List.mem_toFinset.mp hq
      rwa [locatorOf_injOn hφ (mem_errorPositions.mp hq').1 hp hqp] at hq'
    · exact fun h => ⟨p, List.mem_toFinset.mpr h, rfl⟩
  rw [Bool.eq_iff_iff, decide_eq_true_iff, hroot, mem_errorPositions]
  simp [hp]

theorem polyDeriv_standsFor [CharP F 2] {psi : List Byte} {p : Nat} (hp : p < 255) :
    φ (polyEval (polyDeriv psi) (locatorInv p)) = (derivative (polyOf φ psi)).eval (locatorOf φ p)⁻¹ := by
  rw [polyEval_standsFor hφ, polyOf_polyDeriv hφ, locatorInv_standsFor hφ hp]

section

variable (hes : ErasureList es) {psi : List Byte} (hpsi : polyOf φ psi = locatorPoly (locatorOf φ) (places es r c))

include hes hpsi

/-- The evaluator is that of the errors and erasures (R265 step 6). -/
theorem polyOf_evaluator (hr : r.length = 255) (hc : IsCodeword nsym c)
    (hbound : es.length + errorCount es r c ≤ nsym) :
    polyOf φ ((polyMul (syndromes nsym r) psi).take nsym) =
      evaluatorPoly (locatorOf φ) (errorAt φ r c) (places es r c) := by
  ext k
  rw [coeff_polyOf_take hφ]
  split_ifs with hk
  · rw [polyOf_polyMul hφ, hpsi, coeff_mul_locatorPoly (polyOf_syndromes hφ hes hr hc) hk]
  · rw [coeff_evaluatorPoly_eq_zero (fun p _ => locatorOf_ne_zero hφ p) (card_places hes.1 ▸ hbound) (not_lt.mp hk)]

variable {p : Nat} (hp : p ∈ places es r c)

include hp

/-- The derivative has no root at a place that is to be corrected: the locators are different. -/
theorem eval_derivative_ne_zero : (derivative (polyOf φ psi)).eval (locatorOf φ p)⁻¹ ≠ 0 := by
  rw [hpsi, eval_derivative_locatorPoly hp (locatorOf_ne_zero hφ p)]
  refine mul_ne_zero (neg_ne_zero.mpr (locatorOf_ne_zero hφ p)) fun h => ?_
  obtain ⟨q, hq, hqp⟩ := (eval_locatorPoly_eq_zero_iff (locatorOf_ne_zero hφ p)).mp h
  obtain ⟨hne, hq⟩ := Finset.mem_erase.mp hq
  exact hne (locatorOf_injOn_places hφ hes hq hp hqp)

variable [CharP F 2]

theorem polyDeriv_ne_zero : polyEval (polyDeriv psi) (locatorInv p) ≠ 0 := by
  rw [← hφ.eq_zero_iff.ne, polyDeriv_standsFor hφ (lt_of_mem_places hes hp)]
  exact eval_derivative_ne_zero hφ hes hpsi hp

/-- The magnitude of R265 step 7 is what was added to the codeword (Forney). -/
theorem magnitude_eq {omega : List Byte}
    (homega : polyOf φ omega = evaluatorPoly (locatorOf φ) (errorAt φ r c) (places es r c)) :
    magnitude psi omega p = r.getD p 0 ^^^ c.getD p 0 := by
  have hx := locatorOf_ne_zero hφ p
  have hlt := lt_of_mem_places hes hp
  have hderiv := eval_derivative_ne_zero hφ hes hpsi hp
  refine hφ.injective ?_
  rw [magnitude, hφ.mul, hφ.mul, hφ.inv (polyDeriv_ne_zero hφ hes hpsi hp), polyDeriv_standsFor hφ hlt,
    polyEval_standsFor hφ, homega, locatorInv_standsFor hφ hlt, eval_evaluatorPoly hp hx]
  rw [hpsi, eval_derivative_locatorPoly hp hx, CharTwo.neg_eq] at hderiv ⊢
  have hcancel (e : F) (he : e ≠ 0) :
      locatorOf φ p * (errorAt φ r c p * e * (locatorOf φ p * e)⁻¹) = errorAt φ r c p := by
    field_simp
  exact hcancel _ (right_ne_zero_of_mul hderiv)

end

/-! ## The decoder -/

variable [CharP F 2] (hes : ErasureList es) (hr : r.length = 255) (hc : IsCodeword nsym c) (hn : 1 ≤ nsym)
  (hbound : 2 * errorCount es r c + es.length ≤ nsym)

include hes hr hc hn hbound

/-- The trimmed result of Berlekamp-Massey is the locators' polynomial of the errors, with one coefficient more than
there are errors. -/
theorem errorLocator_standsFor :
    polyOf φ (errorLocator nsym r es) = locatorPoly (locatorOf φ) (errorPositions es r c).toFinset ∧
      (errorLocator nsym r es).length = errorCount es r c + 1 := by
  obtain ⟨hfound, _⟩ := berlekampMassey_locators hφ hes hr hc hn hbound
  obtain ⟨htrim, hlength⟩ := polyTrim_standsFor hφ (berlekampMassey (modifiedSyndromes nsym r es)).c
  have hne : polyOf φ (berlekampMassey (modifiedSyndromes nsym r es)).c ≠ 0 := fun h => by
    simpa [hfound ▸ h] using coeff_zero_locatorPoly (x := locatorOf φ) (A := (errorPositions es r c).toFinset)
  refine ⟨htrim.trans hfound, (hlength hne).trans ?_⟩
  rw [hfound, natDegree_locatorPoly fun p _ => locatorOf_ne_zero hφ p,
    List.toFinset_card_of_nodup (nodup_errorPositions es r c), length_errorPositions]

/-- With the right locators the correction leads to the codeword (R265 steps 6 and 7). -/
theorem forneyCorrect_codeword : forneyCorrect (polyMul (errorLocator nsym r es) (erasureLocator es))
    ((polyMul (syndromes nsym r) (polyMul (errorLocator nsym r es) (erasureLocator es))).take nsym)
    (es ++ errorPositions es r c) r = some c := by
  obtain ⟨hlam, _⟩ := errorLocator_standsFor hφ hes hr hc hn hbound
  have hpsi : polyOf φ (polyMul (errorLocator nsym r es) (erasureLocator es)) =
      locatorPoly (locatorOf φ) (places es r c) := by
    rw [polyOf_polyMul hφ, hlam, polyOf_erasureLocator hφ hes.1, mul_comm, ← locatorPoly_places]
  have homega := polyOf_evaluator hφ hes hpsi hr hc (by omega)
  have hplace : ∀ p ∈ es ++ errorPositions es r c, p ∈ places es r c := fun _ => List.mem_toFinset.mpr
  refine forneyCorrect_eq (nodup_places hes.1) (fun p hp => hc.1 ▸ lt_of_mem_places hes (hplace p hp))
    (fun p hp => polyDeriv_ne_zero hφ hes hpsi (hplace p hp))
    (fun p hp => magnitude_eq hφ hes hpsi (hplace p hp) homega) r (hr.trans hc.1.symm) (fun _ _ => rfl) ?_
  exact fun p hp hout => (getD_eq_of_notMem_places (hc.1 ▸ hp) (mt List.mem_toFinset.mp hout)).symm

/-- Steps 2 to 8 of R265 find the codeword. -/
theorem rsCorrect_eq : rsCorrect nsym r es = some c := by
  obtain ⟨_, hlen⟩ := berlekampMassey_locators hφ hes hr hc hn hbound
  obtain ⟨hlam, hlength⟩ := errorLocator_standsFor hφ hes hr hc hn hbound
  exact rsCorrect_of_found hlen hlength (chienSearch_eq hφ hlam) hbound
    (forneyCorrect_codeword hφ hes hr hc hn hbound) ((withinBound_iff hr hc.1).mpr ⟨hc, hbound⟩)

/-- A codeword within the bound is what the decoder answers (R263). -/
theorem rsDecode_eq : rsDecode nsym r es = some c := by
  rw [rsDecode, if_neg (by omega)]
  split_ifs with hzero
  · exact congrArg some (eq_of_syndromes_zero hφ hes hr hc (by omega) (syndromes_all_zero_iff.mp hzero))
  · exact rsCorrect_eq hφ hes hr hc hn hbound

end

/-- Settles O49: the word differs from the codeword at places whose locators are the roots of the recurrence that
Berlekamp-Massey finds, and the key equation gives each difference. -/
theorem rsdDecMissesNoCodeword : Obligations.RsdDecMissesNoCodeword := by
  unfold Obligations.RsdDecMissesNoCodeword
  intro s ne r c es hm hn _ hr hne hes hops hc hbound
  obtain ⟨F, _, _, φ, hφ⟩ := exists_standsFor
  exact exec_rsdDec_corrects hm hr hne hes hops (rsDecode_eq hφ hes hr hc hn hbound)

end Sys2Proof.Machine
end
